-- ==== Sys2Proof/Word.lean ====
section
/-!
DEFINITION. The word types of the block (spec/00_scope.md rules R9 and R10): the widths the spec states for
addresses, register values, times, counters and bytes. Only names for widths stand here; every helper that takes a
word apart or puts one together is in Decode.lean or under Machine/.
-/

namespace Sys2Proof

/-- A byte: the unit of the wire frames, of the records and of the operation words. -/
abbrev Byte := BitVec 8

/-- A 16-bit register value, the unit of RegisterBus access (rule R100). -/
abbrev U16 := BitVec 16

/-- A 32-bit address or register value (rules R9, R100, R112). -/
abbrev U32 := BitVec 32

/-- NCO seconds, NCO counter, nominal step (rule R9). -/
abbrev U48 := BitVec 48

/-- Seconds of a user-facing time or event record (rules R9, R150, R152). -/
abbrev U64 := BitVec 64

/-- An MDIO PHY address or register number: 5 bits (rule R102). -/
abbrev U5 := BitVec 5

end Sys2Proof
end

