-- ==== Sys2Proof/Syntax.lean ====
section
/-!
DEFINITION. The operations of the block as syntax (spec/30_encoding.md rules R140 to R142): one constructor of
`Instr` for each row of the operation-word table of rule R141, with the typed operands that the operation's own
rule gives it, and the small enumerations those operands use (rules R151, R155, R160). An operation that the spec
writes "on the instance the caller holds" or "on the device" carries the instance or device as its first operand
(log entry 1).
-/

namespace Sys2Proof

/-- How an operation names a RegisterBus instance: the instance itself, as the backend that created it and the
devices with a memory-mapped base do, or a handle that `lookup` returned (rules R218, R219, R311). -/
inductive BusRef where
  | inst (i : Nat)
  | handle (h : Nat)
deriving DecidableEq, Repr, Inhabited

/-- A resource descriptor: a RegisterBus and the base address of a register block in it (rules R101, R311). -/
structure Resource where
  bus : BusRef
  base : U32
deriving DecidableEq, Repr, Inhabited

/-- The three NCO commands (rules R50, R302). -/
inductive Cmd where
  | read
  | adjClock
  | adjStep
deriving DecidableEq, Repr, Inhabited

/-- Link modes (rules R160, R401); "half-duplex is never produced". -/
inductive LinkMode where
  | down
  | full10
  | full100
  | full1000
deriving DecidableEq, Repr, Inhabited

/-- Delivery modes of the timestamper (rules R57, R155). -/
inductive DMode where
  | interrupt
  | poll
  | direct
deriving DecidableEq, Repr, Inhabited

/-- A nominal step as a source of rule R311 offers it: nanoseconds, not yet checked against 0..63, and
sub-nanoseconds. -/
structure StepReq where
  nsec : U32
  sub : U32
deriving DecidableEq, Repr, Inhabited

/-- A mask operand of `best_adapter_link_mode`: a mask as it is, or a port, for the mask it has there: its supported
modes as the adapter's mask, the modes of its SFP type as the SFP's (rule R413; that the operand can be either is log
entry 1). -/
inductive MaskArg where
  | mask (m : U16)
  | port (p : Nat)
deriving DecidableEq, Repr, Inhabited

/-- The operations, one constructor per row of the table of rule R141, in the table's order. -/
inductive Instr where
  -- family 0x0: RegisterBus caller operations
  | read16 (b : BusRef) (addr : U32)
  | write16 (b : BusRef) (addr : U32) (value : U16)
  | read32 (b : BusRef) (addr : U32)
  | write32 (b : BusRef) (addr : U32) (value : U32)
  | reset (b : BusRef)
  | lookup (t : Nat)
  | release (h : Nat)
  -- family 0x1: RegisterBus backend operations
  | mmioRead16 (b : BusRef) (addr : U32)
  | mmioWrite16 (b : BusRef) (addr : U32) (value : U16)
  | nativeRead32 (b : BusRef) (addr : U32)
  | nativeWrite32 (b : BusRef) (addr : U32) (value : U32)
  | i2cRead16 (b : BusRef) (addr : U32)
  | i2cWrite16 (b : BusRef) (addr : U32) (value : U16)
  | slaveRead16 (b : BusRef) (addr : U32)
  | slaveWrite16 (b : BusRef) (addr : U32) (value : U16)
  | bridgeRead16 (b : BusRef) (addr : U32)
  | bridgeWrite16 (b : BusRef) (addr : U32) (value : U16)
  -- family 0x2: NCO caller operations
  | readTime (d : Nat)
  | adjustTime (d : Nat) (sign : U32) (sec : U64) (nsec : U32)
  | adjustFrequency (d : Nat) (ppb : U32)
  | initRegisters (d : Nat)
  | ncoProbe (d : Nat) (res : Option Resource) (param prop : Option StepReq)
  | cmdPoll (d : Nat) (c : Cmd)
  -- family 0x3: NCO hardware steps
  | ncoTick (d : Nat)
  | ncoCmdComplete (d : Nat) (c : Cmd)
  -- family 0x4: adapter operations
  | adpDetect (p : Nat)
  | adpSetup (p : Nat) (desired : LinkMode) (forced : Bool)
  | checkLink (p : Nat)
  | initAdapter (p : Nat)
  | bestAdapterLinkMode (adapterMask sfpMask : MaskArg)
  | adpProbe (p : Nat) (res : Option Resource)
  -- family 0x5: timestamper caller and driver operations
  | tsOpen (d : Nat)
  | tsClose (d h : Nat)
  | tsRead (d h : Nat) (bufferLen : U32) (nonblock : Bool)
  | changeSettings (d : Nat) (mode : U32) (piSec : U64) (piNsec : U32)
  | eventCheck (d : Nat)
  | enableMode (d : Nat) (m : DMode)
  | disableMode (d : Nat) (m : DMode)
  | tsProbe (d : Nat) (res : Option Resource) (irqLine : Bool)
  -- family 0x6: timestamper agent steps and host events
  | tsPulse (d : Nat)
  | tsIrq (d : Nat)
  | workerRun (d : Nat)
  | pollFire (d : Nat)
  | hostSignal (c : Nat)
  | hostTick
deriving DecidableEq, Repr, Inhabited

end Sys2Proof
end

