-- ==== Sys2Proof/Config.lean ====
section
/-!
DEFINITION. What an implementation fixes: the parameters `P_*` of spec/00_scope.md rule R8, gathered as plain
data in `Board` (one machine's values; `State` carries it, so that every statement about every state holds for every
value of every parameter), the configuration functions the spec leaves open, and the free values. A parameter whose
value column says OPEN has NO value here: `Config.board` takes it from an opaque constant (log entry 6).
-/

namespace Sys2Proof

/-! ### Enumerations of the spec that are not operands -/

/-- Backends of a RegisterBus instance (rules R8, R42). -/
inductive Backend where
  | mmio
  | i2c
  | mdioSlave
  | mdioBridge
deriving DecidableEq, Repr, Inhabited

/-- Adapter variants (rules R52, R161). -/
inductive Variant where
  | none
  | alteraTse
  | sgmiiOr1000BaseX
  | sgmiiOr1000BaseXOr100BaseFX
  | only1000BaseX
  | only100BaseFX
  | mii
  | rmii
  | rgmii
deriving DecidableEq, Repr, Inhabited

/-- SFP types (rules R52, R162). -/
inductive SfpType where
  | none
  | copperSgmii
  | fiber1000BaseX
  | fiber100BaseFX
deriving DecidableEq, Repr, Inhabited

/-- PCS modes (rules R52, R162). -/
inductive PcsMode where
  | none
  | sgmii
  | x1000
  | fx100
deriving DecidableEq, Repr, Inhabited

/-- A byte order (`P_MMIO_ENDIAN`, `P_HOST_ENDIAN`). -/
inductive Endian where
  | little
  | big
deriving DecidableEq, Repr, Inhabited

/-- The order of the data and address writes of an MDIO write (`P_MDIO_WRITE_ORDER`, `P_BRIDGE_WRITE_ORDER`). -/
inductive WriteOrder where
  | dataFirst
  | addrFirst
deriving DecidableEq, Repr, Inhabited

/-- The comparison of the `init_registers` sanity check (`P_NCO_INIT_CHECK`, rule R309). -/
inductive InitCheck where
  | lexGt
  | secGt
deriving DecidableEq, Repr, Inhabited

/-- What event-check does when the ring is full and not drained (`P_TS_FULL_POLICY`, rule R509). -/
inductive FullPolicy where
  | readAndDrop
  | skip
deriving DecidableEq, Repr, Inhabited

/-- Which function a configuration function of the spec is: the reference function the spec gives for its test
vectors only, or the platform's, of which nothing is known but what the spec assumes (rules R310, R411). -/
inductive FunctionChoice where
  | reference
  | platform
deriving DecidableEq, Repr, Inhabited

/-! ### Registers of the three blocks -/

/-- NCO registers (rule R50), and the sub-nanosecond register that a sixth read of `read_time` would reach
(`P_NCO_READ_SUBNSEC`, rule R305). -/
inductive NcoReg where
  | cmd
  | stepNsec
  | stepSubnsec
  | cntLo
  | cntHi
  | secLo
  | secHi
  | nsec
  | adjSecHi
  | adjSecLo
  | adjNsec
  | subnsec
deriving DecidableEq, Repr, Inhabited

/-- The registers a read reaches, in the order of rule R50's table, then that of the sixth read. DESIGN CHOICE (log entry
10): it has its address on every platform, also where `P_NCO_READ_SUBNSEC` is the constant 0 and no operation reads it. -/
def NcoReg.readable : List NcoReg := [.cmd, .cntLo, .cntHi, .secLo, .secHi, .nsec, .subnsec]

/-- The registers a write reaches. -/
def NcoReg.writable : List NcoReg := [.cmd, .stepNsec, .stepSubnsec, .adjSecHi, .adjSecLo, .adjNsec]

/-- Timestamper registers (rule R61). -/
inductive TsReg where
  | status
  | secLo
  | secHi
  | nsec
  | counter
  | ack
  | arm
  | irqEn
deriving DecidableEq, Repr, Inhabited

def TsReg.readable : List TsReg := [.status, .secLo, .secHi, .nsec, .counter]

def TsReg.writable : List TsReg := [.ack, .arm, .irqEn]

/-- Adapter registers that the spec gives a use when read (rule R56). -/
inductive AdpReg where
  | id
  | status
  | pcsStatus
deriving DecidableEq, Repr, Inhabited

def AdpReg.readable : List AdpReg := [.id, .status, .pcsStatus]

/-- NCO register offsets `P_NCO_REG_*`. -/
structure NcoMap where
  cmd : U32
  stepNsec : U32
  stepSubnsec : U32
  cntLo : U32
  cntHi : U32
  secLo : U32
  secHi : U32
  nsec : U32
  adjSecHi : U32
  adjSecLo : U32
  adjNsec : U32
  subnsec : U32
deriving DecidableEq, Repr, Inhabited

def NcoMap.off (m : NcoMap) : NcoReg → U32
  | .cmd => m.cmd
  | .stepNsec => m.stepNsec
  | .stepSubnsec => m.stepSubnsec
  | .cntLo => m.cntLo
  | .cntHi => m.cntHi
  | .secLo => m.secLo
  | .secHi => m.secHi
  | .nsec => m.nsec
  | .adjSecHi => m.adjSecHi
  | .adjSecLo => m.adjSecLo
  | .adjNsec => m.adjNsec
  | .subnsec => m.subnsec

/-- Timestamper register offsets `P_TS_REG_*`. -/
structure TsMap where
  status : U32
  secLo : U32
  secHi : U32
  nsec : U32
  counter : U32
  ack : U32
  arm : U32
  irqEn : U32
deriving DecidableEq, Repr, Inhabited

def TsMap.off (m : TsMap) : TsReg → U32
  | .status => m.status
  | .secLo => m.secLo
  | .secHi => m.secHi
  | .nsec => m.nsec
  | .counter => m.counter
  | .ack => m.ack
  | .arm => m.arm
  | .irqEn => m.irqEn

/-- Adapter register offsets `P_ADP_REG_*`; the status registers are per variant (rule R56). -/
structure AdpMap where
  id : U32
  statusTse : U32
  statusSgmii : U32
  statusSgmiiFx : U32
  statusX1000 : U32
  statusFx100 : U32
  statusRgmii : U32
  pcsSgmii : U32
  pcsSgmiiFx : U32
deriving DecidableEq, Repr, Inhabited

/-- The offset of an adapter register for a variant; none where rule R56 gives the variant no such register. -/
def AdpMap.off (m : AdpMap) : AdpReg → Variant → Option U32
  | .id, _ => some m.id
  | .status, .alteraTse => some m.statusTse
  | .status, .sgmiiOr1000BaseX => some m.statusSgmii
  | .status, .sgmiiOr1000BaseXOr100BaseFX => some m.statusSgmiiFx
  | .status, .only1000BaseX => some m.statusX1000
  | .status, .only100BaseFX => some m.statusFx100
  | .status, .rgmii => some m.statusRgmii
  | .status, .none => none
  | .status, .mii => none
  | .status, .rmii => none
  | .pcsStatus, .sgmiiOr1000BaseX => some m.pcsSgmii
  | .pcsStatus, .sgmiiOr1000BaseXOr100BaseFX => some m.pcsSgmiiFx
  | .pcsStatus, .none => none
  | .pcsStatus, .alteraTse => none
  | .pcsStatus, .only1000BaseX => none
  | .pcsStatus, .only100BaseFX => none
  | .pcsStatus, .mii => none
  | .pcsStatus, .rmii => none
  | .pcsStatus, .rgmii => none

/-- The 2-bit speed code's link modes (`P_ADP_SPEED_MAP`, rule R163). -/
structure SpeedMap where
  c0 : LinkMode
  c1 : LinkMode
  c2 : LinkMode
  c3 : LinkMode
deriving DecidableEq, Repr, Inhabited

/-- One entry of `P_ADP_SETUP`: the 16-bit writes of `setup` for a variant, a PCS mode, the autonegotiation choice
and the desired link mode (rule R408). -/
structure SetupRow where
  variant : Variant
  pcs : PcsMode
  an : Bool
  desired : LinkMode
  writes : List (U32 × U16)
deriving DecidableEq, Repr, Inhabited

/-- What the optional RegisterBus `reset` does to a far end that keeps what is written (`P_RESET_EFFECT`, rule R217):
nothing, makes its contents unknown, or loads given contents (log entries 11 and 24). -/
inductive ResetEffect where
  | keep
  | forget
  | load (cells : List (U32 × U16))
deriving DecidableEq, Repr, Inhabited

/-- The backend configuration of a RegisterBus instance, fixed at creation (rule R43). An instance holds all of it
and uses its own backend's part. -/
structure RbCfg where
  mmioBase : Nat            -- P_MMIO_BASE, of no given width (log entry 6)
  mmioEndian : Endian       -- P_MMIO_ENDIAN
  i2cSlave : BitVec 7       -- P_I2C_SLAVE
  phy : U5                  -- P_MDIO_SLAVE_PHY
  regAA1 : U5               -- P_MDIO_REG_AA1
  regAA0 : U5               -- P_MDIO_REG_AA0
  regAD : U5                -- P_MDIO_REG_AD
  mdioOrder : WriteOrder    -- P_MDIO_WRITE_ORDER
  bridgeLess1 : Fin 16      -- P_BRIDGE_ADDR_BITS less one
  regBAA : U5               -- P_MDIO_REG_BAA
  regBAD : U5               -- P_MDIO_REG_BAD
  bridgeOrder : WriteOrder  -- P_BRIDGE_WRITE_ORDER
  resetEffect : ResetEffect -- P_RESET_EFFECT
deriving DecidableEq, Repr, Inhabited

/-- `P_BRIDGE_ADDR_BITS`, 1 to 16 (rules R8, R214). -/
def RbCfg.bridgeBits (c : RbCfg) : Nat := c.bridgeLess1.val + 1

/-- Where a field stands in a record: the offset of its first byte and how many bytes it has. -/
structure Field where
  off : Nat
  size : Nat
deriving DecidableEq, Repr, Inhabited

/-- The byte layout of the settings, clock-adjust and frequency-adjust requests (`P_SETTINGS_LAYOUT`, rules R151,
R153 and R154). -/
structure SettingsLayout where
  mode : Field
  pollSec : Field
  pollNsec : Field
  adjSign : Field
  adjSec : Field
  adjNsec : Field
  freqAdjust : Field
deriving DecidableEq, Repr, Inhabited

/-- The layout of the `read_time` result: where its time record begins, its `counter`, and the seconds and nanoseconds
of its `source_time` (`P_READ_RESULT_LAYOUT`, rule R152). -/
structure ReadResultLayout where
  time : Nat
  counter : Field
  srcSec : Field
  srcNsec : Field
deriving DecidableEq, Repr, Inhabited

/-- The parameters that belong to no one RegisterBus instance. -/
structure Board where
  ncoMap : NcoMap
  cmdRead : U32              -- P_NCO_CMD_READ
  cmdAdjClock : U32          -- P_NCO_CMD_ADJ_CLOCK
  cmdAdjStep : U32           -- P_NCO_CMD_ADJ_STEP
  adjReplacesStep : Bool     -- P_NCO_ADJ_REPLACES_STEP
  initCheck : InitCheck      -- P_NCO_INIT_CHECK
  readSubnsec : Bool         -- P_NCO_READ_SUBNSEC: a sixth read, or the constant 0
  ppb : FunctionChoice       -- P_PPB_TO_DELTA
  idMap : List (U16 × Variant)  -- P_ADP_ID_MAP
  adpMap : AdpMap
  bitLink : Nat              -- P_ADP_BIT_LINK
  bitAn : Nat                -- P_ADP_BIT_AN
  fldSpeed : Nat             -- P_ADP_FLD_SPEED: the position of the field's low bit
  fldPcsSpeed : Nat          -- P_ADP_FLD_PCS_SPEED: the position of the field's low bit
  speedMap : SpeedMap        -- P_ADP_SPEED_MAP
  setup : List SetupRow      -- P_ADP_SETUP
  inferSfp : FunctionChoice  -- P_INFER_SFP
  tsMap : TsMap
  bitNew : Nat               -- P_TS_BIT_NEW
  ackVal : U32               -- P_TS_ACK_VAL
  armVal : U32               -- P_TS_ARM_VAL
  irqOn : U32                -- P_TS_IRQ_ON
  irqOff : U32               -- P_TS_IRQ_OFF
  fullPolicy : FullPolicy    -- P_TS_FULL_POLICY
  irqLine : Bool             -- P_TS_IRQ_LINE
  hostHz : Nat               -- P_HOST_HZ
  hostEndian : Endian        -- P_HOST_ENDIAN
  timePad : Bool             -- P_TIME_RECORD_PAD
  settingsLayout : SettingsLayout       -- P_SETTINGS_LAYOUT
  readResultLayout : ReadResultLayout   -- P_READ_RESULT_LAYOUT
deriving DecidableEq, Repr, Inhabited

/-! ### Parameters with a value (rule R8's value column) -/

/-- `P_POLL_BUDGET` (rules R8, R303). -/
def Config.pollBudget : Nat := 100

/-- `P_TS_CAPACITY` (rules R8, R57). -/
def Config.tsCapacity : Nat := 16

/-- `P_TS_RECORD_SIZE` (rules R8, R150). -/
def Config.recordSize : Nat := 16

/-- `P_MDIO_RW_READ` and `P_MDIO_RW_WRITE` (rule R8, decision D8). -/
def Config.mdioRwRead : U16 := 0x0001

def Config.mdioRwWrite : U16 := 0x0000

/-- Nanoseconds in a second, the `1e9` of rule R10. -/
def Config.giga : Nat := 1000000000

/-- `P_NCO_NOMINAL` where neither a module parameter nor a property gives one (rules R8, R311). -/
def Config.nominalDefault : StepReq := ⟨8, 0⟩

/-- `P_TS_DEFAULT_POLL` as the interval it stands for, half a second (rule R517). -/
def Config.defaultPollSec : U64 := 0

def Config.defaultPollNsec : U32 := 500000000

/-- The mask bits of rule R160. -/
def Config.m10 : U16 := 0x1

def Config.m100 : U16 := 0x2

def Config.m1000 : U16 := 0x4

def Config.mFiber : U16 := 0x8

/-- `P_ADP_SUPPORTED` (rule R402). -/
def Config.adpSupported : Variant → U16
  | .none => 0x0
  | .alteraTse => 0x7
  | .sgmiiOr1000BaseX => 0xF
  | .sgmiiOr1000BaseXOr100BaseFX => 0xF
  | .only1000BaseX => 0xC
  | .only100BaseFX => 0xA
  | .mii => 0x3
  | .rmii => 0x3
  | .rgmii => 0x7

/-! ### Parameters that are OPEN: constants with no value that a proof could see -/

opaque Config.ncoMap : NcoMap
opaque Config.cmdMasksGiven : U32 × U32 × U32
opaque Config.readSubnsec : Bool
opaque Config.idMap : List (U16 × Variant)
opaque Config.adpMap : AdpMap
opaque Config.bitLink : Fin 16
opaque Config.bitAn : Fin 16
opaque Config.fldSpeed : Fin 15
opaque Config.fldPcsSpeed : Fin 15
opaque Config.setup : List SetupRow
opaque Config.tsMap : TsMap
opaque Config.bitNew : Fin 32
opaque Config.ackVal : U32
opaque Config.armVal : U32
opaque Config.irqOn : U32
opaque Config.irqOff : U32
opaque Config.irqLine : Bool
opaque Config.hostHz : Nat
opaque Config.hostEndian : Endian
opaque Config.timePad : Bool
opaque Config.settingsLayout : SettingsLayout
opaque Config.readResultLayout : ReadResultLayout
opaque Config.mmioBase : Nat
opaque Config.mmioEndian : Endian
opaque Config.i2cSlave : BitVec 7
opaque Config.mdioPhy : U5
opaque Config.regAA1 : U5
opaque Config.regAA0 : U5
opaque Config.regAD : U5
opaque Config.mdioOrder : WriteOrder
opaque Config.bridgeBitsLess1 : Fin 16
opaque Config.regBAA : U5
opaque Config.regBAD : U5
opaque Config.bridgeOrder : WriteOrder
opaque Config.resetEffect : ResetEffect

/-- The three command masks are distinct and not zero (rule R8). -/
def masksDistinct (m : U32 × U32 × U32) : Bool :=
  decide (m.1 ≠ 0) && decide (m.2.1 ≠ 0) && decide (m.2.2 ≠ 0) && decide (m.1 ≠ m.2.1) && decide (m.1 ≠ m.2.2)
    && decide (m.2.1 ≠ m.2.2)

/-- `P_NCO_CMD_READ`, `P_NCO_CMD_ADJ_CLOCK` and `P_NCO_CMD_ADJ_STEP`: any three distinct non-zero masks (rule R8); of
the open triple only such a one is taken, so that no value outside the parameter's range stands for it (log entry 6). -/
def Config.cmdMasks : U32 × U32 × U32 := if masksDistinct Config.cmdMasksGiven then Config.cmdMasksGiven else (1, 2, 4)

/-- The platform's `ppb_to_raw(nominal)`, the scale of rule R310, of which the spec says nothing. -/
opaque Config.ppbToRaw : U48 → Nat

/-- The platform's `P_PPB_TO_DELTA` for a non-zero `ppb` (rule R310). -/
opaque Config.ppbToDelta : Nat → Int → Int

/-- The platform's `P_INFER_SFP` (rule R411). -/
opaque Config.inferSfp : Bool → U16 → SfpType

/-- The value of draw number `n` when the environment's tape does not give it (log entry 7). -/
opaque Config.free : Nat → Nat

/-- The cells that the spec leaves unspecified when their part begins its life (rules R46 to R49, R52, R56, R60). -/
inductive PowerOnCell where
  | hwSec | hwNsec | hwFrac | hwCounter | hwStepNsec | hwStepSubnsec
  | stageStepNsec | stageStepSubnsec | stageAdjSecHi | stageAdjSecLo | stageAdjNsec
  | latCntLo | latCntHi | latSecLo | latSecHi | latNsec
  | tsArmed | tsPending | tsLatSec | tsLatNsec | tsLatCounter | tsPulseCount | tsIrqEn
  | adpAnEnabled | adpHwId | adpHwStatus | adpHwPcs
deriving DecidableEq, Repr

/-- The place of a cell among the draws that give a newly created part its unspecified cells, part by part: an NCO takes
16, a timestamper 7 and a port 4 (log entry 5). -/
def PowerOnCell.place : PowerOnCell → Nat
  | .hwSec => 0
  | .hwNsec => 1
  | .hwFrac => 2
  | .hwCounter => 3
  | .hwStepNsec => 4
  | .hwStepSubnsec => 5
  | .stageStepNsec => 6
  | .stageStepSubnsec => 7
  | .stageAdjSecHi => 8
  | .stageAdjSecLo => 9
  | .stageAdjNsec => 10
  | .latCntLo => 11
  | .latCntHi => 12
  | .latSecLo => 13
  | .latSecHi => 14
  | .latNsec => 15
  | .tsArmed => 0
  | .tsPending => 1
  | .tsLatSec => 2
  | .tsLatNsec => 3
  | .tsLatCounter => 4
  | .tsPulseCount => 5
  | .tsIrqEn => 6
  | .adpAnEnabled => 0
  | .adpHwId => 1
  | .adpHwStatus => 2
  | .adpHwPcs => 3

/-- The unknown content of an unspecified cell of the parts that stand there at reset (log entry 5). -/
opaque Config.powerOn : PowerOnCell → Nat

/-- The backend configuration of the instances that exist at reset: every value is OPEN. -/
def Config.rbCfg : RbCfg where
  mmioBase := Config.mmioBase
  mmioEndian := Config.mmioEndian
  i2cSlave := Config.i2cSlave
  phy := Config.mdioPhy
  regAA1 := Config.regAA1
  regAA0 := Config.regAA0
  regAD := Config.regAD
  mdioOrder := Config.mdioOrder
  bridgeLess1 := Config.bridgeBitsLess1
  regBAA := Config.regBAA
  regBAD := Config.regBAD
  bridgeOrder := Config.bridgeOrder
  resetEffect := Config.resetEffect

/-- The parameters at reset: the spec's value or default where rule R8 gives one, an opaque constant elsewhere. -/
def Config.board : Board where
  ncoMap := Config.ncoMap
  cmdRead := Config.cmdMasks.1
  cmdAdjClock := Config.cmdMasks.2.1
  cmdAdjStep := Config.cmdMasks.2.2
  adjReplacesStep := true
  initCheck := .lexGt
  readSubnsec := Config.readSubnsec
  ppb := .platform
  idMap := Config.idMap
  adpMap := Config.adpMap
  bitLink := Config.bitLink.val
  bitAn := Config.bitAn.val
  fldSpeed := Config.fldSpeed.val
  fldPcsSpeed := Config.fldPcsSpeed.val
  speedMap := ⟨.full10, .full100, .full1000, .down⟩
  setup := Config.setup
  inferSfp := .platform
  tsMap := Config.tsMap
  bitNew := Config.bitNew.val
  ackVal := Config.ackVal
  armVal := Config.armVal
  irqOn := Config.irqOn
  irqOff := Config.irqOff
  fullPolicy := .readAndDrop
  irqLine := Config.irqLine
  hostHz := Config.hostHz
  hostEndian := Config.hostEndian
  timePad := Config.timePad
  settingsLayout := Config.settingsLayout
  readResultLayout := Config.readResultLayout

end Sys2Proof
end

