-- ==== Sys2Proof/Decode.lean ====
section
/-!
DEFINITION. Decoding and encoding of operations. The operation word (the first byte) and its map are
spec/30_encoding.md rule R141; a word the map does not assign names no operation (rule R170). The spec gives
operands as typed values and no bytes for them (rule R142): that they follow the word least significant byte first,
each in the whole bytes of its type, is this model's choice (log entry 1). Decoding is total: it answers an
operation and the bytes after it, or says by name why it does not.
-/

namespace Sys2Proof

/-- Why bytes name no operation. -/
inductive DecodeError where
  /-- the first byte is no operation word of rule R141 -/
  | illegalOp (w : Byte)
  /-- the bytes end inside an operation -/
  | truncated
  /-- an operand byte that must name one of a few alternatives names none of them -/
  | badOperand (b : Byte)
deriving DecidableEq, Repr

/-- Reading one operand from the front of a list of bytes. -/
abbrev Take (α : Type) := List Byte → Except DecodeError (α × List Byte)

/-! ### Words as bytes, least significant first -/

def takeByte : Take Byte
  | b :: r => .ok (b, r)
  | [] => .error .truncated

def take16 : Take U16
  | b0 :: b1 :: r => .ok (b1 ++ b0, r)
  | _ => .error .truncated

def take32 : Take U32
  | b0 :: b1 :: b2 :: b3 :: r => .ok (b3 ++ b2 ++ b1 ++ b0, r)
  | _ => .error .truncated

def take64 : Take U64
  | b0 :: b1 :: b2 :: b3 :: b4 :: b5 :: b6 :: b7 :: r =>
    .ok (b7 ++ b6 ++ b5 ++ b4 ++ b3 ++ b2 ++ b1 ++ b0, r)
  | _ => .error .truncated

/-- Byte `k` of a word, byte 0 least significant. -/
def byteOf {w : Nat} (v : BitVec w) (k : Nat) : Byte := v.extractLsb' (8 * k) 8

def put16 (v : U16) : List Byte := [byteOf v 0, byteOf v 1]

def put32 (v : U32) : List Byte := [byteOf v 0, byteOf v 1, byteOf v 2, byteOf v 3]

def put64 (v : U64) : List Byte :=
  [byteOf v 0, byteOf v 1, byteOf v 2, byteOf v 3, byteOf v 4, byteOf v 5, byteOf v 6, byteOf v 7]

/-! ### Operand types -/

def takeIndex : Take Nat := fun l =>
  match take16 l with
  | .ok (v, r) => .ok (v.toNat, r)
  | .error e => .error e

def takeKey : Take Nat := fun l =>
  match take32 l with
  | .ok (v, r) => .ok (v.toNat, r)
  | .error e => .error e

def putIndex (n : Nat) : List Byte := put16 (BitVec.ofNat 16 n)

def putKey (n : Nat) : List Byte := put32 (BitVec.ofNat 32 n)

def takeBool : Take Bool
  | b :: r => if b = 0 then .ok (false, r) else if b = 1 then .ok (true, r) else .error (.badOperand b)
  | [] => .error .truncated

def putBool (b : Bool) : List Byte := [if b then 1 else 0]

def takeBus : Take BusRef
  | t :: r =>
    match takeIndex r with
    | .ok (n, r') => if t = 0 then .ok (.inst n, r') else if t = 1 then .ok (.handle n, r') else .error (.badOperand t)
    | .error e => .error e
  | [] => .error .truncated

def putBus : BusRef → List Byte
  | .inst i => 0 :: putIndex i
  | .handle h => 1 :: putIndex h

/-- A resource descriptor: tag 0 an instance, 1 a handle, 2 missing (rule R311 rejects a missing one). -/
def takeResource : Take (Option Resource)
  | t :: r =>
    if t = 2 then .ok (none, r)
    else
      match takeIndex r with
      | .error e => .error e
      | .ok (n, r') =>
        match take32 r' with
        | .error e => .error e
        | .ok (a, r'') =>
          if t = 0 then .ok (some ⟨.inst n, a⟩, r'')
          else if t = 1 then .ok (some ⟨.handle n, a⟩, r'')
          else .error (.badOperand t)
  | [] => .error .truncated

def putResource : Option Resource → List Byte
  | none => [2]
  | some ⟨.inst i, a⟩ => 0 :: (putIndex i ++ put32 a)
  | some ⟨.handle h, a⟩ => 1 :: (putIndex h ++ put32 a)

/-- An optional nominal step: tag 0 absent, 1 present (rule R311). -/
def takeStep : Take (Option StepReq)
  | t :: r =>
    if t = 0 then .ok (none, r)
    else if t = 1 then
      match take32 r with
      | .error e => .error e
      | .ok (n, r') =>
        match take32 r' with
        | .error e => .error e
        | .ok (s, r'') => .ok (some ⟨n, s⟩, r'')
    else .error (.badOperand t)
  | [] => .error .truncated

def putStep : Option StepReq → List Byte
  | none => [0]
  | some s => 1 :: (put32 s.nsec ++ put32 s.sub)

/-- A mask operand (rule R413): tag 0 a mask, 1 a port. -/
def takeMask : Take MaskArg
  | t :: r =>
    if t = 0 then
      match take16 r with
      | .error e => .error e
      | .ok (m, r') => .ok (.mask m, r')
    else if t = 1 then
      match takeIndex r with
      | .error e => .error e
      | .ok (p, r') => .ok (.port p, r')
    else .error (.badOperand t)
  | [] => .error .truncated

def putMask : MaskArg → List Byte
  | .mask m => 0 :: put16 m
  | .port p => 1 :: putIndex p

def takeCmd : Take Cmd
  | b :: r =>
    if b = 0 then .ok (.read, r) else if b = 1 then .ok (.adjClock, r) else if b = 2 then .ok (.adjStep, r)
    else .error (.badOperand b)
  | [] => .error .truncated

def putCmd : Cmd → List Byte
  | .read => [0]
  | .adjClock => [1]
  | .adjStep => [2]

/-- Link-mode values of rule R160. -/
def takeLinkMode : Take LinkMode
  | b :: r =>
    if b = 0 then .ok (.down, r) else if b = 1 then .ok (.full10, r) else if b = 2 then .ok (.full100, r)
    else if b = 3 then .ok (.full1000, r) else .error (.badOperand b)
  | [] => .error .truncated

def putLinkMode : LinkMode → List Byte
  | .down => [0]
  | .full10 => [1]
  | .full100 => [2]
  | .full1000 => [3]

/-- Delivery-mode values of rule R155. -/
def takeDMode : Take DMode
  | b :: r =>
    if b = 0 then .ok (.interrupt, r) else if b = 1 then .ok (.poll, r) else if b = 2 then .ok (.direct, r)
    else .error (.badOperand b)
  | [] => .error .truncated

def putDMode : DMode → List Byte
  | .interrupt => [0]
  | .poll => [1]
  | .direct => [2]

/-! ### Operations from their operands -/

def with1 {α : Type} (f : α → Instr) (pa : Take α) : Take Instr := fun l =>
  match pa l with
  | .error e => .error e
  | .ok (a, r) => .ok (f a, r)

def with2 {α β : Type} (f : α → β → Instr) (pa : Take α) (pb : Take β) : Take Instr := fun l =>
  match pa l with
  | .error e => .error e
  | .ok (a, r) => with1 (f a) pb r

def with3 {α β γ : Type} (f : α → β → γ → Instr) (pa : Take α) (pb : Take β) (pc : Take γ) : Take Instr :=
  fun l =>
  match pa l with
  | .error e => .error e
  | .ok (a, r) => with2 (f a) pb pc r

def with4 {α β γ δ : Type} (f : α → β → γ → δ → Instr) (pa : Take α) (pb : Take β) (pc : Take γ)
    (pd : Take δ) : Take Instr := fun l =>
  match pa l with
  | .error e => .error e
  | .ok (a, r) => with3 (f a) pb pc pd r

/-- The operands of the operation that word `w` names (rule R141), or the refusal of an unassigned word
(rule R170). -/
def decodeOperands (w : Byte) : Take Instr :=
  match w.toNat with
  | 0x01 => with2 .read16 takeBus take32
  | 0x02 => with3 .write16 takeBus take32 take16
  | 0x03 => with2 .read32 takeBus take32
  | 0x04 => with3 .write32 takeBus take32 take32
  | 0x05 => with1 .reset takeBus
  | 0x06 => with1 .lookup takeKey
  | 0x07 => with1 .release takeIndex
  | 0x10 => with2 .mmioRead16 takeBus take32
  | 0x11 => with3 .mmioWrite16 takeBus take32 take16
  | 0x12 => with2 .nativeRead32 takeBus take32
  | 0x13 => with3 .nativeWrite32 takeBus take32 take32
  | 0x14 => with2 .i2cRead16 takeBus take32
  | 0x15 => with3 .i2cWrite16 takeBus take32 take16
  | 0x16 => with2 .slaveRead16 takeBus take32
  | 0x17 => with3 .slaveWrite16 takeBus take32 take16
  | 0x18 => with2 .bridgeRead16 takeBus take32
  | 0x19 => with3 .bridgeWrite16 takeBus take32 take16
  | 0x21 => with1 .readTime takeIndex
  | 0x22 => with4 .adjustTime takeIndex take32 take64 take32
  | 0x23 => with2 .adjustFrequency takeIndex take32
  | 0x24 => with1 .initRegisters takeIndex
  | 0x25 => with4 .ncoProbe takeIndex takeResource takeStep takeStep
  | 0x28 => with2 .cmdPoll takeIndex takeCmd
  | 0x30 => with1 .ncoTick takeIndex
  | 0x31 => with2 .ncoCmdComplete takeIndex takeCmd
  | 0x41 => with1 .adpDetect takeIndex
  | 0x42 => with3 .adpSetup takeIndex takeLinkMode takeBool
  | 0x43 => with1 .checkLink takeIndex
  | 0x44 => with1 .initAdapter takeIndex
  | 0x45 => with2 .bestAdapterLinkMode takeMask takeMask
  | 0x46 => with2 .adpProbe takeIndex takeResource
  | 0x51 => with1 .tsOpen takeIndex
  | 0x52 => with2 .tsClose takeIndex takeIndex
  | 0x53 => with4 .tsRead takeIndex takeIndex take32 takeBool
  | 0x54 => with4 .changeSettings takeIndex take32 take64 take32
  | 0x55 => with1 .eventCheck takeIndex
  | 0x56 => with2 .enableMode takeIndex takeDMode
  | 0x57 => with2 .disableMode takeIndex takeDMode
  | 0x58 => with3 .tsProbe takeIndex takeResource takeBool
  | 0x60 => with1 .tsPulse takeIndex
  | 0x61 => with1 .tsIrq takeIndex
  | 0x62 => with1 .workerRun takeIndex
  | 0x63 => with1 .pollFire takeIndex
  | 0x64 => with1 .hostSignal takeIndex
  | 0x65 => fun r => .ok (.hostTick, r)
  | _ => fun _ => .error (.illegalOp w)

/-- Decode the operation at the front of a list of bytes; the bytes after it are answered with it. -/
def decode : Take Instr
  | [] => .error .truncated
  | w :: r => decodeOperands w r

/-- The operation word of an operation (rule R141). -/
def Instr.word : Instr → Byte
  | .read16 .. => 0x01
  | .write16 .. => 0x02
  | .read32 .. => 0x03
  | .write32 .. => 0x04
  | .reset .. => 0x05
  | .lookup .. => 0x06
  | .release .. => 0x07
  | .mmioRead16 .. => 0x10
  | .mmioWrite16 .. => 0x11
  | .nativeRead32 .. => 0x12
  | .nativeWrite32 .. => 0x13
  | .i2cRead16 .. => 0x14
  | .i2cWrite16 .. => 0x15
  | .slaveRead16 .. => 0x16
  | .slaveWrite16 .. => 0x17
  | .bridgeRead16 .. => 0x18
  | .bridgeWrite16 .. => 0x19
  | .readTime .. => 0x21
  | .adjustTime .. => 0x22
  | .adjustFrequency .. => 0x23
  | .initRegisters .. => 0x24
  | .ncoProbe .. => 0x25
  | .cmdPoll .. => 0x28
  | .ncoTick .. => 0x30
  | .ncoCmdComplete .. => 0x31
  | .adpDetect .. => 0x41
  | .adpSetup .. => 0x42
  | .checkLink .. => 0x43
  | .initAdapter .. => 0x44
  | .bestAdapterLinkMode .. => 0x45
  | .adpProbe .. => 0x46
  | .tsOpen .. => 0x51
  | .tsClose .. => 0x52
  | .tsRead .. => 0x53
  | .changeSettings .. => 0x54
  | .eventCheck .. => 0x55
  | .enableMode .. => 0x56
  | .disableMode .. => 0x57
  | .tsProbe .. => 0x58
  | .tsPulse .. => 0x60
  | .tsIrq .. => 0x61
  | .workerRun .. => 0x62
  | .pollFire .. => 0x63
  | .hostSignal .. => 0x64
  | .hostTick => 0x65

/-- The operand bytes of an operation. -/
def Instr.operandBytes : Instr → List Byte
  | .read16 b a => putBus b ++ put32 a
  | .write16 b a v => putBus b ++ (put32 a ++ put16 v)
  | .read32 b a => putBus b ++ put32 a
  | .write32 b a v => putBus b ++ (put32 a ++ put32 v)
  | .reset b => putBus b
  | .lookup t => putKey t
  | .release h => putIndex h
  | .mmioRead16 b a => putBus b ++ put32 a
  | .mmioWrite16 b a v => putBus b ++ (put32 a ++ put16 v)
  | .nativeRead32 b a => putBus b ++ put32 a
  | .nativeWrite32 b a v => putBus b ++ (put32 a ++ put32 v)
  | .i2cRead16 b a => putBus b ++ put32 a
  | .i2cWrite16 b a v => putBus b ++ (put32 a ++ put16 v)
  | .slaveRead16 b a => putBus b ++ put32 a
  | .slaveWrite16 b a v => putBus b ++ (put32 a ++ put16 v)
  | .bridgeRead16 b a => putBus b ++ put32 a
  | .bridgeWrite16 b a v => putBus b ++ (put32 a ++ put16 v)
  | .readTime d => putIndex d
  | .adjustTime d sg s n => putIndex d ++ (put32 sg ++ (put64 s ++ put32 n))
  | .adjustFrequency d p => putIndex d ++ put32 p
  | .initRegisters d => putIndex d
  | .ncoProbe d r p q => putIndex d ++ (putResource r ++ (putStep p ++ putStep q))
  | .cmdPoll d c => putIndex d ++ putCmd c
  | .ncoTick d => putIndex d
  | .ncoCmdComplete d c => putIndex d ++ putCmd c
  | .adpDetect p => putIndex p
  | .adpSetup p m f => putIndex p ++ (putLinkMode m ++ putBool f)
  | .checkLink p => putIndex p
  | .initAdapter p => putIndex p
  | .bestAdapterLinkMode a s => putMask a ++ putMask s
  | .adpProbe p r => putIndex p ++ putResource r
  | .tsOpen d => putIndex d
  | .tsClose d h => putIndex d ++ putIndex h
  | .tsRead d h n b => putIndex d ++ (putIndex h ++ (put32 n ++ putBool b))
  | .changeSettings d m s n => putIndex d ++ (put32 m ++ (put64 s ++ put32 n))
  | .eventCheck d => putIndex d
  | .enableMode d m => putIndex d ++ putDMode m
  | .disableMode d m => putIndex d ++ putDMode m
  | .tsProbe d r l => putIndex d ++ (putResource r ++ putBool l)
  | .tsPulse d => putIndex d
  | .tsIrq d => putIndex d
  | .workerRun d => putIndex d
  | .pollFire d => putIndex d
  | .hostSignal c => putIndex c
  | .hostTick => []

/-- The bytes of an operation: its word, then its operands. -/
def encode (i : Instr) : List Byte := i.word :: i.operandBytes

/-- The length in bytes of the longest operation (`nco_probe` with both steps present). -/
def maxInstrBytes : Nat := 28

/-- The bytes of an operation given as a number of `nbits` bits, bit 0 the least significant bit of the first
byte; every bit above `nbits` is 0, up to the longest operation. -/
def tableBytes (nbits w : Nat) : List Byte :=
  (List.range maxInstrBytes).map fun k => BitVec.ofNat 8 ((w % 2 ^ nbits) >>> (8 * k))

/-- The operation the decoder reads from a word numbered as spec/opcode_table.json numbers it. -/
def decodeTableWord (nbits w : Nat) : Option Instr :=
  match decode (tableBytes nbits w) with
  | .ok (i, _) => some i
  | .error _ => none

end Sys2Proof
end

