-- ==== Sys2Proof/Machine/State.lean ====
section
/-!
DEFINITION. The state of the block as plain data: every cell that spec/10_state.md gives an RB instance, an NCO
device, an adapter port and a timestamper device, the hardware cells behind their registers, the host's tick count,
the agents with the control state of an operation in progress (rule R41), and the model's own fields (the environment's
choices still to come, the draws, the wire record). `State.reset` is every cell at its reset value.
-/

namespace Sys2Proof.Machine

open Sys2Proof

/-! ### How an operation ends -/

/-- The sub-kinds of `E_INVAL` (rule R600). -/
inductive Inval where
  | adjNsecRange
  | stepRange
  | missingResource
  | badNominal
  | mode
  | noIrq
  | interval
  | zeroRecords
deriving DecidableEq, Repr

/-- The errors an operation returns to its caller (rule R600). -/
inductive Err where
  | io
  | timeout
  | inval (why : Inval)
  | notFound
  | unsupported
  | again
  | intr
  | fault
  | initCheck
deriving DecidableEq, Repr

/-- The code of an error (rule R600). -/
def Err.code : Err → Nat
  | .io => 1
  | .timeout => 2
  | .inval _ => 3
  | .notFound => 4
  | .unsupported => 5
  | .again => 6
  | .intr => 7
  | .fault => 8
  | .initCheck => 9

/-- The result of `read_time` (rules R152, R305); `sec` is not cut to 48 bits (rule R304). -/
structure TimeResult where
  counter : U48
  sec : U64
  nsec : U32
  subnsec : U16
  srcSec : U64
  srcNsec : U32
deriving DecidableEq, Repr

/-- The value an operation returns when it succeeds. -/
inductive Res where
  | unit
  | val16 (v : U16)
  | val32 (v : U32)
  | handle (h : Nat)
  | time (t : TimeResult)
  | variant (v : Variant)
  | linkMode (m : LinkMode)
  | bytes (n : Nat)
deriving DecidableEq, Repr

/-- Model faults (rule R610): a use the source forbids and the hardware does not check. Each stops the agent that
made it, and that agent alone: it takes no further step, and a move that asks it for one reports the fault (log
entry 30). -/
inductive Fault where
  /-- raised by a 16-bit access at an odd address on MMIO or MDIO and by a native 32-bit access not a multiple of
  4 (rules R115, R116); safe -/
  | misaligned
  /-- raised by a bridge access whose PHY part is above 31 (rule R214); safe -/
  | bridgeRange
  /-- raised by a sleep-capable bus access, a mutex acquisition or a blocking wait in atomic context (rule R620);
  safe -/
  | atomicSleep
  /-- raised by an MDIO access that starts while another agent's access on the instance is unfinished (rule R111);
  safe -/
  | busOverlap
  /-- raised by `release` of a handle already released or with `refs = 0`, and by any use of such a handle
  (rule R219); safe -/
  | doubleRelease
  /-- raised by a caller's NCO operation before `init_registers` succeeded (rule R312); safe -/
  | ncoUninit
  /-- raised by the worker when the disable depth goes below 0 (rule R511); safe -/
  | irqUnbalanced
  /-- raised by `ts_read` and `ts_close` with a handle that is not open (rules R505, R513); safe -/
  | tsNotOpen
deriving DecidableEq, Repr

/-- Refusals (rule R611): the state is outside the spec. -/
inductive Refusal where
  /-- raised by `exec` for an instruction that has no meaning yet; safe -/
  | notModelled (mnemonic : String)
  /-- raised by the fetch of an unassigned operation word (`R_ILLEGAL_OP`, rule R170); safe -/
  | illegalOp (w : Byte)
  /-- raised by the fetch of an operand byte that names none of its alternatives (log entry 1); safe -/
  | badOperand (b : Byte)
  /-- raised by the fetch of an operation whose bytes end early (log entry 1); safe -/
  | truncated
  /-- raised by an operation on a removed NCO device (`R_NCO_REMOVED`, rule R312); safe -/
  | ncoRemoved
  /-- raised by an operation on a torn-down adapter port (`R_ADP_REMOVED`, rule R414); safe -/
  | adpRemoved
  /-- raised by an operation on a removed timestamper (`R_TS_REMOVED`, rule R611); safe -/
  | tsRemoved
  /-- raised by a register access of a device that no probe has given a resource (rule R707, log entry 15); safe -/
  | notProbed
  /-- raised by an operand that names an instance, device or port the machine does not have (log entry 15);
  safe -/
  | noSuchUnit
deriving DecidableEq, Repr

/-! ### Memory -/

/-- A memory is a list of (address, byte) pairs, addresses strictly rising; an address that is not listed holds no
known value (log entry 32). -/
abbrev Memory := List Host.Cell

/-- The canonical form: addresses strictly rise. -/
def Memory.wf : Memory → Bool
  | [] => true
  | [_] => true
  | (a, _) :: (b, y) :: r => decide (a < b) && Memory.wf ((b, y) :: r)

/-! ### The wire (log entry 31) -/

/-- One transaction on a transport (rules R12, R110) as it appears on the wire, its data included. -/
inductive Wire where
  | ioLoad (addr : Nat) (n : Nat) (value : U32)
  | ioStore (addr : Nat) (n : Nat) (value : U32)
  /-- one combined I2C transfer: the bytes written, then the bytes read (rules R143 to R145) -/
  | i2c (slave : BitVec 7) (written : List Byte) (received : List Byte)
  | mdioWrite (phy reg : U5) (value : U16)
  | mdioRead (phy reg : U5) (value : U16)
  | busReset
deriving DecidableEq, Repr

/-- A transaction, the instance it was made on, and whether the transport completed it. -/
structure Xfer where
  inst : Nat
  wire : Wire
  ok : Bool
deriving DecidableEq, Repr

/-! ### RegisterBus -/

/-- An RB instance (rules R42, R43). -/
structure Rb where
  name : String
  id : Nat
  backend : Backend
  hasRead32 : Bool
  hasWrite32 : Bool
  hasReset : Bool
  sleeps : Bool
  refs : Nat
  aa1Cache : Option U16
  cfg : RbCfg
  /-- the agent whose MDIO access is unfinished (control state, rules R41, R111) -/
  busy : Option Nat
deriving DecidableEq, Repr

/-- The far-end device behind an RB instance, which is no part of the instance (rule R44): whether the registers the
spec does not model keep what is written to them, and the bytes they keep. None of the far ends at reset keeps anything,
so that their reads are draws and their writes leave nothing; one that keeps is what the example of rule R204 is about
(log entry 11). -/
structure FarEnd where
  keeps : Bool
  cells : Memory
deriving DecidableEq, Repr

/-- A handle that `lookup` returned (rules R218, R219). -/
structure Handle where
  inst : Nat
  released : Bool
deriving DecidableEq, Repr

/-! ### NCO -/

/-- The hardware cells of an NCO (rules R46 to R49, R51). -/
structure NcoHw where
  sec : U48
  nsec : BitVec 30
  frac : U32
  counter : U48
  stepNsec : BitVec 6
  stepSubnsec : U32
  stageStepNsec : U32
  stageStepSubnsec : U32
  stageAdjSecHi : U32
  stageAdjSecLo : U32
  stageAdjNsec : U32
  latCntLo : U32
  latCntHi : U32
  latSecLo : U32
  latSecHi : U32
  latNsec : U32
  pendRead : Bool
  pendAdjClock : Bool
  pendAdjStep : Bool
deriving DecidableEq, Repr

/-- An NCO device (rule R45) with its hardware. -/
structure Nco where
  res : Option Resource
  removed : Bool
  nominalNsec : BitVec 6
  nominalSubnsec : U32
  nominal48 : U48
  scale : Nat
  currentStepNsec : BitVec 6
  /-- the device lock is a spinlock (MMIO) and not a mutex (indirect bus), rule R300 -/
  spin : Bool
  /-- the agent that holds the device lock -/
  lock : Option Nat
  initialised : Bool
  hw : NcoHw
deriving DecidableEq, Repr

/-! ### Adapter -/

/-- The out-of-band inputs of a port (rules R54, R55). -/
structure PortInputs where
  extPhyAttached : Bool
  extPhyMask : U16
  sfpPhyAttached : Bool
  sfpPhyMask : U16
  sfpSeparate : Bool
  sfpEepromPresent : Bool
  sfpEepromType : SfpType
  phyOnSfpMdio : Bool
deriving DecidableEq, Repr

/-- An adapter port (rule R52) with its inputs and the registers its hardware shows (rule R56). -/
structure Port where
  port : Nat
  res : Option Resource
  removed : Bool
  variant : Variant
  supported : U16
  advertised : U16
  linkCheckEnabled : Bool
  sfpType : SfpType
  pcsMode : PcsMode
  desired : LinkMode
  forced : Bool
  anEnabled : Bool
  linkMode : LinkMode
  inputs : PortInputs
  hwId : U16
  hwStatus : U16
  hwPcs : U16
deriving DecidableEq, Repr

/-! ### Timestamper -/

/-- An event record (rule R59). -/
structure Event where
  sec : U64
  nsec : U32
  counter : U32
deriving DecidableEq, Repr

/-- `Idle` or `Active` (rule R57). -/
inductive Life where
  | idle
  | active
deriving DecidableEq, Repr

/-- The capture hardware (rule R60), and the low halves of its three action registers while they are written by
two 16-bit accesses (log entry 9). -/
structure TsHw where
  armed : Bool
  pending : Bool
  latSec : U48
  latNsec : BitVec 30
  latCounter : U32
  pulseCount : U32
  irqEn : Bool
  ackLow : U16
  armLow : U16
  irqLow : U16
deriving DecidableEq, Repr

/-- A handle that `ts_open` returned: open, with the number of reads in progress on it; closed by `ts_close` while
`more + 1` reads were in progress, which keep its use of the device until the last of them ends (rule R505, log entry
20); or closed. -/
inductive TsHandle where
  | held (reads : Nat)
  | closing (more : Nat)
  | closed
deriving DecidableEq, Repr

/-- What the handler of the interrupt does: nothing, queueing a check for the worker, or running the check itself (rule
R510). `irq_busy` is true in the last two (`Ts.irqBusy`). -/
inductive IrqRun where
  | idle
  | deferring
  | checking
deriving DecidableEq, Repr

/-- A timestamper device (rule R57). -/
structure Ts where
  res : Option Resource
  removed : Bool
  life : Life
  useCount : Nat
  mode : DMode
  pollSec : U64
  pollNsec : U32
  irqLine : Bool
  deferred : Bool
  capacity : Nat
  /-- the slots of the ring; empty while it is not allocated -/
  buf : List (Option Event)
  bufCount : Nat
  readCount : Nat
  lastEvent : Option Event
  irqDepth : Int
  irqHooked : Bool
  irqRun : IrqRun
  workPending : Bool
  workIrq : Bool
  workerBusy : Bool
  timerOn : Bool
  timerDeadline : Nat
  timerBusy : Bool
  /-- the callers blocked on `waitq`, by agent id -/
  waiters : List Nat
  cfgLock : Option Nat
  readerLock : Option Nat
  indexLock : Option Nat
  /-- the handles `ts_open` returned, in order -/
  handles : List TsHandle
  hw : TsHw
deriving DecidableEq, Repr

/-! ### Agents -/

/-- The kinds of agents (rule R15): the name of the part an agent is meant for. An agent plays the part of the issuer
of the operation it issues, whatever its kind (rule R141, log entry 28). -/
inductive AgentKind where
  | caller
  | irq
  | worker
  | pollTimer
  | ncoHw
  | tsHw
  | host
deriving DecidableEq, Repr

/-- What a blocked agent waits for; only the first two can be interrupted (rule R514). -/
inductive WaitKind where
  | waitq
  | readerLock
  | other
deriving DecidableEq, Repr

/-- An agent: its program (rule R173), the operation it is in and what the operation has learned so far (the control
state of rule R41), and what its last operation returned. -/
structure Agent where
  id : Nat
  kind : AgentKind
  /-- the bytes of the operations still to be issued -/
  prog : List Byte
  /-- the operation in progress -/
  op : Option Instr
  /-- the answers the operation in progress has had, oldest first -/
  hist : List Nat
  blocked : Option WaitKind
  /-- a host signal not yet taken -/
  signal : Bool
  result : Option (Except Err Res)
  /-- the fault that stopped the agent (rule R610) -/
  stopped : Option Fault
  /-- the caller's buffer (rule R104) and how many of its bytes can be written (rule R512) -/
  buffer : Memory
  bufferSize : Nat
deriving DecidableEq, Repr

/-! ### The environment's choices (log entry 3) -/

/-- A step of an agent or of the outside that makes no bus transaction. -/
inductive Env where
  /-- an NCO tick; `apply` is the hardware's choice to apply a pending adjustment now (rule R301) -/
  | ncoTick (d : Nat) (apply : Bool)
  /-- the NCO completes a pending command (rule R302) -/
  | ncoComplete (d : Nat) (c : Cmd)
  /-- an input pulse (rule R502) -/
  | tsPulse (d : Nat)
  | hostTick
  /-- the adapter hardware shows other register values (rules R56, R62) -/
  | adapterHw (p : Nat) (id status pcs : U16)
  /-- the host changes a port's inputs (rules R54, R414) -/
  | portInputs (p : Nat) (inputs : PortInputs)
  /-- the NCO device is removed (rule R703) -/
  | removeNco (d : Nat)
  /-- the port is torn down (rule R414) -/
  | removePort (p : Nat)
  /-- the timestamper is removed (rule R611) -/
  | removeTs (d : Nat)
  /-- a backend creates an RB instance, with the name and id it sets, and the host binds it to a topology key; `keeps`
  is what its far end does with what is written (rules R42, R44, R701, R707) -/
  | attach (t : Nat) (name : String) (id : Nat) (backend : Backend) (native32 hasReset keeps : Bool) (cfg : RbCfg)
deriving DecidableEq, Repr

/-- What happens at the next point where another agent may step (rules R41, R110): nothing and the transaction
succeeds; the transaction fails, a write having reached the far end or not (rule R202); another agent's step comes
first; or the running agent is put aside. -/
inductive Turn where
  | go
  | fail (landed : Bool)
  | env (e : Env)
  | preempt
deriving DecidableEq, Repr

/-- Who makes the next step of the machine: an agent, which goes on until its operation ends or waits; an agent that
is put aside after `n + 1` atomic steps if its operation has not ended before; or the outside. -/
inductive Move where
  | agent (id : Nat)
  | part (id n : Nat)
  | env (e : Env)
deriving DecidableEq, Repr

/-! ### The whole state -/

structure State where
  board : Board
  rbs : List Rb
  /-- the far-end device of each instance, in the order of the instances -/
  fars : List FarEnd
  /-- the bindings of topology keys to instances (rule R218) -/
  topo : List (Nat × Nat)
  handles : List Handle
  ncos : List Nco
  ports : List Port
  tss : List Ts
  hostTicks : Nat
  /-- the agent whose operation runs, and the others -/
  me : Agent
  others : List Agent
  /-- the moves still to come; when none is given the same agent goes on -/
  sched : List Move
  /-- how many more than one atomic steps the running agent may make before it is put aside; no bound when none -/
  cut : Option Nat
  /-- the turns still to come; when none is given every transaction succeeds at once -/
  turns : List Turn
  /-- draws the environment gives, oldest first, and how many draws there have been -/
  tape : List Nat
  draws : Nat
  /-- the transactions made, newest first -/
  wire : List Xfer
deriving DecidableEq, Repr

/-! ### Reset -/

/-- The hardware cells of an NCO at the values given for the cells that the spec leaves unspecified; no command is
pending (rules R46 to R51, R702). -/
def NcoHw.ofCells (c : PowerOnCell → Nat) : NcoHw where
  sec := BitVec.ofNat 48 (c .hwSec)
  nsec := BitVec.ofNat 30 (c .hwNsec)
  frac := BitVec.ofNat 32 (c .hwFrac)
  counter := BitVec.ofNat 48 (c .hwCounter)
  stepNsec := BitVec.ofNat 6 (c .hwStepNsec)
  stepSubnsec := BitVec.ofNat 32 (c .hwStepSubnsec)
  stageStepNsec := BitVec.ofNat 32 (c .stageStepNsec)
  stageStepSubnsec := BitVec.ofNat 32 (c .stageStepSubnsec)
  stageAdjSecHi := BitVec.ofNat 32 (c .stageAdjSecHi)
  stageAdjSecLo := BitVec.ofNat 32 (c .stageAdjSecLo)
  stageAdjNsec := BitVec.ofNat 32 (c .stageAdjNsec)
  latCntLo := BitVec.ofNat 32 (c .latCntLo)
  latCntHi := BitVec.ofNat 32 (c .latCntHi)
  latSecLo := BitVec.ofNat 32 (c .latSecLo)
  latSecHi := BitVec.ofNat 32 (c .latSecHi)
  latNsec := BitVec.ofNat 32 (c .latNsec)
  pendRead := false
  pendAdjClock := false
  pendAdjStep := false

/-- `step_nsec ++ step_subnsec` as 16 integer bits and 32 fraction bits (rules R9, R45). -/
def nominal48Of (nsec : BitVec 6) (sub : U32) : U48 := nsec.setWidth 16 ++ sub

/-- `ppb_to_raw(nominal)` (rules R45, R310); the reference function's scale is `nominal48` itself. -/
def scaleOf (f : FunctionChoice) (n : U48) : Nat :=
  match f with
  | .reference => n.toNat
  | .platform => Config.ppbToRaw n

/-- An NCO device with the reset column of rule R45 and the default nominal step, no probe having given it a
resource yet, and the values given for its hardware cells. -/
def Nco.ofCells (c : PowerOnCell → Nat) (b : Board) : Nco where
  res := none
  removed := false
  nominalNsec := 8
  nominalSubnsec := 0
  nominal48 := nominal48Of 8 0
  scale := scaleOf b.ppb (nominal48Of 8 0)
  currentStepNsec := 8
  spin := true
  lock := none
  initialised := false
  hw := NcoHw.ofCells c

/-- No PHY and no SFP module: the out-of-band inputs at reset are the host's (log entry 4). -/
def PortInputs.reset : PortInputs := ⟨false, 0, false, 0, false, false, .none, false⟩

/-- An adapter port with the reset column of rule R52, no probe having detected its variant yet, and the values given
for the cells that the spec leaves unspecified. -/
def Port.ofCells (c : PowerOnCell → Nat) (i : Nat) : Port where
  port := i
  res := none
  removed := false
  variant := .none
  supported := 0
  advertised := 0
  linkCheckEnabled := true
  sfpType := .none
  pcsMode := .none
  desired := .down
  forced := false
  anEnabled := (c .adpAnEnabled).testBit 0
  linkMode := .down
  inputs := PortInputs.reset
  hwId := BitVec.ofNat 16 (c .adpHwId)
  hwStatus := BitVec.ofNat 16 (c .adpHwStatus)
  hwPcs := BitVec.ofNat 16 (c .adpHwPcs)

/-- The capture hardware at the values given for its cells, which the spec leaves unspecified (rules R60, R705).
DESIGN CHOICE (log entry 9): the low halves kept for the three action registers begin at 0, so a high half written
before any low half acts as the word with low half 0. -/
def TsHw.ofCells (c : PowerOnCell → Nat) : TsHw where
  armed := (c .tsArmed).testBit 0
  pending := (c .tsPending).testBit 0
  latSec := BitVec.ofNat 48 (c .tsLatSec)
  latNsec := BitVec.ofNat 30 (c .tsLatNsec)
  latCounter := BitVec.ofNat 32 (c .tsLatCounter)
  pulseCount := BitVec.ofNat 32 (c .tsPulseCount)
  irqEn := (c .tsIrqEn).testBit 0
  ackLow := 0
  armLow := 0
  irqLow := 0

/-- `P_TS_INITIAL_MODE` (rules R8, R501). -/
def initialMode (irqLine : Bool) : DMode := if irqLine then .interrupt else .poll

/-- The device cells of a timestamper with the reset column of rule R57. -/
def Ts.create (res : Option Resource) (irqLine deferred : Bool) (hw : TsHw) : Ts where
  res := res
  removed := false
  life := .idle
  useCount := 0
  mode := initialMode irqLine
  pollSec := Config.defaultPollSec
  pollNsec := Config.defaultPollNsec
  irqLine := irqLine
  deferred := deferred
  capacity := Config.tsCapacity
  buf := []
  bufCount := 0
  readCount := 0
  lastEvent := none
  irqDepth := 0
  irqHooked := false
  irqRun := .idle
  workPending := false
  workIrq := false
  workerBusy := false
  timerOn := false
  timerDeadline := 0
  timerBusy := false
  waiters := []
  cfgLock := none
  readerLock := none
  indexLock := none
  handles := []
  hw := hw

/-- A new RB instance, with the name and the id that its backend sets (rules R42, R222, R701). -/
def Rb.create (id : Nat) (name : String) (backend : Backend) (native32 hasReset : Bool) (cfg : RbCfg) : Rb where
  name := name
  id := id
  backend := backend
  hasRead32 := native32 && decide (backend = .mmio)
  hasWrite32 := native32 && decide (backend = .mmio)
  hasReset := hasReset
  sleeps := !decide (backend = .mmio)
  refs := 0
  aa1Cache := none
  cfg := cfg
  busy := none

/-- An agent with nothing to do. -/
def Agent.idle (id : Nat) (kind : AgentKind) : Agent where
  id := id
  kind := kind
  prog := []
  op := none
  hist := []
  blocked := none
  signal := false
  result := none
  stopped := none
  buffer := []
  bufferSize := 65536

/-- The machine with given parameters at the start: one instance of every kind of RegisterBus, one device of each
part, one agent of each kind and a second caller; how many, and the names of the instances, are log entry 4. -/
def State.resetOn (b : Board) (cfg : RbCfg) : State where
  board := b
  rbs := [Rb.create 0 "mmio" .mmio false false cfg, Rb.create 1 "mmio32" .mmio true false cfg,
    Rb.create 2 "i2c" .i2c false true cfg, Rb.create 3 "mdio-slave" .mdioSlave false true cfg,
    Rb.create 4 "mdio-bridge" .mdioBridge false true cfg]
  fars := List.replicate 5 ⟨false, []⟩
  topo := [(0, 0), (1, 1), (2, 2), (3, 3), (4, 4)]
  handles := []
  ncos := [Nco.ofCells Config.powerOn b]
  ports := [Port.ofCells Config.powerOn 0]
  tss := [Ts.create none b.irqLine false (TsHw.ofCells Config.powerOn)]
  hostTicks := 0
  me := Agent.idle 0 .caller
  others := [Agent.idle 1 .caller, Agent.idle 2 .irq, Agent.idle 3 .worker, Agent.idle 4 .pollTimer,
    Agent.idle 5 .ncoHw, Agent.idle 6 .tsHw, Agent.idle 7 .host]
  sched := []
  cut := none
  turns := []
  tape := []
  draws := 0
  wire := []

/-- The machine at the start: every cell at its reset value (rules R40, R700 to R706), every OPEN parameter the
opaque constant of Config. -/
def State.reset : State := State.resetOn Config.board Config.rbCfg

end Sys2Proof.Machine
end

