-- ==== Sys2Proof/Machine/Flags.lean ====
section
/-!
DEFINITION. The status flags of the block (spec/10_state.md rule R62) and every word or condition computed from
them: the NCO command-pending bits (rules R50, R51, R302, R303), the timestamper's pending bit and interrupt request
(rules R61, R503, R621), the adapter's link and autonegotiation bits (rules R56, R407), and the reader's condition
(rule R513).
-/

namespace Sys2Proof

/-- The command bit of a command (rule R50). -/
def Board.cmdMask (b : Board) : Cmd → U32
  | .read => b.cmdRead
  | .adjClock => b.cmdAdjClock
  | .adjStep => b.cmdAdjStep

/-- Whether a command word has command `c` set: the test `v & bit` of rule R303 (log entry 18). -/
def Board.cmdSet (b : Board) (v : U32) (c : Cmd) : Bool := decide (v &&& b.cmdMask c ≠ 0)

/-- The bit of command `c` when `on`, no bit otherwise. -/
def Board.cmdBit (b : Board) (on : Bool) (c : Cmd) : U32 := if on then b.cmdMask c else 0

/-- The link bit of an adapter status word (rule R56). -/
def Board.linkUp (b : Board) (s : U16) : Bool := s.getLsbD b.bitLink

/-- `link_ok` (rule R407): link and autonegotiation bits together when autonegotiation is enabled, the link bit alone
when it is not. -/
def Board.linkOk (b : Board) (an : Bool) (s : U16) : Bool :=
  if an then s.getLsbD b.bitLink && s.getLsbD b.bitAn else s.getLsbD b.bitLink

/-- The link mode of a 2-bit speed code (`P_ADP_SPEED_MAP`, rule R163). -/
def SpeedMap.mode (m : SpeedMap) (c : BitVec 2) : LinkMode :=
  if c = 0 then m.c0 else if c = 1 then m.c1 else if c = 2 then m.c2 else m.c3

end Sys2Proof

namespace Sys2Proof.Machine

/-- Whether command `c` is in `cmd_pending` (rule R51). -/
def NcoHw.pending (h : NcoHw) : Cmd → Bool
  | .read => h.pendRead
  | .adjClock => h.pendAdjClock
  | .adjStep => h.pendAdjStep

/-- A write of `v` to the command register adds every command set in `v` (rule R51). -/
def NcoHw.addPending (h : NcoHw) (b : Board) (v : U32) : NcoHw :=
  { h with
    pendRead := h.pendRead || b.cmdSet v .read
    pendAdjClock := h.pendAdjClock || b.cmdSet v .adjClock
    pendAdjStep := h.pendAdjStep || b.cmdSet v .adjStep }

/-- `cmd_pending` loses command `c` (rule R302). -/
def NcoHw.clearPending (h : NcoHw) : Cmd → NcoHw
  | .read => { h with pendRead := false }
  | .adjClock => { h with pendAdjClock := false }
  | .adjStep => { h with pendAdjStep := false }

/-- A read of the command register: the command bits are 1 exactly for the commands pending, the other bits come
from the draw `x` (rules R50, R51, R170). -/
def NcoHw.cmdWord (h : NcoHw) (b : Board) (x : U32) : U32 :=
  (x &&& ~~~(b.cmdRead ||| b.cmdAdjClock ||| b.cmdAdjStep))
    ||| (b.cmdBit h.pendRead .read ||| b.cmdBit h.pendAdjClock .adjClock ||| b.cmdBit h.pendAdjStep .adjStep)

/-- The hardware interrupt request of the timestamper, a level (rules R503, R621). -/
def TsHw.irqReq (h : TsHw) : Bool := h.pending && h.irqEn

/-- A read of the timestamper status register: the pending bit, the other bits from the draw `x` (rule R61). -/
def TsHw.statusWord (h : TsHw) (b : Board) (x : U32) : U32 :=
  if h.pending then x ||| ((1 : U32) <<< b.bitNew) else x &&& ~~~((1 : U32) <<< b.bitNew)

/-- `irq_busy`: the handler of the interrupt runs (rules R57, R510). -/
def Ts.irqBusy (t : Ts) : Bool := decide (t.irqRun ≠ .idle)

/-- No event-check of the timestamper runs, neither the worker's nor the handler's: "at most
one event-check of a device runs at a time" (rules R518, R604, log entry 44). -/
def Ts.checkFree (t : Ts) : Bool := !t.workerBusy && decide (t.irqRun ≠ .checking)

/-- The interrupt line can be taken: hooked, asserted, not masked, the handler not running, and, where the handler runs
the event-check itself, no other check running (rules R510, R518, R623). -/
def Ts.irqReady (t : Ts) : Bool :=
  t.irqHooked && t.hw.irqReq && decide (t.irqDepth ≤ 0) && !t.irqBusy && (t.deferred || t.checkFree)

/-- The poll timer can fire: on, due, and not already firing, a device's poll timer being one agent (rules R15, R516,
R626). -/
def Ts.pollReady (t : Ts) (ticks : Nat) : Bool := t.timerOn && decide (t.timerDeadline ≤ ticks) && !t.timerBusy

/-- `readable()` of a reader (rule R513). -/
def Ts.readable (t : Ts) : Bool := decide (t.readCount < t.bufCount) || decide (t.mode = .direct)

/-- No trigger of the timestamper is queued or running: what `disable_mode` waits for (rule R507). -/
def Ts.triggersDone (t : Ts) : Bool := !t.irqBusy && !t.timerBusy && !t.workPending && !t.workerBusy

/-- The 2-bit field of a register at position `lo` (rule R163). -/
def speedField (lo : Nat) (s : U16) : BitVec 2 := s.extractLsb' lo 2

/-- The mask bit of a link mode; `DOWN` has none (rule R160). -/
def linkBit : LinkMode → U16
  | .down => 0
  | .full10 => Config.m10
  | .full100 => Config.m100
  | .full1000 => Config.m1000

/-- A link mode is `DOWN` or supported (the invariant of rule R53). -/
def linkAllowed (supported : U16) (m : LinkMode) : Bool :=
  decide (m = .down) || decide (linkBit m &&& supported ≠ 0)

/-- A decoded mode outside the supported set is reported as `DOWN` (rule R406). -/
def reportedMode (supported : U16) (m : LinkMode) : LinkMode := if linkAllowed supported m then m else .down

end Sys2Proof.Machine
end

