-- ==== Sys2Proof/Machine/Operands.lean ====
section
/-!
DEFINITION. The forms in which the block's operands travel: the wire formats of the backends
(spec/30_encoding.md rules R143 to R149, spec/40_register_bus.md rules R211, R214), the halves of a 32-bit access
(spec/20_memory.md rules R105, R117), the encodings of enumerated values (rules R160 to R162), the user-facing
records (rules R150, R152), and the arithmetic of times and steps (spec/41_nco.md rules R304, R306, R308, R310;
spec/43_timestamper.md rule R517).
-/

namespace Sys2Proof

/-! ### Codes of enumerated values -/

def Backend.code : Backend → Nat
  | .mmio => 0
  | .i2c => 1
  | .mdioSlave => 2
  | .mdioBridge => 3

/-- Adapter-variant values (rule R161). -/
def Variant.code : Variant → Nat
  | .none => 0
  | .alteraTse => 1
  | .sgmiiOr1000BaseX => 2
  | .sgmiiOr1000BaseXOr100BaseFX => 3
  | .only1000BaseX => 4
  | .only100BaseFX => 5
  | .mii => 6
  | .rmii => 7
  | .rgmii => 8

def Variant.ofCode : Nat → Variant
  | 1 => .alteraTse
  | 2 => .sgmiiOr1000BaseX
  | 3 => .sgmiiOr1000BaseXOr100BaseFX
  | 4 => .only1000BaseX
  | 5 => .only100BaseFX
  | 6 => .mii
  | 7 => .rmii
  | 8 => .rgmii
  | _ => .none

/-- SFP-type values (rule R162). -/
def SfpType.code : SfpType → Nat
  | .none => 0
  | .copperSgmii => 1
  | .fiber1000BaseX => 2
  | .fiber100BaseFX => 3

def SfpType.ofCode : Nat → SfpType
  | 1 => .copperSgmii
  | 2 => .fiber1000BaseX
  | 3 => .fiber100BaseFX
  | _ => .none

/-- PCS-mode values (rule R162). -/
def PcsMode.code : PcsMode → Nat
  | .none => 0
  | .sgmii => 1
  | .x1000 => 2
  | .fx100 => 3

def PcsMode.ofCode : Nat → PcsMode
  | 1 => .sgmii
  | 2 => .x1000
  | 3 => .fx100
  | _ => .none

/-- Link-mode values (rule R160). -/
def LinkMode.code : LinkMode → Nat
  | .down => 0
  | .full10 => 1
  | .full100 => 2
  | .full1000 => 3

def LinkMode.ofCode : Nat → LinkMode
  | 1 => .full10
  | 2 => .full100
  | 3 => .full1000
  | _ => .down

/-- Delivery-mode values (rule R155). -/
def DMode.code : DMode → Nat
  | .interrupt => 0
  | .poll => 1
  | .direct => 2

def DMode.ofCode : Nat → DMode
  | 0 => .interrupt
  | 1 => .poll
  | _ => .direct

/-- The delivery mode of a settings request's word; every other value is invalid (rule R155). -/
def DMode.ofWord (w : U32) : Option DMode :=
  if w = 0 then some .interrupt else if w = 1 then some .poll else if w = 2 then some .direct else none

/-- An SFP type is a fiber type (rules R409, R410). -/
def SfpType.fiber : SfpType → Bool
  | .fiber1000BaseX => true
  | .fiber100BaseFX => true
  | .copperSgmii => false
  | .none => false

end Sys2Proof

namespace Sys2Proof.Machine

/-! ### Addresses -/

/-- An odd address (rule R115). -/
def isOdd (a : U32) : Bool := a.getLsbD 0

/-- A multiple of 4 (rule R116). -/
def isAligned4 (a : U32) : Bool := decide (a &&& 3 = 0)

/-- The 16-bit register an address reaches: bit 0 is ignored (rules R100, R114). -/
def evenAddr (a : U32) : U32 := a &&& 0xFFFFFFFE

/-- The address of the high half, modulo 2^32 (rule R117). -/
def highAddr (a : U32) : U32 := a + 2

/-- A 32-bit value from its halves (rules R105, R203). -/
def joinHalves (high low : U16) : U32 := high ++ low

def lowHalf (v : U32) : U16 := v.extractLsb' 0 16

def highHalf (v : U32) : U16 := v.extractLsb' 16 16

/-- One half of a 32-bit register. -/
def halfOf (high : Bool) (v : U32) : U16 := if high then highHalf v else lowHalf v

/-- A 32-bit register after one of its halves is written. -/
def withHalf (high : Bool) (old : U32) (v : U16) : U32 :=
  if high then joinHalves v (lowHalf old) else joinHalves (highHalf old) v

/-! ### I2C frames (rules R143 to R145) -/

/-- The address frame of an I2C read: direction bit 1. -/
def i2cReadFrame (a : U32) : List Byte :=
  [a.extractLsb' 24 8, a.extractLsb' 16 8, a.extractLsb' 8 8, a.extractLsb' 0 8 ||| 0x01]

/-- The frame of an I2C write: direction bit 0, then the value high byte first. -/
def i2cWriteFrame (a : U32) (v : U16) : List Byte :=
  [a.extractLsb' 24 8, a.extractLsb' 16 8, a.extractLsb' 8 8, a.extractLsb' 0 8 &&& 0xFE,
    v.extractLsb' 8 8, v.extractLsb' 0 8]

/-- The data frame of an I2C read: the value high byte first (rules R107, R144). -/
def i2cDataFrame (v : U16) : List Byte := [v.extractLsb' 8 8, v.extractLsb' 0 8]

/-! ### MDIO words (rules R146 to R149, R211, R214) -/

/-- The `AA1` word: the high half of the address. -/
def aa1Word (a : U32) : U16 := a.extractLsb' 16 16

/-- The `AA0` word: address bits 15:1 and the direction bit. -/
def aa0Word (a : U32) (rw : U16) : U16 := (a.extractLsb' 0 16 &&& 0xFFFE) ||| rw

/-- The PHY part of a bridge address, before its range is checked. -/
def bridgePhy (k : Nat) (a : U32) : Nat := (a >>> k).toNat

/-- The bridge `AA` word: the low `k` address bits, bit 0 replaced by the direction. -/
def bridgeAA (k : Nat) (a : U32) (rw : U16) : U16 :=
  (((a.extractLsb' 0 16) &&& BitVec.ofNat 16 (2 ^ k - 1)) &&& 0xFFFE) ||| rw

/-! ### Times -/

/-- Nanosecond normalization (rule R304): the loop that moves whole seconds out of `nsec`, in closed form
(log entry 34). -/
def normalize (sec nsec : Nat) : Nat × Nat := (sec + nsec / Config.giga, nsec % Config.giga)

/-- The time of a latched read: 48-bit seconds and 30-bit nanoseconds, normalized (rules R305, R508). -/
def timeOfWords (secHi secLo nsec : U32) : U64 × U32 :=
  let t := normalize ((lowHalf secHi).toNat * 2 ^ 32 + secLo.toNat) (nsec.setWidth 30).toNat
  (BitVec.ofNat 64 t.1, BitVec.ofNat 32 t.2)

/-- The 48-bit counter of a latched read (rule R305). -/
def counterOfWords (cntHi cntLo : U32) : U48 := lowHalf cntHi ++ cntLo

/-- What `adjust_time` writes (rule R306): the signed request plus the current step's nanoseconds, normalized to
`0 <= nsec < 1e9`, seconds as 48-bit two's complement. -/
def adjustWords (sign : U32) (sec : U64) (nsec : U32) (step : Nat) : U48 × U32 :=
  let neg := decide (sign.toInt < 0)
  let s : Int := if neg then -(sec.toNat : Int) else sec.toNat
  let n : Int := (if neg then -(nsec.toNat : Int) else nsec.toNat) + step
  (BitVec.ofInt 48 (s + n / (Config.giga : Int)), BitVec.ofInt 32 (n % (Config.giga : Int)))

/-- `P_PPB_TO_DELTA` (rule R310): 0 for 0; the reference function where the board chooses it. -/
def ppbDelta (f : FunctionChoice) (scale : Nat) (ppb : U32) : Int :=
  match f with
  | .reference => Int.tdiv ((scale : Int) * ppb.toInt) (Config.giga : Int)
  | .platform => if ppb = 0 then 0 else Config.ppbToDelta scale ppb.toInt

/-- The step of `adjust_frequency` (rule R308): nominal plus delta, in units of 2^-32 ns; none when its
nanosecond part does not fit 0..63. -/
def newStep (nominal48 : Nat) (delta : Int) : Option (Nat × Nat) :=
  let v : Int := nominal48 + delta
  let n := v / (2 ^ 32 : Int)
  if n < 0 ∨ 63 < n then none else some (n.toNat, (v % (2 ^ 32 : Int)).toNat)

/-- `init_check` (rule R309). -/
def initCheckOk (c : InitCheck) (tSec tNsec hostSec hostNsec : Nat) : Bool :=
  match c with
  | .lexGt => decide (hostSec < tSec) || (decide (hostSec = tSec) && decide (hostNsec < tNsec))
  | .secGt => decide (hostSec < tSec)

/-- The nominal step of a probe (rule R311): module parameter, then property, then the default. -/
def nominalOf (param prop : Option StepReq) : StepReq :=
  match param with
  | some s => s
  | none =>
    match prop with
    | some s => s
    | none => Config.nominalDefault

/-- The poll period in host ticks (rule R517). -/
def pollTicks (hz : Nat) (sec : U64) (nsec : U32) : Nat :=
  max 1 (((sec.toNat * Config.giga + nsec.toNat) * hz + (Config.giga - 1)) / Config.giga)

/-! ### Records -/

/-- The bytes of a word in a byte order, `n` of them. -/
def bytesIn (e : Endian) (n v : Nat) : List Byte :=
  let little := (List.range n).map fun k => BitVec.ofNat 8 (v >>> (8 * k))
  match e with
  | .little => little
  | .big => little.reverse

/-- The user-facing event record, 16 bytes: `sec`, `nsec`, `counter` in this order (rule R150). -/
def Event.bytes (e : Endian) (ev : Event) : List Byte :=
  bytesIn e 8 ev.sec.toNat ++ (bytesIn e 4 ev.nsec.toNat ++ bytesIn e 4 ev.counter.toNat)

/-- The value of bytes in a byte order. -/
def valueOfBytes (e : Endian) (l : List Byte) : Nat :=
  let little := match e with
    | .little => l
    | .big => l.reverse
  little.foldr (fun b acc => b.toNat + 256 * acc) 0

end Sys2Proof.Machine

namespace Sys2Proof

/-- The value that the bytes of a record hold in a field. DESIGN CHOICE (log entry 35): where a layout gives a field fewer
bytes than its value has, the value is widened with zeros, a signed one too. -/
def fieldValue (e : Endian) (f : Field) (l : List Byte) : Nat := Machine.valueOfBytes e ((l.drop f.off).take f.size)

/-- The settings request that the bytes of a record hold: mode, and the poll interval's seconds and nanoseconds
(rule R151). -/
def Board.settingsRequest (b : Board) (l : List Byte) : U32 × U64 × U32 :=
  (BitVec.ofNat 32 (fieldValue b.hostEndian b.settingsLayout.mode l),
    BitVec.ofNat 64 (fieldValue b.hostEndian b.settingsLayout.pollSec l),
    BitVec.ofNat 32 (fieldValue b.hostEndian b.settingsLayout.pollNsec l))

/-- The clock-adjust request that the bytes of a record hold: sign, seconds and nanoseconds (rule R153; a narrow sign is
widened with zeros, log entry 35). -/
def Board.adjustRequest (b : Board) (l : List Byte) : U32 × U64 × U32 :=
  (BitVec.ofNat 32 (fieldValue b.hostEndian b.settingsLayout.adjSign l),
    BitVec.ofNat 64 (fieldValue b.hostEndian b.settingsLayout.adjSec l),
    BitVec.ofNat 32 (fieldValue b.hostEndian b.settingsLayout.adjNsec l))

/-- The frequency-adjust request that the bytes of a record hold (rule R154). -/
def Board.frequencyRequest (b : Board) (l : List Byte) : U32 :=
  BitVec.ofNat 32 (fieldValue b.hostEndian b.settingsLayout.freqAdjust l)

/-- Byte `k` of a record in which a field holds `v`; none where the field has no byte there. -/
def Field.byte (e : Endian) (f : Field) (v k : Nat) : Option Byte :=
  if f.off ≤ k then (Machine.bytesIn e f.size v)[k - f.off]? else none

/-- The size of the clock time record (`P_TIME_RECORD_PAD`, rule R152). -/
def Board.timeRecordSize (b : Board) : Nat := if b.timePad then 16 else 14

end Sys2Proof

namespace Sys2Proof.Machine

/-- Byte `k` of the clock time record: `sec`, `nsec`, `subnsec` in this order (rule R152); none for a byte of padding,
which has no value, and past the record. -/
def TimeResult.recordByte (b : Board) (t : TimeResult) (k : Nat) : Option Byte :=
  if k < 8 then (⟨0, 8⟩ : Field).byte b.hostEndian t.sec.toNat k
  else if k < 12 then (⟨8, 4⟩ : Field).byte b.hostEndian t.nsec.toNat k
  else (⟨12, 2⟩ : Field).byte b.hostEndian t.subnsec.toNat k

/-- Byte `k` of the `read_time` result: the time record, the counter and the source time, where the layout puts them
(`P_READ_RESULT_LAYOUT`, rule R152); none for a byte in which the layout puts nothing. DESIGN CHOICE (log entry 35): of
fields that a layout lets overlap, the byte is that of the first in this order: time record, counter, source seconds,
source nanoseconds. -/
def TimeResult.resultByte (b : Board) (t : TimeResult) (k : Nat) : Option Byte :=
  let l := b.readResultLayout
  if l.time ≤ k ∧ k < l.time + b.timeRecordSize then t.recordByte b (k - l.time)
  else
    match l.counter.byte b.hostEndian t.counter.toNat k with
    | some x => some x
    | none =>
      match l.srcSec.byte b.hostEndian t.srcSec.toNat k with
      | some x => some x
      | none => l.srcNsec.byte b.hostEndian t.srcNsec.toNat k

/-! ### Adapter -/

/-- PCS-mode selection (rule R405). -/
def choosePcs (v : Variant) (t : SfpType) : PcsMode :=
  match v with
  | .sgmiiOr1000BaseX =>
    match t with
    | .fiber1000BaseX => .x1000
    | .fiber100BaseFX => .x1000
    | .copperSgmii => .sgmii
    | .none => .sgmii
  | .sgmiiOr1000BaseXOr100BaseFX =>
    match t with
    | .fiber1000BaseX => .x1000
    | .fiber100BaseFX => .fx100
    | .copperSgmii => .sgmii
    | .none => .sgmii
  | .only1000BaseX => .x1000
  | .only100BaseFX => .fx100
  | .none => .none
  | .alteraTse => .none
  | .mii => .none
  | .rmii => .none
  | .rgmii => .none

/-- SFP-supported modes (rule R412). -/
def sfpModes : SfpType → U16
  | .none => Config.m10 ||| Config.m100 ||| Config.m1000
  | .copperSgmii => Config.m10 ||| Config.m100 ||| Config.m1000
  | .fiber1000BaseX => Config.m1000 ||| Config.mFiber
  | .fiber100BaseFX => Config.m100 ||| Config.mFiber

/-- The reference inference heuristic of rule R411. -/
def inferReference (phyOnSfpMdio : Bool) (supported : U16) : SfpType :=
  if phyOnSfpMdio then .copperSgmii
  else if supported &&& Config.m1000 ≠ 0 ∧ supported &&& Config.mFiber ≠ 0 then .fiber1000BaseX
  else if supported &&& Config.m100 ≠ 0 ∧ supported &&& Config.mFiber ≠ 0 then .fiber100BaseFX
  else .none

/-- `P_INFER_SFP` (rule R411). -/
def inferSfp (f : FunctionChoice) (phyOnSfpMdio : Bool) (supported : U16) : SfpType :=
  match f with
  | .reference => inferReference phyOnSfpMdio supported
  | .platform => Config.inferSfp phyOnSfpMdio supported

/-- SFP type determination (rule R410). -/
def sfpTypeOf (f : FunctionChoice) (i : PortInputs) (supported : U16) : SfpType :=
  if i.sfpEepromPresent then i.sfpEepromType
  else if i.extPhyAttached || i.sfpPhyAttached then (if i.sfpPhyAttached then .copperSgmii else .none)
  else inferSfp f i.phyOnSfpMdio supported

/-- What `init_adapter` advertises (rule R409). -/
def advertisedOf (i : PortInputs) (supported : U16) (t : SfpType) : U16 :=
  let byPhy : U16 :=
    if i.extPhyAttached || i.sfpPhyAttached then
      let one := if i.extPhyAttached then supported &&& (i.extPhyMask ||| Config.mFiber)
        else supported &&& (i.sfpPhyMask ||| Config.mFiber)
      if i.extPhyAttached && i.sfpPhyAttached && !i.sfpSeparate then one &&& (i.sfpPhyMask ||| Config.mFiber)
      else one
    else supported
  if t.fiber then byPhy else byPhy &&& ~~~Config.mFiber

/-- The best common link mode (rule R413). -/
def bestMode (a s : U16) : LinkMode :=
  if a &&& s &&& Config.m1000 ≠ 0 then .full1000
  else if a &&& s &&& Config.m100 ≠ 0 then .full100
  else if a &&& s &&& Config.m10 ≠ 0 then .full10
  else .down

/-- `P_ADP_ID_MAP`: a value the map does not name gives `None` (rules R161, R403). -/
def variantOfId (m : List (U16 × Variant)) (id : U16) : Variant :=
  match m.find? (fun e => decide (e.1 = id)) with
  | some e => e.2
  | none => .none

/-- `P_ADP_SETUP`: the list of writes; a `None` port has an empty list (rule R408). -/
def setupWrites (t : List SetupRow) (v : Variant) (pcs : PcsMode) (an : Bool) (m : LinkMode) : List (U32 × U16) :=
  if v = .none then []
  else
    match t.find? (fun r => decide (r.variant = v) && decide (r.pcs = pcs) && decide (r.an = an)
        && decide (r.desired = m)) with
    | some r => r.writes
    | none => []

end Sys2Proof.Machine
end

