-- ==== Sys2Proof/Machine/Ops.lean ====
section
/-!
DEFINITION. The named operations over the state that every meaning goes through: memories in canonical form, draws,
the record updates of instances and devices, the far-end register space behind a RegisterBus instance with the
register windows of the NCO, the timestamper and the adapter in it (spec/10_state.md rules R44, R50, R56, R61;
spec/20_memory.md rules R101, R105, R113), the hardware side of those registers (rules R51, R503), execution
contexts (spec/60_exceptions.md rule R620), and how an operation ends (rules R600, R612: the block has no trap, an
error is a return value).
-/

namespace Sys2Proof.Machine

/-! ### Memories -/

/-- The byte at an address; none where nothing is known of it. -/
def Memory.read : Memory → Nat → Option Byte
  | [], _ => none
  | (a, b) :: r, x => if x = a then some b else Memory.read r x

/-- Write a byte, keeping the canonical form. -/
def Memory.write : Memory → Nat → Byte → Memory
  | [], x, v => [(x, v)]
  | (a, b) :: r, x, v =>
    if x < a then (x, v) :: (a, b) :: r else if x = a then (x, v) :: r else (a, b) :: Memory.write r x v

/-- Write bytes at consecutive addresses. -/
def Memory.writeBytes : Memory → Nat → List Byte → Memory
  | m, _, [] => m
  | m, x, v :: r => Memory.writeBytes (Memory.write m x v) (x + 1) r

/-- The byte that the far end of an instance keeps at an address; none where nothing is known of it. -/
def State.farByte (s : State) (i x : Nat) : Option Byte :=
  match s.fars[i]? with
  | some e => Memory.read e.cells x
  | none => none

/-- The byte at an address of the running caller's buffer (rule R104). -/
def State.bufByte (s : State) (x : Nat) : Option Byte := Memory.read s.me.buffer x

/-- The `n` bytes from an address, if all are known. -/
def Memory.readBytes (m : Memory) : Nat → Nat → Option (List Byte)
  | _, 0 => some []
  | x, n + 1 =>
    match Memory.read m x, Memory.readBytes m (x + 1) n with
    | some b, some r => some (b :: r)
    | _, _ => none

/-! ### Draws (log entry 7) -/

/-- The value of the next draw: the environment's tape where it gives one, a free value otherwise. -/
def State.drawn (s : State) : Nat :=
  match s.tape with
  | v :: _ => v
  | [] => Config.free s.draws

/-- The state after a draw. -/
def State.afterDraw (s : State) : State := { s with tape := s.tape.tail, draws := s.draws + 1 }

/-- The state after `n` draws. -/
def State.afterDraws : Nat → State → State
  | 0, s => s
  | n + 1, s => State.afterDraws n s.afterDraw

/-- The draws that give a newly created part its unspecified cells, as those cells (log entry 5). -/
def State.cellsDrawn (s : State) (c : PowerOnCell) : Nat := (s.afterDraws c.place).drawn

/-! ### Record updates -/

def State.modRb (s : State) (i : Nat) (f : Rb → Rb) : State := { s with rbs := s.rbs.modify i f }

def State.modFar (s : State) (i : Nat) (f : FarEnd → FarEnd) : State := { s with fars := s.fars.modify i f }

def State.modNco (s : State) (d : Nat) (f : Nco → Nco) : State := { s with ncos := s.ncos.modify d f }

def State.modNcoHw (s : State) (d : Nat) (f : NcoHw → NcoHw) : State :=
  s.modNco d fun n => { n with hw := f n.hw }

/-- The place of port `p` in the list of ports; its end where there is no such port. A port is named by its `port` cell
(rules R52, R404). -/
def State.portPlace (s : State) (p : Nat) : Nat := s.ports.findIdx fun q => decide (q.port = p)

/-- Port `p`, if there is one. -/
def State.portAt (s : State) (p : Nat) : Option Port := s.ports[s.portPlace p]?

def State.modPort (s : State) (p : Nat) (f : Port → Port) : State :=
  { s with ports := s.ports.modify (s.portPlace p) f }

def State.modTs (s : State) (d : Nat) (f : Ts → Ts) : State := { s with tss := s.tss.modify d f }

def State.modTsHw (s : State) (d : Nat) (f : TsHw → TsHw) : State := s.modTs d fun t => { t with hw := f t.hw }

def State.setMe (s : State) (f : Agent → Agent) : State := { s with me := f s.me }

/-- Record a transaction on the wire (log entry 31). -/
def State.log (s : State) (i : Nat) (w : Wire) (ok : Bool) : State := { s with wire := ⟨i, w, ok⟩ :: s.wire }

/-! ### The register windows of the devices (rules R101, R118) -/

/-- What an address of an instance reaches: a half of a 32-bit device register, or an adapter register. -/
inductive Target where
  | nco (d : Nat) (r : NcoReg) (high : Bool)
  | ts (d : Nat) (r : TsReg) (high : Bool)
  | adp (p : Nat) (r : AdpReg)
deriving DecidableEq, Repr

/-- The instance a bus operand stands for, a released handle's too. -/
def State.instOf (s : State) : BusRef → Option Nat
  | .inst i => some i
  | .handle h =>
    match s.handles[h]? with
    | some x => some x.inst
    | none => none

/-- Which half of the 32-bit register at `base + off` the (even) address is, if either (rules R101, R105). -/
def hitHalf (base off a : U32) : Option Bool :=
  if a = evenAddr (base + off) then some false
  else if a = evenAddr (base + off) + 2 then some true
  else none

/-- The register of a block, among those listed, that an even address reaches. -/
def findReg {R : Type} (regs : List R) (off : R → U32) (base a : U32) : Option (R × Bool) :=
  regs.findSome? fun r =>
    match hitHalf base (off r) a with
    | some h => some (r, h)
    | none => none

/-- The base of a device's block if it lies on instance `i`. -/
def State.baseOn (s : State) (i : Nat) : Option Resource → Option U32
  | some r => if s.instOf r.bus = some i then some r.base else none
  | none => none

def State.ncoTarget (s : State) (regs : List NcoReg) (i : Nat) (a : U32) : Option Target :=
  s.ncos.zipIdx.reverse.findSome? fun e =>
    match s.baseOn i e.1.res with
    | none => none
    | some base =>
      match findReg regs s.board.ncoMap.off base a with
      | some (r, h) => some (.nco e.2 r h)
      | none => none

def State.tsTarget (s : State) (regs : List TsReg) (i : Nat) (a : U32) : Option Target :=
  s.tss.zipIdx.reverse.findSome? fun e =>
    match s.baseOn i e.1.res with
    | none => none
    | some base =>
      match findReg regs s.board.tsMap.off base a with
      | some (r, h) => some (.ts e.2 r h)
      | none => none

/-- The adapter register of a port at an even address (rule R56: 16-bit registers). -/
def State.adpTarget (s : State) (i : Nat) (a : U32) : Option Target :=
  s.ports.reverse.findSome? fun q =>
    match s.baseOn i q.res with
    | none => none
    | some base =>
      AdpReg.readable.findSome? fun r =>
        match s.board.adpMap.off r q.variant with
        | some off => if a = evenAddr (base + off) then some (.adp q.port r) else none
        | none => none

/-- What a read of an even address reaches; where blocks overlap an NCO comes before a timestamper and that before an
adapter port, and of one kind the device created last wins (log entry 10). -/
def State.readTarget (s : State) (i : Nat) (a : U32) : Option Target :=
  match s.ncoTarget NcoReg.readable i a with
  | some t => some t
  | none =>
    match s.tsTarget TsReg.readable i a with
    | some t => some t
    | none => s.adpTarget i a

/-- What a write of an even address reaches; adapter control writes have no cell of their own (rule R56). -/
def State.writeTarget (s : State) (i : Nat) (a : U32) : Option Target :=
  match s.ncoTarget NcoReg.writable i a with
  | some t => some t
  | none => s.tsTarget TsReg.writable i a

/-! ### The hardware side of the registers -/

/-- `v` in the low `w` bits, the draw `x` above them. -/
def overDraw (w : Nat) (v x : U32) : U32 :=
  let m : U32 := BitVec.ofNat 32 (2 ^ w - 1)
  (x &&& ~~~m) ||| (v &&& m)

/-- Whether a read of an NCO register takes a draw (rules R49, R50). -/
def ncoRegDraws : NcoReg → Bool
  | .cntLo => false
  | .secLo => false
  | _ => true

/-- The word an NCO register shows, the draw `x` where the spec leaves bits open (rules R49, R50). -/
def NcoHw.word (h : NcoHw) (b : Board) (x : U32) : NcoReg → U32
  | .cmd => h.cmdWord b x
  | .cntLo => h.latCntLo
  | .cntHi => overDraw 16 h.latCntHi x
  | .secLo => h.latSecLo
  | .secHi => overDraw 16 h.latSecHi x
  | .nsec => overDraw 30 h.latNsec x
  | .subnsec => x
  | .stepNsec => x
  | .stepSubnsec => x
  | .adjSecHi => x
  | .adjSecLo => x
  | .adjNsec => x

/-- Whether a read of a timestamper register takes a draw (rule R61). -/
def tsRegDraws : TsReg → Bool
  | .secLo => false
  | .counter => false
  | _ => true

/-- The word a timestamper register shows (rule R61). -/
def TsHw.word (h : TsHw) (b : Board) (x : U32) : TsReg → U32
  | .status => h.statusWord b x
  | .secLo => h.latSec.extractLsb' 0 32
  | .secHi => overDraw 16 ((h.latSec.extractLsb' 32 16).setWidth 32) x
  | .nsec => overDraw 30 (h.latNsec.setWidth 32) x
  | .counter => h.latCounter
  | .ack => x
  | .arm => x
  | .irqEn => x

/-- The word an adapter register shows (rule R56). -/
def Port.word (p : Port) : AdpReg → U16
  | .id => p.hwId
  | .status => p.hwStatus
  | .pcsStatus => p.hwPcs

/-- What a register write carries: all 32 bits, or one half (log entry 9). -/
inductive Part where
  | whole (v : U32)
  | half (high : Bool) (v : U16)
deriving DecidableEq, Repr

/-- A staging cell after a write. -/
def Part.over (p : Part) (old : U32) : U32 :=
  match p with
  | .whole v => v
  | .half h v => withHalf h old v

/-- The bits a write sets, the others 0. -/
def Part.bits (p : Part) : U32 := p.over 0

/-- A write to an NCO register (rules R50, R51, R302). -/
def NcoHw.store (h : NcoHw) (b : Board) (r : NcoReg) (p : Part) : NcoHw :=
  match r with
  | .cmd => h.addPending b p.bits
  | .stepNsec => { h with stageStepNsec := p.over h.stageStepNsec }
  | .stepSubnsec => { h with stageStepSubnsec := p.over h.stageStepSubnsec }
  | .adjSecHi => { h with stageAdjSecHi := p.over h.stageAdjSecHi }
  | .adjSecLo => { h with stageAdjSecLo := p.over h.stageAdjSecLo }
  | .adjNsec => { h with stageAdjNsec := p.over h.stageAdjNsec }
  | .cntLo => h
  | .cntHi => h
  | .secLo => h
  | .secHi => h
  | .nsec => h
  | .subnsec => h

/-- The action of a 32-bit word written to the acknowledge, re-arm or interrupt-enable register (rule R503).
DESIGN CHOICE (log entry 40): where `P_TS_IRQ_ON` and `P_TS_IRQ_OFF` are equal, a write of that value is one of
`P_TS_IRQ_ON`. -/
def TsHw.act (h : TsHw) (b : Board) (r : TsReg) (v : U32) : TsHw :=
  match r with
  | .ack => if v = b.ackVal then { h with pending := false } else h
  | .arm => if v = b.armVal then { h with armed := true } else h
  | .irqEn =>
    if v = b.irqOn then { h with irqEn := true }
    else if v = b.irqOff then { h with irqEn := false }
    else h
  | .status => h
  | .secLo => h
  | .secHi => h
  | .nsec => h
  | .counter => h

/-- The low half of an action register is kept until its high half is written (log entry 9). -/
def TsHw.keepLow (h : TsHw) (r : TsReg) (v : U16) : TsHw :=
  match r with
  | .ack => { h with ackLow := v }
  | .arm => { h with armLow := v }
  | .irqEn => { h with irqLow := v }
  | .status => h
  | .secLo => h
  | .secHi => h
  | .nsec => h
  | .counter => h

/-- The low half kept for an action register. -/
def TsHw.lowKept (h : TsHw) : TsReg → U16
  | .ack => h.ackLow
  | .arm => h.armLow
  | .irqEn => h.irqLow
  | _ => 0

/-- A write to a timestamper register (rules R61, R503). -/
def TsHw.store (h : TsHw) (b : Board) (r : TsReg) (p : Part) : TsHw :=
  match p with
  | .whole v => h.act b r v
  | .half false v => h.keepLow r v
  | .half true v => h.act b r (joinHalves v (h.lowKept r))

/-! ### Far-end reads and writes -/

/-- The word behind a target, and the state after the draw it may take. -/
def State.readWord (s : State) : Target → U32 × State
  | .nco d r _ =>
    match s.ncos[d]? with
    | some n =>
      if ncoRegDraws r then (n.hw.word s.board (BitVec.ofNat 32 s.drawn) r, s.afterDraw) else (n.hw.word s.board 0 r, s)
    | none => (BitVec.ofNat 32 s.drawn, s.afterDraw)
  | .ts d r _ =>
    match s.tss[d]? with
    | some t =>
      if tsRegDraws r then (t.hw.word s.board (BitVec.ofNat 32 s.drawn) r, s.afterDraw) else (t.hw.word s.board 0 r, s)
    | none => (BitVec.ofNat 32 s.drawn, s.afterDraw)
  | .adp p r =>
    match s.portAt p with
    | some q => ((q.word r).setWidth 32, s)
    | none => (BitVec.ofNat 32 s.drawn, s.afterDraw)

/-- Which half of its word a target is. -/
def Target.high : Target → Bool
  | .nco _ _ h => h
  | .ts _ _ h => h
  | .adp _ _ => false

/-- The state after a register write. -/
def State.storeWord (s : State) (t : Target) (p : Part) : State :=
  match t with
  | .nco d r _ => s.modNcoHw d fun h => h.store s.board r p
  | .ts d r _ => s.modTsHw d fun h => h.store s.board r p
  | .adp _ _ => s

/-- The byte order in which the far end of an instance keeps a 16-bit register: `P_MMIO_ENDIAN` (rule R108). -/
def State.farOrder (s : State) (i : Nat) : Endian :=
  match s.rbs[i]? with
  | some rb => rb.cfg.mmioEndian
  | none => .little

/-- The value of the register that a keeping far end has at an (even) address, if it is known (log entry 11). -/
def FarEnd.stored (e : FarEnd) (o : Endian) (a : U32) : Option U16 :=
  if e.keeps then
    match Memory.readBytes e.cells a.toNat 2 with
    | some l => some (BitVec.ofNat 16 (valueOfBytes o l))
    | none => none
  else none

/-- A far end after a write of the unmodelled register at an (even) address: nothing is recorded unless the far end
keeps what is written (rule R44, log entry 11). -/
def FarEnd.store (e : FarEnd) (o : Endian) (a : U32) (v : U16) : FarEnd :=
  { e with cells := if e.keeps then Memory.writeBytes e.cells a.toNat (bytesIn o 2 v.toNat) else e.cells }

/-- The value kept at an (even) address of instance `i`, if any. -/
def State.storedAt (s : State) (i : Nat) (a : U32) : Option U16 :=
  match s.fars[i]? with
  | some e => e.stored (s.farOrder i) a
  | none => none

/-- A 16-bit read of the far-end register at `a` (bit 0 ignored): a device register's half, a value that the far end
keeps, or a draw (rules R44, R50, R56, R61). -/
def State.farRead16 (s : State) (i : Nat) (a : U32) : U16 × State :=
  match s.readTarget i (evenAddr a) with
  | some t => (halfOf t.high (s.readWord t).1, (s.readWord t).2)
  | none =>
    match s.storedAt i (evenAddr a) with
    | some v => (v, s)
    | none => (BitVec.ofNat 16 s.drawn, s.afterDraw)

/-- A 16-bit write of the far-end register at `a` (bit 0 ignored). -/
def State.farWrite16 (s : State) (i : Nat) (a : U32) (v : U16) : State :=
  match s.writeTarget i (evenAddr a) with
  | some t => s.storeWord t (.half t.high v)
  | none => s.modFar i fun e => e.store (s.farOrder i) (evenAddr a) v

/-- A 32-bit read in one transaction (rule R207): a whole device register, or the two 16-bit registers, the low half at
`a` (rule R105). DESIGN CHOICE (log entry 38): so stands the low half in every 32-bit value, native or not, and
`P_MMIO_ENDIAN` orders the two bytes of a 16-bit register only, where rule R108 speaks of a 32-bit access too. -/
def State.farRead32 (s : State) (i : Nat) (a : U32) : U32 × State :=
  match s.readTarget i a with
  | some (.nco d r false) => s.readWord (.nco d r false)
  | some (.ts d r false) => s.readWord (.ts d r false)
  | _ =>
    let lo := s.farRead16 i a
    let hi := lo.2.farRead16 i (highAddr a)
    (joinHalves hi.1 lo.1, hi.2)

/-- A 32-bit write in one transaction (rule R208): a whole device register, or the two 16-bit registers, the low half
at `a` (rule R105, log entry 38). -/
def State.farWrite32 (s : State) (i : Nat) (a v : U32) : State :=
  match s.writeTarget i a with
  | some (.nco d r false) => s.storeWord (.nco d r false) (.whole v)
  | some (.ts d r false) => s.storeWord (.ts d r false) (.whole v)
  | _ => (s.farWrite16 i a (lowHalf v)).farWrite16 i (highAddr a) (highHalf v)

/-- An event-check, issued by itself or run by one of its triggers (rules R508, R510, R511). -/
def checkOp : Option Instr → Bool
  | some (.eventCheck _) => true
  | some (.tsIrq _) => true
  | some (.workerRun _) => true
  | _ => false

/-- The 16-bit write that a failed transaction made of the far-end register at `a`: it may have reached the register
(rule R202), but not the acknowledge of an event-check: after an `E_IO` there "`pending` stays set" (rule R508). -/
def State.landWrite16 (s : State) (i : Nat) (a : U32) (v : U16) : State :=
  match s.writeTarget i (evenAddr a) with
  | some (.ts _ .ack _) => if checkOp s.me.op then s else s.farWrite16 i a v
  | _ => s.farWrite16 i a v

/-- The far end after a bus reset (rule R217, log entry 24). -/
def FarEnd.reset (e : FarEnd) (o : Endian) (x : ResetEffect) : FarEnd :=
  match x with
  | .keep => e
  | .forget => { e with cells := [] }
  | .load cells => cells.foldl (fun e c => e.store o (evenAddr c.1) c.2) e

/-- The machine after a bus reset of instance `i` has reached its far end (`P_RESET_EFFECT`, rule R217). -/
def State.resetFar (s : State) (i : Nat) : State :=
  match s.rbs[i]? with
  | some rb => s.modFar i fun e => e.reset rb.cfg.mmioEndian rb.cfg.resetEffect
  | none => s

/-! ### Contexts (rule R620) -/

/-- An operation that runs in atomic context: `ts_irq` and `poll_fire`. -/
def atomicOp : Option Instr → Bool
  | some (.tsIrq _) => true
  | some (.pollFire _) => true
  | _ => false

/-- The running agent is in atomic context: it runs `ts_irq` or `poll_fire`, or holds the spinlock of an MMIO NCO
(rule R620). -/
def State.atomic (s : State) : Bool :=
  atomicOp s.me.op || s.ncos.any fun n => n.spin && decide (n.lock = some s.me.id)

/-! ### How an operation ends -/

/-- The operation returns: its result goes to the agent, which is ready for its next operation (rules R173, R600,
R612). -/
def State.finish (s : State) (r : Except Err Res) : State :=
  s.setMe fun a => { a with op := none, hist := [], blocked := none, result := some r }

/-- The operation stops for now, having had these answers (rule R41). -/
def State.suspend (s : State) (l : List Nat) : State := s.setMe fun a => { a with hist := l }

/-- `fault F` (rule R610): the agent is stopped and takes no further step; what it holds it keeps (log entry 30). -/
def State.halt (s : State) (f : Fault) : State :=
  s.setMe fun a => { a with op := none, hist := [], blocked := none, stopped := some (a.stopped.getD f) }

/-- The agent begins an operation. -/
def State.start (s : State) (i : Instr) : State :=
  { s with cut := none, me := { s.me with op := some i, hist := [], blocked := none } }

/-- The agent goes on with its operation. -/
def State.resume (s : State) : State := { s with cut := none, me := { s.me with blocked := none } }

end Sys2Proof.Machine
end

