-- ==== Sys2Proof/Machine/Hardware.lean ====
section
/-!
DEFINITION. The steps of the hardware and of the outside world that make no bus transaction: the NCO tick
(spec/41_nco.md rule R301), the completion of NCO commands (rule R302), the capture of a pulse
(spec/43_timestamper.md rule R502), the host tick (spec/60_exceptions.md rule R626), and the changes the host makes
from outside (rules R54, R414, R611, R701, R703).
-/

namespace Sys2Proof.Machine

/-! ### The NCO tick (rule R301) -/

/-- `add_step`: nanoseconds, seconds and fraction after the step is added; one second is carried. -/
def NcoHw.addStep (h : NcoHw) (n : Nat) (s : Int) : Nat × Int × U32 :=
  let f := h.frac.toNat + h.stepSubnsec.toNat
  let n1 := n + h.stepNsec.toNat + f / 2 ^ 32
  if Config.giga ≤ n1 then (n1 - Config.giga, s + 1, BitVec.ofNat 32 f) else (n1, s, BitVec.ofNat 32 f)

/-- The staged adjustment: signed 48-bit seconds and 30-bit nanoseconds (rule R301). -/
def NcoHw.adjSec (h : NcoHw) : Int := (lowHalf h.stageAdjSecHi ++ h.stageAdjSecLo : U48).toInt

def NcoHw.adjNsec (h : NcoHw) : Nat := (h.stageAdjNsec.setWidth 30).toNat

/-- The tick that applies a pending adjustment (rules R301, R313). -/
def NcoHw.tickAdjust (h : NcoHw) (replaces : Bool) : NcoHw :=
  let n := h.nsec.toNat + h.adjNsec
  let s := (h.sec.toNat : Int) + h.adjSec
  let r := if replaces then (n, s, h.frac) else h.addStep n s
  { h with
    counter := h.counter + 1
    sec := BitVec.ofInt 48 (r.2.1 + (r.1 / Config.giga : Nat))
    nsec := BitVec.ofNat 30 (r.1 % Config.giga)
    frac := r.2.2
    pendAdjClock := false }

/-- A tick that adds the step (rule R301). -/
def NcoHw.tickNormal (h : NcoHw) : NcoHw :=
  let r := h.addStep h.nsec.toNat h.sec.toNat
  { h with
    counter := h.counter + 1
    sec := BitVec.ofInt 48 r.2.1
    nsec := BitVec.ofNat 30 r.1
    frac := r.2.2 }

/-- The NCO tick; `apply` is the hardware's choice to apply a pending adjustment now. -/
def NcoHw.tick (h : NcoHw) (replaces apply : Bool) : NcoHw :=
  if h.pendAdjClock && apply then h.tickAdjust replaces else h.tickNormal

/-! ### Command completion (rule R302) -/

/-- `READ`: the five latched values are one snapshot. -/
def NcoHw.latch (h : NcoHw) : NcoHw :=
  { h with
    latCntLo := h.counter.extractLsb' 0 32
    latCntHi := withHalf false h.latCntHi (h.counter.extractLsb' 32 16)
    latSecLo := h.sec.extractLsb' 0 32
    latSecHi := withHalf false h.latSecHi (h.sec.extractLsb' 32 16)
    latNsec := overDraw 30 (h.nsec.setWidth 32) h.latNsec
    pendRead := false }

/-- `ADJ_STEP`: the staged step becomes the active step. -/
def NcoHw.takeStep (h : NcoHw) : NcoHw :=
  { h with
    stepNsec := h.stageStepNsec.setWidth 6
    stepSubnsec := h.stageStepSubnsec
    pendAdjStep := false }

/-- The completion of a pending command; `ADJ_CLOCK` is applied at one tick (rules R301, R302, log entry 16). -/
def NcoHw.complete (h : NcoHw) (replaces : Bool) : Cmd → NcoHw
  | .read => h.latch
  | .adjClock => h.tick replaces true
  | .adjStep => h.takeStep

/-- The NCO's tick as a step of the machine. -/
def State.ncoTick (s : State) (d : Nat) (apply : Bool) : State :=
  s.modNcoHw d fun h => h.tick s.board.adjReplacesStep apply

/-- The completion of a command that is pending; nothing happens to one that is not. -/
def State.ncoComplete (s : State) (d : Nat) (c : Cmd) : State :=
  s.modNcoHw d fun h => if h.pending c then h.complete s.board.adjReplacesStep c else h

/-! ### Capture (rule R502) -/

/-- The capture of a pulse at the drawn time. -/
def TsHw.capture (h : TsHw) (sec nsec : Nat) : TsHw :=
  { h with
    pulseCount := h.pulseCount + 1
    latSec := BitVec.ofNat 48 sec
    latNsec := BitVec.ofNat 30 nsec
    latCounter := h.pulseCount + 1
    pending := true
    armed := false }

/-- A pulse while not armed is only counted. -/
def TsHw.count (h : TsHw) : TsHw := { h with pulseCount := h.pulseCount + 1 }

/-- An input pulse at timestamper `d`. -/
def State.tsPulse (s : State) (d : Nat) : State :=
  match s.tss[d]? with
  | none => s
  | some t =>
    if t.hw.armed then
      (s.modTsHw d fun h => h.capture s.drawn s.afterDraw.drawn).afterDraws 2
    else s.modTsHw d TsHw.count

/-- `host_tick` (rule R626). -/
def State.hostTick (s : State) : State := { s with hostTicks := s.hostTicks + 1 }

/-! ### The outside (log entry 3) -/

/-- A backend creates an RB instance, with the name and the id it sets, and the host binds it to a topology key (rules
R42, R218, R701). The operations name an instance by its place in the list, whatever its id (log entry 1). DESIGN CHOICE
(log entry 47): a key that was bound before names the new instance from now on. -/
def State.attach (s : State) (t : Nat) (name : String) (id : Nat) (b : Backend) (native32 hasReset keeps : Bool)
    (cfg : RbCfg) : State :=
  { s with
    rbs := s.rbs ++ [Rb.create id name b native32 hasReset cfg]
    fars := s.fars ++ [⟨keeps, []⟩]
    topo := (t, s.rbs.length) :: s.topo }

/-- A step of the hardware or of the outside. -/
def State.env (s : State) : Env → State
  | .ncoTick d apply => s.ncoTick d apply
  | .ncoComplete d c => s.ncoComplete d c
  | .tsPulse d => s.tsPulse d
  | .hostTick => s.hostTick
  | .adapterHw p id status pcs => s.modPort p fun q => { q with hwId := id, hwStatus := status, hwPcs := pcs }
  | .portInputs p inputs => s.modPort p fun q => { q with inputs := inputs }
  | .removeNco d => s.modNco d fun n => { n with removed := true }
  | .removePort p => s.modPort p fun q => { q with removed := true }
  | .removeTs d => s.modTs d fun t => { t with removed := true }
  | .attach t name id b native32 hasReset keeps cfg => s.attach t name id b native32 hasReset keeps cfg

end Sys2Proof.Machine
end

