-- ==== Sys2Proof/Machine/Program.lean ====
section
/-!
DEFINITION. How an operation runs (spec/10_state.md rule R41, spec/20_memory.md rules R110, R120): an operation is
written as an `Op`, the pseudocode of its rule as a sequence of atomic steps on cells and bus transactions, with the
spec's `Result` and `?` (spec/00_scope.md rule R13). The operation may be put aside before any of its steps, and another
agent may step before each transaction; the answers an operation has had are kept in State, so it goes on where it was
(log entry 3).
-/

namespace Sys2Proof.Machine

/-- The outcome type of the machine. -/
abbrev Outcome := Host.Outcome State Fault Refusal

/-- What an atomic step does: it answers and the operation goes on, or the agent blocks there, or a fault stops the
agent there, or the state is refused. -/
inductive Ans where
  | go (n : Nat) (s : State)
  | block (s : State)
  | fault (f : Fault) (s : State)
  | refuse (r : Refusal)

/-- How the transport treats a transaction (log entry 8). -/
inductive Verdict where
  | ok
  | fail (landed : Bool)
deriving DecidableEq, Repr

/-- An operation: it returns, or makes an atomic step on cells, or a bus transaction, and goes on from the answer;
`again n` goes back to where it had had `n` answers. -/
inductive Op (α : Type) where
  | ret (a : α)
  | act (f : State → Ans) (k : Nat → Op α)
  | txn (f : Verdict → State → Ans) (k : Nat → Op α)
  | again (n : Nat)

/-- One operation after another. -/
def Op.bind {α β : Type} : Op α → (α → Op β) → Op β
  | .ret a, g => g a
  | .act f k, g => .act f fun n => (k n).bind g
  | .txn f k, g => .txn f fun n => (k n).bind g
  | .again n, _ => .again n

/-- The `?` of rule R13: an error ends the operation, a value goes on. -/
def Op.q {α β : Type} (x : Op (Except Err α)) (g : α → Op (Except Err β)) : Op (Except Err β) :=
  x.bind fun r =>
    match r with
    | .error e => .ret (.error e)
    | .ok a => g a

/-- `return Ok v`. -/
def Op.ok {α : Type} (a : α) : Op (Except Err α) := .ret (.ok a)

/-- `raise E` (rule R600). -/
def Op.raise {α : Type} (e : Err) : Op (Except Err α) := .ret (.error e)

/-- `fault F` (rule R610). -/
def Op.fault {α : Type} (f : Fault) : Op α := .act (fun s => .fault f s) fun _ => .again 0

/-- `refuse X` (rule R611). -/
def Op.refuse {α : Type} (r : Refusal) : Op α := .act (fun _ => .refuse r) fun _ => .again 0

/-- An atomic step whose answer is a number. -/
def Op.step (f : State → Ans) : Op Nat := .act f .ret

/-- A bus transaction whose answer is a number. -/
def Op.xfer (f : Verdict → State → Ans) : Op Nat := .txn f .ret

/-- Read cells. -/
def Op.get (f : State → Nat) : Op Nat := .act (fun s => .go (f s) s) .ret

/-- Read a condition on cells. -/
def Op.test (f : State → Bool) : Op Bool := .act (fun s => .go (f s).toNat s) fun n => .ret (n != 0)

/-- Write cells. -/
def Op.set (f : State → State) : Op Unit := .act (fun s => .go 0 (f s)) fun _ => .ret ()

/-- Answers of fallible transactions as numbers: 0 an error, `n + 1` the value `n`. -/
def Op.resultOf : Nat → Except Err Nat
  | 0 => .error .io
  | n + 1 => .ok n

/-- A bus transaction that can fail with `E_IO` (rule R220). -/
def Op.tryXfer (f : Verdict → State → Ans) : Op (Except Err Nat) := .txn f fun n => .ret (resultOf n)

/-! ### The points where others step -/

/-- What the turns say at such a point. -/
inductive TurnResult where
  | go (v : Verdict) (s : State)
  | stop (s : State)

/-- Take the turns up to the next transaction. -/
def takeTurns : List Turn → State → TurnResult
  | [], s => .go .ok { s with turns := [] }
  | .go :: r, s => .go .ok { s with turns := r }
  | .fail l :: r, s => .go (.fail l) { s with turns := r }
  | .preempt :: r, s => .stop { s with turns := r }
  | .env e :: r, s => takeTurns r (s.env e)

/-! ### Running an operation -/

/-- One step more of a number that may bound them: what is left of it; none where nothing is. -/
def spend : Option Nat → Option (Option Nat)
  | none => some none
  | some 0 => none
  | some (n + 1) => some (some n)

/-- Run an operation for the running agent from a state: first over the answers it had before (`replay`), then on
until it returns, blocks, is put aside or is stopped; `left` bounds the steps it may make, and `seen` is every answer it
has had, which is kept when it does not return. -/
def Op.run : Op (Except Err Res) → (left : Option Nat) → (replay seen : List Nat) → State → Outcome
  | .ret r, _, _, _, s => .next (s.finish r)
  | .again n, _, _, seen, s => .next (s.suspend (seen.take n))
  | .act _ k, c, n :: h, seen, s => (k n).run c h seen s
  | .txn _ k, c, n :: h, seen, s => (k n).run c h seen s
  | .act f k, c, [], seen, s =>
    match spend c with
    | none => .next (s.suspend seen)
    | some c =>
      match f s with
      | .go n t => (k n).run c [] (seen ++ [n]) t
      | .block t => .next (t.suspend seen)
      | .fault x t => .next (t.halt x)
      | .refuse x => .refused x
  | .txn f k, c, [], seen, s =>
    match spend c with
    | none => .next (s.suspend seen)
    | some c =>
      match takeTurns s.turns s with
      | .stop t => .next (t.suspend seen)
      | .go v t =>
        match f v t with
        | .go n u => (k n).run c [] (seen ++ [n]) u
        | .block u => .next (u.suspend seen)
        | .fault x u => .next (u.halt x)
        | .refuse x => .refused x

/-- How many steps the running agent may make: no bound, or one more than its move says. -/
def State.left (s : State) : Option Nat :=
  match s.cut with
  | none => none
  | some n => some (n + 1)

/-- The running agent performs an operation: it begins it, or goes on with it where it was put aside. -/
def State.perform (s : State) (i : Instr) (o : Op (Except Err Res)) : Outcome :=
  if s.me.op = some i then o.run s.left s.me.hist s.me.hist s.resume else o.run s.left [] [] (s.start i)

/-! ### Steps on instances and devices -/

/-- A step on an RB instance. -/
def State.onRb (s : State) (i : Nat) (f : Rb → Ans) : Ans :=
  match s.rbs[i]? with
  | some rb => f rb
  | none => .refuse .noSuchUnit

/-- A step on an NCO device. -/
def State.onNco (s : State) (d : Nat) (f : Nco → Ans) : Ans :=
  match s.ncos[d]? with
  | some n => f n
  | none => .refuse .noSuchUnit

/-- A step on an adapter port. -/
def State.onPort (s : State) (p : Nat) (f : Port → Ans) : Ans :=
  match s.portAt p with
  | some q => f q
  | none => .refuse .noSuchUnit

/-- A step on a timestamper. -/
def State.onTs (s : State) (d : Nat) (f : Ts → Ans) : Ans :=
  match s.tss[d]? with
  | some t => f t
  | none => .refuse .noSuchUnit

/-- Block the running agent, saying what it waits for. -/
def State.blockOn (s : State) (w : WaitKind) : Ans := .block (s.setMe fun a => { a with blocked := some w })

end Sys2Proof.Machine
end

