-- ==== Sys2Proof/Machine/RegisterBus.lean ====
section
/-!
DEFINITION. The RegisterBus operations and backends (spec/40_register_bus.md rules R200 to R222): context check,
handle resolution, the four backends' 16-bit accesses, the native and the decomposed 32-bit accesses, `reset`,
`lookup` and `release`. Every access of the NCO, adapter and timestamper goes through `read16On`, `write16On`,
`read32On` and `write32On`.
-/

namespace Sys2Proof.Machine

/-! ### Instances and contexts -/

/-- The instance a bus operand names; a use of a handle that is not held faults (rules R219, R610). -/
def State.resolve (s : State) (b : BusRef) : Ans :=
  match b with
  | .inst i => if i < s.rbs.length then .go i s else .refuse .noSuchUnit
  | .handle h =>
    match s.handles[h]? with
    | none => .fault .doubleRelease s
    | some x => if x.released then .fault .doubleRelease s else .go x.inst s

def resolveBus (b : BusRef) : Op Nat := .step fun s => s.resolve b

/-- `context_check()` (rule R221). -/
def contextCheck (i : Nat) : Op Nat :=
  .step fun s => s.onRb i fun rb => if rb.sleeps && s.atomic then .fault .atomicSleep s else .go 0 s

/-- The alignment check of a 16-bit access on MMIO and MDIO (rule R115), then the access. -/
def evenOnly {α : Type} (a : U32) (x : Op α) : Op α := if isOdd a then .fault .misaligned else x

/-- The alignment check of a native 32-bit access (rule R116), then the access. -/
def alignedOnly {α : Type} (a : U32) (x : Op α) : Op α := if isAligned4 a then x else .fault .misaligned

/-- A number as a 16-bit or 32-bit result. -/
def asVal16 (x : Op (Except Err Nat)) : Op (Except Err Res) := x.q fun n => .ok (.val16 (BitVec.ofNat 16 n))

def asVal32 (x : Op (Except Err Nat)) : Op (Except Err Res) := x.q fun n => .ok (.val32 (BitVec.ofNat 32 n))

def asUnit (x : Op (Except Err Nat)) : Op (Except Err Res) := x.q fun _ => .ok .unit

/-! ### MMIO (rules R205 to R208): no error is returned -/

/-- A load or store that completes, whatever the turn says (log entry 8). -/
def mmioXfer (i : Nat) (f : Rb → State → Ans) : Op (Except Err Nat) :=
  (Op.xfer fun _ s => s.onRb i fun rb => f rb s).bind fun n => .ok n

def mmioRead16On (i : Nat) (a : U32) : Op (Except Err Nat) :=
  evenOnly a <| mmioXfer i fun rb s =>
    let r := s.farRead16 i a
    .go r.1.toNat (r.2.log i (.ioLoad (rb.cfg.mmioBase + a.toNat) 2 (r.1.setWidth 32)) true)

def mmioWrite16On (i : Nat) (a : U32) (v : U16) : Op (Except Err Nat) :=
  evenOnly a <| mmioXfer i fun rb s =>
    .go 0 ((s.farWrite16 i a v).log i (.ioStore (rb.cfg.mmioBase + a.toNat) 2 (v.setWidth 32)) true)

def nativeRead32On (i : Nat) (a : U32) : Op (Except Err Nat) :=
  alignedOnly a <| mmioXfer i fun rb s =>
    let r := s.farRead32 i a
    .go r.1.toNat (r.2.log i (.ioLoad (rb.cfg.mmioBase + a.toNat) 4 r.1) true)

def nativeWrite32On (i : Nat) (a v : U32) : Op (Except Err Nat) :=
  alignedOnly a <| mmioXfer i fun rb s =>
    .go 0 ((s.farWrite32 i a v).log i (.ioStore (rb.cfg.mmioBase + a.toNat) 4 v) true)

/-! ### I2C (rules R209, R210) -/

def i2cRead16On (i : Nat) (a : U32) : Op (Except Err Nat) :=
  .tryXfer fun v s => s.onRb i fun rb =>
    match v with
    | .fail _ => .go 0 (s.log i (.i2c rb.cfg.i2cSlave (i2cReadFrame a) []) false)
    | .ok =>
      let r := s.farRead16 i a
      .go (r.1.toNat + 1) (r.2.log i (.i2c rb.cfg.i2cSlave (i2cReadFrame a) (i2cDataFrame r.1)) true)

/-- After an `E_IO` the far-end register may or may not hold the value (rule R202): the turn says which
(`State.landWrite16`). -/
def i2cWrite16On (i : Nat) (a : U32) (v : U16) : Op (Except Err Nat) :=
  .tryXfer fun vd s => s.onRb i fun rb =>
    match vd with
    | .fail landed =>
      .go 0 ((if landed then s.landWrite16 i a v else s).log i (.i2c rb.cfg.i2cSlave (i2cWriteFrame a v) []) false)
    | .ok => .go 1 ((s.farWrite16 i a v).log i (.i2c rb.cfg.i2cSlave (i2cWriteFrame a v) []) true)

/-! ### MDIO (rules R111, R211 to R216) -/

/-- The beginning of an MDIO access: it faults when another agent's access on the instance is unfinished (rule R111),
and marks this one unfinished, so that none can begin before it has ended. -/
def mdioBegin (i : Nat) : Op Nat :=
  .step fun s => s.onRb i fun rb =>
    if rb.busy = none ∨ rb.busy = some s.me.id then .go 0 (s.modRb i fun r => { r with busy := some s.me.id })
    else .fault .busOverlap s

/-- An MDIO access from its beginning to its end, whatever it returned. -/
def mdioAccess (i : Nat) (x : Op (Except Err Nat)) : Op (Except Err Nat) :=
  (mdioBegin i).bind fun _ => x.bind fun r =>
    (Op.set fun s => s.modRb i fun rb => { rb with busy := none }).bind fun _ => .ret r

/-- One MDIO transaction of an access. -/
def mdioXfer (i : Nat) (f : Rb → Verdict → State → Ans) : Op (Except Err Nat) :=
  .tryXfer fun v s => s.onRb i fun rb => f rb v s

/-- The far-end write that an MDIO transaction completes, if it completes one, when the transaction succeeds
(log entry 12). -/
def State.farDone (s : State) (i : Nat) : Option (U32 × U16) → State
  | some (a, v) => s.farWrite16 i a v
  | none => s

/-- The same when the transaction fails and may have reached the register (rule R202). -/
def State.farLanded (s : State) (i : Nat) (landed : Bool) : Option (U32 × U16) → State
  | some (a, v) => if landed then s.landWrite16 i a v else s
  | none => s

/-- An MDIO register write; `far` is the far-end write it completes, if it completes one (log entry 12). -/
def mdioWriteOn (i : Nat) (phy reg : RbCfg → U5) (w : U16) (far : Option (U32 × U16)) : Op (Except Err Nat) :=
  mdioXfer i fun rb v s =>
    match v with
    | .fail landed => .go 0 ((s.farLanded i landed far).log i (.mdioWrite (phy rb.cfg) (reg rb.cfg) w) false)
    | .ok => .go 1 ((s.farDone i far).log i (.mdioWrite (phy rb.cfg) (reg rb.cfg) w) true)

/-- An MDIO register read of the data register, which shows the far-end register at `a`. -/
def mdioReadOn (i : Nat) (phy reg : RbCfg → U5) (a : U32) : Op (Except Err Nat) :=
  mdioXfer i fun rb v s =>
    match v with
    | .fail _ => .go 0 (s.log i (.mdioRead (phy rb.cfg) (reg rb.cfg) 0) false)
    | .ok =>
      let r := s.farRead16 i a
      .go (r.1.toNat + 1) (r.2.log i (.mdioRead (phy rb.cfg) (reg rb.cfg) r.1) true)

/-- Set the AA1 cache of an instance. -/
def setAa1 (i : Nat) (c : Option U16) : Op Unit := .set fun s => s.modRb i fun rb => { rb with aa1Cache := c }

/-- Whether the AA1 cache holds a value. -/
def aa1Is (i : Nat) (hi : U16) : Op Nat :=
  .step fun s => s.onRb i fun rb => .go (if rb.aa1Cache = some hi then 1 else 0) s

/-- `slave_select_high` after its alignment check (rule R211). -/
def slaveSelectHigh (i : Nat) (a : U32) : Op (Except Err Nat) :=
  (aa1Is i (aa1Word a)).bind fun hit =>
    if hit = 1 then .ok 0
    else
      (mdioWriteOn i (·.phy) (·.regAA1) (aa1Word a) none).bind fun r =>
        match r with
        | .error e => (setAa1 i none).bind fun _ => .raise e
        | .ok _ => (setAa1 i (some (aa1Word a))).bind fun _ => .ok 0

def slaveRead16On (i : Nat) (a : U32) : Op (Except Err Nat) :=
  evenOnly a <| mdioAccess i <|
    (slaveSelectHigh i a).q fun _ =>
    (mdioWriteOn i (·.phy) (·.regAA0) (aa0Word a Config.mdioRwRead) none).q fun _ =>
    mdioReadOn i (·.phy) (·.regAD) a

/-- The write order of an instance as an answer: 1 for `DATA_FIRST`. -/
def writeOrderIs (i : Nat) (sel : RbCfg → WriteOrder) : Op Nat :=
  .step fun s => s.onRb i fun rb => .go (if sel rb.cfg = .dataFirst then 1 else 0) s

def slaveWrite16On (i : Nat) (a : U32) (v : U16) : Op (Except Err Nat) :=
  evenOnly a <| mdioAccess i <|
    (slaveSelectHigh i a).q fun _ =>
    (writeOrderIs i (·.mdioOrder)).bind fun dataFirst =>
    if dataFirst = 1 then
      (mdioWriteOn i (·.phy) (·.regAD) v none).q fun _ =>
      mdioWriteOn i (·.phy) (·.regAA0) (aa0Word a Config.mdioRwWrite) (some (a, v))
    else
      (mdioWriteOn i (·.phy) (·.regAA0) (aa0Word a Config.mdioRwWrite) none).q fun _ =>
      mdioWriteOn i (·.phy) (·.regAD) v (some (a, v))

/-- `bridge_split`'s range check (rule R214), then the access. -/
def bridgeRange (i : Nat) (a : U32) : Op Nat :=
  .step fun s => s.onRb i fun rb => if 31 < bridgePhy rb.cfg.bridgeBits a then .fault .bridgeRange s else .go 0 s

/-- The PHY address of a bridge access (rule R214). -/
def bridgePhyOf (a : U32) (c : RbCfg) : U5 := BitVec.ofNat 5 (bridgePhy c.bridgeBits a)

/-- A bridge write of the `AA` register, whose word depends on the instance's split. -/
def bridgeAddrOn (i : Nat) (a : U32) (rw : U16) (far : Option (U32 × U16)) : Op (Except Err Nat) :=
  mdioXfer i fun rb v s =>
    let w := Wire.mdioWrite (bridgePhyOf a rb.cfg) rb.cfg.regBAA (bridgeAA rb.cfg.bridgeBits a rw)
    match v with
    | .fail landed => .go 0 ((s.farLanded i landed far).log i w false)
    | .ok => .go 1 ((s.farDone i far).log i w true)

def bridgeRead16On (i : Nat) (a : U32) : Op (Except Err Nat) :=
  evenOnly a <| (bridgeRange i a).bind fun _ => mdioAccess i <|
    (bridgeAddrOn i a Config.mdioRwRead none).q fun _ =>
    mdioReadOn i (bridgePhyOf a) (·.regBAD) a

def bridgeWrite16On (i : Nat) (a : U32) (v : U16) : Op (Except Err Nat) :=
  evenOnly a <| (bridgeRange i a).bind fun _ => mdioAccess i <|
    (writeOrderIs i (·.bridgeOrder)).bind fun dataFirst =>
    if dataFirst = 1 then
      (mdioWriteOn i (bridgePhyOf a) (·.regBAD) v none).q fun _ =>
      bridgeAddrOn i a Config.mdioRwWrite (some (a, v))
    else
      (bridgeAddrOn i a Config.mdioRwWrite none).q fun _ =>
      mdioWriteOn i (bridgePhyOf a) (·.regBAD) v (some (a, v))

/-! ### The capability set (rules R200 to R204) -/

/-- The backend of an instance, as its code. -/
def backendOf (i : Nat) : Op Nat := .step fun s => s.onRb i fun rb => .go rb.backend.code s

/-- `read16` on an instance (rule R201). -/
def read16On (i : Nat) (a : U32) : Op (Except Err Nat) :=
  (contextCheck i).bind fun _ =>
  (backendOf i).bind fun b =>
  match b with
  | 0 => mmioRead16On i a
  | 1 => i2cRead16On i a
  | 2 => slaveRead16On i a
  | _ => bridgeRead16On i a

/-- `write16` on an instance (rule R202). -/
def write16On (i : Nat) (a : U32) (v : U16) : Op (Except Err Nat) :=
  (contextCheck i).bind fun _ =>
  (backendOf i).bind fun b =>
  match b with
  | 0 => mmioWrite16On i a v
  | 1 => i2cWrite16On i a v
  | 2 => slaveWrite16On i a v
  | _ => bridgeWrite16On i a v

/-- A capability of an instance, as an answer: 1 when present. -/
def capability (i : Nat) (f : Rb → Bool) : Op Nat :=
  .step fun s => s.onRb i fun rb => .go (if f rb then 1 else 0) s

/-- `read32` on an instance (rule R203): native, or the low half and then the high half. -/
def read32On (i : Nat) (a : U32) : Op (Except Err Nat) :=
  (contextCheck i).bind fun _ =>
  (capability i (·.hasRead32)).bind fun native =>
  if native = 1 then nativeRead32On i a
  else
    (read16On i a).q fun low =>
    (read16On i (highAddr a)).q fun high =>
    .ok (joinHalves (BitVec.ofNat 16 high) (BitVec.ofNat 16 low)).toNat

/-- `write32` on an instance (rule R204): native, or the low half and then the high half. -/
def write32On (i : Nat) (a v : U32) : Op (Except Err Nat) :=
  (contextCheck i).bind fun _ =>
  (capability i (·.hasWrite32)).bind fun native =>
  if native = 1 then nativeWrite32On i a v
  else
    (write16On i a (lowHalf v)).q fun _ =>
    write16On i (highAddr a) (highHalf v)

/-- The backend's reset as one transaction (rule R217, log entry 24). -/
def backendReset (i : Nat) : Op (Except Err Nat) :=
  .tryXfer fun v s =>
    match v with
    | .fail landed => .go 0 ((if landed then s.resetFar i else s).log i .busReset false)
    | .ok => .go 1 ((s.resetFar i).log i .busReset true)

/-- `reset` on an instance (rule R217). -/
def resetOn (i : Nat) : Op (Except Err Nat) :=
  (contextCheck i).bind fun _ =>
  (capability i (·.hasReset)).bind fun has =>
  if has = 1 then
    (backendOf i).bind fun b =>
    if b = 2 then (setAa1 i none).bind fun _ => backendReset i
    else backendReset i
  else .raise .unsupported

/-- The instance bound to a topology key (rule R218). -/
def State.bound (s : State) (t : Nat) : Option Nat :=
  match s.topo.find? (fun e => decide (e.1 = t)) with
  | some e => some e.2
  | none => none

/-- `lookup` (rule R218): a new handle, numbered by its place, with one added to it for the answer. -/
def lookupKey (t : Nat) : Op (Except Err Res) :=
  (Op.step fun s =>
    match s.bound t with
    | none => .go 0 s
    | some i =>
      .go (s.handles.length + 1)
        { (s.modRb i fun rb => { rb with refs := rb.refs + 1 }) with
          handles := s.handles ++ [⟨i, false⟩] }).bind fun n =>
  match n with
  | 0 => .raise .notFound
  | h + 1 => .ok (.handle h)

/-- `release` (rule R219). -/
def releaseHandle (h : Nat) : Op (Except Err Res) :=
  (Op.step fun s =>
    match s.handles[h]? with
    | none => .fault .doubleRelease s
    | some x =>
      match s.rbs[x.inst]? with
      | none => .fault .doubleRelease s
      | some rb =>
        if x.released ∨ rb.refs = 0 then .fault .doubleRelease s
        else
          .go 0 { (s.modRb x.inst fun r => { r with refs := r.refs - 1 }) with
            handles := s.handles.modify h fun y => { y with released := true } }).bind fun _ =>
  .ok .unit

/-! ### Meanings -/

/-- Resolve the operand, then act on the instance. DESIGN CHOICE (log entry 48): a handle is looked at once, when the
operation begins, so one that another agent releases meanwhile lets the operation run on (rules R219, R718), and (log entry
51) a released one faults before the context check (rule R603 does not place it). -/
def onBus (b : BusRef) (x : Nat → Op (Except Err Res)) : Op (Except Err Res) := (resolveBus b).bind x

/-- A backend operation issued by itself: the context check first (rules R212, R221, log entry 13). -/
def backendOp (b : BusRef) (x : Nat → Op (Except Err Res)) : Op (Except Err Res) :=
  onBus b fun i => (contextCheck i).bind fun _ => x i

/-- `read16` (rule R201). -/
def execRead16 (b : BusRef) (a : U32) (s : State) : Outcome :=
  s.perform (.read16 b a) (onBus b fun i => asVal16 (read16On i a))

/-- `write16` (rule R202). -/
def execWrite16 (b : BusRef) (a : U32) (v : U16) (s : State) : Outcome :=
  s.perform (.write16 b a v) (onBus b fun i => asUnit (write16On i a v))

/-- `read32` (rule R203). -/
def execRead32 (b : BusRef) (a : U32) (s : State) : Outcome :=
  s.perform (.read32 b a) (onBus b fun i => asVal32 (read32On i a))

/-- `write32` (rule R204). -/
def execWrite32 (b : BusRef) (a v : U32) (s : State) : Outcome :=
  s.perform (.write32 b a v) (onBus b fun i => asUnit (write32On i a v))

/-- `reset` (rule R217). -/
def execReset (b : BusRef) (s : State) : Outcome :=
  s.perform (.reset b) (onBus b fun i => asUnit (resetOn i))

/-- `lookup` (rule R218). -/
def execLookup (t : Nat) (s : State) : Outcome := s.perform (.lookup t) (lookupKey t)

/-- `release` (rule R219). -/
def execRelease (h : Nat) (s : State) : Outcome := s.perform (.release h) (releaseHandle h)

/-- `mmio_read16` (rule R205). -/
def execMmioRead16 (b : BusRef) (a : U32) (s : State) : Outcome :=
  s.perform (.mmioRead16 b a) (backendOp b fun i => asVal16 (mmioRead16On i a))

/-- `mmio_write16` (rule R206). -/
def execMmioWrite16 (b : BusRef) (a : U32) (v : U16) (s : State) : Outcome :=
  s.perform (.mmioWrite16 b a v) (backendOp b fun i => asUnit (mmioWrite16On i a v))

/-- `native_read32` (rule R207). -/
def execNativeRead32 (b : BusRef) (a : U32) (s : State) : Outcome :=
  s.perform (.nativeRead32 b a) (backendOp b fun i => asVal32 (nativeRead32On i a))

/-- `native_write32` (rule R208). -/
def execNativeWrite32 (b : BusRef) (a v : U32) (s : State) : Outcome :=
  s.perform (.nativeWrite32 b a v) (backendOp b fun i => asUnit (nativeWrite32On i a v))

/-- `i2c_read16` (rule R209). -/
def execI2cRead16 (b : BusRef) (a : U32) (s : State) : Outcome :=
  s.perform (.i2cRead16 b a) (backendOp b fun i => asVal16 (i2cRead16On i a))

/-- `i2c_write16` (rule R210). -/
def execI2cWrite16 (b : BusRef) (a : U32) (v : U16) (s : State) : Outcome :=
  s.perform (.i2cWrite16 b a v) (backendOp b fun i => asUnit (i2cWrite16On i a v))

/-- `slave_read16` (rule R212). -/
def execSlaveRead16 (b : BusRef) (a : U32) (s : State) : Outcome :=
  s.perform (.slaveRead16 b a) (backendOp b fun i => asVal16 (slaveRead16On i a))

/-- `slave_write16` (rule R213). -/
def execSlaveWrite16 (b : BusRef) (a : U32) (v : U16) (s : State) : Outcome :=
  s.perform (.slaveWrite16 b a v) (backendOp b fun i => asUnit (slaveWrite16On i a v))

/-- `bridge_read16` (rule R215). -/
def execBridgeRead16 (b : BusRef) (a : U32) (s : State) : Outcome :=
  s.perform (.bridgeRead16 b a) (backendOp b fun i => asVal16 (bridgeRead16On i a))

/-- `bridge_write16` (rule R216). -/
def execBridgeWrite16 (b : BusRef) (a : U32) (v : U16) (s : State) : Outcome :=
  s.perform (.bridgeWrite16 b a v) (backendOp b fun i => asUnit (bridgeWrite16On i a v))

end Sys2Proof.Machine
end

