-- ==== Sys2Proof/Machine/Nco.lean ====
section
/-!
DEFINITION. The NCO clock operations and hardware steps (spec/41_nco.md rules R300 to R313): the device lock, the
register accesses through the device's resource, the bounded poll, time reading and adjustment, frequency adjustment,
initialization, probe, the tick and the completion of commands.
-/

namespace Sys2Proof.Machine

/-! ### Entry, lock and registers -/

/-- The checks an operation on an NCO begins with: a removed device refuses (rule R312), and the caller operations
that need it fault while the device is not initialised. DESIGN CHOICE (log entry 43): they are made at the beginning
only, so an operation that is in progress, or waits for the lock, when the device is removed runs on to its end. -/
def ncoEnter (d : Nat) (needsInit : Bool) : Op Nat :=
  .step fun s => s.onNco d fun n =>
    if n.removed then .refuse .ncoRemoved
    else if needsInit && !n.initialised then .fault .ncoUninit s
    else .go 0 s

/-- `Acquire(lock)` of the device lock (rules R14, R300, R620): a mutex in atomic context faults, a held lock is
waited for. -/
def ncoAcquire (d : Nat) : Op Nat :=
  .step fun s => s.onNco d fun n =>
    if !n.spin && s.atomic then .fault .atomicSleep s
    else if n.lock = none then .go 0 (s.modNco d fun m => { m with lock := some s.me.id })
    else s.blockOn .other

/-- `Release(lock)`. -/
def ncoRelease (d : Nat) : Op Unit := .set fun s => s.modNco d fun m => { m with lock := none }

/-- A section inside the device lock, released on every exit path (rule R300). -/
def ncoLocked {α : Type} (d : Nat) (x : Op (Except Err α)) : Op (Except Err α) :=
  (ncoAcquire d).bind fun _ => x.bind fun r => (ncoRelease d).bind fun _ => .ret r

/-- The instance that a device's resource lies on (rules R101, R219, log entry 15). -/
def State.resourceBus (s : State) (r : Option Resource) : Ans :=
  match r with
  | none => .refuse .notProbed
  | some x => s.resolve x.bus

/-- The base address of a resource. -/
def baseOf (r : Option Resource) : U32 :=
  match r with
  | some x => x.base
  | none => 0

/-- The address of an NCO register (rules R50, R101). -/
def State.ncoAddr (s : State) (d : Nat) (r : NcoReg) : U32 :=
  match s.ncos[d]? with
  | some n => baseOf n.res + s.board.ncoMap.off r
  | none => 0

/-- An access to an NCO register: the instance, then the address. -/
def ncoReg (d : Nat) (r : NcoReg) (x : Nat → U32 → Op (Except Err Nat)) : Op (Except Err Nat) :=
  (Op.step fun s => s.onNco d fun n => s.resourceBus n.res).bind fun i =>
  (Op.get fun s => (s.ncoAddr d r).toNat).bind fun a =>
  x i (BitVec.ofNat 32 a)

/-- `MemRead(REG(r), 4)`. -/
def ncoRead (d : Nat) (r : NcoReg) : Op (Except Err Nat) := ncoReg d r read32On

/-- `MemWrite(REG(r), 4, v)`. -/
def ncoWrite (d : Nat) (r : NcoReg) (v : U32) : Op (Except Err Nat) := ncoReg d r fun i a => write32On i a v

/-- A write of the command register with one command set. -/
def ncoCommand (d : Nat) (c : Cmd) : Op (Except Err Nat) :=
  (Op.get fun s => (s.board.cmdMask c).toNat).bind fun v => ncoWrite d .cmd (BitVec.ofNat 32 v)

/-- A cell of an NCO device, as a number. -/
def ncoGet (d : Nat) (f : Nco → Nat) : Op Nat := .step fun s => s.onNco d fun n => .go (f n) s

/-- `HostNow()` (rule R12): the host's wall-clock time is a draw, normalized (log entry 19). -/
def hostNow : Op (U64 × U32) :=
  (Op.step fun s => .go (s.drawn % 2 ^ 64) s.afterDraw).bind fun sec =>
  (Op.step fun s => .go (s.drawn % Config.giga) s.afterDraw).bind fun nsec =>
  .ret (BitVec.ofNat 64 sec, BitVec.ofNat 32 nsec)

/-! ### The poll loop (rule R303) -/

/-- `v & bit`, as an answer: 0 when the command's bit is clear. -/
def cmdTest (c : Cmd) (v : Nat) : Op Nat := .get fun s => (s.board.cmdSet (BitVec.ofNat 32 v) c).toNat

/-- The poll loop with the budget that is left. -/
def cmdPollFrom (d : Nat) (c : Cmd) : Nat → Op (Except Err Nat)
  | 0 =>
    (ncoRead d .cmd).q fun v => (cmdTest c v).bind fun set => if set = 0 then .ok 0 else .raise .timeout
  | budget + 1 =>
    (ncoRead d .cmd).q fun v => (cmdTest c v).bind fun set => if set = 0 then .ok 0 else cmdPollFrom d c budget

/-- `CmdPoll(bit)`: the budget is `P_POLL_BUDGET`, so there are at most 101 reads. -/
def cmdPollOn (d : Nat) (c : Cmd) : Op (Except Err Nat) := cmdPollFrom d c Config.pollBudget

/-! ### Operations -/

/-- `nco_subnsec()` (rule R305, `P_NCO_READ_SUBNSEC`). -/
def ncoSubnsec (d : Nat) : Op (Except Err Nat) :=
  (Op.get fun s => s.board.readSubnsec.toNat).bind fun sixth => if sixth = 1 then ncoRead d .subnsec else .ok 0

/-- The result of `read_time` from the words it read (rules R304, R305). -/
def timeResult (cLo cHi sLo sHi n sub : Nat) (src : U64 × U32) : TimeResult :=
  let t := timeOfWords (BitVec.ofNat 32 sHi) (BitVec.ofNat 32 sLo) (BitVec.ofNat 32 n)
  ⟨counterOfWords (BitVec.ofNat 32 cHi) (BitVec.ofNat 32 cLo), t.1, t.2, BitVec.ofNat 16 sub, src.1, src.2⟩

/-- `read_time` (rule R305). -/
def readTimeOn (d : Nat) : Op (Except Err TimeResult) :=
  ncoLocked d <|
    (ncoCommand d .read).q fun _ =>
    (cmdPollOn d .read).q fun _ =>
    (ncoRead d .cntLo).q fun cLo =>
    (ncoRead d .cntHi).q fun cHi =>
    (ncoRead d .secLo).q fun sLo =>
    (ncoRead d .secHi).q fun sHi =>
    (ncoRead d .nsec).q fun n =>
    (ncoSubnsec d).q fun sub =>
    hostNow.bind fun src =>
    .ok (timeResult cLo cHi sLo sHi n sub src)

/-- `adjust_time` (rules R306, R307). -/
def adjustTimeOn (d : Nat) (sign : U32) (sec : U64) (nsec : U32) : Op (Except Err Nat) :=
  if 2 ^ 31 ≤ nsec.toNat then .raise (.inval .adjNsecRange)
  else
    ncoLocked d <|
      (ncoGet d fun n => n.currentStepNsec.toNat).bind fun step =>
      (ncoWrite d .adjSecHi (((adjustWords sign sec nsec step).1.extractLsb' 32 16).setWidth 32)).q fun _ =>
      (ncoWrite d .adjSecLo ((adjustWords sign sec nsec step).1.extractLsb' 0 32)).q fun _ =>
      (ncoWrite d .adjNsec (adjustWords sign sec nsec step).2).q fun _ =>
      (ncoCommand d .adjClock).q fun _ =>
      cmdPollOn d .adjClock

/-- The new step of `adjust_frequency` as an answer: 0 when its nanosecond part does not fit, else one more than
the step in units of 2^-32 ns (rules R308, R310). -/
def stepAnswer (f : FunctionChoice) (ppb : U32) (n : Nco) : Nat :=
  match newStep n.nominal48.toNat (ppbDelta f n.scale ppb) with
  | none => 0
  | some (nsec, sub) => nsec * 2 ^ 32 + sub + 1

/-- `adjust_frequency` (rule R308); `current_step_nsec` changes on success only. -/
def adjustFrequencyOn (d : Nat) (ppb : U32) : Op (Except Err Nat) :=
  ncoLocked d <|
    (Op.step fun s => s.onNco d fun n => .go (stepAnswer s.board.ppb ppb n) s).bind fun a =>
    match a with
    | 0 => .raise (.inval .stepRange)
    | v + 1 =>
      (ncoWrite d .stepNsec (BitVec.ofNat 32 (v / 2 ^ 32))).q fun _ =>
      (ncoWrite d .stepSubnsec (BitVec.ofNat 32 v)).q fun _ =>
      (ncoCommand d .adjStep).q fun _ =>
      (cmdPollOn d .adjStep).q fun _ =>
      (Op.set fun s => s.modNco d fun n => { n with currentStepNsec := BitVec.ofNat 6 (v / 2 ^ 32) }).bind fun _ =>
      .ok 0

/-- The nominal step is staged (the first section of rule R309). -/
def initStage (d : Nat) : Op (Except Err Nat) :=
  ncoLocked d <|
    (ncoGet d fun n => n.nominalNsec.toNat).bind fun nsec =>
    (ncoWrite d .stepNsec (BitVec.ofNat 32 nsec)).q fun _ =>
    (ncoGet d fun n => n.nominalSubnsec.toNat).bind fun sub =>
    ncoWrite d .stepSubnsec (BitVec.ofNat 32 sub)

/-- The step write is committed (the last locked section of rule R309). -/
def initCommit (d : Nat) : Op (Except Err Nat) :=
  ncoLocked d <|
    (ncoCommand d .adjStep).q fun _ =>
    (cmdPollOn d .adjStep).q fun _ =>
    (Op.set fun s => s.modNco d fun n => { n with currentStepNsec := n.nominalNsec }).bind fun _ =>
    .ok 0

/-- The sanity check of rule R309 (`P_NCO_INIT_CHECK`), then `initialised`. -/
def initVerify (d : Nat) (t2 : TimeResult) (host : U64 × U32) : Op (Except Err Nat) :=
  (Op.test fun s =>
    initCheckOk s.board.initCheck t2.sec.toNat t2.nsec.toNat host.1.toNat host.2.toNat).bind fun good =>
  if good then (Op.set fun s => s.modNco d fun n => { n with initialised := true }).bind fun _ => .ok 0
  else .raise .initCheck

/-- `init_registers` (rule R309). -/
def initRegistersOn (d : Nat) : Op (Except Err Nat) :=
  (initStage d).q fun _ =>
  (readTimeOn d).q fun tHw =>
  hostNow.bind fun host =>
  (adjustTimeOn d 0xFFFFFFFF tHw.sec tHw.nsec).q fun _ =>
  (adjustTimeOn d 1 host.1 host.2).q fun _ =>
  (initCommit d).q fun _ =>
  (readTimeOn d).q fun t2 =>
  initVerify d t2 host

/-- The driver cells a successful probe sets (rules R45, R311, R702); no command is pending then. DESIGN CHOICE (log entry
49): the lock of a device that is probed again stays with the operation in progress that holds it. -/
def Nco.probed (n : Nco) (b : Board) (res : Resource) (spin : Bool) (step : StepReq) : Nco :=
  { n with
    res := some res
    nominalNsec := step.nsec.setWidth 6
    nominalSubnsec := step.sub
    nominal48 := nominal48Of (step.nsec.setWidth 6) step.sub
    scale := scaleOf b.ppb (nominal48Of (step.nsec.setWidth 6) step.sub)
    currentStepNsec := step.nsec.setWidth 6
    spin := spin
    initialised := false
    hw := { n.hw with pendRead := false, pendAdjClock := false, pendAdjStep := false } }

/-- Whether an instance sleeps, as an answer. -/
def State.sleepsOn (s : State) (i : Nat) : Bool :=
  match s.rbs[i]? with
  | some rb => rb.sleeps
  | none => false

/-- What a probe begins with: "after remove, every operation on the device is refused" (rule R312, and R414, R611 for the
other parts), a probe of it too. A probe of a number that names no unit creates one (rule R40), a port of that index (rule
R404), an NCO or timestamper of the next free number (log entry 26). -/
def probeEnter (removed : State → Bool) (why : Refusal) : Op Nat :=
  .step fun s => if removed s then .refuse why else .go 0 s

/-- The device is removed. -/
def State.ncoRemoved (s : State) (d : Nat) : Bool :=
  match s.ncos[d]? with
  | some n => n.removed
  | none => false

/-- The machine after a successful probe of NCO `d`: a device there is keeps its hardware cells, and a new one has cells
of which nothing is known, drawn (rules R40, R702, log entries 5 and 26). -/
def State.probeNco (s : State) (d : Nat) (res : Resource) (spin : Bool) (step : StepReq) : State :=
  if d < s.ncos.length then s.modNco d fun n => n.probed s.board res spin step
  else
    { s.afterDraws 16 with
      ncos := s.ncos ++ [(Nco.ofCells s.cellsDrawn s.board).probed s.board res spin step] }

/-- `nco_probe` (rule R311). DESIGN CHOICE (log entry 39): a missing descriptor is reported before a nominal step that does
not fit, both `E_INVAL`, and that before a descriptor whose handle is released or whose instance does not exist. -/
def ncoProbeOn (d : Nat) (res : Option Resource) (step : StepReq) : Op (Except Err Nat) :=
  (probeEnter (fun s => s.ncoRemoved d) .ncoRemoved).bind fun _ =>
  match res with
  | none => .raise (.inval .missingResource)
  | some r =>
    if 63 < step.nsec.toNat then .raise (.inval .badNominal)
    else
      (Op.step fun s => s.resolve r.bus).bind fun i =>
      (Op.set fun s => s.probeNco d r (!s.sleepsOn i) step).bind fun _ => .ok 0

/-! ### Hardware steps -/

/-- `nco_tick` as an operation of `NcoHw` (rule R301): while an adjustment is pending, whether this tick applies it is
a draw (log entry 16). -/
def ncoTickOn (d : Nat) : Op (Except Err Nat) :=
  (Op.step fun s => s.onNco d fun n =>
    if n.hw.pendAdjClock then .go 0 (s.afterDraw.ncoTick d (decide (s.drawn % 2 = 1)))
    else .go 0 (s.ncoTick d false)).bind fun _ =>
  .ok 0

/-- `nco_cmd_complete` as an operation of `NcoHw` (rule R302): the hardware completes a command that is pending, and
waits for one that is not (log entry 17). -/
def ncoCompleteOn (d : Nat) (c : Cmd) : Op (Except Err Nat) :=
  (Op.step fun s => s.onNco d fun n =>
    if n.hw.pending c then .go 0 (s.ncoComplete d c) else s.blockOn .other).bind fun _ =>
  .ok 0

/-! ### Meanings -/

/-- `read_time` (rules R305, R312). -/
def execReadTime (d : Nat) (s : State) : Outcome :=
  s.perform (.readTime d) ((ncoEnter d true).bind fun _ => (readTimeOn d).q fun t => .ok (.time t))

/-- `adjust_time` (rules R306, R312). -/
def execAdjustTime (d : Nat) (sign : U32) (sec : U64) (nsec : U32) (s : State) : Outcome :=
  s.perform (.adjustTime d sign sec nsec)
    ((ncoEnter d true).bind fun _ => asUnit (adjustTimeOn d sign sec nsec))

/-- `adjust_frequency` (rules R308, R312). -/
def execAdjustFrequency (d : Nat) (ppb : U32) (s : State) : Outcome :=
  s.perform (.adjustFrequency d ppb) ((ncoEnter d true).bind fun _ => asUnit (adjustFrequencyOn d ppb))

/-- `init_registers` (rule R309). -/
def execInitRegisters (d : Nat) (s : State) : Outcome :=
  s.perform (.initRegisters d) ((ncoEnter d false).bind fun _ => asUnit (initRegistersOn d))

/-- `nco_probe` (rule R311). -/
def execNcoProbe (d : Nat) (res : Option Resource) (param prop : Option StepReq) (s : State) : Outcome :=
  s.perform (.ncoProbe d res param prop) (asUnit (ncoProbeOn d res (nominalOf param prop)))

/-- `cmd_poll` issued by itself (rule R303). DESIGN CHOICE (log entry 42): it is the inner loop alone, without the
device lock that the NCO operations put around it (rules R121, R300) and without their check that the device is initialised, so
it may come between the accesses of another caller's operation. -/
def execCmdPoll (d : Nat) (c : Cmd) (s : State) : Outcome :=
  s.perform (.cmdPoll d c) ((ncoEnter d false).bind fun _ => asUnit (cmdPollOn d c))

/-- `nco_tick` (rule R301); the hardware of a removed device keeps ticking (rule R703). -/
def execNcoTick (d : Nat) (s : State) : Outcome := s.perform (.ncoTick d) (asUnit (ncoTickOn d))

/-- `nco_cmd_complete` (rule R302). -/
def execNcoCmdComplete (d : Nat) (c : Cmd) (s : State) : Outcome :=
  s.perform (.ncoCmdComplete d c) (asUnit (ncoCompleteOn d c))

end Sys2Proof.Machine
end

