-- ==== Sys2Proof/Machine/Adapter.lean ====
section
/-!
DEFINITION. The adapter operations (spec/42_adapter.md rules R400 to R414): detection, probe, link checking, setup,
the selection policy of `init_adapter`, and the best common link mode. A bus error is never returned to the caller
(rule R400).
-/

namespace Sys2Proof.Machine

/-! ### Entry and registers -/

/-- A torn-down port refuses every operation (rule R414). DESIGN CHOICE (log entry 43): this is checked at the beginning
only, so an operation that is in progress when the port is torn down runs on to its end. -/
def adpEnter (p : Nat) : Op Nat :=
  .step fun s => s.onPort p fun q => if q.removed then .refuse .adpRemoved else .go 0 s

/-- A cell of a port, as a number. -/
def portGet (p : Nat) (f : Port → Nat) : Op Nat := .step fun s => s.onPort p fun q => .go (f q) s

/-- An address in a port's register block (rule R101). -/
def State.adpAddr (s : State) (p : Nat) (off : U32) : U32 :=
  match s.portAt p with
  | some q => baseOf q.res + off
  | none => 0

/-- The instance of a port's register block. -/
def adpBus (p : Nat) : Op Nat := .step fun s => s.onPort p fun q => s.resourceBus q.res

/-- `MemRead(AREG(r), 2)` for a variant; a variant without the register reads at the base alone, which no decoder
does (rules R56, R406). -/
def adpRead (p : Nat) (r : AdpReg) (v : Variant) : Op (Except Err Nat) :=
  (adpBus p).bind fun i =>
  (Op.get fun s => (s.adpAddr p ((s.board.adpMap.off r v).getD 0)).toNat).bind fun a =>
  read16On i (BitVec.ofNat 32 a)

/-- `MemWrite(base + off, 2, v)`. -/
def adpWrite (p : Nat) (off : U32) (v : U16) : Op (Except Err Nat) :=
  (adpBus p).bind fun i =>
  (Op.get fun s => (s.adpAddr p off).toNat).bind fun a =>
  write16On i (BitVec.ofNat 32 a) v

/-! ### Detection and probe -/

/-- `adp_detect` (rule R403): a read error, and a value the map does not name, give `None`. -/
def adpDetectOn (p : Nat) : Op Variant :=
  (adpRead p .id .none).bind fun r =>
  match r with
  | .error _ => .ret .none
  | .ok v =>
    (Op.get fun s => (variantOfId s.board.idMap (BitVec.ofNat 16 v)).code).bind fun c => .ret (Variant.ofCode c)

/-- The cells of rule R52 with their reset values; `an_enabled` is unspecified until the first setup, so it is drawn
(log entry 25). The inputs and the hardware registers are not cells of the port's reset (rule R704). -/
def Port.probed (q : Port) (p : Nat) (res : Resource) (an : Bool) : Port :=
  { q with
    port := p
    res := some res
    variant := .none
    supported := 0
    advertised := 0
    linkCheckEnabled := true
    sfpType := .none
    pcsMode := .none
    desired := .down
    forced := false
    anEnabled := an
    linkMode := .down }

/-- The supported modes change; a link mode outside the new ones is reported as `DOWN` (rule R53). -/
def Port.support (q : Port) (m : U16) : Port := { q with supported := m, linkMode := reportedMode m q.linkMode }

/-- The variant a probe detected (rule R404). -/
def Port.detected (q : Port) (v : Variant) : Port :=
  { q.support (Config.adpSupported v) with variant := v, advertised := Config.adpSupported v }

/-- The port is torn down. -/
def State.portRemoved (s : State) (p : Nat) : Bool :=
  match s.portAt p with
  | some q => q.removed
  | none => false

/-- The machine after the cells of port `p` are set by a probe: a port there is keeps its inputs and its hardware's
registers, and where there is none port `p` is created, which has cells of which nothing is known, drawn (rules R40,
R404, R704, log entries 5, 25 and 26). -/
def State.probePort (s : State) (p : Nat) (res : Resource) : State :=
  match s.portAt p with
  | some _ => s.afterDraw.modPort p fun q => q.probed p res (s.drawn.testBit 0)
  | none =>
    { s.afterDraws 4 with
      ports := s.ports ++ [(Port.ofCells s.cellsDrawn p).probed p res ((s.cellsDrawn .adpAnEnabled).testBit 0)] }

/-- `adp_probe` (rule R404). -/
def adpProbeOn (p : Nat) (res : Option Resource) : Op (Except Err Nat) :=
  (probeEnter (fun s => s.portRemoved p) .adpRemoved).bind fun _ =>
  match res with
  | none => .raise (.inval .missingResource)
  | some r =>
    (Op.set fun s => s.probePort p r).bind fun _ =>
    (adpDetectOn p).bind fun v =>
    (Op.set fun s => s.modPort p fun q => q.detected v).bind fun _ =>
    .ok 0

/-! ### Link checking (rules R406, R407) -/

/-- `MemRead(AREG(STATUS[variant]), 2)`, then a mode from its value; a read error is `DOWN`. -/
def fromStatus (p : Nat) (v : Variant) (f : U16 → Op LinkMode) : Op LinkMode :=
  (adpRead p .status v).bind fun r =>
  match r with
  | .error _ => .ret .down
  | .ok s => f (BitVec.ofNat 16 s)

/-- The AN-capable decoders go on only when `link_ok(s)` (rule R407). -/
def whenLinkOk (p : Nat) (s : U16) (x : Op LinkMode) : Op LinkMode :=
  (Op.step fun t => t.onPort p fun q => .go (t.board.linkOk q.anEnabled s).toNat t).bind fun good =>
  if good = 1 then x else .ret .down

/-- A single fixed speed when the link bit is set. -/
def fixedSpeed (s : U16) (m : LinkMode) : Op LinkMode :=
  (Op.test fun t => t.board.linkUp s).bind fun up => .ret (if up then m else .down)

/-- The link mode of a 2-bit field whose position the board gives (rule R163). -/
def speedOf (pos : Board → Nat) (s : U16) : Op LinkMode :=
  (Op.get fun t => (t.board.speedMap.mode (speedField (pos t.board) s)).code).bind fun c => .ret (LinkMode.ofCode c)

/-- The PCS decoders of the SGMII variants (rule R406). -/
def decodePcs (p : Nat) (v : Variant) : Op LinkMode :=
  (portGet p fun q => q.pcsMode.code).bind fun c =>
  match PcsMode.ofCode c with
  | .sgmii =>
    (adpRead p .pcsStatus v).bind fun r =>
    match r with
    | .error _ => .ret .down
    | .ok w => speedOf (·.fldPcsSpeed) (BitVec.ofNat 16 w)
  | .x1000 => .ret .full1000
  | .fx100 => .ret .full100
  | .none => .ret .down

/-- `decode()` (rule R406). -/
def decodeLink (p : Nat) (v : Variant) : Op LinkMode :=
  match v with
  | .none => .ret .down
  | .mii => .ret .down
  | .rmii => .ret .down
  | .rgmii => fromStatus p v fun s => whenLinkOk p s (speedOf (·.fldSpeed) s)
  | .alteraTse => fromStatus p v fun s => whenLinkOk p s (speedOf (·.fldSpeed) s)
  | .sgmiiOr1000BaseX => fromStatus p v fun s => whenLinkOk p s (decodePcs p v)
  | .sgmiiOr1000BaseXOr100BaseFX => fromStatus p v fun s => whenLinkOk p s (decodePcs p v)
  | .only1000BaseX => fromStatus p v fun s => fixedSpeed s .full1000
  | .only100BaseFX => fromStatus p v fun s => fixedSpeed s .full100

/-- `link_mode <- m`, a mode outside the supported set as `DOWN` (rules R53, R406). -/
def reportLink (p : Nat) (m : LinkMode) : Op LinkMode :=
  (Op.step fun s => s.onPort p fun q =>
    .go (reportedMode q.supported m).code
      (s.modPort p fun t => { t with linkMode := reportedMode q.supported m })).bind fun c =>
  .ret (LinkMode.ofCode c)

/-- `check_link` (rule R406). -/
def checkLinkOn (p : Nat) : Op LinkMode :=
  (portGet p fun q => q.linkCheckEnabled.toNat).bind fun on =>
  if on = 1 then
    (portGet p fun q => q.variant.code).bind fun c => (decodeLink p (Variant.ofCode c)).bind fun m => reportLink p m
  else reportLink p .down

/-! ### Configuration (rules R405, R408, R409) -/

/-- The choices of a setup: PCS mode and autonegotiation. -/
def setupAn (desired : LinkMode) (forced : Bool) : Bool := !(forced && decide (desired ≠ .down))

/-- The list of writes of a setup on a board. -/
def State.setupList (s : State) (v : Variant) (pcs : PcsMode) (an : Bool) (m : LinkMode) : List (U32 × U16) :=
  setupWrites s.board.setup v pcs an m

/-- The writes from number `j` on, `left` of them, in order; the first error ends them. -/
def setupLoop (p : Nat) (l : State → List (U32 × U16)) : Nat → Nat → Op (Except Err Nat)
  | 0, _ => .ok 0
  | left + 1, j =>
    (Op.get fun s => ((l s)[j]?.getD (0, 0)).1.toNat).bind fun off =>
    (Op.get fun s => ((l s)[j]?.getD (0, 0)).2.toNat).bind fun v =>
    (adpWrite p (BitVec.ofNat 32 off) (BitVec.ofNat 16 v)).q fun _ =>
    setupLoop p l left (j + 1)

/-- A forced mode outside the supported set is a configuration error (rule R408). -/
def setupRejects (supported : U16) (desired : LinkMode) (forced : Bool) : Bool :=
  forced && decide (desired ≠ .down) && decide (linkBit desired &&& supported = 0)

/-- `adp_setup` (rule R408): the PCS mode first, then the list of writes, which looks at the variant again. -/
def adpSetupOn (p : Nat) (desired : LinkMode) (forced : Bool) : Op (Except Err Nat) :=
  (portGet p fun q => (setupRejects q.supported desired forced).toNat).bind fun bad =>
  if bad = 1 then .raise (.inval .mode)
  else
    (portGet p fun q => (choosePcs q.variant q.sfpType).code).bind fun pc =>
    (portGet p fun q => q.variant.code).bind fun vc =>
    let an := setupAn desired forced
    let l := fun s : State => s.setupList (Variant.ofCode vc) (PcsMode.ofCode pc) an desired
    (Op.get fun s => (l s).length).bind fun count =>
    (setupLoop p l count 0).bind fun r =>
    match r with
    | .error _ =>
      (Op.set fun s => s.modPort p fun q => { q with variant := .none, linkMode := .down }).bind fun _ => .ok 0
    | .ok _ =>
      (Op.set fun s => s.modPort p fun q =>
        { q with pcsMode := PcsMode.ofCode pc, desired := desired, forced := forced, anEnabled := an }).bind fun _ =>
      .ok 0

/-- What `init_adapter` decides (rules R409, R410); the link mode stays one of the supported modes (rule R53). -/
def Port.initialised (q : Port) (f : FunctionChoice) : Port :=
  { q.support (Config.adpSupported q.variant) with
    sfpType := sfpTypeOf f q.inputs (Config.adpSupported q.variant)
    linkCheckEnabled := !(q.inputs.extPhyAttached || q.inputs.sfpPhyAttached)
    advertised :=
      advertisedOf q.inputs (Config.adpSupported q.variant) (sfpTypeOf f q.inputs (Config.adpSupported q.variant)) }

/-- `init_adapter` (rule R409). DESIGN CHOICE (log entry 3): its lines, which make no transaction and take no lock, are one
step. -/
def initAdapterOn (p : Nat) : Op (Except Err Nat) :=
  (Op.set fun s => s.modPort p fun q => q.initialised s.board.inferSfp).bind fun _ => .ok 0

/-! ### Meanings -/

/-- `adp_detect` (rule R403). -/
def execAdpDetect (p : Nat) (s : State) : Outcome :=
  s.perform (.adpDetect p) ((adpEnter p).bind fun _ => (adpDetectOn p).bind fun v => .ok (.variant v))

/-- `adp_setup` (rule R408). -/
def execAdpSetup (p : Nat) (desired : LinkMode) (forced : Bool) (s : State) : Outcome :=
  s.perform (.adpSetup p desired forced) ((adpEnter p).bind fun _ => asUnit (adpSetupOn p desired forced))

/-- `check_link` (rule R406). -/
def execCheckLink (p : Nat) (s : State) : Outcome :=
  s.perform (.checkLink p) ((adpEnter p).bind fun _ => (checkLinkOn p).bind fun m => .ok (.linkMode m))

/-- `init_adapter` (rule R409). -/
def execInitAdapter (p : Nat) (s : State) : Outcome :=
  s.perform (.initAdapter p) ((adpEnter p).bind fun _ => asUnit (initAdapterOn p))

/-- A mask operand of `best_adapter_link_mode`: a mask, or that of a port, a torn-down port refusing (rules R413,
R414). -/
def maskOf (m : MaskArg) (f : Port → U16) : Op Nat :=
  match m with
  | .mask v => .ret v.toNat
  | .port p => (adpEnter p).bind fun _ => portGet p fun q => (f q).toNat

/-- The best link mode of two mask operands: of `supported` and `sfp_modes(sfp_type)` where they name a port (rule
R413). -/
def bestLinkModeOf (adapterMask sfpMask : MaskArg) : Op LinkMode :=
  (maskOf adapterMask fun q => q.supported).bind fun a =>
  (maskOf sfpMask fun q => sfpModes q.sfpType).bind fun s =>
  .ret (bestMode (BitVec.ofNat 16 a) (BitVec.ofNat 16 s))

/-- `best_adapter_link_mode` (rule R413). -/
def execBestAdapterLinkMode (adapterMask sfpMask : MaskArg) (s : State) : Outcome :=
  s.perform (.bestAdapterLinkMode adapterMask sfpMask)
    ((bestLinkModeOf adapterMask sfpMask).bind fun x => .ok (.linkMode x))

/-- `adp_probe` (rule R404). -/
def execAdpProbe (p : Nat) (res : Option Resource) (s : State) : Outcome :=
  s.perform (.adpProbe p res) (asUnit (adpProbeOn p res))

end Sys2Proof.Machine
end

