-- ==== Sys2Proof/Machine/Timestamper.lean ====
section
/-!
DEFINITION. The timestamper operations (spec/43_timestamper.md rules R500 to R517): probe, the locks, arming and
disarming a delivery mode, open and close, the event-check, the three triggers, the reader with its waits, and the
settings change.
-/

namespace Sys2Proof.Machine

/-! ### Entry, registers and locks -/

/-- A removed timestamper refuses every operation (rule R611). DESIGN CHOICE (log entry 43): this is checked at the
beginning only, so an operation that is in progress when the device is removed runs on to its end. -/
def tsEnter (d : Nat) : Op Nat :=
  .step fun s => s.onTs d fun t => if t.removed then .refuse .tsRemoved else .go 0 s

/-- A cell of a timestamper, as a number. -/
def tsGet (d : Nat) (f : Ts → Nat) : Op Nat := .step fun s => s.onTs d fun t => .go (f t) s

/-- Write cells of a timestamper. -/
def tsSet (d : Nat) (f : Ts → Ts) : Op Unit := .set fun s => s.modTs d f

/-- The address of a timestamper register (rules R61, R101). -/
def State.tsAddr (s : State) (d : Nat) (r : TsReg) : U32 :=
  match s.tss[d]? with
  | some t => baseOf t.res + s.board.tsMap.off r
  | none => 0

/-- An access to a timestamper register: the instance, then the address. -/
def tsReg (d : Nat) (r : TsReg) (x : Nat → U32 → Op (Except Err Nat)) : Op (Except Err Nat) :=
  (Op.step fun s => s.onTs d fun t => s.resourceBus t.res).bind fun i =>
  (Op.get fun s => (s.tsAddr d r).toNat).bind fun a =>
  x i (BitVec.ofNat 32 a)

/-- `MemRead(TREG(r), 4)`. -/
def tsRegRead (d : Nat) (r : TsReg) : Op (Except Err Nat) := tsReg d r read32On

/-- `MemWrite(TREG(r), 4, v)` with a parameter of the board. -/
def tsRegWrite (d : Nat) (r : TsReg) (v : Board → U32) : Op (Except Err Nat) :=
  (Op.get fun s => (v s.board).toNat).bind fun w => tsReg d r fun i a => write32On i a (BitVec.ofNat 32 w)

/-- `Acquire(cfg_lock)`: a mutex (rule R620). -/
def acquireCfg (d : Nat) : Op Nat :=
  .step fun s => s.onTs d fun t =>
    if s.atomic then .fault .atomicSleep s
    else if t.cfgLock = none then .go 0 (s.modTs d fun x => { x with cfgLock := some s.me.id })
    else s.blockOn .other

def releaseCfg (d : Nat) : Op Unit := tsSet d fun t => { t with cfgLock := none }

/-- `Acquire(reader_lock)` by `change_settings`: a mutex (rule R620). -/
def acquireReader (d : Nat) : Op Nat :=
  .step fun s => s.onTs d fun t =>
    if s.atomic then .fault .atomicSleep s
    else if t.readerLock = none then .go 0 (s.modTs d fun x => { x with readerLock := some s.me.id })
    else s.blockOn .other

def releaseReader (d : Nat) : Op Unit := tsSet d fun t => { t with readerLock := none }

/-- A host signal is taken. -/
def State.takeSignal (s : State) : State := s.setMe fun a => { a with signal := false }

/-- `AcquireInterruptible(reader_lock)` (rules R513, R514): 1 when a host signal interrupts it, 0 when it has the
lock. -/
def acquireReaderInt (d : Nat) : Op Nat :=
  .step fun s => s.onTs d fun t =>
    if s.atomic then .fault .atomicSleep s
    else if s.me.signal then .go 1 s.takeSignal
    else if t.readerLock = none then .go 0 (s.modTs d fun x => { x with readerLock := some s.me.id })
    else s.blockOn .readerLock

/-- `Acquire(index_lock)`: a spinlock, in either context (rule R620). -/
def acquireIndex (d : Nat) : Op Nat :=
  .step fun s => s.onTs d fun t =>
    if t.indexLock = none then .go 0 (s.modTs d fun x => { x with indexLock := some s.me.id })
    else s.blockOn .other

def releaseIndex (d : Nat) : Op Unit := tsSet d fun t => { t with indexLock := none }

/-- A section inside the index lock. -/
def underIndex {α : Type} (d : Nat) (x : Op α) : Op α :=
  (acquireIndex d).bind fun _ => x.bind fun r => (releaseIndex d).bind fun _ => .ret r

/-- `WakeAll(waitq)` (rules R14, R508). -/
def wakeAll (d : Nat) : Op Unit := tsSet d fun t => { t with waiters := [] }

/-! ### Probe (rule R501) -/

/-- The device is removed. -/
def State.tsRemoved (s : State) (d : Nat) : Bool :=
  match s.tss[d]? with
  | some t => t.removed
  | none => false

/-- The device cells that a probe sets: those of a new device, the capture hardware as it is, and every handle it gave
out closed, its number not given out again (rules R57, R705, log entry 14). DESIGN CHOICE (log entry 49): the marks of
operations in progress on a device that is probed again stay, that is the locks, the waiters, the busy marks, the queued
job and the disable depth that job is to balance. -/
def Ts.probed (t : Ts) (res : Resource) (irqLine deferred : Bool) : Ts :=
  { Ts.create (some res) irqLine deferred t.hw with
    handles := t.handles.map fun _ => .closed
    irqDepth := t.irqDepth
    irqRun := t.irqRun
    workPending := t.workPending
    workIrq := t.workIrq
    workerBusy := t.workerBusy
    timerBusy := t.timerBusy
    waiters := t.waiters
    cfgLock := t.cfgLock
    readerLock := t.readerLock
    indexLock := t.indexLock }

/-- The machine after a successful probe of timestamper `d`: where there is none, one is created, which has capture cells
of which nothing is known, drawn (rules R40, R705, log entries 5 and 26). -/
def State.probeTs (s : State) (d : Nat) (res : Resource) (irqLine deferred : Bool) : State :=
  if d < s.tss.length then s.modTs d fun t => t.probed res irqLine deferred
  else { s.afterDraws 7 with tss := s.tss ++ [Ts.create (some res) irqLine deferred (TsHw.ofCells s.cellsDrawn)] }

/-- `ts_probe`; the capture hardware keeps what it holds (rule R705). -/
def tsProbeOn (d : Nat) (res : Option Resource) (irqLine : Bool) : Op (Except Err Nat) :=
  (probeEnter (fun s => s.tsRemoved d) .tsRemoved).bind fun _ =>
  match res with
  | none => .raise (.inval .missingResource)
  | some r =>
    (Op.step fun s => s.resolve r.bus).bind fun i =>
    (Op.set fun s => s.probeTs d r irqLine (s.sleepsOn i)).bind fun _ => .ok 0

/-! ### Delivery modes (rules R506, R507) -/

/-- The next deadline of the poll timer, one period from now (rules R506, R516, R517). -/
def Ts.setDeadline (t : Ts) (hz now : Nat) : Ts := { t with timerDeadline := now + pollTicks hz t.pollSec t.pollNsec }

def setDeadlineOn (d : Nat) : Op Unit :=
  .set fun s => s.modTs d fun t => t.setDeadline s.board.hostHz s.hostTicks

/-- `enable_mode` (rule R506). -/
def enableModeOn (d : Nat) (m : DMode) : Op (Except Err Nat) :=
  (tsRegWrite d .arm (·.armVal)).q fun _ =>
  match m with
  | .interrupt =>
    (tsSet d fun t => { t with irqHooked := true }).bind fun _ =>
    (tsRegWrite d .irqEn (·.irqOn)).bind fun r =>
    match r with
    | .error e => (tsSet d fun t => { t with irqHooked := false }).bind fun _ => .raise e
    | .ok _ => .ok 0
  | .poll =>
    (tsSet d fun t => { t with timerOn := true }).bind fun _ => (setDeadlineOn d).bind fun _ => .ok 0
  | .direct => .ok 0

/-- The wait of `disable_mode` for the triggers (rules R507, R620). -/
def awaitTriggers (d : Nat) : Op Nat :=
  .step fun s => s.onTs d fun t =>
    if s.atomic then .fault .atomicSleep s
    else if t.triggersDone then .go 0 s
    else s.blockOn .other

/-- `disable_mode` (rule R507): the error of the interrupt-disable write is returned after the wait. -/
def disableModeOn (d : Nat) (m : DMode) : Op (Except Err Nat) :=
  match m with
  | .interrupt =>
    (tsSet d fun t => { t with irqHooked := false }).bind fun _ =>
    (tsRegWrite d .irqEn (·.irqOff)).bind fun r => (awaitTriggers d).bind fun _ => .ret r
  | .poll =>
    (tsSet d fun t => { t with timerOn := false }).bind fun _ => (awaitTriggers d).bind fun _ => .ok 0
  | .direct => (awaitTriggers d).bind fun _ => .ok 0

/-- The current delivery mode. -/
def currentMode (d : Nat) : Op DMode := (tsGet d fun t => t.mode.code).bind fun c => .ret (DMode.ofCode c)

/-! ### Open and close (rules R504, R505) -/

/-- The ring is allocated with empty slots. -/
def Ts.allocate (t : Ts) : Ts :=
  { t with buf := List.replicate t.capacity none, bufCount := 0, readCount := 0 }

/-- The ring is freed at the last close. -/
def Ts.shut (t : Ts) : Ts := { t with buf := [], bufCount := 0, readCount := 0, life := .idle }

/-- One more reader, and a new open handle, the next number. -/
def Ts.addHandle (t : Ts) : Ts := { t with useCount := t.useCount + 1, handles := t.handles ++ [.held 0] }

/-- The end of `ts_open`: the new handle is counted and the lock is released. -/
def openDone (d : Nat) : Op (Except Err Nat) :=
  (tsGet d fun t => t.handles.length).bind fun h =>
  (tsSet d Ts.addHandle).bind fun _ => (releaseCfg d).bind fun _ => .ok h

/-- `ts_open` (rule R504). -/
def tsOpenOn (d : Nat) : Op (Except Err Nat) :=
  (acquireCfg d).bind fun _ =>
  (tsGet d fun t => t.useCount).bind fun users =>
  if users = 0 then
    (tsSet d Ts.allocate).bind fun _ =>
    (currentMode d).bind fun m =>
    (enableModeOn d m).bind fun r =>
    match r with
    | .error e => (tsSet d fun t => { t with buf := [] }).bind fun _ => (releaseCfg d).bind fun _ => .raise e
    | .ok _ => (tsSet d fun t => { t with life := .active }).bind fun _ => openDone d
  else openDone d

/-- A handle as it stands; a number that `ts_open` never returned is that of no open handle (log entry 14). -/
def Ts.handle (t : Ts) (h : Nat) : TsHandle := t.handles[h]?.getD .closed

/-- A handle is open (rules R505, R513). -/
def Ts.isOpen (t : Ts) (h : Nat) : Bool :=
  match t.handle h with
  | .held _ => true
  | .closing _ => false
  | .closed => false

def Ts.setHandle (t : Ts) (h : Nat) (x : TsHandle) : Ts := { t with handles := t.handles.set h x }

/-- The check of `ts_close`, and the handle marked closed, in one step (rule R505, log entry 3): 1 when its use of the
device ends here, 0 when reads in progress on the handle keep it (log entry 20). -/
def closeHandle (d h : Nat) : Op Nat :=
  .step fun s => s.onTs d fun t =>
    match t.handle h with
    | .held 0 => .go 1 (s.modTs d fun x => x.setHandle h .closed)
    | .held (n + 1) => .go 0 (s.modTs d fun x => x.setHandle h (.closing n))
    | .closing _ => .fault .tsNotOpen s
    | .closed => .fault .tsNotOpen s

/-- A handle's use of the device ends; the last one frees the ring (the locked section of rule R505). -/
def endUse (d : Nat) : Op (Except Err Nat) :=
  (acquireCfg d).bind fun _ =>
  (tsSet d fun t => { t with useCount := t.useCount - 1 }).bind fun _ =>
  (tsGet d fun t => t.useCount).bind fun users =>
  if users = 0 then
    (currentMode d).bind fun m =>
    (disableModeOn d m).bind fun _ =>
    (tsSet d Ts.shut).bind fun _ => (releaseCfg d).bind fun _ => .ok 0
  else (releaseCfg d).bind fun _ => .ok 0

/-- `ts_close` (rule R505). -/
def tsCloseOn (d h : Nat) : Op (Except Err Nat) :=
  (closeHandle d h).bind fun last => if last = 1 then endUse d else .ok 0

/-! ### The event-check (rules R508, R509) -/

/-- The ring is full and drained: both indices return to 0 (rule R58). -/
def Ts.reclaim (t : Ts) : Ts := { t with bufCount := 0, readCount := 0 }

/-- The first section of the event-check: 1 when the ring is full and not drained. -/
def checkFull (d : Nat) : Op Nat :=
  underIndex d <|
    .step fun s => s.onTs d fun t =>
      if t.bufCount = t.capacity then
        if t.readCount = t.bufCount then .go 0 (s.modTs d Ts.reclaim) else .go 1 s
      else .go 0 s

/-- The event of the latched words. -/
def eventOf (sLo sHi n c : Nat) : Event :=
  let t := timeOfWords (BitVec.ofNat 32 sHi) (BitVec.ofNat 32 sLo) (BitVec.ofNat 32 n)
  ⟨t.1, t.2, BitVec.ofNat 32 c⟩

/-- `buf[buf_count] <- ev`, and only then the count (rule R508). DESIGN CHOICE (log entry 41): while the ring is not
allocated, on an `Idle` device, there is no slot to write and the count rises all the same. The count stays within the
ring (rule R58, log entry 50). -/
def Ts.append (t : Ts) (ev : Event) : Ts :=
  { t with buf := t.buf.set t.bufCount (some ev), bufCount := min (t.bufCount + 1) t.capacity }

/-- The part of the event-check after the event is read: record, acknowledge, re-arm, enqueue, wake. -/
def deliver (d full : Nat) (ev : Event) : Op (Except Err Nat) :=
  (tsSet d fun t => { t with lastEvent := some ev }).bind fun _ =>
  (tsRegWrite d .ack (·.ackVal)).q fun _ =>
  (tsRegWrite d .arm (·.armVal)).q fun _ =>
  if full = 1 then .ok 0
  else (underIndex d (tsSet d fun t => t.append ev)).bind fun _ => (wakeAll d).bind fun _ => .ok 0

/-- `event_check` (rule R508). -/
def eventCheckOn (d : Nat) : Op (Except Err Nat) :=
  (checkFull d).bind fun full =>
  (Op.get fun s => (decide (s.board.fullPolicy = .skip)).toNat).bind fun skip =>
  if full = 1 ∧ skip = 1 then .ok 0
  else
    (tsRegRead d .status).q fun st =>
    (Op.get fun s => ((BitVec.ofNat 32 st).getLsbD s.board.bitNew).toNat).bind fun isNew =>
    if isNew = 0 then .ok 0
    else
      (tsRegRead d .secLo).q fun sLo =>
      (tsRegRead d .secHi).q fun sHi =>
      (tsRegRead d .nsec).q fun n =>
      (tsRegRead d .counter).q fun c =>
      deliver d full (eventOf sLo sHi n c)

/-! ### Triggers (rules R510, R511, R516) -/

/-- Wait until a trigger may run (log entry 17), then begin it. -/
def whenReady (d : Nat) (ready : State → Ts → Bool) (f : State → Ts → Ts) : Op Nat :=
  .step fun s => s.onTs d fun t =>
    if ready s t then .go 0 (s.modTs d (f s)) else s.blockOn .other

/-- The deferral of an interrupt: the line is masked (rule R510). -/
def Ts.maskIrq (t : Ts) : Ts := { t with irqDepth := t.irqDepth + 1 }

/-- The deferral of an interrupt: the worker's job is queued (rule R510). -/
def Ts.queueIrq (t : Ts) : Ts := { t with workIrq := true, workPending := true }

/-- The handler begins: `irq_busy` on, and whether it defers the check is settled (rule R510). -/
def Ts.beginIrq (t : Ts) : Ts := { t with irqRun := if t.deferred then .deferring else .checking }

/-- The handler ends: `irq_busy` off. -/
def Ts.endIrq (t : Ts) : Ts := { t with irqRun := .idle }

/-- Wait until the interrupt can be taken (log entry 17), then begin its handler: 1 when it defers the check. One step, so
that a probe of the device between the two lines of rule R510 cannot turn a handler that defers into one that checks
while another check runs (rule R518, log entries 3 and 49). -/
def takeIrq (d : Nat) : Op Nat :=
  .step fun s => s.onTs d fun t =>
    if t.irqReady then .go t.deferred.toNat (s.modTs d Ts.beginIrq) else s.blockOn .other

/-- `ts_irq` (rule R510); an error of the direct event-check is dropped (rule R601), and that check begins while no
other check of the device runs (`Ts.irqReady`, rule R518). -/
def tsIrqOn (d : Nat) : Op (Except Err Nat) :=
  (takeIrq d).bind fun defer =>
  if defer = 1 then
    (tsSet d Ts.maskIrq).bind fun _ =>
    (tsSet d Ts.queueIrq).bind fun _ => (tsSet d Ts.endIrq).bind fun _ => .ok 0
  else
    (eventCheckOn d).bind fun _ => (tsSet d Ts.endIrq).bind fun _ => .ok 0

/-- The unmasking after a deferred check, and the balance check (rule R511). -/
def unmask (d : Nat) : Op Nat :=
  .step fun s => s.onTs d fun t =>
    let u := s.modTs d fun x => { x with irqDepth := x.irqDepth - 1 }
    if t.irqDepth - 1 < 0 then .fault .irqUnbalanced u else .go 0 u

/-- The worker takes a queued job: `work_pending` off, `worker_busy` on. -/
def Ts.takeJob (t : Ts) : Ts := { t with workPending := false, workerBusy := true }

/-- `j <- work_irq; work_irq <- false`, one line of rule R511 and one step. -/
def takeIrqMark (d : Nat) : Op Nat :=
  .step fun s => s.onTs d fun t => .go t.workIrq.toNat (s.modTs d fun x => { x with workIrq := false })

/-- `worker_run` (rule R511); an error of the event-check is dropped. The device's worker is single: it takes a job when
it runs none and no other check of the device runs (rules R15, R518). -/
def workerRunOn (d : Nat) : Op (Except Err Nat) :=
  (whenReady d (fun _ t => t.workPending && t.checkFree) fun _ t => t.takeJob).bind fun _ =>
  (takeIrqMark d).bind fun j =>
  (eventCheckOn d).bind fun _ =>
  if j = 1 then
    (unmask d).bind fun _ => (tsSet d fun t => { t with workerBusy := false }).bind fun _ => .ok 0
  else (tsSet d fun t => { t with workerBusy := false }).bind fun _ => .ok 0

/-- `poll_fire` (rule R516): a check is queued and the next deadline set. -/
def pollFireOn (d : Nat) : Op (Except Err Nat) :=
  (whenReady d (fun s t => t.pollReady s.hostTicks) fun _ t => { t with timerBusy := true }).bind fun _ =>
  (tsSet d fun t => { t with workPending := true }).bind fun _ =>
  (setDeadlineOn d).bind fun _ =>
  (tsSet d fun t => { t with timerBusy := false }).bind fun _ => .ok 0

/-! ### Readers (rules R512 to R514) -/

/-- The event in a slot of the ring. -/
def Ts.slot (t : Ts) (k : Nat) : Option Event := (t.buf[k]?).join

/-- The event in a slot of a timestamper's ring. -/
def State.slotOf (s : State) (d k : Nat) : Option Event :=
  match s.tss[d]? with
  | some t => t.slot k
  | none => none

/-- `n` drawn bytes, and the state after the draws (log entry 7). -/
def State.drawBytes : Nat → State → List Byte × State
  | 0, s => ([], s)
  | n + 1, s => (BitVec.ofNat 8 s.drawn :: (State.drawBytes n s.afterDraw).1, (State.drawBytes n s.afterDraw).2)

/-- Write bytes into the running caller's buffer (rule R104). -/
def State.toBuffer (s : State) (x : Nat) (l : List Byte) : State :=
  s.setMe fun a => { a with buffer := Memory.writeBytes a.buffer x l }

/-- The copy of `left` records from slot `k` on to byte `16 * i` and on (rule R512); a slot that holds no value gives
drawn bytes. -/
def copyRecords (d : Nat) : Nat → Nat → Nat → State → State
  | 0, _, _, s => s
  | left + 1, k, i, s =>
    match s.slotOf d k with
    | some ev =>
      copyRecords d left (k + 1) (i + 1) (s.toBuffer (Config.recordSize * i) (ev.bytes s.board.hostEndian))
    | none =>
      copyRecords d left (k + 1) (i + 1)
        ((State.drawBytes Config.recordSize s).2.toBuffer (Config.recordSize * i)
          (State.drawBytes Config.recordSize s).1)

/-- `copy_out(start, n)` (rule R512): 1 when the buffer cannot be written for all the bytes, which then hold any value
(log entry 22). -/
def copyOut (d start n : Nat) : Op Nat :=
  .step fun s =>
    if Config.recordSize * n ≤ s.me.bufferSize then .go 0 (copyRecords d n start 0 s)
    else
      .go 1 ((State.drawBytes s.me.bufferSize s).2.toBuffer 0 (State.drawBytes s.me.bufferSize s).1)

/-- A point where other agents may step, without a transaction (rule R123). -/
def pausePoint : Op Nat := .xfer fun _ s => .go 0 s

/-- The check of the handle, and the read on it begun (rules R505, R513, log entry 20); a read of no records, which is
rejected, begins nothing (`E_INVAL` "has changed nothing", rule R602). -/
def needOpen (d h max : Nat) : Op Nat :=
  .step fun s => s.onTs d fun t =>
    match t.handle h with
    | .held n => .go 0 (if max = 0 then s else s.modTs d fun x => x.setHandle h (.held (n + 1)))
    | .closing _ => .fault .tsNotOpen s
    | .closed => .fault .tsNotOpen s

/-- A handle after a read on it has ended. -/
def TsHandle.leave : TsHandle → TsHandle
  | .held n => .held (n - 1)
  | .closing 0 => .closed
  | .closing (n + 1) => .closing n
  | .closed => .closed

/-- The read on the handle ends: 1 when it was the last that kept the use of a handle closed meanwhile. -/
def leaveHandle (d h : Nat) : Op Nat :=
  .step fun s => s.onTs d fun t =>
    .go (decide (t.handle h = .closing 0)).toNat (s.modTs d fun x => x.setHandle h (x.handle h).leave)

/-- `WaitInterruptible(waitq, readable)` (rules R513, R514): 1 when a host signal interrupts it, 0 when the reader
is to look again. -/
def awaitReadable (d : Nat) : Op Nat :=
  .step fun s => s.onTs d fun t =>
    if s.atomic then .fault .atomicSleep s
    else if s.me.signal then
      .go 1 (s.takeSignal.modTs d fun x => { x with waiters := x.waiters.filter (· ≠ s.me.id) })
    else if t.waiters.contains s.me.id then s.blockOn .waitq
    else if t.readable then .go 0 s
    else (s.modTs d fun x => { x with waiters := x.waiters ++ [s.me.id] }).blockOn .waitq

/-- `read_count` advances, staying within the events there are (rules R58, R513, log entry 50). -/
def Ts.advance (t : Ts) (n : Nat) : Ts := { t with readCount := min (t.readCount + n) t.bufCount }

/-- The slice is copied and `read_count` advanced (rules R512, R513). -/
def takeRecords (d start n : Nat) : Op (Except Err Nat) :=
  pausePoint.bind fun _ =>
  (copyOut d start n).bind fun failed =>
  if failed = 1 then (releaseReader d).bind fun _ => .raise .fault
  else
    pausePoint.bind fun _ =>
    (underIndex d (tsSet d fun t => t.advance n)).bind fun _ =>
    (releaseReader d).bind fun _ => .ok (n * Config.recordSize)

/-- How many answers `ts_read` has had when it enters its loop: those of `tsEnter` and `needOpen`, which the loop does
not make again (rule R513, log entry 21). -/
def readLoop : Nat := 2

/-- `mode == Direct`, as an answer. -/
def directMode (d : Nat) : Op Nat := tsGet d fun t => (decide (t.mode = .direct)).toNat

/-- Nothing is available: in `Direct` mode a check is queued; the mode is looked at again after the lock is released
(rule R513). -/
def nothingToRead (d : Nat) (nonblock : Bool) : Op (Except Err Nat) :=
  (directMode d).bind fun direct =>
  (if direct = 1 then tsSet d fun t => { t with workPending := true } else .ret ()).bind fun _ =>
  (releaseReader d).bind fun _ =>
  (directMode d).bind fun still => if still = 1 ∨ nonblock then .raise .again else .again readLoop

/-- The reader past its wait: the slice, or nothing available (rule R513). -/
def readSlice (d max : Nat) (nonblock : Bool) : Op (Except Err Nat) :=
  (acquireIndex d).bind fun _ =>
  (tsGet d fun t => t.readCount).bind fun start =>
  (tsGet d fun t => t.bufCount - t.readCount).bind fun avail =>
  (releaseIndex d).bind fun _ =>
  if avail = 0 then nothingToRead d nonblock else takeRecords d start (min avail max)

/-- `ts_read` of `max` records past its checks; after a wait, and at "go to loop", it acquires the reader lock and enters the
loop again (rule R513, log entry 21). -/
def readRecords (d max : Nat) (nonblock : Bool) : Op (Except Err Nat) :=
  (acquireReaderInt d).bind fun intr =>
  if intr = 1 then .raise .intr
  else
    (underIndex d (tsGet d fun t => t.readable.toNat)).bind fun can =>
    if can = 1 ∨ nonblock then readSlice d max nonblock
    else
      (releaseReader d).bind fun _ =>
      (awaitReadable d).bind fun stopped => if stopped = 1 then .raise .intr else .again readLoop

/-- `ts_read` (rule R513): "a reader blocked on a handle keeps that handle open" (rule R505), so the last read on a handle
that was closed meanwhile ends its use of the device (log entry 20). -/
def tsReadOn (d h : Nat) (len : U32) (nonblock : Bool) : Op (Except Err Nat) :=
  (needOpen d h (len.toNat / Config.recordSize)).bind fun _ =>
  if len.toNat / Config.recordSize = 0 then .raise (.inval .zeroRecords)
  else
    (readRecords d (len.toNat / Config.recordSize) nonblock).bind fun r =>
    (leaveHandle d h).bind fun last => if last = 1 then (endUse d).bind fun _ => .ret r else .ret r

/-! ### Settings (rule R515) -/

/-- The stored settings. -/
def Ts.store (t : Ts) (m : DMode) (sec : U64) (nsec : U32) : Ts :=
  { t with mode := m, pollSec := sec, pollNsec := nsec }

/-- The end of `change_settings`: readers are woken when the mode is not `Interrupt`, and the lock is released. -/
def settingsDone (d : Nat) (m : DMode) (r : Except Err Nat) : Op (Except Err Nat) :=
  if m = .interrupt then (releaseCfg d).bind fun _ => .ret r
  else (wakeAll d).bind fun _ => (releaseCfg d).bind fun _ => .ret r

/-- `change_settings` past its checks. -/
def applySettings (d : Nat) (m : DMode) (sec : U64) (nsec : U32) : Op (Except Err Nat) :=
  (acquireCfg d).bind fun _ =>
  (tsGet d fun t => (decide (t.life = .active)).toNat).bind fun active =>
  if active = 1 then
    (currentMode d).bind fun old =>
    (disableModeOn d old).bind fun _ =>
    (acquireReader d).bind fun _ =>
    (tsSet d fun t => t.store m sec nsec).bind fun _ =>
    (releaseReader d).bind fun _ =>
    (enableModeOn d m).bind fun r => settingsDone d m r
  else
    (acquireReader d).bind fun _ =>
    (tsSet d fun t => t.store m sec nsec).bind fun _ =>
    (releaseReader d).bind fun _ => settingsDone d m (.ok 0)

/-- `change_settings` (rule R515). -/
def changeSettingsOn (d : Nat) (mode : U32) (sec : U64) (nsec : U32) : Op (Except Err Nat) :=
  match DMode.ofWord mode with
  | none => .raise (.inval .mode)
  | some m =>
    (tsGet d fun t => (decide (m = .interrupt) && !t.irqLine).toNat).bind fun noIrq =>
    if noIrq = 1 then .raise (.inval .noIrq)
    else if Config.giga ≤ nsec.toNat then .raise (.inval .interval)
    else applySettings d m sec nsec

/-! ### Host events (rules R514, R626) -/

/-- The timestamper whose reader the agent is, if it is blocked there in a wait that a signal can interrupt: on the wait
queue while it is among the waiters, on the reader lock while that is held; a reader already woken waits no more (rules
R14, R514). -/
def State.interruptible (s : State) (a : Agent) : Option Nat :=
  match a.op, a.blocked with
  | some (.tsRead d _ _ _), some w =>
    match s.tss[d]? with
    | none => none
    | some t =>
      match w with
      | .waitq => if t.waiters.contains a.id then some d else none
      | .readerLock => if t.readerLock = none then none else some d
      | .other => none
  | _, _ => none

/-- The signal reaches agent number `k` of the others. -/
def State.signalOther (s : State) (k : Nat) (a : Agent) : State :=
  match s.interruptible a with
  | none => s
  | some d =>
    { (s.modTs d fun t => { t with waiters := t.waiters.filter (· ≠ a.id) }) with
      others := s.others.modify k fun x => { x with signal := true } }

/-- `host_signal(c)` (rule R514): no effect on an agent that is not blocked in an interruptible wait, so none where no
agent is `c`. -/
def hostSignalOn (c : Nat) : Op (Except Err Nat) :=
  (Op.step fun s =>
    if s.me.id = c then .go 0 s
    else
      match s.others.zipIdx.find? (fun e => decide (e.1.id = c)) with
      | some e => .go 0 (s.signalOther e.2 e.1)
      | none => .go 0 s).bind fun _ =>
  .ok 0

/-! ### Meanings -/

/-- A result that is a handle, and one that is a number of bytes. -/
def asHandle (x : Op (Except Err Nat)) : Op (Except Err Res) := x.q fun h => .ok (.handle h)

def asBytes (x : Op (Except Err Nat)) : Op (Except Err Res) := x.q fun n => .ok (.bytes n)

/-- `ts_open` (rule R504). -/
def execTsOpen (d : Nat) (s : State) : Outcome :=
  s.perform (.tsOpen d) ((tsEnter d).bind fun _ => asHandle (tsOpenOn d))

/-- `ts_close` (rule R505). -/
def execTsClose (d h : Nat) (s : State) : Outcome :=
  s.perform (.tsClose d h) ((tsEnter d).bind fun _ => asUnit (tsCloseOn d h))

/-- `ts_read` (rule R513). -/
def execTsRead (d h : Nat) (len : U32) (nonblock : Bool) (s : State) : Outcome :=
  s.perform (.tsRead d h len nonblock) ((tsEnter d).bind fun _ => asBytes (tsReadOn d h len nonblock))

/-- `change_settings` (rule R515). -/
def execChangeSettings (d : Nat) (mode : U32) (sec : U64) (nsec : U32) (s : State) : Outcome :=
  s.perform (.changeSettings d mode sec nsec)
    ((tsEnter d).bind fun _ => asUnit (changeSettingsOn d mode sec nsec))

/-- `event_check` issued by itself: the device's worker runs it, when no other check of the device runs (rules R15,
R508, R518, log entry 44). -/
def eventCheckAlone (d : Nat) : Op (Except Err Nat) :=
  (whenReady d (fun _ t => t.checkFree) fun _ t => { t with workerBusy := true }).bind fun _ =>
  (eventCheckOn d).bind fun r => (tsSet d fun t => { t with workerBusy := false }).bind fun _ => .ret r

/-- `event_check` issued by itself (rule R508). -/
def execEventCheck (d : Nat) (s : State) : Outcome :=
  s.perform (.eventCheck d) ((tsEnter d).bind fun _ => asUnit (eventCheckAlone d))

/-- `enable_mode` issued by itself (rule R506). -/
def execEnableMode (d : Nat) (m : DMode) (s : State) : Outcome :=
  s.perform (.enableMode d m) ((tsEnter d).bind fun _ => asUnit (enableModeOn d m))

/-- `disable_mode` issued by itself (rule R507). -/
def execDisableMode (d : Nat) (m : DMode) (s : State) : Outcome :=
  s.perform (.disableMode d m) ((tsEnter d).bind fun _ => asUnit (disableModeOn d m))

/-- `ts_probe` (rule R501). -/
def execTsProbe (d : Nat) (res : Option Resource) (irqLine : Bool) (s : State) : Outcome :=
  s.perform (.tsProbe d res irqLine) (asUnit (tsProbeOn d res irqLine))

/-- `ts_pulse` (rule R502); the capture hardware of a removed device still sees pulses. -/
def execTsPulse (d : Nat) (s : State) : Outcome :=
  s.perform (.tsPulse d)
    (asUnit ((Op.step fun s => s.onTs d fun _ => .go 0 (s.tsPulse d)).bind fun _ => .ok 0))

/-- `ts_irq` (rule R510). -/
def execTsIrq (d : Nat) (s : State) : Outcome :=
  s.perform (.tsIrq d) ((tsEnter d).bind fun _ => asUnit (tsIrqOn d))

/-- `worker_run` (rule R511). -/
def execWorkerRun (d : Nat) (s : State) : Outcome :=
  s.perform (.workerRun d) ((tsEnter d).bind fun _ => asUnit (workerRunOn d))

/-- `poll_fire` (rule R516). -/
def execPollFire (d : Nat) (s : State) : Outcome :=
  s.perform (.pollFire d) ((tsEnter d).bind fun _ => asUnit (pollFireOn d))

/-- `host_signal` (rule R514). -/
def execHostSignal (c : Nat) (s : State) : Outcome := s.perform (.hostSignal c) (asUnit (hostSignalOn c))

/-- `host_tick` (rule R626). -/
def execHostTick (s : State) : Outcome :=
  s.perform .hostTick (asUnit ((Op.set State.hostTick).bind fun _ => .ok 0))

end Sys2Proof.Machine
end

