-- ==== Sys2Proof/Machine/Dispatch.lean ====
section
/-!
DEFINITION. The dispatch of every operation to its meaning, one arm per constructor of `Instr`.
-/

namespace Sys2Proof.Machine

open Sys2Proof

def exec (i : Instr) (s : State) : Host.Outcome State Fault Refusal :=
  match i with
  | .read16 b addr => Sys2Proof.Machine.execRead16 b addr s
  | .write16 b addr value => Sys2Proof.Machine.execWrite16 b addr value s
  | .read32 b addr => Sys2Proof.Machine.execRead32 b addr s
  | .write32 b addr value => Sys2Proof.Machine.execWrite32 b addr value s
  | .reset b => Sys2Proof.Machine.execReset b s
  | .lookup t => Sys2Proof.Machine.execLookup t s
  | .release h => Sys2Proof.Machine.execRelease h s
  | .mmioRead16 b addr => Sys2Proof.Machine.execMmioRead16 b addr s
  | .mmioWrite16 b addr value => Sys2Proof.Machine.execMmioWrite16 b addr value s
  | .nativeRead32 b addr => Sys2Proof.Machine.execNativeRead32 b addr s
  | .nativeWrite32 b addr value => Sys2Proof.Machine.execNativeWrite32 b addr value s
  | .i2cRead16 b addr => Sys2Proof.Machine.execI2cRead16 b addr s
  | .i2cWrite16 b addr value => Sys2Proof.Machine.execI2cWrite16 b addr value s
  | .slaveRead16 b addr => Sys2Proof.Machine.execSlaveRead16 b addr s
  | .slaveWrite16 b addr value => Sys2Proof.Machine.execSlaveWrite16 b addr value s
  | .bridgeRead16 b addr => Sys2Proof.Machine.execBridgeRead16 b addr s
  | .bridgeWrite16 b addr value => Sys2Proof.Machine.execBridgeWrite16 b addr value s
  | .readTime d => Sys2Proof.Machine.execReadTime d s
  | .adjustTime d sign sec nsec => Sys2Proof.Machine.execAdjustTime d sign sec nsec s
  | .adjustFrequency d ppb => Sys2Proof.Machine.execAdjustFrequency d ppb s
  | .initRegisters d => Sys2Proof.Machine.execInitRegisters d s
  | .ncoProbe d res param prop => Sys2Proof.Machine.execNcoProbe d res param prop s
  | .cmdPoll d c => Sys2Proof.Machine.execCmdPoll d c s
  | .ncoTick d => Sys2Proof.Machine.execNcoTick d s
  | .ncoCmdComplete d c => Sys2Proof.Machine.execNcoCmdComplete d c s
  | .adpDetect p => Sys2Proof.Machine.execAdpDetect p s
  | .adpSetup p desired forced => Sys2Proof.Machine.execAdpSetup p desired forced s
  | .checkLink p => Sys2Proof.Machine.execCheckLink p s
  | .initAdapter p => Sys2Proof.Machine.execInitAdapter p s
  | .bestAdapterLinkMode adapterMask sfpMask => Sys2Proof.Machine.execBestAdapterLinkMode adapterMask sfpMask s
  | .adpProbe p res => Sys2Proof.Machine.execAdpProbe p res s
  | .tsOpen d => Sys2Proof.Machine.execTsOpen d s
  | .tsClose d h => Sys2Proof.Machine.execTsClose d h s
  | .tsRead d h bufferLen nonblock => Sys2Proof.Machine.execTsRead d h bufferLen nonblock s
  | .changeSettings d mode piSec piNsec => Sys2Proof.Machine.execChangeSettings d mode piSec piNsec s
  | .eventCheck d => Sys2Proof.Machine.execEventCheck d s
  | .enableMode d m => Sys2Proof.Machine.execEnableMode d m s
  | .disableMode d m => Sys2Proof.Machine.execDisableMode d m s
  | .tsProbe d res irqLine => Sys2Proof.Machine.execTsProbe d res irqLine s
  | .tsPulse d => Sys2Proof.Machine.execTsPulse d s
  | .tsIrq d => Sys2Proof.Machine.execTsIrq d s
  | .workerRun d => Sys2Proof.Machine.execWorkerRun d s
  | .pollFire d => Sys2Proof.Machine.execPollFire d s
  | .hostSignal c => Sys2Proof.Machine.execHostSignal c s
  | .hostTick => Sys2Proof.Machine.execHostTick s

end Sys2Proof.Machine
end

