-- ==== Sys2Proof/Machine/Fetch.lean ====
section
/-!
DEFINITION. How the next operation comes to run (spec/30_encoding.md rule R173; log entries 2 and 3): the running
agent goes on with the operation it is in, or takes the next one from its program, a list of bytes; an agent whose
program is empty is idle; the schedule says which agent runs next and which steps of the outside come first.
-/

namespace Sys2Proof.Machine

open Sys2Proof

/-- A decoding error as a refusal (rules R170, R611). -/
def refusalOf : DecodeError → Refusal
  | .illegalOp w => .illegalOp w
  | .badOperand b => .badOperand b
  | .truncated => .truncated

/-- The running agent takes bytes off its program. -/
def State.setProg (s : State) (l : List Byte) : State := s.setMe fun a => { a with prog := l }

/-- The operation is taken from the front of a program and executed. -/
def State.fetch (s : State) (l : List Byte) : Outcome :=
  match decode l with
  | .ok (i, rest) => exec i (s.setProg rest)
  | .error e => .refused (refusalOf e)

/-- The running agent makes its step. One that a fault has stopped takes no further step, and a move that asks it for
one reports the fault (rule R610, log entry 30). -/
def State.go (s : State) : Outcome :=
  match s.me.stopped with
  | some f => .fault f
  | none =>
    match s.me.op with
    | some i => exec i s
    | none =>
      match s.me.prog with
      | [] => .next { s with cut := none }
      | b :: l => s.fetch (b :: l)

/-- Another agent runs: the running one joins the others. -/
def State.switchTo (s : State) (id : Nat) : Option State :=
  if s.me.id = id then some s
  else
    match s.others.find? (fun a => decide (a.id = id)) with
    | some a => some { s with me := a, others := s.me :: s.others.erase a }
    | none => none

/-- The next move of the machine. DESIGN CHOICE (log entry 3): where the schedule names an agent there is not, no agent
steps. -/
def State.move (s : State) : Outcome :=
  match s.sched with
  | [] => s.go
  | .env e :: r => .next (State.env { s with sched := r } e)
  | .agent id :: r =>
    match State.switchTo { s with sched := r, cut := none } id with
    | some t => t.go
    | none => .next { s with sched := r, cut := none }
  | .part id n :: r =>
    match State.switchTo { s with sched := r, cut := some n } id with
    | some t => t.go
    | none => .next { s with sched := r, cut := none }

/-- The running agent is about to issue the operation whose bytes these are: nothing is in progress, no fault has
stopped the agent, nothing bounds its steps and no move comes first. -/
def State.load (s : State) (l : List Byte) : State :=
  { s with
    me := { s.me with prog := l, op := none, hist := [], blocked := none, stopped := none }
    sched := []
    cut := none }

end Sys2Proof.Machine
end

