-- ==== Sys2Proof/Machine/Step.lean ====
section
/-!
DEFINITION. One step of the machine, and how an operation's bytes are placed for the next step to run.
-/

namespace Sys2Proof.Machine

open Sys2Proof

/-- One step of the machine (log entry 3). -/
def step (s : State) : Host.Outcome State Fault Refusal := s.move

/-- The running agent's program is the instruction given as a number, followed by zeros up to the longest
instruction, and the next step runs it (log entry 2). -/
def State.withFetchWord (s : State) (nbits w : Nat) : State := s.load (tableBytes nbits w)

end Sys2Proof.Machine
end

