-- ==== Sys2Proof/Safety.lean ====
section
/-!
DEFINITION. What counts as a safe state, and the terms in which statements about the machine are made: when an agent
may begin an operation, when a bus access can be made, how the registers of a device are wired to an instance, which
turns a run of accesses takes, and equality of states but for the bookkeeping of a bus.
-/

namespace Sys2Proof

/-- The command bits are "three distinct non-zero 32-bit masks" that share no bit (rule R8). -/
def Board.CmdBits (b : Board) : Prop :=
  b.cmdRead ≠ 0 ∧ b.cmdAdjClock ≠ 0 ∧ b.cmdAdjStep ≠ 0 ∧ b.cmdRead &&& b.cmdAdjClock = 0 ∧
    b.cmdRead &&& b.cmdAdjStep = 0 ∧ b.cmdAdjClock &&& b.cmdAdjStep = 0

/-- The parameters are in their ranges: the command masks are distinct and not zero, and every bit and field lies inside
its register (rule R8). -/
def Board.ok (b : Board) : Bool :=
  masksDistinct (b.cmdRead, b.cmdAdjClock, b.cmdAdjStep) && decide (b.bitNew < 32) && decide (b.bitLink < 16)
    && decide (b.bitAn < 16) && decide (b.fldSpeed < 15) && decide (b.fldPcsSpeed < 15)

end Sys2Proof

namespace Sys2Proof.Machine

open Sys2Proof

/-! ### Sound states -/

/-- An instance sleeps exactly when it is no MMIO instance, and only an MMIO instance has native 32-bit accesses
(rules R42, R222). -/
def Rb.sound (rb : Rb) : Bool :=
  decide (rb.sleeps = !decide (rb.backend = .mmio)) && (decide (rb.backend = .mmio) || !(rb.hasRead32 || rb.hasWrite32))

/-- A far end's bytes are canonical. -/
def FarEnd.sound (e : FarEnd) : Bool := Memory.wf e.cells

/-- An event record is normalized (rule R59). -/
def Event.sound (e : Event) : Bool := decide (e.nsec.toNat < Config.giga)

/-- A slot that holds an event holds a normalized one. -/
def slotSound : Option Event → Bool
  | none => true
  | some e => e.sound

/-- The counts of the ring: `read_count <= buf_count <= capacity`, which gives `buf_count <= read_count + capacity`
(rule R58), and a capacity of at least one (rule R57). -/
def Ts.countsSound (t : Ts) : Bool :=
  decide (t.readCount ≤ t.bufCount) && decide (t.bufCount ≤ t.capacity) && decide (0 < t.capacity)

/-- The worker and the interrupt handler do not both run the device's event-check (rule R518). -/
def Ts.oneCheck (t : Ts) : Bool := !(t.workerBusy && decide (t.irqRun = .checking))

/-- A timestamper: normalized events only, the ring invariant, and one event-check at a time (rules R58, R59, R518). -/
def Ts.sound (t : Ts) : Bool := t.buf.all slotSound && slotSound t.lastEvent && t.countsSound && t.oneCheck

/-- A port: "forced link mode other than DOWN disables autonegotiation", and "current link mode is DOWN or a member of
the supported set" (rule R53). -/
def Port.sound (q : Port) : Bool :=
  !(q.forced && decide (q.desired ≠ .down) && q.anEnabled) && linkAllowed q.supported q.linkMode

/-- An agent's buffer is canonical. -/
def Agent.sound (a : Agent) : Bool := Memory.wf a.buffer

/-- An agent that the fault of an unbalanced interrupt has stopped (rule R511). -/
def Agent.unbalanced (a : Agent) : Bool := decide (a.stopped = some .irqUnbalanced)

/-- No disable depth is below 0, unless an agent is stopped by the fault that says so (rules R511, R623). -/
def State.depthsSound (s : State) : Bool :=
  s.tss.all (fun t => decide (0 ≤ t.irqDepth)) || (s.me :: s.others).any Agent.unbalanced

/-- No two ports have one index (rules R52, R404). -/
def State.portsDistinct (s : State) : Bool := decide (s.ports.map (·.port)).Nodup

/-- A sound state. -/
def State.sound (s : State) : Bool :=
  s.board.ok && s.rbs.all Rb.sound && s.fars.all FarEnd.sound && s.tss.all Ts.sound && s.ports.all Port.sound
    && s.me.sound && s.others.all Agent.sound && s.depthsSound && s.portsDistinct

/-- The handles of an instance that are not released. -/
def State.held (s : State) (i : Nat) : Nat :=
  (s.handles.filter fun h => !h.released && decide (h.inst = i)).length

/-- The handles are balanced: bindings and handles name instances there are, and `refs` counts the handles that are
not released (rules R218, R219). -/
def State.balanced (s : State) : Prop :=
  (∀ e ∈ s.topo, e.2 < s.rbs.length) ∧ (∀ h ∈ s.handles, h.inst < s.rbs.length) ∧
    ∀ i rb, s.rbs[i]? = some rb → rb.refs = s.held i

/-- The running nanoseconds of NCO `d` are below one second (rule R46, "below 1e9 after each tick"). -/
def State.ncoBelow (s : State) (d : Nat) : Prop := ∀ n, s.ncos[d]? = some n → n.hw.nsec.toNat < Config.giga

/-- The ring invariant (rule R58). -/
def Ts.ringOk (t : Ts) : Prop := t.readCount ≤ t.bufCount ∧ t.bufCount ≤ t.readCount + t.capacity

/-! ### When an operation can be made -/

/-- The running agent is in no operation, and nothing bounds the steps of its next one. -/
def State.Idle (s : State) : Prop := s.me.op = none ∧ s.cut = none

/-- The running agent is idle, and no other agent's step and no failure comes between its transactions. -/
def State.Ready (s : State) : Prop := s.Idle ∧ s.turns = []

/-- The bus operand stands for instance `i`, which is `rb`: it is named directly or by a handle that is held. -/
def State.Names (s : State) (b : BusRef) (i : Nat) (rb : Rb) : Prop :=
  s.rbs[i]? = some rb ∧
    match b with
    | .inst j => j = i
    | .handle h => s.handles[h]? = some ⟨i, false⟩

/-- The running agent may use the instance now: it does not sleep in atomic context and no access on it is
unfinished. -/
def State.MayUse (s : State) (rb : Rb) : Prop := (rb.sleeps && s.atomic) = false ∧ rb.busy = none

/-- The instance's backend takes a 16-bit access at an address without a fault (rules R114, R115, R214). -/
def Rb.reaches (rb : Rb) (a : U32) : Bool :=
  match rb.backend with
  | .i2c => true
  | .mmio => !isOdd a
  | .mdioSlave => !isOdd a
  | .mdioBridge => !isOdd a && decide (bridgePhy rb.cfg.bridgeBits a ≤ 31)

/-- The instance takes a 32-bit access, native or decomposed, at an address without a fault (rules R116, R117). -/
def Rb.reaches32 (rb : Rb) (native : Bool) (a : U32) : Bool :=
  if native then isAligned4 a else rb.reaches a && rb.reaches (highAddr a)

/-- A 32-bit register that a device shows for reading at an address: both halves are its own. -/
def State.ShowsNco (s : State) (i d : Nat) (r : NcoReg) (a : U32) : Prop :=
  s.readTarget i a = some (.nco d r false) ∧ s.readTarget i (highAddr a) = some (.nco d r true)

/-- A 32-bit register of an NCO that takes writes at an address. -/
def State.TakesNco (s : State) (i d : Nat) (r : NcoReg) (a : U32) : Prop :=
  s.writeTarget i a = some (.nco d r false) ∧ s.writeTarget i (highAddr a) = some (.nco d r true)

/-- A 32-bit register of a timestamper that is shown at an address. -/
def State.ShowsTs (s : State) (i d : Nat) (r : TsReg) (a : U32) : Prop :=
  s.readTarget i a = some (.ts d r false) ∧ s.readTarget i (highAddr a) = some (.ts d r true)

/-- A 32-bit register of a timestamper that takes writes at an address. -/
def State.TakesTs (s : State) (i d : Nat) (r : TsReg) (a : U32) : Prop :=
  s.writeTarget i a = some (.ts d r false) ∧ s.writeTarget i (highAddr a) = some (.ts d r true)

/-- An NCO device that a probe has given the registers at `res`, on instance `i`, which is `rb`; its registers are
reached there, its lock is free and of the kind of its bus (rules R45, R50, R101, R300). -/
structure NcoWired (s : State) (d : Nat) (n : Nco) (res : Resource) (i : Nat) (rb : Rb) : Prop where
  device : s.ncos[d]? = some n
  resource : n.res = some res
  names : s.Names res.bus i rb
  use : s.MayUse rb
  kept : n.removed = false
  free : n.lock = none
  lockKind : n.spin = !rb.sleeps
  commands : s.board.CmdBits
  reads : ∀ r ∈ NcoReg.readable, r ≠ .subnsec ∨ s.board.readSubnsec = true →
    rb.reaches32 rb.hasRead32 (res.base + s.board.ncoMap.off r) = true ∧
      s.ShowsNco i d r (res.base + s.board.ncoMap.off r)
  writes : ∀ r ∈ NcoReg.writable,
    rb.reaches32 rb.hasWrite32 (res.base + s.board.ncoMap.off r) = true ∧
      s.TakesNco i d r (res.base + s.board.ncoMap.off r)

/-- A timestamper that a probe has given the registers at `res`, on instance `i`, which is `rb` (rules R61, R101). -/
structure TsWired (s : State) (d : Nat) (t : Ts) (res : Resource) (i : Nat) (rb : Rb) : Prop where
  device : s.tss[d]? = some t
  resource : t.res = some res
  names : s.Names res.bus i rb
  use : s.MayUse rb
  kept : t.removed = false
  reads : ∀ r ∈ TsReg.readable,
    rb.reaches32 rb.hasRead32 (res.base + s.board.tsMap.off r) = true ∧
      s.ShowsTs i d r (res.base + s.board.tsMap.off r)
  writes : ∀ r ∈ TsReg.writable,
    rb.reaches32 rb.hasWrite32 (res.base + s.board.tsMap.off r) = true ∧
      s.TakesTs i d r (res.base + s.board.tsMap.off r)

/-- A port that a probe has given the registers at `res`, on instance `i`, which is `rb` (rule R101). -/
structure PortWired (s : State) (p : Nat) (q : Port) (res : Resource) (i : Nat) (rb : Rb) : Prop where
  device : s.portAt p = some q
  resource : q.res = some res
  names : s.Names res.bus i rb
  use : s.MayUse rb
  kept : q.removed = false

/-- An adapter register of the port that is shown at its place (rule R56). -/
def State.ShowsAdp (s : State) (i p : Nat) (rb : Rb) (base : U32) (r : AdpReg) (v : Variant) : Prop :=
  ∃ off, s.board.adpMap.off r v = some off ∧ rb.reaches (base + off) = true ∧
    s.readTarget i (evenAddr (base + off)) = some (.adp p r)

/-! ### Turns of a run of accesses -/

/-- The number of transactions of a 32-bit access, the AA1 cache of an MDIO slave instance holding `cache` before
(rules R110, R171). -/
def Rb.cost (rb : Rb) (native : Bool) (cache : Option U16) (a : U32) : Nat :=
  if native then 1
  else
    match rb.backend with
    | .mmio => 2
    | .i2c => 2
    | .mdioBridge => 4
    | .mdioSlave =>
      4 + (if cache = some (aa1Word a) then 0 else 1) + (if aa1Word (highAddr a) = aa1Word a then 0 else 1)

/-- The AA1 cache after a 32-bit access (rule R211). -/
def Rb.cacheAfter (rb : Rb) (native : Bool) (cache : Option U16) (a : U32) : Option U16 :=
  if native then cache else if rb.backend = .mdioSlave then some (aa1Word (highAddr a)) else cache

/-- What happens in a run of NCO accesses: a 32-bit read or write at an address, or the hardware completing a
command. -/
inductive Beat where
  | readAt (a : U32)
  | writeAt (a : U32)
  | complete (c : Cmd)
deriving DecidableEq, Repr

/-- The turns of such a run on an instance: one for each transaction, all of which succeed, and the completions in
their places. -/
def Rb.script (rb : Rb) (d : Nat) : Option U16 → List Beat → List Turn
  | _, [] => []
  | cache, .complete c :: l => .env (.ncoComplete d c) :: rb.script d cache l
  | cache, .readAt a :: l =>
    List.replicate (rb.cost rb.hasRead32 cache a) .go ++ rb.script d (rb.cacheAfter rb.hasRead32 cache a) l
  | cache, .writeAt a :: l =>
    List.replicate (rb.cost rb.hasWrite32 cache a) .go ++ rb.script d (rb.cacheAfter rb.hasWrite32 cache a) l

/-- The beats of a poll loop that finds its command pending `p` times before the hardware completes it (rule R303). -/
def pollBeats (b : Board) (base : U32) (p : Nat) (c : Cmd) : List Beat :=
  List.replicate p (.readAt (base + b.ncoMap.cmd)) ++ [.complete c, .readAt (base + b.ncoMap.cmd)]

/-- The beats of `read_time` (rule R305). -/
def readTimeBeats (b : Board) (base : U32) (p : Nat) : List Beat :=
  .writeAt (base + b.ncoMap.cmd) :: (pollBeats b base p .read ++
    ([.readAt (base + b.ncoMap.cntLo), .readAt (base + b.ncoMap.cntHi), .readAt (base + b.ncoMap.secLo),
      .readAt (base + b.ncoMap.secHi), .readAt (base + b.ncoMap.nsec)] ++
      if b.readSubnsec then [.readAt (base + b.ncoMap.subnsec)] else []))

/-- The beats of `adjust_time` (rule R306). -/
def adjustTimeBeats (b : Board) (base : U32) (p : Nat) : List Beat :=
  [.writeAt (base + b.ncoMap.adjSecHi), .writeAt (base + b.ncoMap.adjSecLo), .writeAt (base + b.ncoMap.adjNsec),
    .writeAt (base + b.ncoMap.cmd)] ++ pollBeats b base p .adjClock

/-- The beats of `adjust_frequency` (rule R308). -/
def adjustFrequencyBeats (b : Board) (base : U32) (p : Nat) : List Beat :=
  [.writeAt (base + b.ncoMap.stepNsec), .writeAt (base + b.ncoMap.stepSubnsec), .writeAt (base + b.ncoMap.cmd)] ++
    pollBeats b base p .adjStep

/-- The beats of `init_registers` (rule R309), whose five polls find their commands pending `p 0` to `p 4` times. -/
def initBeats (b : Board) (base : U32) (p : Nat → Nat) : List Beat :=
  [.writeAt (base + b.ncoMap.stepNsec), .writeAt (base + b.ncoMap.stepSubnsec)] ++
    (readTimeBeats b base (p 0) ++ (adjustTimeBeats b base (p 1) ++ (adjustTimeBeats b base (p 2) ++
      (.writeAt (base + b.ncoMap.cmd) :: (pollBeats b base (p 3) .adjStep ++ readTimeBeats b base (p 4))))))

/-! ### What operations leave -/

/-- The host's time that two draws in a row give, the first of them draw number `k` from state `s` on (rule R12,
log entry 19). -/
def State.hostDrawn (s : State) (k : Nat) : U64 × U32 :=
  (BitVec.ofNat 64 (s.afterDraws k).drawn, BitVec.ofNat 32 ((s.afterDraws (k + 1)).drawn % Config.giga))

/-- Every byte of memory reads as before: those of every instance's stored far end and those of the running caller's
buffer. -/
def State.SameBytes (s t : State) : Prop :=
  (∀ j x, t.farByte j x = s.farByte j x) ∧ ∀ x, t.bufByte x = s.bufByte x

/-- Every byte of memory reads as before but the `n` bytes from byte `a` on of the far end of instance `i`. -/
def State.SameBytesBut (s t : State) (i a n : Nat) : Prop :=
  (∀ j x, j ≠ i ∨ x < a ∨ a + n ≤ x → t.farByte j x = s.farByte j x) ∧ ∀ x, t.bufByte x = s.bufByte x

/-- The hardware after the words of an adjustment are staged. -/
def NcoHw.stageAdjust (h : NcoHw) (sec : U48) (nsec : U32) : NcoHw :=
  { h with
    stageAdjSecHi := (sec.extractLsb' 32 16).setWidth 32
    stageAdjSecLo := sec.extractLsb' 0 32
    stageAdjNsec := nsec }

/-- The timestamper's cells after a 32-bit write of an action register. -/
def Ts.acted (t : Ts) (b : Board) (r : TsReg) (v : U32) : Ts := { t with hw := t.hw.act b r v }

/-- The timestamper's cells after `enable_mode` succeeds (rule R506). -/
def Ts.enabled (t : Ts) (b : Board) (now : Nat) (m : DMode) : Ts :=
  match m with
  | .interrupt => { t.acted b .arm b.armVal with irqHooked := true }.acted b .irqEn b.irqOn
  | .poll => { t.acted b .arm b.armVal with timerOn := true }.setDeadline b.hostHz now
  | .direct => t.acted b .arm b.armVal

/-- The timestamper's cells after `disable_mode` succeeds (rule R507). -/
def Ts.disabled (t : Ts) (b : Board) (m : DMode) : Ts :=
  match m with
  | .interrupt => { t with irqHooked := false }.acted b .irqEn b.irqOff
  | .poll => { t with timerOn := false }
  | .direct => t

/-- The event that the latched words give (rules R59, R60). -/
def TsHw.event (h : TsHw) : Event :=
  ⟨BitVec.ofNat 64 (normalize h.latSec.toNat h.latNsec.toNat).1,
    BitVec.ofNat 32 (normalize h.latSec.toNat h.latNsec.toNat).2, h.latCounter⟩

/-- The timestamper's cells after the full test of the event-check (rules R58, R508). -/
def Ts.made (t : Ts) : Ts := if t.bufCount = t.capacity ∧ t.readCount = t.bufCount then t.reclaim else t

/-- The ring is full and not drained (rule R509). -/
def Ts.stuck (t : Ts) : Bool := decide (t.bufCount = t.capacity) && !decide (t.readCount = t.bufCount)

/-- The timestamper's cells after an event-check that found an event (rules R508, R509). -/
def Ts.checked (t : Ts) (b : Board) : Ts :=
  let u := { t.made with lastEvent := some t.hw.event }.acted b .ack b.ackVal |>.acted b .arm b.armVal
  if t.stuck then u else { u.append t.hw.event with waiters := [] }

/-! ### Equality but for the bookkeeping of a bus -/

/-- An instance without its AA1 cache and its mark of an unfinished access. -/
def Rb.still (rb : Rb) : Rb := { rb with aa1Cache := none, busy := none }

/-- A timestamper without the low halves kept for its action registers (log entry 9). -/
def Ts.still (t : Ts) : Ts := { t with hw := { t.hw with ackLow := 0, armLow := 0, irqLow := 0 } }

/-- A state without what the accesses on instance `i` leave on the bus itself: the AA1 cache and the mark of an
unfinished access of that instance, the low halves a 32-bit register keeps between two 16-bit writes, the wire
record, the turns and the draws. Everything else of the machine is kept, so two states with the same `still i` agree on
every other register, device, handle and agent and on every byte of memory. -/
def State.still (s : State) (i : Nat) : State :=
  { s.modRb i Rb.still with tss := s.tss.map Ts.still, turns := [], tape := [], draws := 0, wire := [] }

end Sys2Proof.Machine
end

