-- ==== Sys2Proof/WellFormed.lean ====
section
/-!
DEFINITION. Which terms of `Instr` are operations that can be written down (log entry 1): an index (of an
instance, a handle, a device, a port, an agent) fits the 16 bits it is given, and a topology key its 32 bits. The
other operands are typed values whose widths already say this (spec/30_encoding.md rule R142).
-/

namespace Sys2Proof

/-- An index operand fits its 16 bits. -/
def indexOk (n : Nat) : Bool := decide (n < 2 ^ 16)

/-- A topology key fits its 32 bits. -/
def keyOk (t : Nat) : Bool := decide (t < 2 ^ 32)

/-- A bus operand names its instance or handle by an index that fits. -/
def BusRef.wellFormed : BusRef → Bool
  | .inst i => indexOk i
  | .handle h => indexOk h

/-- A resource descriptor, missing or present, is well formed when its bus is. -/
def resourceOk : Option Resource → Bool
  | none => true
  | some r => r.bus.wellFormed

/-- A mask operand is well formed as it is, a port's number when it fits. -/
def MaskArg.wellFormed : MaskArg → Bool
  | .mask _ => true
  | .port p => indexOk p

/-- Well-formedness of an operation: every index operand fits. -/
def Instr.wellFormed : Instr → Bool
  | .read16 b _ => b.wellFormed
  | .write16 b _ _ => b.wellFormed
  | .read32 b _ => b.wellFormed
  | .write32 b _ _ => b.wellFormed
  | .reset b => b.wellFormed
  | .lookup t => keyOk t
  | .release h => indexOk h
  | .mmioRead16 b _ => b.wellFormed
  | .mmioWrite16 b _ _ => b.wellFormed
  | .nativeRead32 b _ => b.wellFormed
  | .nativeWrite32 b _ _ => b.wellFormed
  | .i2cRead16 b _ => b.wellFormed
  | .i2cWrite16 b _ _ => b.wellFormed
  | .slaveRead16 b _ => b.wellFormed
  | .slaveWrite16 b _ _ => b.wellFormed
  | .bridgeRead16 b _ => b.wellFormed
  | .bridgeWrite16 b _ _ => b.wellFormed
  | .readTime d => indexOk d
  | .adjustTime d _ _ _ => indexOk d
  | .adjustFrequency d _ => indexOk d
  | .initRegisters d => indexOk d
  | .ncoProbe d r _ _ => indexOk d && resourceOk r
  | .cmdPoll d _ => indexOk d
  | .ncoTick d => indexOk d
  | .ncoCmdComplete d _ => indexOk d
  | .adpDetect p => indexOk p
  | .adpSetup p _ _ => indexOk p
  | .checkLink p => indexOk p
  | .initAdapter p => indexOk p
  | .bestAdapterLinkMode a s => a.wellFormed && s.wellFormed
  | .adpProbe p r => indexOk p && resourceOk r
  | .tsOpen d => indexOk d
  | .tsClose d h => indexOk d && indexOk h
  | .tsRead d h _ _ => indexOk d && indexOk h
  | .changeSettings d _ _ _ => indexOk d
  | .eventCheck d => indexOk d
  | .enableMode d _ => indexOk d
  | .disableMode d _ => indexOk d
  | .tsProbe d r _ => indexOk d && resourceOk r
  | .tsPulse d => indexOk d
  | .tsIrq d => indexOk d
  | .workerRun d => indexOk d
  | .pollFire d => indexOk d
  | .hostSignal c => indexOk c
  | .hostTick => true

end Sys2Proof
end

