-- ==== Sys2Proof/Certificates/Slice0/Obligations.lean ====
section
/-!
DEFINITION. The statements about the model, in the order of OBLIGATIONS.json: encoding and stepping, invariants of
every step, then the RegisterBus, NCO, adapter and timestamper operations with what they change and what they leave.
-/

open Sys2Proof Sys2Proof.Machine

/-- Decoding the encoding of any well-formed operation gives it back. For every well-formed operation and every list
of bytes after it, decoding the bytes of the operation followed by that list gives the operation and the list.
That operands follow the operation word as bytes is the model's own choice (log entry 1). (R141, R142; derived) -/
def Obligations.DecodeEncode : Prop :=
  ∀ (i : Instr) (r : List Byte), i.wellFormed = true → decode (encode i ++ r) = .ok (i, r)

/-- Whatever decodes is the encoding of a well-formed operation. If a list of bytes decodes to an operation and a
rest, the operation is well formed and the list is the operation's encoding followed by the rest, so every
operation has one encoding. The operand bytes are the model's own choice (log entry 1). (R141, R142; derived) -/
def Obligations.DecodedBytesAreEncoding : Prop :=
  ∀ (l r : List Byte) (i : Instr), decode l = .ok (i, r) → i.wellFormed = true ∧ l = encode i ++ r

/-- Words of the operation-word table decode to their operations. One operation of each family: its word of the
table of rule R141, followed by operand bytes in the order of log entry 1 (the model's choice), decodes to that
operation. (R141; derived) -/
def Obligations.OperationWordsDecode : Prop :=
  decode [0x01, 0x00, 0x02, 0x00, 0x34, 0x12, 0x00, 0x00] = .ok (.read16 (.inst 2) 0x1234, []) ∧
  decode [0x17, 0x01, 0x00, 0x00, 0x10, 0x00, 0x02, 0x00, 0xAB, 0x00] =
    .ok (.slaveWrite16 (.handle 0) 0x00020010 0x00AB, []) ∧
  decode [0x22, 0x00, 0x00, 0xFF, 0xFF, 0xFF, 0xFF, 0x05, 0, 0, 0, 0, 0, 0, 0, 0x07, 0, 0, 0] =
    .ok (.adjustTime 0 0xFFFFFFFF 5 7, []) ∧
  decode [0x31, 0x00, 0x00, 0x01] = .ok (.ncoCmdComplete 0 .adjClock, []) ∧
  decode [0x42, 0x00, 0x00, 0x03, 0x01] = .ok (.adpSetup 0 .full1000 true, []) ∧
  decode [0x53, 0x00, 0x00, 0x01, 0x00, 0x20, 0, 0, 0, 0x01] = .ok (.tsRead 0 1 32 true, []) ∧
  decode [0x65] = .ok (.hostTick, [])

/-- An unassigned operation word names no operation and is refused. A word that is the operation word of no
operation does not decode, and an agent whose program begins with it is refused with R_ILLEGAL_OP at its next
step. (R170, R611; derived) -/
def Obligations.UnassignedWordRefused : Prop :=
  ∀ (w : Byte) (l : List Byte) (s : State), (∀ i : Instr, i.word ≠ w) → s.sched = [] → s.me.op = none →
    s.me.stopped = none → s.me.prog = w :: l → step s = .refused (.illegalOp w)

/-- A step runs the operation that the program's next bytes decode to. When no move is scheduled and the running
agent is in no operation and not stopped, a step takes the operation its program begins with and is the
execution of that operation with those bytes taken off the program. The same holds of a word placed by
withFetchWord. Programs as bytes and the schedule are the model's (log entries 2 and 3). (R173; derived) -/
def Obligations.StepRunsDecoded : Prop :=
  (∀ (s : State) (i : Instr) (r : List Byte), s.sched = [] → s.me.op = none → s.me.stopped = none →
    decode s.me.prog = .ok (i, r) → step s = exec i { s with me := { s.me with prog := r } }) ∧
  ∀ (s : State) (nbits w : Nat) (i : Instr) (r : List Byte), decode (tableBytes nbits w) = .ok (i, r) →
    step (s.withFetchWord nbits w) =
      exec i { s with
        sched := [], cut := none
        me := { s.me with prog := r, op := none, hist := [], blocked := none, stopped := none } }

/-- The other moves of a step: idling, resuming, a stopped agent, the outside, another agent. The model's schedule
(log entry 3): with nothing scheduled an agent goes on with the operation it is in, or idles when its program is
empty; an agent that a fault has stopped takes no step, and a move that asks it for one reports its fault (log
entry 30); a scheduled step of the outside happens; a scheduled agent becomes the running one and moves, without
a bound on its steps or with the bound the schedule gives; where the schedule names an agent that does not exist
no agent steps. (R15, R41, R610; derived) -/
def Obligations.StepMoves : Prop :=
  (∀ s : State, s.sched = [] → s.me.stopped = none → s.me.op = none → s.me.prog = [] →
    step s = .next { s with cut := none }) ∧
  (∀ (s : State) (i : Instr), s.sched = [] → s.me.stopped = none → s.me.op = some i → step s = exec i s) ∧
  (∀ (s : State) (f : Fault), s.me.stopped = some f → s.sched = [] ∨ (∃ r, s.sched = .agent s.me.id :: r) ∨
    (∃ n r, s.sched = .part s.me.id n :: r) → step s = .fault f) ∧
  (∀ (s : State) (e : Env) (r : List Move), s.sched = .env e :: r →
    step s = .next (State.env { s with sched := r } e)) ∧
  (∀ (s : State) (r : List Move), s.sched = .agent s.me.id :: r →
    step s = State.go { s with sched := r, cut := none }) ∧
  (∀ (s : State) (n : Nat) (r : List Move), s.sched = .part s.me.id n :: r →
    step s = State.go { s with sched := r, cut := some n }) ∧
  (∀ (s : State) (r : List Move) (a : Agent), s.sched = .agent a.id :: r → a.id ≠ s.me.id →
    s.others.find? (fun x => decide (x.id = a.id)) = some a →
    step s = State.go { s with sched := r, cut := none, me := a, others := s.me :: s.others.erase a }) ∧
  (∀ (s : State) (n : Nat) (r : List Move) (a : Agent), s.sched = .part a.id n :: r → a.id ≠ s.me.id →
    s.others.find? (fun x => decide (x.id = a.id)) = some a →
    step s = State.go { s with sched := r, cut := some n, me := a, others := s.me :: s.others.erase a }) ∧
  ∀ (s : State) (k n : Nat) (r : List Move), s.sched = .agent k :: r ∨ s.sched = .part k n :: r → k ≠ s.me.id →
    s.others.find? (fun x => decide (x.id = k)) = none → step s = .next { s with sched := r, cut := none }

/-- Every step keeps a state sound. From every sound state a step that answers a next state answers a sound one.
Sound: the parameters are in their ranges; every stored far end and every caller buffer is in canonical form; an
instance sleeps exactly when it is no MMIO instance, and only an MMIO instance has native 32-bit accesses; every
event in a ring or in last_event has nanoseconds below 1e9; a ring has room for at least one event, read_count
is at most buf_count and buf_count at most the capacity; the worker and the interrupt handler of a device do not
both run its check; no disable depth is below 0 unless an agent is stopped by the fault that says so; a forced
link mode other than DOWN goes with autonegotiation off; no two ports have one index; every port's link mode is
DOWN or one of its supported modes. The canonical form is the model's (log entry 32), that the counts stay so,
and no second check begins, even after a probe of a device in use is log entries 50 and 49, and so is what
happens to a link mode when the supported modes change (log entry 45). (R8, R42, R52, R53, R58, R59, R222, R511,
R518, R623; derived) -/
def Obligations.StepKeepsSound : Prop :=
  ∀ s t : State, s.sound = true → step s = .next t → t.sound = true

/-- Every step keeps the reference counts equal to the handles held. From every balanced state a step that answers a
next state answers a balanced one. Balanced: every topology binding and every handle names an instance that
exists, and refs of each instance is the number of its handles that are not released. (R218, R219, R718;
derived) -/
def Obligations.StepKeepsBalanced : Prop :=
  ∀ s t : State, s.balanced → step s = .next t → t.balanced

/-- The state after reset is sound and balanced, for every board in range. The state after reset meets the two
invariants that every step keeps, and so does the reset state of every board whose parameters are in their
ranges. Which instances and devices exist at reset is the model's choice (log entry 4). (R700, R701; derived) -/
def Obligations.ResetInvariants : Prop :=
  State.reset = State.resetOn Config.board Config.rbCfg ∧ State.reset.sound = true ∧ State.reset.balanced ∧
  ∀ (b : Board) (cfg : RbCfg), (b.ok = true → (State.resetOn b cfg).sound = true) ∧ (State.resetOn b cfg).balanced

/-- Every step keeps an NCO's running nanoseconds below one second. If the hw_nsec of an NCO is below 1e9, it is so
after every step that answers a next state, whatever the step does to this or another device. (A device that a
probe creates begins with cells of which nothing is known, log entry 5.) (R46, R301; derived) -/
def Obligations.StepKeepsNcoBelow : Prop :=
  ∀ (s t : State) (d : Nat), d < s.ncos.length → s.ncoBelow d → step s = .next t → t.ncoBelow d

/-- No step changes a parameter or what an instance is, and the model's lists of devices only grow. No step changes
a parameter of the board; an instance keeps its place, name, id, backend, capabilities, sleeps and backend
configuration for ever. That its far end goes on keeping what is written or not is the model's (log entry 11),
and so is that the lists of NCOs, ports and timestampers only grow and a port keeps its index: removal is a mark
on a device, whose number stays its own (log entry 26). (R42, R43, R8; derived) -/
def Obligations.StepKeepsInstances : Prop :=
  ∀ s t : State, step s = .next t → t.board = s.board ∧
    s.ncos.length ≤ t.ncos.length ∧ s.ports.length ≤ t.ports.length ∧ s.tss.length ≤ t.tss.length ∧
    (∀ (p : Nat) (q : Port), s.portAt p = some q → ∃ q', t.portAt p = some q') ∧
    (∀ (i : Nat) (e : FarEnd), s.fars[i]? = some e → ∃ e', t.fars[i]? = some e' ∧ e'.keeps = e.keeps) ∧
    ∀ (i : Nat) (rb : Rb), s.rbs[i]? = some rb →
      ∃ rb', t.rbs[i]? = some rb' ∧ rb'.name = rb.name ∧ rb'.id = rb.id ∧ rb'.backend = rb.backend ∧
        rb'.hasRead32 = rb.hasRead32 ∧ rb'.hasWrite32 = rb.hasWrite32 ∧ rb'.hasReset = rb.hasReset ∧
        rb'.sleeps = rb.sleeps ∧ rb'.cfg = rb.cfg

/-- The cells of a new instance and of the devices at reset have the values the spec gives. A new instance has refs
0 and no AA1 cache, sleeps unless it is MMIO, and has native 32-bit accesses only where it is MMIO. At reset,
for every board, the NCO is not initialised with nominal step (8, 0) and no command pending, and the timestamper
is Idle with empty counts, no event, depth 0, nothing hooked or pending and its mode by its interrupt line. No
far end keeps anything at reset (rule R44). That one of each exists at reset is log entry 4. (R42, R44, R222,
R45, R51, R57, R701, R706; derived) -/
def Obligations.CellsAtCreation : Prop :=
  (∀ (k : Nat) (name : String) (b : Backend) (n32 r : Bool) (cfg : RbCfg),
    let rb := Rb.create k name b n32 r cfg
    rb.refs = 0 ∧ rb.aa1Cache = none ∧ rb.name = name ∧ rb.id = k ∧ rb.backend = b ∧ rb.cfg = cfg ∧ rb.hasReset = r ∧
      rb.sleeps = decide (b ≠ .mmio) ∧ rb.hasRead32 = (n32 && decide (b = .mmio)) ∧
      rb.hasWrite32 = (n32 && decide (b = .mmio))) ∧
  (∀ (b : Board) (cfg : RbCfg), ∀ e ∈ (State.resetOn b cfg).fars, e.keeps = false ∧ e.cells = []) ∧
  ∀ (b : Board) (cfg : RbCfg), ∃ n t, (State.resetOn b cfg).ncos = [n] ∧ (State.resetOn b cfg).tss = [t] ∧
    n.nominalNsec = 8 ∧ n.nominalSubnsec = 0 ∧ n.nominal48 = 0x000800000000 ∧ n.currentStepNsec = 8 ∧
    n.lock = none ∧ n.initialised = false ∧ n.hw.pendRead = false ∧ n.hw.pendAdjClock = false ∧
    n.hw.pendAdjStep = false ∧
    t.life = .idle ∧ t.useCount = 0 ∧ t.mode = (if b.irqLine then .interrupt else .poll) ∧ t.pollSec = 0 ∧
    t.pollNsec = 500000000 ∧ t.irqLine = b.irqLine ∧ t.capacity = 16 ∧ t.bufCount = 0 ∧ t.readCount = 0 ∧
    t.lastEvent = none ∧ t.irqDepth = 0 ∧ t.irqHooked = false ∧ t.irqBusy = false ∧ t.workPending = false ∧
    t.workIrq = false ∧ t.workerBusy = false ∧ t.timerOn = false ∧ t.timerDeadline = 0 ∧ t.timerBusy = false ∧
    t.waiters = [] ∧ t.cfgLock = none ∧ t.readerLock = none ∧ t.indexLock = none

/-- What a 16-bit far-end write changes. A 16-bit write through an instance at an address changes one thing only:
the half of the NCO or timestamper register that lies there, in that device's hardware cells, or, where no
register lies there and the far end keeps what is written, the two stored bytes at that (even) address of that
far end, which hold the value afterwards; where the far end keeps nothing, a write there leaves the whole
machine as it is and a read there answers a draw (rule R44). Every other cell, device, instance and byte is as
before. That a far end may keep what is written is log entry 11, and that a 32-bit register takes its halves
separately is log entry 9. (R44, R50, R51, R61, R105; derived) -/
def Obligations.FarWriteFrame : Prop :=
  ∀ (s : State) (i : Nat) (a : U32) (v : U16),
    let t := s.farWrite16 i a v
    let w := s.writeTarget i (evenAddr a)
    s = ({ t with fars := s.fars, ncos := s.ncos, tss := s.tss } : State) ∧
    s.SameBytesBut t i (evenAddr a).toNat 2 ∧
    (w ≠ none → t.fars = s.fars) ∧
    (w = none → t.ncos = s.ncos ∧ t.tss = s.tss ∧ (∀ j, j ≠ i → t.fars[j]? = s.fars[j]?) ∧
      ∀ e, s.fars[i]? = some e → (e.keeps = true → t.storedAt i (evenAddr a) = some v) ∧ (e.keeps = false → t = s)) ∧
    (s.readTarget i (evenAddr a) = none → (∀ e, s.fars[i]? = some e → e.keeps = false) →
      s.farRead16 i a = (BitVec.ofNat 16 s.drawn, s.afterDraw)) ∧
    (∀ d r h, w = some (.nco d r h) → t.tss = s.tss ∧
      t.ncos = s.ncos.modify d fun n => { n with hw := n.hw.store s.board r (.half h v) }) ∧
    ∀ d r h, w = some (.ts d r h) → t.ncos = s.ncos ∧
      t.tss = s.tss.modify d fun x => { x with hw := x.hw.store s.board r (.half h v) }

/-- MMIO loads and stores of 16 and 32 bits: completion, alignment faults and frame. On an MMIO instance that the
caller may use: a 16-bit read or write at an odd address and a native 32-bit one at an address that is no
multiple of 4 stop the agent with F_MISALIGNED; every other one completes as one load or store at P_MMIO_BASE +
addr, a read answering what the far end shows and a write leaving only the far end changed. A read leaves
everything but the draws it took, a write every byte outside its own. An even address is enough for a decomposed
access (rule R116). That a native operation issued by itself runs on an MMIO instance without the native
capability too is log entry 13, the unwrapped address on the wire log entry 6, and the low half at addr under
either byte order log entry 38. (R205, R206, R207, R208, R116; derived) -/
def Obligations.MmioAccess : Prop :=
  ∀ (s : State) (b : BusRef) (i : Nat) (rb : Rb) (a : U32) (v : U16) (w : U32),
    s.Ready → s.Names b i rb → (rb.sleeps && s.atomic) = false → rb.backend = .mmio →
    let x := s.farRead16 i a
    let y := s.farRead32 i a
    exec (.mmioRead16 b a) s = (if a.getLsbD 0 then .next (s.halt .misaligned) else
      .next ((x.2.log i (.ioLoad (rb.cfg.mmioBase + a.toNat) 2 (x.1.setWidth 32)) true).finish
        (.ok (.val16 x.1)))) ∧
    exec (.mmioWrite16 b a v) s = (if a.getLsbD 0 then .next (s.halt .misaligned) else
      .next (((s.farWrite16 i a v).log i (.ioStore (rb.cfg.mmioBase + a.toNat) 2 (v.setWidth 32)) true).finish
        (.ok .unit))) ∧
    exec (.nativeRead32 b a) s = (if a &&& 3 ≠ 0 then .next (s.halt .misaligned) else
      .next ((y.2.log i (.ioLoad (rb.cfg.mmioBase + a.toNat) 4 y.1) true).finish (.ok (.val32 y.1)))) ∧
    exec (.nativeWrite32 b a w) s = (if a &&& 3 ≠ 0 then .next (s.halt .misaligned) else
      .next (((s.farWrite32 i a w).log i (.ioStore (rb.cfg.mmioBase + a.toNat) 4 w) true).finish (.ok .unit))) ∧
    (∃ n, x.2 = s.afterDraws n) ∧ (∃ n, y.2 = s.afterDraws n) ∧
    s.SameBytesBut (s.farWrite16 i a v) i (evenAddr a).toNat 2 ∧
    (a &&& 3 = 0 → s.SameBytesBut (s.farWrite32 i a w) i a.toNat 4) ∧
    (rb.hasRead32 = false → a.getLsbD 0 = false →
      ∃ t v, exec (.read32 b a) s = .next t ∧ t.me.stopped = s.me.stopped ∧ t.me.result = some (.ok (.val32 v)))

/-- I2C reads and writes: the frames sent, the value, E_IO and frame. On an I2C instance: a read sends the 4-byte
address frame with direction bit 1 and takes 2 bytes, high byte first, in one transfer; a write sends one 6-byte
frame with direction bit 0; bit 0 of the address is ignored. A transfer that fails returns E_IO after that one
transfer; a failed write may or may not have reached the far-end register, as the turn says (log entry 8).
(R209, R210, R114; derived) -/
def Obligations.I2cAccess : Prop :=
  ∀ (s : State) (b : BusRef) (i : Nat) (rb : Rb) (a : U32) (v : U16),
    s.Idle → s.Names b i rb → (rb.sleeps && s.atomic) = false → rb.backend = .i2c →
    let top : List Byte := [a.extractLsb' 24 8, a.extractLsb' 16 8, a.extractLsb' 8 8]
    let rf := top ++ [a.extractLsb' 0 8 ||| 0x01]
    let wf := top ++ [a.extractLsb' 0 8 &&& 0xFE, v.extractLsb' 8 8, v.extractLsb' 0 8]
    let x := s.farRead16 i a
    (s.turns = [] →
      exec (.i2cRead16 b a) s = .next ((x.2.log i
        (.i2c rb.cfg.i2cSlave rf [x.1.extractLsb' 8 8, x.1.extractLsb' 0 8]) true).finish (.ok (.val16 x.1))) ∧
      exec (.i2cWrite16 b a v) s =
        .next (((s.farWrite16 i a v).log i (.i2c rb.cfg.i2cSlave wf []) true).finish (.ok .unit))) ∧
    (∀ l r, s.turns = .fail l :: r →
      exec (.i2cRead16 b a) s = .next ((({ s with turns := r } : State).log i
        (.i2c rb.cfg.i2cSlave rf []) false).finish (.error .io)) ∧
      exec (.i2cWrite16 b a v) s = .next (((if l then ({ s with turns := r } : State).farWrite16 i a v
        else ({ s with turns := r } : State)).log i (.i2c rb.cfg.i2cSlave wf []) false).finish (.error .io))) ∧
    x = s.farRead16 i (a ||| 1) ∧ s.farWrite16 i a v = s.farWrite16 i (a ||| 1) v ∧
    (∃ n, x.2 = s.afterDraws n) ∧ s.SameBytesBut (s.farWrite16 i a v) i (evenAddr a).toNat 2

/-- MDIO slave reads and writes: the AA1 cache, the sequence, the value and the frame. On an MDIO slave instance
that the caller may use: an odd address faults; otherwise the AA1 write is made exactly when the cache does not
hold the high half, then AA0 and the data register in the read order, or in P_MDIO_WRITE_ORDER for a write; the
cache then holds the high half and the value read or written is that of the far-end register. A read leaves
everything but the cache, the draws and the wire; a write every byte outside its own two. (R211, R212, R213,
R146, R147; derived) -/
def Obligations.SlaveAccess : Prop :=
  ∀ (s : State) (b : BusRef) (i : Nat) (rb : Rb) (a : U32) (v : U16),
    s.Ready → s.Names b i rb → s.MayUse rb → rb.backend = .mdioSlave →
    let hi : U16 := a.extractLsb' 16 16
    let x := s.farRead16 i a
    let reg (r : U5) (w : U16) : Xfer := ⟨i, .mdioWrite rb.cfg.phy r w, true⟩
    let aa0 (rw : U16) := reg rb.cfg.regAA0 ((a.extractLsb' 0 16 &&& 0xFFFE) ||| rw)
    let sel := if rb.aa1Cache = some hi then s.wire else reg rb.cfg.regAA1 hi :: s.wire
    let cached (t : State) (w : List Xfer) : State :=
      { t.modRb i fun r => { r with aa1Cache := some hi } with wire := w }
    exec (.slaveRead16 b a) s = (if a.getLsbD 0 then .next (s.halt .misaligned) else
      .next ((cached x.2 (⟨i, .mdioRead rb.cfg.phy rb.cfg.regAD x.1, true⟩ :: aa0 0x0001 :: sel)).finish
        (.ok (.val16 x.1)))) ∧
    exec (.slaveWrite16 b a v) s = (if a.getLsbD 0 then .next (s.halt .misaligned) else
      .next ((cached (s.farWrite16 i a v) (match rb.cfg.mdioOrder with
        | .dataFirst => aa0 0x0000 :: reg rb.cfg.regAD v :: sel
        | .addrFirst => reg rb.cfg.regAD v :: aa0 0x0000 :: sel)).finish (.ok .unit))) ∧
    (∃ n, x.2 = s.afterDraws n) ∧ s.SameBytesBut (s.farWrite16 i a v) i (evenAddr a).toNat 2

/-- An MDIO slave access that fails: E_IO, the AA1 cache, and no further transaction. When the AA1 write of a slave
access fails, the access returns E_IO after that one transaction and the cache is empty. When the AA1 cache
holds the high half already, or the AA1 write has succeeded, the cache holds it afterwards, whichever later
transaction fails: when the first of the two fails, AA0 of a read, or AA0 or AD of a write in
P_MDIO_WRITE_ORDER, the access returns E_IO after it and the far-end register is untouched; when the second
fails it returns E_IO after it, and a write may or may not have reached the register, as the turn says (log
entries 8 and 12). (R202, R211, R212, R213, R220, R602; derived) -/
def Obligations.SlaveAccessFails : Prop :=
  ∀ (s : State) (b : BusRef) (i : Nat) (rb : Rb) (a : U32) (v : U16) (l : Bool) (r : List Turn),
    s.Idle → s.Names b i rb → s.MayUse rb → rb.backend = .mdioSlave → a.getLsbD 0 = false →
    let hi : U16 := a.extractLsb' 16 16
    let held := rb.aa1Cache = some hi
    let reg (x : U5) (w : U16) (ok : Bool) : Xfer := ⟨i, .mdioWrite rb.cfg.phy x w, ok⟩
    let aa0 (rw : U16) := reg rb.cfg.regAA0 ((a.extractLsb' 0 16 &&& 0xFFFE) ||| rw)
    let ad := reg rb.cfg.regAD v
    let sel := if held then s.wire else reg rb.cfg.regAA1 hi true :: s.wire
    let pre : List Turn := if held then [] else [.go]
    let ends (t : State) (c : Option U16) (w : List Xfer) : Host.Outcome State Fault Refusal :=
      .next (({ t.modRb i fun x => { x with aa1Cache := c } with turns := r, wire := w } : State).finish (.error .io))
    (¬ held → s.turns = .fail l :: r →
      exec (.slaveRead16 b a) s = ends s none (reg rb.cfg.regAA1 hi false :: s.wire) ∧
      exec (.slaveWrite16 b a v) s = ends s none (reg rb.cfg.regAA1 hi false :: s.wire)) ∧
    (s.turns = pre ++ .fail l :: r →
      exec (.slaveRead16 b a) s = ends s (some hi) (aa0 0x0001 false :: sel) ∧
      exec (.slaveWrite16 b a v) s = ends s (some hi) (match rb.cfg.mdioOrder with
        | .dataFirst => ad false :: sel
        | .addrFirst => aa0 0x0000 false :: sel)) ∧
    (s.turns = pre ++ .go :: .fail l :: r →
      exec (.slaveRead16 b a) s =
        ends s (some hi) (⟨i, .mdioRead rb.cfg.phy rb.cfg.regAD 0, false⟩ :: aa0 0x0001 true :: sel) ∧
      exec (.slaveWrite16 b a v) s = ends (if l then s.farWrite16 i a v else s) (some hi)
        (match rb.cfg.mdioOrder with
          | .dataFirst => aa0 0x0000 false :: ad true :: sel
          | .addrFirst => ad false :: aa0 0x0000 true :: sel))

/-- MDIO bridge reads and writes: the split, its faults, the sequence, its failures, the value and the frame. On an
MDIO bridge instance that the caller may use: an odd address faults F_MISALIGNED, then an address whose PHY part
is above 31 faults F_BRIDGE_RANGE; otherwise the PHY is the address shifted by P_BRIDGE_ADDR_BITS, the AA word
holds the low address bits with the direction, and AA and AD are accessed in the read order, or in
P_BRIDGE_WRITE_ORDER for a write. When one of the two transactions fails the access returns E_IO after it; a
write whose second transaction fails may or may not have reached the far-end register, as the turn says (log
entries 8 and 12). A read leaves everything but the draws and the wire; a write every byte outside its own two.
(R202, R214, R215, R216, R148, R149, R220; derived) -/
def Obligations.BridgeAccess : Prop :=
  ∀ (s : State) (b : BusRef) (i : Nat) (rb : Rb) (a : U32) (v : U16),
    s.Idle → s.Names b i rb → s.MayUse rb → rb.backend = .mdioBridge →
    let k := rb.cfg.bridgeBits
    let phy := (a >>> k).toNat
    let aa (rw : U16) (ok : Bool) : Xfer := ⟨i, .mdioWrite (BitVec.ofNat 5 phy) rb.cfg.regBAA
      ((a.extractLsb' 0 16 &&& BitVec.ofNat 16 (2 ^ k - 1) &&& 0xFFFE) ||| rw), ok⟩
    let ad (ok : Bool) : Xfer := ⟨i, .mdioWrite (BitVec.ofNat 5 phy) rb.cfg.regBAD v, ok⟩
    let data (w : U16) (ok : Bool) : Xfer := ⟨i, .mdioRead (BitVec.ofNat 5 phy) rb.cfg.regBAD w, ok⟩
    let x := s.farRead16 i a
    (a.getLsbD 0 = true → exec (.bridgeRead16 b a) s = .next (s.halt .misaligned) ∧
      exec (.bridgeWrite16 b a v) s = .next (s.halt .misaligned)) ∧
    (a.getLsbD 0 = false → 31 < phy → exec (.bridgeRead16 b a) s = .next (s.halt .bridgeRange) ∧
      exec (.bridgeWrite16 b a v) s = .next (s.halt .bridgeRange)) ∧
    (a.getLsbD 0 = false → phy ≤ 31 →
      (s.turns = [] →
        exec (.bridgeRead16 b a) s =
          .next (({ x.2 with wire := data x.1 true :: aa 0x0001 true :: s.wire } : State).finish (.ok (.val16 x.1))) ∧
        exec (.bridgeWrite16 b a v) s = .next (({ s.farWrite16 i a v with wire := match rb.cfg.bridgeOrder with
          | .dataFirst => aa 0x0000 true :: ad true :: s.wire
          | .addrFirst => ad true :: aa 0x0000 true :: s.wire } : State).finish (.ok .unit))) ∧
      ∀ l r, let ends (t : State) (w : List Xfer) : Host.Outcome State Fault Refusal :=
          .next (({ t with turns := r, wire := w } : State).finish (.error .io))
        (s.turns = .fail l :: r →
          exec (.bridgeRead16 b a) s = ends s (aa 0x0001 false :: s.wire) ∧
          exec (.bridgeWrite16 b a v) s = ends s (match rb.cfg.bridgeOrder with
            | .dataFirst => ad false :: s.wire
            | .addrFirst => aa 0x0000 false :: s.wire)) ∧
        (s.turns = .go :: .fail l :: r →
          exec (.bridgeRead16 b a) s = ends s (data 0 false :: aa 0x0001 true :: s.wire) ∧
          exec (.bridgeWrite16 b a v) s = ends (if l then s.farWrite16 i a v else s) (match rb.cfg.bridgeOrder with
            | .dataFirst => aa 0x0000 false :: ad true :: s.wire
            | .addrFirst => ad false :: aa 0x0000 true :: s.wire))) ∧
    (∃ n, x.2 = s.afterDraws n) ∧ s.SameBytesBut (s.farWrite16 i a v) i (evenAddr a).toNat 2

/-- An MDIO access while another agent's is unfinished faults F_BUS_OVERLAP. While another agent's MDIO access on an
instance is unfinished, a slave or bridge access by this agent at an address that faults for no other reason
stops the agent with F_BUS_OVERLAP, before any transaction and with nothing changed, whatever turns are still to
come. (R111, R610; derived) -/
def Obligations.BusOverlapFaults : Prop :=
  ∀ (s : State) (b : BusRef) (i : Nat) (rb : Rb) (a : U32) (v : U16) (k : Nat),
    s.Idle → s.Names b i rb → (rb.sleeps && s.atomic) = false → rb.busy = some k → k ≠ s.me.id →
    a.getLsbD 0 = false →
    exec (.slaveRead16 b a) s = .next (s.halt .busOverlap) ∧
    exec (.slaveWrite16 b a v) s = .next (s.halt .busOverlap) ∧
    ((a >>> rb.cfg.bridgeBits).toNat ≤ 31 →
      exec (.bridgeRead16 b a) s = .next (s.halt .busOverlap) ∧
      exec (.bridgeWrite16 b a v) s = .next (s.halt .busOverlap))

/-- What sleeps faults F_ATOMIC_SLEEP in atomic context. An agent that holds the spinlock of an MMIO NCO is stopped
with F_ATOMIC_SLEEP, nothing else changed but that a ts_read has begun on its handle (log entries 20 and 30), by
every RegisterBus operation with an address or a reset on an instance with sleeps = true (the MMIO and native
ones too, log entry 13), by an NCO operation on a device whose lock is a mutex, by ts_open, change_settings and
a ts_read that go on to their mutex, and by the wait of disable_mode for Direct, whether a trigger is pending or
not (log entry 28); on an instance with sleeps = false reset passes the check. A ts_irq that runs the
event-check itself over an instance with sleeps = true is stopped at its first register access. (R221, R620,
R712, R610; derived) -/
def Obligations.AtomicSleepFaults : Prop :=
  (∀ s : State, s.Idle → s.atomic = true →
    (∀ (b : BusRef) (i : Nat) (rb : Rb) (a : U32) (v : U16) (w : U32), s.Names b i rb →
      (rb.sleeps = true → ∀ x ∈ [Instr.read16 b a, .write16 b a v, .read32 b a, .write32 b a w, .reset b,
        .mmioRead16 b a, .mmioWrite16 b a v, .nativeRead32 b a, .nativeWrite32 b a w, .i2cRead16 b a,
        .i2cWrite16 b a v,
        .slaveRead16 b a, .slaveWrite16 b a v, .bridgeRead16 b a, .bridgeWrite16 b a v],
        exec x s = .next (s.halt .atomicSleep)) ∧
      (rb.sleeps = false → rb.hasReset = false → exec (.reset b) s = .next (s.finish (.error .unsupported)))) ∧
    (∀ (d : Nat) (n : Nco) (sign ppb nsec : U32) (sec : U64), s.ncos[d]? = some n → n.removed = false →
      n.initialised = true → n.spin = false → nsec.toNat < 2 ^ 31 →
      exec (.readTime d) s = .next (s.halt .atomicSleep) ∧
      exec (.adjustTime d sign sec nsec) s = .next (s.halt .atomicSleep) ∧
      exec (.adjustFrequency d ppb) s = .next (s.halt .atomicSleep) ∧
      exec (.initRegisters d) s = .next (s.halt .atomicSleep)) ∧
    ∀ (d h : Nat) (t : Ts) (len : U32) (nb : Bool) (sec : U64) (nsec : U32), s.tss[d]? = some t → t.removed = false →
      exec (.tsOpen d) s = .next (s.halt .atomicSleep) ∧
      exec (.disableMode d .direct) s = .next (s.halt .atomicSleep) ∧
      (nsec.toNat < 1000000000 → exec (.changeSettings d 2 sec nsec) s = .next (s.halt .atomicSleep)) ∧
      (∀ k, t.handles[h]? = some (.held k) → 16 ≤ len.toNat → exec (.tsRead d h len nb) s =
        .next ((s.modTs d fun x => { x with handles := x.handles.set h (.held (k + 1)) }).halt .atomicSleep))) ∧
  ∀ (s : State) (d i : Nat) (t : Ts) (res : Resource) (rb : Rb), s.Idle → TsWired s d t res i rb → rb.sleeps = true →
    t.deferred = false → t.irqReady = true → t.indexLock = none →
    ¬ (t.stuck = true ∧ s.board.fullPolicy = .skip) →
    exec (.tsIrq d) s = .next ((s.modTs d fun _ => { t.made with irqRun := .checking }).halt .atomicSleep)

/-- A 16-bit access at an odd address faults on every backend but I2C. A read16 or write16 at an odd address with
the MMIO, MDIO slave or MDIO bridge backend faults F_MISALIGNED. (R115) -/
def Obligations.MisalignedFaults : Prop :=
  ∀ (s : State) (b : BusRef) (i : Nat) (rb : Rb) (a : U32) (v : U16),
    s.Idle → s.Names b i rb → (rb.sleeps && s.atomic) = false →
    rb.backend = .mmio ∨ rb.backend = .mdioSlave ∨ rb.backend = .mdioBridge → a.getLsbD 0 = true →
    exec (.read16 b a) s = .next (s.halt .misaligned) ∧ exec (.write16 b a v) s = .next (s.halt .misaligned)

/-- read16 and write16 run the instance's backend, and complete on every backend. read16 and write16 have the
outcome of the backend operation that the instance's backend names. On every backend, where the backend takes
the address, a read answers the far-end register's value and changes nothing but the bookkeeping of the bus, and
a write leaves the far-end register written and nothing else changed. (R200, R201, R202; derived) -/
def Obligations.Access16OnAnyBackend : Prop :=
  ∀ (s : State) (b : BusRef) (i : Nat) (rb : Rb) (a : U32) (v : U16), s.Ready → s.Names b i rb →
    exec (.read16 b a) s = (match rb.backend with
      | .mmio => exec (.mmioRead16 b a) s
      | .i2c => exec (.i2cRead16 b a) s
      | .mdioSlave => exec (.slaveRead16 b a) s
      | .mdioBridge => exec (.bridgeRead16 b a) s) ∧
    exec (.write16 b a v) s = (match rb.backend with
      | .mmio => exec (.mmioWrite16 b a v) s
      | .i2c => exec (.i2cWrite16 b a v) s
      | .mdioSlave => exec (.slaveWrite16 b a v) s
      | .mdioBridge => exec (.bridgeWrite16 b a v) s) ∧
    (s.MayUse rb → rb.reaches a = true →
      (∃ t, exec (.read16 b a) s = .next t ∧ t.turns = [] ∧ s.SameBytes t ∧
        t.still i = (s.finish (.ok (.val16 (s.farRead16 i a).1))).still i) ∧
      ∃ t, exec (.write16 b a v) s = .next t ∧ t.turns = [] ∧ s.SameBytesBut t i (evenAddr a).toNat 2 ∧
        t.still i = ((s.farWrite16 i a v).finish (.ok .unit)).still i)

/-- read32 and write32: native where the instance has it, else the low half and then the high half. With the native
primitive read32 and write32 have the outcome of the native operation. Without it, where the backend takes both
addresses, read32 reads the low half at addr, then the high half at addr + 2 modulo 2^32, and answers them
joined; write32 writes the low half and then the high half. Nothing else changes but the bookkeeping of the bus,
and no byte outside the two halves. (R203, R204, R105, R117, R222; derived) -/
def Obligations.Access32OnAnyBackend : Prop :=
  ∀ (s : State) (b : BusRef) (i : Nat) (rb : Rb) (a v : U32), s.Ready → s.Names b i rb →
    (rb.hasRead32 = true → exec (.read32 b a) s = exec (.nativeRead32 b a) s) ∧
    (rb.hasWrite32 = true → exec (.write32 b a v) s = exec (.nativeWrite32 b a v) s) ∧
    (s.MayUse rb → rb.reaches a = true → rb.reaches (a + 2) = true →
      (rb.hasRead32 = false →
        let lo := s.farRead16 i a
        let hi := lo.2.farRead16 i (a + 2)
        ∃ t, exec (.read32 b a) s = .next t ∧ t.turns = [] ∧ s.SameBytes t ∧
          t.still i = (s.finish (.ok (.val32 (hi.1 ++ lo.1)))).still i) ∧
      (rb.hasWrite32 = false →
        ∃ t, exec (.write32 b a v) s = .next t ∧ t.turns = [] ∧
          (∀ j x, j ≠ i ∨ (x < (evenAddr a).toNat ∨ (evenAddr a).toNat + 2 ≤ x) ∧
            (x < (evenAddr (a + 2)).toNat ∨ (evenAddr (a + 2)).toNat + 2 ≤ x) → t.farByte j x = s.farByte j x) ∧
          (∀ x, t.bufByte x = s.bufByte x) ∧
          t.still i = (((s.farWrite16 i a (v.extractLsb' 0 16)).farWrite16 i (a + 2) (v.extractLsb' 16 16)).finish
            (.ok .unit)).still i))

/-- A 32-bit access fails at its first failing half, and undoes nothing. On an I2C instance: when the first transfer
of read32 or write32 fails, it returns E_IO and the second half is not touched; when the second transfer of
write32 fails, it returns E_IO and the low half stays written. (R203, R204, R220, R602; derived) -/
def Obligations.FailFast32 : Prop :=
  ∀ (s : State) (b : BusRef) (i : Nat) (rb : Rb) (a v : U32) (l : Bool) (r : List Turn),
    s.Idle → s.Names b i rb → (rb.sleeps && s.atomic) = false → rb.backend = .i2c →
    rb.hasRead32 = false → rb.hasWrite32 = false →
    let u : State := { s with turns := r }
    let low := v.extractLsb' 0 16
    let high := v.extractLsb' 16 16
    let sent (x : U32) (y : U16) : Wire := .i2c rb.cfg.i2cSlave (i2cWriteFrame x y) []
    (s.turns = .fail l :: r →
      exec (.read32 b a) s =
        .next ((u.log i (.i2c rb.cfg.i2cSlave (i2cReadFrame a) []) false).finish (.error .io)) ∧
      exec (.write32 b a v) s =
        .next (((if l then u.farWrite16 i a low else u).log i (sent a low) false).finish (.error .io))) ∧
    (s.turns = .go :: .fail l :: r →
      let w := (u.farWrite16 i a low).log i (sent a low) true
      exec (.write32 b a v) s = .next (((if l then w.farWrite16 i (a + 2) high else w).log i
        (sent (a + 2) high) false).finish (.error .io)))

/-- A 32-bit write then read of a far end that keeps it gives the value back, on every backend. On an instance whose
far end keeps what is written (log entry 11) and at an address where no device register lies, write32 completes,
the read32 after it answers the value written, and a read16 at the address answers its low half, with or without
the native primitives (log entry 38), on every backend that takes the address. (R204, R105, R110; derived) -/
def Obligations.RoundTrip32 : Prop :=
  ∀ (s : State) (b : BusRef) (i : Nat) (rb : Rb) (e : FarEnd) (a v : U32),
    s.Ready → s.Names b i rb → s.MayUse rb → rb.reaches32 rb.hasWrite32 a = true →
    s.fars[i]? = some e → e.keeps = true →
    (∀ x, x = evenAddr a ∨ x = evenAddr (a + 2) → s.readTarget i x = none ∧ s.writeTarget i x = none) →
    ∃ t, exec (.write32 b a v) s = .next t ∧ t.me.stopped = s.me.stopped ∧ t.me.result = some (.ok .unit) ∧
      (rb.reaches32 rb.hasRead32 a = true → ∃ u, exec (.read32 b a) t = .next u ∧ u.me.stopped = s.me.stopped ∧
        u.me.result = some (.ok (.val32 v))) ∧
      (rb.reaches a = true → ∃ u, exec (.read16 b a) t = .next u ∧ u.me.stopped = s.me.stopped ∧
        u.me.result = some (.ok (.val16 (v.extractLsb' 0 16))))

/-- reset: unsupported without the capability, else the AA1 cache is dropped and the far end reset. Without the
reset capability reset returns E_UNSUPPORTED and changes nothing. With it, the AA1 cache of an MDIO slave
instance becomes empty, the far end takes P_RESET_EFFECT (for stored registers: log entry 24) and reset returns,
or the one transaction fails with E_IO, the cache empty all the same. No byte of another instance changes, nor
any byte where the effect keeps them. (R217, R211; derived) -/
def Obligations.BusReset : Prop :=
  ∀ (s : State) (b : BusRef) (i : Nat) (rb : Rb),
    s.Idle → s.Names b i rb → (rb.sleeps && s.atomic) = false →
    let dropped (t : State) : State :=
      t.modRb i fun x => { x with aa1Cache := if rb.backend = .mdioSlave then none else x.aa1Cache }
    (rb.hasReset = false → exec (.reset b) s = .next (s.finish (.error .unsupported))) ∧
    (rb.hasReset = true → s.turns = [] →
      exec (.reset b) s = .next ((((dropped s).resetFar i).log i .busReset true).finish (.ok .unit))) ∧
    (rb.hasReset = true → ∀ l r, s.turns = .fail l :: r →
      exec (.reset b) s = .next (((if l then (dropped { s with turns := r }).resetFar i
        else dropped { s with turns := r }).log i .busReset false).finish (.error .io))) ∧
    (∀ j x, j ≠ i ∨ rb.cfg.resetEffect = .keep →
      ((dropped s).resetFar i).farByte j x = s.farByte j x)

/-- lookup: E_NOTFOUND, or one more reference and a new handle. lookup of a key that no instance is bound to returns
E_NOTFOUND and changes nothing; otherwise refs of the bound instance rises by one and a new handle to it is
returned, and nothing else changes. (R218) -/
def Obligations.LookupBinds : Prop :=
  ∀ (s : State) (t : Nat), s.Idle →
    exec (.lookup t) s = (match (s.topo.find? fun e => decide (e.1 = t)) with
      | none => .next (s.finish (.error .notFound))
      | some e => .next (({ s.modRb e.2 fun rb => { rb with refs := rb.refs + 1 } with
          handles := s.handles ++ [⟨e.2, false⟩] } : State).finish (.ok (.handle s.handles.length))))

/-- release: one reference less, once; a second release or a use after it faults. release of a handle stops the
agent with F_DOUBLE_RELEASE when the handle was already released or refs is 0; otherwise refs falls by one and
the handle is marked released. Every bus operation on a released handle faults F_DOUBLE_RELEASE, before its
context check too: that order, which R603 does not give, is the model's choice (log entry 51). (R219, R610;
derived) -/
def Obligations.ReleaseHandle : Prop :=
  (∀ (s : State) (h : Nat) (x : Handle) (rb : Rb), s.Idle → s.handles[h]? = some x →
    s.rbs[x.inst]? = some rb →
    exec (.release h) s = (if x.released = true ∨ rb.refs = 0 then .next (s.halt .doubleRelease) else
      .next (({ s.modRb x.inst fun r => { r with refs := r.refs - 1 } with
        handles := s.handles.modify h fun y => { y with released := true } } : State).finish (.ok .unit)))) ∧
  ∀ (s : State) (h : Nat) (x : Handle) (a w : U32) (v : U16), s.Idle → s.handles[h]? = some x →
    x.released = true → ∀ i : Instr, i ∈ [Instr.read16 (.handle h) a, .write16 (.handle h) a v,
      .read32 (.handle h) a, .write32 (.handle h) a w, .reset (.handle h), .release h, .mmioRead16 (.handle h) a,
      .mmioWrite16 (.handle h) a v, .nativeRead32 (.handle h) a, .nativeWrite32 (.handle h) a w,
      .i2cRead16 (.handle h) a, .i2cWrite16 (.handle h) a v, .slaveRead16 (.handle h) a,
      .slaveWrite16 (.handle h) a v, .bridgeRead16 (.handle h) a, .bridgeWrite16 (.handle h) a v] →
    exec i s = .next (s.halt .doubleRelease)

/-- read_time answers the hardware's time and counter as one snapshot, over any bus. On an initialised NCO whose
registers are reached through any backend, when the hardware completes the READ command after any number of
polls up to the budget, read_time completes: the counter is the hardware's, seconds and nanoseconds are the
hardware's normalized, the sub-nanoseconds are 0 where the board has no sixth read, and the host time is one the
run draws, normalized. The latched cells are the only ones that change: the lock is free, no other device,
register, handle, agent or byte is touched. However the bus and the hardware behave, when a read_time that began
with the lock free has returned the lock is free again, and current_step_nsec and initialised are as before;
when the hardware never completes READ it returns E_TIMEOUT, the command still pending; when the first I2C
transfer fails it returns E_IO with nothing changed. The turns of such a run are the model's (log entry 3), that
host time is normalized is log entry 19. (R305, R300, R302, R303, R304, R714; derived) -/
def Obligations.ReadTime : Prop :=
  (∀ (s : State) (d i : Nat) (n : Nco) (res : Resource) (rb : Rb) (p : Nat),
    s.Idle → NcoWired s d n res i rb → n.initialised = true → p ≤ 100 →
    s.turns = rb.script d rb.aa1Cache (readTimeBeats s.board res.base p) →
    ∃ t v, exec (.readTime d) s = .next t ∧ t.turns = [] ∧ s.SameBytes t ∧
      t.still i = ((s.modNcoHw d NcoHw.latch).finish (.ok (.time v))).still i ∧
      v.counter = n.hw.counter ∧ v.sec.toNat = n.hw.sec.toNat + n.hw.nsec.toNat / 1000000000 ∧
      v.nsec.toNat = n.hw.nsec.toNat % 1000000000 ∧ (s.board.readSubnsec = false → v.subnsec = 0) ∧
      ∃ k, (v.srcSec, v.srcNsec) = s.hostDrawn k) ∧
  (∀ (s t : State) (d : Nat) (n : Nco), s.me.op = none → s.ncos[d]? = some n → n.lock = none →
    exec (.readTime d) s = .next t → t.me.op = none → t.me.stopped = none →
    ∃ n', t.ncos[d]? = some n' ∧ n'.lock = none ∧ n'.initialised = n.initialised ∧
      n'.currentStepNsec = n.currentStepNsec) ∧
  (∀ (s : State) (d i : Nat) (n : Nco) (res : Resource) (rb : Rb),
    s.Idle → NcoWired s d n res i rb → n.initialised = true → s.turns = [] →
    ∃ t, exec (.readTime d) s = .next t ∧ t.turns = [] ∧ s.SameBytes t ∧
      t.still i = ((s.modNcoHw d fun h => { h with pendRead := true }).finish (.error .timeout)).still i) ∧
  (∀ (s : State) (d i : Nat) (n : Nco) (res : Resource) (rb : Rb) (r : List Turn),
    s.Idle → NcoWired s d n res i rb → n.initialised = true → rb.backend = .i2c → rb.hasWrite32 = false →
    s.turns = .fail false :: r →
    ∃ t, exec (.readTime d) s = .next t ∧ t.turns = r ∧ s.SameBytes t ∧ t.still i = (s.finish (.error .io)).still i)

/-- adjust_time moves the hardware's time by the request plus the current step, over any bus. On an initialised NCO
whose registers are reached through any backend, with nsec below 2^31, when the hardware applies the adjustment
after any number of polls up to the budget, adjust_time completes: the staging cells hold the signed request
plus the current step's nanoseconds, normalized, seconds as 48-bit two's complement. On hardware where the
adjusting tick replaces the step, the time in nanoseconds has moved by exactly the request plus the current step
(seconds modulo 2^48), the counter by one, and the fraction not at all. Nothing else changes but the bookkeeping
of the bus. With nsec at 2^31 or more it returns E_INVAL and changes nothing. However the bus and the hardware
behave, when an adjust_time that began with the lock free has returned the lock is free again, and
current_step_nsec and initialised are as before; when the hardware never applies the adjustment it returns
E_TIMEOUT, the words staged and the command pending; when the first I2C transfer fails it returns E_IO with
nothing changed. That the completion of ADJ_CLOCK is the applying tick is log entry 16. (R306, R307, R300, R301,
R302, R303, R714; derived) -/
def Obligations.AdjustTime : Prop :=
  (∀ (s : State) (d i : Nat) (n : Nco) (res : Resource) (rb : Rb) (p : Nat) (sign : U32) (sec : U64) (nsec : U32),
    s.Idle → NcoWired s d n res i rb → n.initialised = true → p ≤ 100 → nsec.toNat < 2 ^ 31 →
    s.turns = rb.script d rb.aa1Cache (adjustTimeBeats s.board res.base p) →
    let delta : Int := sec.toNat * 1000000000 + nsec.toNat
    let move : Int := (if sign.toInt < 0 then -delta else delta) + n.currentStepNsec.toNat
    let total : Int := n.hw.sec.toNat * 1000000000 + n.hw.nsec.toNat + move
    ∃ t n', exec (.adjustTime d sign sec nsec) s = .next t ∧ t.turns = [] ∧ s.SameBytes t ∧
      t.still i = ((s.modNco d fun _ => n').finish (.ok .unit)).still i ∧
      n' = { n with hw := (n.hw.stageAdjust (BitVec.ofInt 48 (move / 1000000000))
        (BitVec.ofInt 32 (move % 1000000000))).tickAdjust s.board.adjReplacesStep } ∧
      n'.hw.counter = n.hw.counter + 1 ∧
      (s.board.adjReplacesStep = true → n'.hw.sec = BitVec.ofInt 48 (total / 1000000000) ∧
        (n'.hw.nsec.toNat : Int) = total % 1000000000 ∧ n'.hw.frac = n.hw.frac)) ∧
  (∀ (s t : State) (d : Nat) (n : Nco) (sign : U32) (sec : U64) (nsec : U32), s.me.op = none →
    s.ncos[d]? = some n → n.lock = none →
    exec (.adjustTime d sign sec nsec) s = .next t → t.me.op = none → t.me.stopped = none →
    ∃ n', t.ncos[d]? = some n' ∧ n'.lock = none ∧ n'.initialised = n.initialised ∧
      n'.currentStepNsec = n.currentStepNsec) ∧
  (∀ (s : State) (d i : Nat) (n : Nco) (res : Resource) (rb : Rb) (sign : U32) (sec : U64) (nsec : U32),
    s.Idle → NcoWired s d n res i rb → n.initialised = true → nsec.toNat < 2 ^ 31 → s.turns = [] →
    let delta : Int := sec.toNat * 1000000000 + nsec.toNat
    let move : Int := (if sign.toInt < 0 then -delta else delta) + n.currentStepNsec.toNat
    ∃ t, exec (.adjustTime d sign sec nsec) s = .next t ∧ t.turns = [] ∧ s.SameBytes t ∧
      t.still i = ((s.modNcoHw d fun h => { h.stageAdjust (BitVec.ofInt 48 (move / 1000000000))
        (BitVec.ofInt 32 (move % 1000000000)) with pendAdjClock := true }).finish (.error .timeout)).still i) ∧
  (∀ (s : State) (d i : Nat) (n : Nco) (res : Resource) (rb : Rb) (sign : U32) (sec : U64) (nsec : U32) (r : List Turn),
    s.Idle → NcoWired s d n res i rb → n.initialised = true → nsec.toNat < 2 ^ 31 → rb.backend = .i2c →
    rb.hasWrite32 = false →
    s.turns = .fail false :: r →
    ∃ t, exec (.adjustTime d sign sec nsec) s = .next t ∧ t.turns = r ∧ s.SameBytes t ∧
    t.still i = (s.finish (.error .io)).still i) ∧
  ∀ (s : State) (d : Nat) (n : Nco) (sign : U32) (sec : U64) (nsec : U32), s.Idle →
    s.ncos[d]? = some n → n.removed = false → n.initialised = true → 2 ^ 31 ≤ nsec.toNat →
    exec (.adjustTime d sign sec nsec) s = .next (s.finish (.error (.inval .adjNsecRange)))

/-- adjust_frequency makes nominal plus delta the active step, or is rejected whole. On an initialised NCO reached
through any backend: where nominal plus the delta of the request has a nanosecond part in 0..63 and the hardware
takes the step after any number of polls up to the budget, adjust_frequency completes, the active step and the
staging cells are exactly that value, current_step_nsec its nanosecond part, and nothing else changes. Where it
has none, adjust_frequency returns E_INVAL(STEP_RANGE) and nothing changes. However the bus and the hardware
behave, when an adjust_frequency that began with the lock free has returned the lock is free again and
initialised is as before, and after an error current_step_nsec is unchanged; when the hardware never takes the
step it returns E_TIMEOUT, the step staged and the command pending; when the first I2C transfer fails it returns
E_IO with nothing changed. A request of 0 ppb has delta 0 for every conversion function. (R308, R300, R302,
R303, R310, R714; derived) -/
def Obligations.AdjustFrequency : Prop :=
  (∀ (s : State) (d i : Nat) (n : Nco) (res : Resource) (rb : Rb) (p : Nat) (ppb : U32),
    s.Idle → NcoWired s d n res i rb → n.initialised = true → p ≤ 100 →
    let v : Int := n.nominal48.toNat + ppbDelta s.board.ppb n.scale ppb
    0 ≤ v → v < 64 * 2 ^ 32 →
    s.turns = rb.script d rb.aa1Cache (adjustFrequencyBeats s.board res.base p) →
    ∃ t n', exec (.adjustFrequency d ppb) s = .next t ∧ t.turns = [] ∧ s.SameBytes t ∧
      t.still i = ((s.modNco d fun _ => n').finish (.ok .unit)).still i ∧
      n' = { n with
        currentStepNsec := BitVec.ofInt 6 (v / 2 ^ 32)
        hw := { n.hw with
          stageStepNsec := BitVec.ofInt 32 (v / 2 ^ 32), stageStepSubnsec := BitVec.ofInt 32 v,
          stepNsec := BitVec.ofInt 6 (v / 2 ^ 32), stepSubnsec := BitVec.ofInt 32 v, pendAdjStep := false } }) ∧
  (∀ (s : State) (d : Nat) (n : Nco) (ppb : U32), s.Idle → s.ncos[d]? = some n → n.removed = false →
    n.initialised = true → n.lock = none → (n.spin = false → s.atomic = false) →
    let v : Int := n.nominal48.toNat + ppbDelta s.board.ppb n.scale ppb
    v < 0 ∨ 64 * 2 ^ 32 ≤ v →
    exec (.adjustFrequency d ppb) s = .next (s.finish (.error (.inval .stepRange)))) ∧
  (∀ (s t : State) (d : Nat) (n : Nco) (ppb : U32), s.me.op = none → s.ncos[d]? = some n → n.lock = none →
    exec (.adjustFrequency d ppb) s = .next t → t.me.op = none → t.me.stopped = none →
    ∃ n', t.ncos[d]? = some n' ∧ n'.lock = none ∧ n'.initialised = n.initialised ∧
      (∀ e, t.me.result = some (.error e) → n'.currentStepNsec = n.currentStepNsec)) ∧
  (∀ (s : State) (d i : Nat) (n : Nco) (res : Resource) (rb : Rb) (ppb : U32),
    s.Idle → NcoWired s d n res i rb → n.initialised = true →
    let v : Int := n.nominal48.toNat + ppbDelta s.board.ppb n.scale ppb
    0 ≤ v → v < 64 * 2 ^ 32 → s.turns = [] →
    ∃ t, exec (.adjustFrequency d ppb) s = .next t ∧ t.turns = [] ∧ s.SameBytes t ∧
      t.still i = ((s.modNcoHw d fun h => { h with
        stageStepNsec := BitVec.ofInt 32 (v / 2 ^ 32), stageStepSubnsec := BitVec.ofInt 32 v,
        pendAdjStep := true }).finish (.error .timeout)).still i) ∧
  (∀ (s : State) (d i : Nat) (n : Nco) (res : Resource) (rb : Rb) (ppb : U32) (r : List Turn),
    s.Idle → NcoWired s d n res i rb → n.initialised = true →
    let v : Int := n.nominal48.toNat + ppbDelta s.board.ppb n.scale ppb
    0 ≤ v → v < 64 * 2 ^ 32 → rb.backend = .i2c → rb.hasWrite32 = false →
    s.turns = .fail false :: r →
    ∃ t, exec (.adjustFrequency d ppb) s = .next t ∧ t.turns = r ∧ s.SameBytes t ∧
    t.still i = (s.finish (.error .io)).still i) ∧
  ∀ (f : FunctionChoice) (scale : Nat), ppbDelta f scale 0 = 0

/-- init_registers brings the clock to the host's time and the nominal step, over any bus. On an NCO reached through
any backend, initialised or not, when the hardware completes each of the five commands within the budget:
init_registers runs to its check; the active step and current_step_nsec are then the nominal step and the lock
is free; on hardware where the adjusting tick replaces the step, the time is the host's time at the call plus
twice the current step (rule R724), seconds modulo 2^48; the result is Ok and the device initialised exactly
when P_NCO_INIT_CHECK holds of that time, E_INITCHECK with initialised unchanged otherwise. Nothing outside the
device changes but the bookkeeping of the bus. However the bus and the hardware behave, when an init_registers
that began with the lock free has returned the lock is free again, and after an error initialised is unchanged;
when the hardware never completes the first READ it returns E_TIMEOUT, the nominal step staged and the command
pending; when the first I2C transfer fails it returns E_IO with nothing changed. The host's time is the one that
the run draws, normalized (log entry 19). (R309, R300, R303, R724, R307; derived) -/
def Obligations.InitRegisters : Prop :=
  (∀ (s : State) (d i : Nat) (n : Nco) (res : Resource) (rb : Rb) (p : Nat → Nat),
    s.Idle → NcoWired s d n res i rb → (∀ k, p k ≤ 100) →
    s.turns = rb.script d rb.aa1Cache (initBeats s.board res.base p) →
    ∃ (t : State) (n' : Nco) (k : Nat), let host := s.hostDrawn k
      let total := host.1.toNat * 1000000000 + host.2.toNat + 2 * n.currentStepNsec.toNat
      let good := initCheckOk s.board.initCheck (n'.hw.sec.toNat + n'.hw.nsec.toNat / 1000000000)
        (n'.hw.nsec.toNat % 1000000000) host.1.toNat host.2.toNat
      exec (.initRegisters d) s = .next t ∧ t.turns = [] ∧ s.SameBytes t ∧
      t.still i = ((s.modNco d fun _ => n').finish
        (if good then .ok .unit else .error .initCheck)).still i ∧
      n' = { n with currentStepNsec := n.nominalNsec, initialised := good || n.initialised, hw := n'.hw } ∧
      n'.hw.stepNsec = n.nominalNsec ∧ n'.hw.stepSubnsec = n.nominalSubnsec ∧
      n'.hw.counter = n.hw.counter + 2 ∧
      (s.board.adjReplacesStep = true → n'.hw.sec = BitVec.ofNat 48 (total / 1000000000) ∧
        n'.hw.nsec.toNat = total % 1000000000)) ∧
  (∀ (s t : State) (d : Nat) (n : Nco), s.me.op = none → s.ncos[d]? = some n → n.lock = none →
    exec (.initRegisters d) s = .next t → t.me.op = none → t.me.stopped = none →
    ∃ n', t.ncos[d]? = some n' ∧ n'.lock = none ∧
      (∀ e, t.me.result = some (.error e) → n'.initialised = n.initialised)) ∧
  (∀ (s : State) (d i : Nat) (n : Nco) (res : Resource) (rb : Rb),
    s.Idle → NcoWired s d n res i rb → s.turns = [] →
    ∃ t, exec (.initRegisters d) s = .next t ∧ t.turns = [] ∧ s.SameBytes t ∧
      t.still i = ((s.modNcoHw d fun h => { h with
        stageStepNsec := n.nominalNsec.setWidth 32, stageStepSubnsec := n.nominalSubnsec,
        pendRead := true }).finish (.error .timeout)).still i) ∧
  (∀ (s : State) (d i : Nat) (n : Nco) (res : Resource) (rb : Rb) (r : List Turn),
    s.Idle → NcoWired s d n res i rb → rb.backend = .i2c → rb.hasWrite32 = false →
    s.turns = .fail false :: r →
    ∃ t, exec (.initRegisters d) s = .next t ∧ t.turns = r ∧ s.SameBytes t ∧
    t.still i = (s.finish (.error .io)).still i)

/-- nco_probe: the nominal step by priority, the rejections, the cells a probe sets, and a new device. nco_probe
without a resource descriptor returns E_INVAL (before a bad nominal step, log entry 39), with a nominal
step_nsec above 63 E_INVAL, changing nothing; otherwise the device takes the descriptor, the nominal step of the
module parameter, else of the property, else (8, 0), and the reset values of rule R45, with no command pending
and its hardware cells as they are; the lock stays with an operation in progress that holds it (log entry 49).
No register is accessed. A number that names no device creates one, the next, with its lock free and hardware
cells of which nothing is known, and a removed device refuses (log entry 26). Where scale comes from is rule
R310. (R311, R312, R40, R45, R702, R51; derived) -/
def Obligations.NcoProbe : Prop :=
  ∀ (s : State) (r : Resource) (i : Nat) (rb : Rb) (param prop : Option StepReq), s.Idle →
    let step : StepReq := match param, prop with
      | some x, _ => x
      | none, some x => x
      | none, none => ⟨8, 0⟩
    let set (n : Nco) : Nco := { n with
      res := some r, nominalNsec := step.nsec.setWidth 6, nominalSubnsec := step.sub,
      nominal48 := (step.nsec.setWidth 16) ++ step.sub,
      scale := scaleOf s.board.ppb ((step.nsec.setWidth 16) ++ step.sub),
      currentStepNsec := step.nsec.setWidth 6, spin := !rb.sleeps, initialised := false,
      hw := { n.hw with pendRead := false, pendAdjClock := false, pendAdjStep := false } }
    (∀ d, (∀ n, s.ncos[d]? = some n → n.removed = false) →
      exec (.ncoProbe d none param prop) s = .next (s.finish (.error (.inval .missingResource))) ∧
      (63 < step.nsec.toNat →
        exec (.ncoProbe d (some r) param prop) s = .next (s.finish (.error (.inval .badNominal))))) ∧
    (step.nsec.toNat ≤ 63 → s.Names r.bus i rb →
      (∀ d n, s.ncos[d]? = some n → n.removed = false →
        exec (.ncoProbe d (some r) param prop) s = .next ((s.modNco d fun _ => set n).finish (.ok .unit))) ∧
      ∀ d, s.ncos.length ≤ d → ∃ n, n.removed = false ∧ n.lock = none ∧ exec (.ncoProbe d (some r) param prop) s =
        .next (({ s.afterDraws 16 with ncos := s.ncos ++ [set n] } : State).finish (.ok .unit))) ∧
    ∀ (x : Option Resource) (d : Nat) (n : Nco), s.ncos[d]? = some n → n.removed = true →
      exec (.ncoProbe d x param prop) s = .refused .ncoRemoved

/-- cmd_poll ends as soon as the hardware has completed its command, within the budget. On an NCO reached through
any backend: when the tested command is not pending, cmd_poll returns after one read of the command register;
when it is pending and the hardware completes it after any number of reads up to 100, cmd_poll returns after one
more read: of the turns still to come it has taken exactly those of these reads. The device is as the completion
leaves it and nothing else changes but the bookkeeping of the bus; other pending commands do not matter. It
takes no lock (log entry 42). The turns of such a run are the model's (log entry 3). (R303, R51; derived) -/
def Obligations.CmdPollCompletes : Prop :=
  ∀ (s : State) (d i : Nat) (n : Nco) (res : Resource) (rb : Rb) (c : Cmd) (r : List Turn),
    s.Idle → NcoWired s d n res i rb →
    (n.hw.pending c = false → (s.turns = [] ∧ r = []) ∨
      s.turns = rb.script d rb.aa1Cache [.readAt (res.base + s.board.ncoMap.cmd)] ++ r →
      ∃ t, exec (.cmdPoll d c) s = .next t ∧ t.turns = r ∧ s.SameBytes t ∧
        t.still i = (s.finish (.ok .unit)).still i) ∧
    ∀ p : Nat, n.hw.pending c = true → p ≤ 100 →
      s.turns = rb.script d rb.aa1Cache (pollBeats s.board res.base p c) ++ r →
      ∃ t, exec (.cmdPoll d c) s = .next t ∧ t.turns = r ∧ s.SameBytes t ∧
        t.still i = ((s.modNcoHw d fun h => h.complete s.board.adjReplacesStep c).finish (.ok .unit)).still i

/-- cmd_poll gives up with E_TIMEOUT at the 101st read, the command still pending. On an NCO reached through any
backend, when the hardware does not complete the command, cmd_poll ends all the same, with E_TIMEOUT, the
command still pending and nothing changed but the bookkeeping of the bus. With a native 32-bit read it has made
exactly 101 reads: of the turns still to come it has taken 101. (R303, R714; derived) -/
def Obligations.CmdPollTimesOut : Prop :=
  ∀ (s : State) (d i : Nat) (n : Nco) (res : Resource) (rb : Rb) (c : Cmd),
    s.Idle → NcoWired s d n res i rb → n.hw.pending c = true →
    (s.turns = [] → ∃ t, exec (.cmdPoll d c) s = .next t ∧ t.turns = [] ∧ s.SameBytes t ∧
      t.still i = (s.finish (.error .timeout)).still i) ∧
    ∀ r : List Turn, rb.hasRead32 = true → s.turns = List.replicate 101 .go ++ r →
      ∃ t, exec (.cmdPoll d c) s = .next t ∧ t.turns = r ∧ t.still i = (s.finish (.error .timeout)).still i

/-- nco_tick: the counter by one, the time by the step, an adjustment when the hardware applies it. With no
adjustment pending a tick adds one to the counter (modulo 2^48) and, from a time below the second, exactly the
active step in units of 2^-32 ns to the time, seconds modulo 2^48. With one pending, the hardware's choice (a
draw, log entry 16) decides between such a tick and the tick that applies it, after which it is no longer
pending: that tick adds the staged seconds (signed 48 bits) and nanoseconds (30 bits) to the time and, unless
P_NCO_ADJ_REPLACES_STEP, the active step too, seconds modulo 2^48. Nothing else changes. (R301, R625, R313;
derived) -/
def Obligations.NcoTick : Prop :=
  ∀ (s : State) (d : Nat) (n : Nco), s.Idle → s.ncos[d]? = some n →
    let time (h : NcoHw) : Nat := (h.sec.toNat * 1000000000 + h.nsec.toNat) * 2 ^ 32 + h.frac.toNat
    let norm := n.hw.tickNormal
    let adj := n.hw.tickAdjust s.board.adjReplacesStep
    (n.hw.pendAdjClock = false →
      exec (.ncoTick d) s = .next ((s.modNcoHw d fun _ => norm).finish (.ok .unit))) ∧
    (n.hw.pendAdjClock = true → exec (.ncoTick d) s = .next ((s.afterDraw.modNcoHw d fun _ =>
      if s.drawn % 2 = 1 then adj else norm).finish (.ok .unit))) ∧
    (norm = { n.hw with counter := n.hw.counter + 1, sec := norm.sec, nsec := norm.nsec, frac := norm.frac }) ∧
    (n.hw.nsec.toNat < 1000000000 → norm.nsec.toNat < 1000000000 ∧
      time norm % (2 ^ 48 * 1000000000 * 2 ^ 32) =
        (time n.hw + n.hw.stepNsec.toNat * 2 ^ 32 + n.hw.stepSubnsec.toNat) % (2 ^ 48 * 1000000000 * 2 ^ 32)) ∧
    (let adjSec : Int := (n.hw.stageAdjSecHi.extractLsb' 0 16 ++ n.hw.stageAdjSecLo).toInt
     let total : Int := ((n.hw.sec.toNat + adjSec) * 1000000000 + n.hw.nsec.toNat +
         (n.hw.stageAdjNsec.extractLsb' 0 30).toNat) * 2 ^ 32 + n.hw.frac.toNat +
       (if s.board.adjReplacesStep then 0 else n.hw.stepNsec.toNat * 2 ^ 32 + n.hw.stepSubnsec.toNat : Nat)
     (adj.frac.toNat : Int) = total % 2 ^ 32 ∧ (adj.nsec.toNat : Int) = total / 2 ^ 32 % 1000000000 ∧
     adj.sec = BitVec.ofInt 48 (total / 2 ^ 32 / 1000000000)) ∧
    adj = { n.hw with
      counter := n.hw.counter + 1, sec := adj.sec, nsec := adj.nsec, frac := adj.frac, pendAdjClock := false } ∧
    adj.nsec.toNat < 1000000000

/-- nco_cmd_complete: one snapshot for READ, the staged step for ADJ_STEP, the adjusting tick for ADJ_CLOCK.
Completing a pending READ copies counter, seconds and nanoseconds into the latched cells within their documented
widths and clears READ alone; a pending ADJ_STEP makes the staged step the active one and clears it alone; a
pending ADJ_CLOCK is one applying tick (log entry 16). A command that is not pending is waited for, with nothing
changed (log entry 17). (R302, R49; derived) -/
def Obligations.NcoCmdComplete : Prop :=
  ∀ (s : State) (d : Nat) (n : Nco) (c : Cmd), s.Idle → s.ncos[d]? = some n →
    (n.hw.pending c = true →
      exec (.ncoCmdComplete d c) s = .next ((s.modNcoHw d fun _ => n.hw.complete s.board.adjReplacesStep c).finish
        (.ok .unit))) ∧
    (n.hw.pending c = false →
      exec (.ncoCmdComplete d c) s = .next { s with me := { s.me with
        op := some (.ncoCmdComplete d c), hist := [], blocked := some .other } }) ∧
    (let h := n.hw.complete s.board.adjReplacesStep .read
     h = { n.hw with
       latCntLo := h.latCntLo, latCntHi := h.latCntHi, latSecLo := h.latSecLo, latSecHi := h.latSecHi,
       latNsec := h.latNsec, pendRead := false } ∧
     h.latCntHi.extractLsb' 0 16 ++ h.latCntLo = n.hw.counter ∧
     h.latSecHi.extractLsb' 0 16 ++ h.latSecLo = n.hw.sec ∧ h.latNsec.extractLsb' 0 30 = n.hw.nsec) ∧
    n.hw.complete s.board.adjReplacesStep .adjStep = { n.hw with
      stepNsec := n.hw.stageStepNsec.extractLsb' 0 6, stepSubnsec := n.hw.stageStepSubnsec, pendAdjStep := false } ∧
    (n.hw.pendAdjClock = true →
      n.hw.complete s.board.adjReplacesStep .adjClock = n.hw.tickAdjust s.board.adjReplacesStep)

/-- NCO operations on a removed device, before initialization, and while the lock is held. The driver operations on
a removed NCO device (read_time, adjust_time, adjust_frequency, init_registers, cmd_poll and a new probe, log
entry 26) are refused with R_NCO_REMOVED; its hardware's steps go on (rule R703). On a device that is not
initialised read_time, adjust_time and adjust_frequency stop the agent with F_NCO_UNINIT whatever their
operands, and the read_time and adjust_time that init_registers makes itself do not: a first init_registers on
such a device ends at its check. Where the device lock is held, by whichever agent, read_time, adjust_time,
adjust_frequency and init_registers wait for it, having changed nothing and accessed no register. The turns of
such a run are the model's (log entry 3). (R312, R309, R610, R611, R14, R121, R300; derived) -/
def Obligations.NcoGuards : Prop :=
  (∀ (s : State) (d : Nat) (n : Nco) (sign ppb nsec : U32) (sec : U64) (c : Cmd) (r : Option Resource)
    (param prop : Option StepReq), s.Idle → s.ncos[d]? = some n →
    (n.removed = true → ∀ x ∈ [Instr.readTime d, .adjustTime d sign sec nsec, .adjustFrequency d ppb,
      .initRegisters d, .cmdPoll d c, .ncoProbe d r param prop], exec x s = .refused .ncoRemoved) ∧
    (n.removed = false → n.initialised = false → ∀ x ∈ [Instr.readTime d, .adjustTime d sign sec nsec,
      .adjustFrequency d ppb], exec x s = .next (s.halt .ncoUninit)) ∧
    (n.removed = false → n.lock ≠ none → (n.spin = false → s.atomic = false) →
      let waits (x : Instr) : Prop := exec x s =
        .next (s.setMe fun a => { a with op := some x, hist := [0], blocked := some .other })
      waits (.initRegisters d) ∧
      (n.initialised = true → waits (.readTime d) ∧ waits (.adjustFrequency d ppb) ∧
        (nsec.toNat < 2 ^ 31 → waits (.adjustTime d sign sec nsec))))) ∧
  ∀ (s : State) (d i : Nat) (n : Nco) (res : Resource) (rb : Rb), s.Idle → NcoWired s d n res i rb →
    n.initialised = false → s.turns = rb.script d rb.aa1Cache (initBeats s.board res.base fun _ => 0) →
    ∃ t r, exec (.initRegisters d) s = .next t ∧ t.me.op = none ∧ t.me.stopped = s.me.stopped ∧
      t.me.result = some r ∧ (r = .ok .unit ∨ r = .error .initCheck)

/-- adp_detect answers the variant the ID register maps to, and None on an error. On a probed port reached through
any backend adp_detect answers what P_ADP_ID_MAP gives for the ID register (None for a value it does not name)
and changes nothing but the bookkeeping of the bus. When the read fails (on an I2C instance) it answers None,
not an error. (R403, R400, R56, R601; derived) -/
def Obligations.AdpDetect : Prop :=
  ∀ (s : State) (p i : Nat) (q : Port) (res : Resource) (rb : Rb), s.Idle →
    PortWired s p q res i rb → s.ShowsAdp i p rb res.base .id q.variant →
    (s.turns = [] → ∃ t, exec (.adpDetect p) s = .next t ∧ t.turns = [] ∧ s.SameBytes t ∧
      t.still i = (s.finish (.ok (.variant (match s.board.idMap.find? fun e => decide (e.1 = q.hwId) with
        | some e => e.2
        | none => .none)))).still i) ∧
    ∀ l r, rb.backend = .i2c → s.turns = .fail l :: r →
      ∃ t, exec (.adpDetect p) s = .next t ∧ t.turns = r ∧ t.still i = (s.finish (.ok (.variant .none))).still i

/-- adp_probe sets a port's cells and detects its variant, over any bus, and creates a port of a new index.
adp_probe without a resource descriptor returns E_INVAL and changes nothing. Otherwise, on any backend, the port
takes the descriptor, the detected variant with its supported modes, and the reset values of rule R52, its
inputs and hardware registers as before; nothing else changes but the bookkeeping of the bus. Autonegotiation,
unspecified until the first setup, is drawn (log entry 25). A number that names no port creates the port of that
index, with hardware registers of which nothing is known and, which is the model's choice (log entry 4), no PHY
and no SFP module, and a torn-down port refuses (log entry 26). (R404, R52, R402, R704, R40, R414; derived) -/
def Obligations.AdpProbe : Prop :=
  ∀ (s : State) (i : Nat) (r : Resource) (rb : Rb), s.Ready →
    let v (id : U16) : Variant := match s.board.idMap.find? fun e => decide (e.1 = id) with
      | some e => e.2
      | none => .none
    let set (q : Port) (p : Nat) (an : Bool) : Port := { q with
      port := p, res := some r, variant := v q.hwId, supported := Config.adpSupported (v q.hwId),
      advertised := Config.adpSupported (v q.hwId), linkCheckEnabled := true, sfpType := .none, pcsMode := .none,
      desired := .down, forced := false, anEnabled := an, linkMode := .down }
    (∀ p, (∀ q, s.portAt p = some q → q.removed = false) →
      exec (.adpProbe p none) s = .next (s.finish (.error (.inval .missingResource)))) ∧
    (∀ p q, s.portAt p = some q → q.removed = false →
      s.Names r.bus i rb → s.MayUse rb → rb.reaches (r.base + s.board.adpMap.id) = true →
      State.readTarget (s.modPort p fun x => { x with res := some r, variant := .none }) i
        (evenAddr (r.base + s.board.adpMap.id)) = some (.adp p .id) →
      ∃ t, exec (.adpProbe p (some r)) s = .next t ∧ t.turns = [] ∧ s.SameBytes t ∧
        t.still i = ((s.modPort p fun _ => set q p (s.drawn.testBit 0)).finish (.ok .unit)).still i) ∧
    (s.Names r.bus i rb → s.MayUse rb → rb.reaches (r.base + s.board.adpMap.id) = true →
      ∀ p, s.portAt p = none → (∀ q : Port, q.port = p → q.res = some r → q.variant = .none →
        State.readTarget { s with ports := s.ports ++ [q] } i (evenAddr (r.base + s.board.adpMap.id)) =
          some (.adp p .id)) →
      ∃ t q, q.removed = false ∧ q.inputs = PortInputs.reset ∧
        exec (.adpProbe p (some r)) s = .next t ∧ t.turns = [] ∧ s.SameBytes t ∧
        t.still i = (({ s with ports := s.ports ++ [set q p q.anEnabled] } : State).finish
          (.ok .unit)).still i) ∧
    ∀ (x : Option Resource) (p : Nat) (q : Port), s.portAt p = some q → q.removed = true →
      exec (.adpProbe p x) s = .refused .adpRemoved

/-- check_link decodes the link mode by variant, and stores and returns it. With link checking off, and on None, MII
and RMII ports, check_link returns DOWN and reads nothing. Otherwise, over any backend, it decodes by variant:
the 2-bit speed field of the status (RGMII, AlteraTSE), the PCS mode and its speed field (SGMII variants), a
fixed speed (the single-speed variants), DOWN when link_ok or the link bit fails; a mode outside the supported
set is reported as DOWN. The mode is stored in link_mode and returned, and nothing else changes but the
bookkeeping of the bus. (R406, R407, R401, R163; derived) -/
def Obligations.CheckLink : Prop :=
  ∀ (s : State) (p : Nat) (q : Port), s.Ready → s.portAt p = some q → q.removed = false →
    let b := s.board
    let set (m : LinkMode) : State := (s.modPort p fun x => { x with linkMode := m }).finish (.ok (.linkMode m))
    let shown (m : LinkMode) : LinkMode := if m ≠ .down ∧ linkBit m &&& q.supported = 0 then .down else m
    let ok := q.hwStatus.getLsbD b.bitLink && (!q.anEnabled || q.hwStatus.getLsbD b.bitAn)
    (q.linkCheckEnabled = false ∨ q.variant ∈ [Variant.none, .mii, .rmii] →
      exec (.checkLink p) s = .next (set .down)) ∧
    ∀ (i : Nat) (res : Resource) (rb : Rb), q.linkCheckEnabled = true → PortWired s p q res i rb →
      s.ShowsAdp i p rb res.base .status q.variant →
      let out (m : LinkMode) : Prop := ∃ t, exec (.checkLink p) s = .next t ∧ t.turns = [] ∧ s.SameBytes t ∧
        t.still i = (set (shown m)).still i
      (q.variant = .rgmii ∨ q.variant = .alteraTse →
        out (if ok then b.speedMap.mode (q.hwStatus.extractLsb' b.fldSpeed 2) else .down)) ∧
      (q.variant = .sgmiiOr1000BaseX ∨ q.variant = .sgmiiOr1000BaseXOr100BaseFX →
        (ok = false → out .down) ∧
        (ok = true → q.pcsMode = .sgmii → s.ShowsAdp i p rb res.base .pcsStatus q.variant →
          out (b.speedMap.mode (q.hwPcs.extractLsb' b.fldPcsSpeed 2))) ∧
        (ok = true → q.pcsMode = .x1000 → out .full1000) ∧
        (ok = true → q.pcsMode = .fx100 → out .full100) ∧
        (ok = true → q.pcsMode = .none → out .down)) ∧
      (q.variant = .only1000BaseX → out (if q.hwStatus.getLsbD b.bitLink then .full1000 else .down)) ∧
      (q.variant = .only100BaseFX → out (if q.hwStatus.getLsbD b.bitLink then .full100 else .down))

/-- When a check_link that began now has returned, it returned no error and a legal link mode. However the bus
behaves (transactions failing, other steps coming between, hardware and inputs changing), if a check_link that
began now has returned within this step, and no fault has stopped the agent, its result is a link mode and not
an error, that mode is the port's link_mode, and it is DOWN or one of the port's supported modes. (That the link
mode of every port is legal after every step is StepKeepsSound.) (R53, R406, R400; derived) -/
def Obligations.CheckLinkLegal : Prop :=
  ∀ (s t : State) (p : Nat), s.me.op = none → exec (.checkLink p) s = .next t → t.me.op = none →
    t.me.stopped = none →
    ∃ q, t.portAt p = some q ∧ t.me.result = some (.ok (.linkMode q.linkMode)) ∧
      (q.linkMode = .down ∨ linkBit q.linkMode &&& q.supported ≠ 0)

/-- adp_setup: rejection, the writes in order, the cells, and "no adapter" on an error. A forced mode other than
DOWN outside the supported set returns E_INVAL(MODE) and changes nothing. Otherwise the writes of P_ADP_SETUP
for the variant, the PCS mode chosen from variant and SFP type, and autonegotiation (off exactly for a forced
mode other than DOWN) are made in order, over any backend, and the port's PCS mode, desired mode, forced flag
and autonegotiation are set; no byte outside the written registers changes. When the first write fails (on an
I2C instance) the port becomes a None port with link DOWN and setup still returns Ok. (R408, R405, R53, R400;
derived) -/
def Obligations.AdpSetup : Prop :=
  ∀ (s : State) (p : Nat) (q : Port) (m : LinkMode) (forced : Bool), s.Idle → s.portAt p = some q →
    q.removed = false →
    let bad := forced = true ∧ m ≠ .down ∧ linkBit m &&& q.supported = 0
    let pcs := choosePcs q.variant q.sfpType
    let an := !(forced && decide (m ≠ .down))
    let l := setupWrites s.board.setup q.variant pcs an m
    (bad → exec (.adpSetup p m forced) s = .next (s.finish (.error (.inval .mode)))) ∧
    (¬ bad → l = [] → exec (.adpSetup p m forced) s = .next ((s.modPort p fun x =>
      { x with pcsMode := pcs, desired := m, forced := forced, anEnabled := an }).finish (.ok .unit))) ∧
    ∀ (i : Nat) (res : Resource) (rb : Rb), ¬ bad → PortWired s p q res i rb →
      (s.turns = [] → (∀ w ∈ l, rb.reaches (res.base + w.1) = true) →
        ∃ t, exec (.adpSetup p m forced) s = .next t ∧ t.turns = [] ∧
          t.still i = (((l.foldl (fun u w => u.farWrite16 i (res.base + w.1) w.2) s).modPort p fun x =>
            { x with pcsMode := pcs, desired := m, forced := forced, anEnabled := an }).finish (.ok .unit)).still i ∧
          (∀ j x, j ≠ i ∨ (∀ w ∈ l, x < (evenAddr (res.base + w.1)).toNat ∨ (evenAddr (res.base + w.1)).toNat + 2 ≤ x) →
            t.farByte j x = s.farByte j x) ∧ ∀ x, t.bufByte x = s.bufByte x) ∧
      ∀ r, rb.backend = .i2c → l ≠ [] → s.turns = .fail false :: r →
        ∃ t, exec (.adpSetup p m forced) s = .next t ∧ t.turns = r ∧ s.SameBytes t ∧
          t.still i = ((s.modPort p fun x => { x with variant := .none, linkMode := .down }).finish
            (.ok .unit)).still i

/-- init_adapter: supported modes, SFP type, link checking and the advertised mask. init_adapter sets supported to
the variant's modes, the SFP type from the EEPROM, else copper or none when a PHY is attached, else P_INFER_SFP,
link checking on exactly when no PHY is attached, and advertised to the supported modes cut by the attached
PHYs' masks (the fiber bit kept), without the fiber bit unless the SFP type is a fiber type. A link mode that is
not among the new supported modes is reported as DOWN (log entry 45). Nothing else changes. (R409, R410, R53;
derived) -/
def Obligations.InitAdapter : Prop :=
  ∀ (s : State) (p : Nat) (q : Port), s.Idle → s.portAt p = some q → q.removed = false →
    let x := q.inputs
    let phy := x.extPhyAttached || x.sfpPhyAttached
    let sup := Config.adpSupported q.variant
    let type := if x.sfpEepromPresent then x.sfpEepromType
      else if phy then (if x.sfpPhyAttached then .copperSgmii else .none)
      else inferSfp s.board.inferSfp x.phyOnSfpMdio sup
    let one := if x.extPhyAttached then sup &&& (x.extPhyMask ||| 0x8)
      else if x.sfpPhyAttached then sup &&& (x.sfpPhyMask ||| 0x8) else sup
    let both := if x.extPhyAttached && x.sfpPhyAttached && !x.sfpSeparate then one &&& (x.sfpPhyMask ||| 0x8) else one
    let adv := if type = .fiber1000BaseX ∨ type = .fiber100BaseFX then both else both &&& ~~~0x8
    exec (.initAdapter p) s = .next ((s.modPort p fun y =>
      { y with
        supported := sup, sfpType := type, linkCheckEnabled := !phy, advertised := adv,
        linkMode := if linkBit y.linkMode &&& sup = 0 then .down else y.linkMode }).finish (.ok .unit))

/-- best_adapter_link_mode: the highest speed both masks share, of masks given or of a port. best_adapter_link_mode
answers the highest of 1000, 100 and 10 whose bit both masks have, DOWN when they share none, and changes
nothing; where a port is named the adapter mask is its supported modes and the SFP mask the modes of its SFP
type, and a torn-down port refuses. That a mask operand is a mask or a port is log entry 1. (R413, R412, R414;
derived) -/
def Obligations.BestLinkMode : Prop :=
  let best (a b : U16) : LinkMode := if (a &&& b) &&& 0x4 ≠ 0 then .full1000 else if (a &&& b) &&& 0x2 ≠ 0 then .full100
    else if (a &&& b) &&& 0x1 ≠ 0 then .full10 else .down
  let modes (t : SfpType) : U16 := match t with
    | .none => 0x7
    | .copperSgmii => 0x7
    | .fiber1000BaseX => 0xC
    | .fiber100BaseFX => 0xA
  let is (s : State) (x : MaskArg) (f : Port → U16) (v : U16) : Prop := match x with
    | .mask m => v = m
    | .port p => ∃ q, s.portAt p = some q ∧ q.removed = false ∧ v = f q
  ∀ (s : State) (x y : MaskArg), s.Idle →
    (∀ a b : U16, is s x (fun q => q.supported) a → is s y (fun q => modes q.sfpType) b →
      exec (.bestAdapterLinkMode x y) s = .next (s.finish (.ok (.linkMode (best a b))))) ∧
    ∀ (p : Nat) (q : Port), s.portAt p = some q → q.removed = true →
      x = .port p ∨ (y = .port p ∧ ∃ a, is s x (fun q => q.supported) a) →
      exec (.bestAdapterLinkMode x y) s = .refused .adpRemoved

/-- ts_open: the first open allocates an empty ring and enables the mode, a later one only counts; waiting and E_IO.
On a probed timestamper over any backend, in process context with the configuration lock free: the first ts_open
leaves a ring of capacity empty slots with both counts 0, the capture re-armed and the delivery mode enabled
(handler hooked and interrupt written on, or the timer started, or nothing more), life Active and use_count 1; a
later one only adds to use_count. Each returns a new open handle, and nothing else changes but the bookkeeping
of the bus. When a transfer of the enabling fails (on an I2C instance) ts_open returns E_IO: the ring is freed
again, the counts are 0, no handler is hooked, and the device is as Idle as it was, its use_count and handles
unchanged; the re-arming or the interrupt write that failed may have happened, as the turn says. That an action
register acts when its high half is written, so that a failure at the other half leaves what it acts on, is the
model's (log entry 9), and so is that a failed write lands or not as the turn says (log entry 8). While the
configuration lock is held ts_open waits, with nothing changed. (R504, R506, R517, R602, R14; derived) -/
def Obligations.TsOpen : Prop :=
  (∀ (s : State) (d : Nat) (t : Ts), s.Idle → s.tss[d]? = some t → t.removed = false → s.atomic = false →
    t.cfgLock ≠ none → exec (.tsOpen d) s =
      .next (s.setMe fun a => { a with op := some (.tsOpen d), hist := [0], blocked := some .other })) ∧
  ∀ (s : State) (d i : Nat) (t : Ts) (res : Resource) (rb : Rb), s.Idle → TsWired s d t res i rb →
    s.atomic = false → t.cfgLock = none →
    let first : Ts :=
      { ({ t with buf := List.replicate t.capacity none, bufCount := 0, readCount := 0 } : Ts).enabled s.board
          s.hostTicks t.mode with
        life := .active, useCount := 1, handles := t.handles ++ [.held 0] }
    let later : Ts := { t with useCount := t.useCount + 1, handles := t.handles ++ [.held 0] }
    (s.turns = [] → ∃ u, exec (.tsOpen d) s = .next u ∧ u.turns = [] ∧ s.SameBytes u ∧
      u.still i = ((s.modTs d fun _ => if t.useCount = 0 then first else later).finish
        (.ok (.handle t.handles.length))).still i) ∧
    ∀ (k : Nat) (l : Bool) (r : List Turn), t.useCount = 0 → rb.backend = .i2c → rb.hasWrite32 = false →
      k < (if t.mode = .interrupt then 4 else 2) → s.turns = List.replicate k .go ++ .fail l :: r →
      ∃ u armed on, exec (.tsOpen d) s = .next u ∧ u.turns = r ∧ s.SameBytes u ∧
        (l = false → armed = (t.hw.armed || decide (2 ≤ k)) ∧ on = t.hw.irqEn) ∧
        u.still i = ((s.modTs d fun _ => { t with
          buf := [], bufCount := 0, readCount := 0, irqHooked := if k < 2 then t.irqHooked else false,
          hw := { t.hw with armed := armed, irqEn := on } }).finish (.error .io)).still i

/-- ts_close: the last close disables the mode and frees the ring, another one only counts; readers and waiting. A
ts_close with a handle that is not open stops the agent with F_TS_NOT_OPEN. With a handle on which no read is in
progress, over any backend, in process context with the configuration lock free and no trigger running at a last
close: the handle is closed and use_count one less; the last close also disables the current mode, frees the
ring, clears both counts and makes the device Idle. With a handle on which reads are in progress it returns at
once: the handle is no longer open, its use of the device lasting until the last of them ends (log entry 20).
While the configuration lock is held it waits, the handle marked closed. Nothing else changes but the
bookkeeping of the bus. (R505, R507, R610, R14; derived) -/
def Obligations.TsClose : Prop :=
  (∀ (s : State) (d h : Nat) (t : Ts), s.Idle → s.tss[d]? = some t → t.removed = false →
    let marked (x : TsHandle) : State := s.modTs d fun y => { y with handles := y.handles.set h x }
    (t.isOpen h = false → exec (.tsClose d h) s = .next (s.halt .tsNotOpen)) ∧
    (∀ n, t.handles[h]? = some (.held (n + 1)) →
      exec (.tsClose d h) s = .next ((marked (.closing n)).finish (.ok .unit))) ∧
    (t.handles[h]? = some (.held 0) → s.atomic = false → t.cfgLock ≠ none →
      ∃ l, exec (.tsClose d h) s = .next ((marked .closed).setMe fun a =>
        { a with op := some (.tsClose d h), hist := l, blocked := some .other }))) ∧
  ∀ (s : State) (d i h : Nat) (t : Ts) (res : Resource) (rb : Rb), s.Ready → TsWired s d t res i rb →
    s.atomic = false → t.cfgLock = none → t.handles[h]? = some (.held 0) →
    (t.useCount ≤ 1 → t.triggersDone = true) →
    let other : Ts := { t with useCount := t.useCount - 1, handles := t.handles.set h .closed }
    let last : Ts := { other.disabled s.board t.mode with buf := [], bufCount := 0, readCount := 0, life := .idle }
    ∃ u, exec (.tsClose d h) s = .next u ∧ u.turns = [] ∧ s.SameBytes u ∧
      u.still i = ((s.modTs d fun _ => if t.useCount ≤ 1 then last else other).finish (.ok .unit)).still i

/-- ts_read delivers the oldest events once each, as many as fit, and nothing else. With an open handle, a buffer of
at least one record that can be written, unread events whose slots are written, and the reader and index locks
free: ts_read returns 16 bytes for each of the min(available, buffer_len / 16) oldest unread events, event k of
them laid out at byte 16 k of the buffer as rule R150 says, read_count advances by that number, and no other
byte of any memory and no other cell changes. It blocks for nothing, with or without nonblock, in every mode.
(R513, R512, R150, R104; derived) -/
def Obligations.TsReadDelivers : Prop :=
  ∀ (s : State) (d h : Nat) (len : U32) (nonblock : Bool) (t : Ts), s.Ready → s.tss[d]? = some t → t.removed = false →
    t.isOpen h = true → 16 ≤ len.toNat → s.atomic = false → s.me.signal = false → t.readerLock = none →
    t.indexLock = none → t.readCount < t.bufCount →
    let n := min (t.bufCount - t.readCount) (len.toNat / 16)
    16 * n ≤ s.me.bufferSize → (∀ k, k < n → t.slot (t.readCount + k) ≠ none) →
    ∃ m : Memory, exec (.tsRead d h len nonblock) s =
        .next (((s.modTs d fun x => { x with readCount := x.readCount + n }).setMe fun a =>
          { a with buffer := m }).finish (.ok (.bytes (16 * n)))) ∧
      (∀ x, 16 * n ≤ x → Memory.read m x = s.bufByte x) ∧
      ∀ k ev, k < n → t.slot (t.readCount + k) = some ev → ∀ j, j < 16 →
        Memory.read m (16 * k + j) = (bytesIn s.board.hostEndian 8 ev.sec.toNat ++
          (bytesIn s.board.hostEndian 4 ev.nsec.toNat ++ bytesIn s.board.hostEndian 4 ev.counter.toNat))[j]?

/-- ts_read without something to deliver: the fault, the errors, the waits and their interruption, in order. ts_read
on a handle that is not open stops the agent with F_TS_NOT_OPEN; returns E_INVAL for a buffer below 16 bytes, no
step of another agent coming between its check of the handle and that; takes a pending host signal as E_INTR;
with nothing unread it returns E_AGAIN to a non-blocking reader and, in Direct mode, to any reader, then also
queueing one check; a blocking reader in another mode with nothing unread joins waitq and is blocked there
holding no lock, and one that finds the reader lock held is blocked on it; the read is then in progress on its
handle (log entry 20). None of these changes anything else. A reader so blocked that goes on with a host signal
marked takes it, leaves waitq and returns E_INTR, its read on the handle over; the last read on a handle that
was closed meanwhile ends the handle's use of the device. When the buffer cannot be written for all the bytes
ts_read returns E_FAULT, read_count not advanced, and no byte past the buffer's size changes (log entry 22).
(R513, R514, R512, R505, R602, R610; derived) -/
def Obligations.TsReadOtherwise : Prop :=
  ∀ (s : State) (d h : Nat) (len : U32) (nonblock : Bool) (t : Ts), s.Ready → s.tss[d]? = some t → t.removed = false →
    let i : Instr := .tsRead d h len nonblock
    let mark (x : TsHandle) (y : Ts) : Ts := { y with handles := y.handles.set h x }
    let resumes (l : List Nat) (out : State → State) : Prop := ∀ (u : State) (y : Ts) (x : TsHandle),
      u.me.op = some i → u.me.hist = l → u.cut = none → u.me.signal = true → u.atomic = false →
      u.tss[d]? = some y → y.handles[h]? = some x →
      let v := out (u.setMe fun a => { a with signal := false })
      (∀ k, x = .held (k + 1) → exec i u = .next ((v.modTs d (mark (.held k))).finish (.error .intr))) ∧
      (∀ k, x = .closing (k + 1) → exec i u = .next ((v.modTs d (mark (.closing k))).finish (.error .intr))) ∧
      (x = .closing 0 → y.cfgLock = none → 2 ≤ y.useCount → exec i u = .next ((v.modTs d fun z =>
        { mark .closed z with useCount := z.useCount - 1 }).finish (.error .intr)))
    (t.isOpen h = false → exec i s = .next (s.halt .tsNotOpen)) ∧
    (t.isOpen h = true → len.toNat < 16 → exec i s = .next (s.finish (.error (.inval .zeroRecords))) ∧
      ∀ n, exec i { s with cut := some (n + 1) } = .next (s.finish (.error (.inval .zeroRecords)))) ∧
    ∀ c, t.handles[h]? = some (.held c) → 16 ≤ len.toNat → s.atomic = false →
      (s.me.signal = true → exec i s = .next ((s.setMe fun a => { a with signal := false }).finish (.error .intr))) ∧
      (s.me.signal = false → t.readerLock ≠ none → ∃ l, exec i s = .next ((s.modTs d (mark (.held (c + 1)))).setMe
        fun a => { a with op := some i, hist := l, blocked := some .readerLock }) ∧ resumes l id) ∧
      (s.me.signal = false → t.readerLock = none → t.indexLock = none →
        (t.bufCount ≤ t.readCount → t.mode = .direct → exec i s =
          .next ((s.modTs d fun x => { x with workPending := true }).finish (.error .again))) ∧
        (t.bufCount ≤ t.readCount → t.mode ≠ .direct → nonblock = true →
          exec i s = .next (s.finish (.error .again))) ∧
        (t.bufCount ≤ t.readCount → t.mode ≠ .direct → nonblock = false → t.waiters.contains s.me.id = false →
          ∃ l, exec i s = .next ((s.modTs d fun x =>
              { mark (.held (c + 1)) x with waiters := x.waiters ++ [s.me.id] }).setMe fun a =>
              { a with op := some i, hist := l, blocked := some .waitq }) ∧
            resumes l fun u => u.modTs d fun x => { x with waiters := x.waiters.filter (· ≠ u.me.id) }) ∧
        (t.readCount < t.bufCount → s.me.bufferSize < 16 * min (t.bufCount - t.readCount) (len.toNat / 16) →
          ∃ n m, exec i s = .next (((s.afterDraws n).setMe fun a => { a with buffer := m }).finish (.error .fault)) ∧
            ∀ x, s.me.bufferSize ≤ x → Memory.read m x = s.bufByte x))

/-- change_settings: the rejections in their order, an idle device, and an active one. change_settings returns
E_INVAL for a mode word other than 0, 1, 2, then for Interrupt without an interrupt line, then for an interval
of 1e9 ns or more, changing nothing. On an idle device it stores mode and interval; on an active one, over any
backend and with no trigger running, it disables the old mode, stores, and enables the new one with the new
interval. Blocked readers are woken unless the new mode is Interrupt. Nothing else changes but the bookkeeping
of the bus. While the configuration lock is held an accepted change_settings waits, with nothing changed. (R515,
R506, R507, R723, R14; derived) -/
def Obligations.ChangeSettings : Prop :=
  (∀ (s : State) (d : Nat) (t : Ts) (w : U32) (sec : U64) (nsec : U32), s.Idle → s.tss[d]? = some t →
    t.removed = false →
    (w ≠ 0 → w ≠ 1 → w ≠ 2 → exec (.changeSettings d w sec nsec) s = .next (s.finish (.error (.inval .mode)))) ∧
    (w = 0 → t.irqLine = false → exec (.changeSettings d w sec nsec) s = .next (s.finish (.error (.inval .noIrq)))) ∧
    (w = 1 ∨ w = 2 ∨ w = 0 ∧ t.irqLine = true → 1000000000 ≤ nsec.toNat →
      exec (.changeSettings d w sec nsec) s = .next (s.finish (.error (.inval .interval))))) ∧
  ∀ (s : State) (d : Nat) (t : Ts) (m : DMode) (sec : U64) (nsec : U32), s.Ready → s.tss[d]? = some t →
    t.removed = false → s.atomic = false → nsec.toNat < 1000000000 → (m = .interrupt → t.irqLine = true) →
    let word : U32 := match m with
      | .interrupt => 0
      | .poll => 1
      | .direct => 2
    let woken (x : Ts) : Ts := { x with waiters := if m = .interrupt then x.waiters else [] }
    (t.cfgLock ≠ none → ∃ l, exec (.changeSettings d word sec nsec) s = .next (s.setMe fun a =>
      { a with op := some (.changeSettings d word sec nsec), hist := l, blocked := some .other })) ∧
    (t.cfgLock = none → t.readerLock = none → t.life = .idle →
      exec (.changeSettings d word sec nsec) s = .next ((s.modTs d fun x =>
      woken { x with mode := m, pollSec := sec, pollNsec := nsec }).finish (.ok .unit))) ∧
    ∀ (i : Nat) (res : Resource) (rb : Rb), t.cfgLock = none → t.readerLock = none → t.life = .active →
      TsWired s d t res i rb → t.triggersDone = true →
      ∃ u, exec (.changeSettings d word sec nsec) s = .next u ∧ u.turns = [] ∧ s.SameBytes u ∧
        u.still i = ((s.modTs d fun _ => woken (Ts.enabled { t.disabled s.board t.mode with
          mode := m, pollSec := sec, pollNsec := nsec } s.board s.hostTicks m)).finish (.ok .unit)).still i

/-- event_check: one captured event is recorded, acknowledged, then re-armed and enqueued, or the ring is left;
E_IO. On a probed timestamper over any backend with the index lock free and no other check of the device
running: a full drained ring is first reclaimed, and it stays so when no event is pending; with an event
pending, it becomes last_event, normalized, the capture is acknowledged and then re-armed (with native 32-bit
accesses, and over I2C, in that order on the wire, after the reads), and, unless the ring is full and not
drained, the event is appended and the waiting readers are woken. On a device whose ring is not allocated there
is no slot and the count rises all the same (log entry 41). With the SKIP policy a full undrained ring ends it
at once. When a transfer fails (on an I2C instance) it returns E_IO: before the acknowledge nothing is recorded,
at the acknowledge last_event holds the event and the capture stays pending, at the re-arm it is acknowledged;
the event is not in the ring and no reader is woken. That an action register acts when its high half is written
is the model's (log entry 9), and so is that a failed re-arm lands or not as the turn says (log entry 8); that
the capture stays pending after a failed acknowledge is R508. The ring invariant of rule R58 is kept (with the
count at most the capacity, which is at least one), and nothing else changes but the bookkeeping of the bus.
While another check runs it waits with nothing changed (log entry 44). (R508, R509, R518, R58, R59, R710, R602;
derived) -/
def Obligations.EventCheck : Prop :=
  ∀ (s : State) (d i : Nat) (t : Ts) (res : Resource) (rb : Rb), s.Idle → TsWired s d t res i rb →
    t.indexLock = none → s.board.bitNew < 32 → 0 < t.capacity → t.bufCount ≤ t.capacity →
    let full := t.bufCount = t.capacity ∧ t.readCount ≠ t.bufCount
    let empty : Ts := if t.bufCount = t.capacity ∧ t.readCount = t.bufCount
      then { t with bufCount := 0, readCount := 0 } else t
    let ev : Event := ⟨BitVec.ofNat 64 (t.hw.latSec.toNat + t.hw.latNsec.toNat / 1000000000),
      BitVec.ofNat 32 (t.hw.latNsec.toNat % 1000000000), t.hw.latCounter⟩
    let seen (pending armed : Bool) : Ts := { empty with
      lastEvent := some ev, hw := { t.hw with pending := pending, armed := armed } }
    let kept : Ts := { seen false true with
      buf := empty.buf.set empty.bufCount (some ev), bufCount := empty.bufCount + 1, waiters := [] }
    let skip := full ∧ s.board.fullPolicy = .skip
    let t' : Ts := if skip then t else if t.hw.pending = false then empty else if full then seen false true else kept
    let free := t.workerBusy = false ∧ t.irqRun ≠ .checking
    (free → s.turns = [] → ∃ u w, exec (.eventCheck d) s = .next u ∧ u.turns = [] ∧ s.SameBytes u ∧
      u.still i = ((s.modTs d fun _ => t').finish (.ok .unit)).still i ∧ u.wire = w ++ s.wire ∧
      (¬ skip → t.hw.pending = true →
        let wrote (off : U32) (n : Nat) (v : U32) : Xfer :=
          ⟨i, .ioStore (rb.cfg.mmioBase + (res.base + off).toNat) n v, true⟩
        let sent (off : U32) (v : U16) : Xfer := ⟨i, .i2c rb.cfg.i2cSlave (i2cWriteFrame (res.base + off) v) [], true⟩
        let arm := s.board.tsMap.arm
        let ack := s.board.tsMap.ack
        (rb.hasRead32 = true → rb.hasWrite32 = true →
          w.length = 7 ∧ w.take 2 = [wrote arm 4 s.board.armVal, wrote ack 4 s.board.ackVal]) ∧
        (rb.backend = .i2c → rb.hasRead32 = false → rb.hasWrite32 = false → w.length = 14 ∧ w.take 4 =
          [sent (arm + 2) (s.board.armVal.extractLsb' 16 16), sent arm (s.board.armVal.extractLsb' 0 16),
            sent (ack + 2) (s.board.ackVal.extractLsb' 16 16), sent ack (s.board.ackVal.extractLsb' 0 16)]))) ∧
    (free → ¬ skip → t.hw.pending = true → rb.backend = .i2c → rb.hasRead32 = false → rb.hasWrite32 = false →
      ∀ (k : Nat) (l : Bool) (r : List Turn), k < 14 → s.turns = List.replicate k .go ++ .fail l :: r →
      ∃ u, exec (.eventCheck d) s = .next u ∧ u.turns = r ∧ s.SameBytes u ∧
        u.still i = ((s.modTs d fun _ => if k < 10 then empty
          else seen (decide (k < 12)) (t.hw.armed || (l && decide (k = 13)))).finish (.error .io)).still i) ∧
    (¬ free → exec (.eventCheck d) s =
      .next (s.setMe fun a => { a with op := some (.eventCheck d), hist := [0], blocked := some .other })) ∧
    (t.ringOk → t'.bufCount ≤ t'.capacity ∧ t'.ringOk) ∧ ev.nsec.toNat < 1000000000

/-- enable_mode and disable_mode: what each delivery mode turns on and off, and E_IO. On a probed timestamper over
any backend: enable_mode re-arms the capture, then hooks the handler and writes the interrupt on, or starts the
timer at now plus the poll period, or does nothing more; disable_mode, in process context with no trigger
running, unhooks the handler and writes the interrupt off, or stops the timer, or does nothing. While a trigger
is queued or runs disable_mode has done the same and then waits. Nothing else changes but the bookkeeping of the
bus. When a transfer fails (on an I2C instance) enable_mode returns E_IO with no handler hooked if it had come
to the interrupt write, and disable_mode returns E_IO after its wait with the handler unhooked; the register
write that failed may have happened, as the turn says. That an action register acts when its high half is
written, so that a failure at the other half leaves what it acts on, is the model's (log entry 9), and so is
that a failed write lands or not as the turn says (log entry 8). Neither takes a lock here (log entry 42).
(R506, R507, R503, R602; derived) -/
def Obligations.EnableDisableMode : Prop :=
  ∀ (s : State) (d i : Nat) (t : Ts) (res : Resource) (rb : Rb) (m : DMode), s.Idle → TsWired s d t res i rb →
    s.board.irqOn ≠ s.board.irqOff →
    let on : Ts := match m with
      | .interrupt => { t with irqHooked := true, hw := { t.hw with armed := true, irqEn := true } }
      | .poll => { t with
        timerOn := true, timerDeadline := s.hostTicks + pollTicks s.board.hostHz t.pollSec t.pollNsec,
        hw := { t.hw with armed := true } }
      | .direct => { t with hw := { t.hw with armed := true } }
    let off : Ts := match m with
      | .interrupt => { t with irqHooked := false, hw := { t.hw with irqEn := false } }
      | .poll => { t with timerOn := false }
      | .direct => t
    (s.turns = [] → ∃ u, exec (.enableMode d m) s = .next u ∧ u.turns = [] ∧ s.SameBytes u ∧
      u.still i = ((s.modTs d fun _ => on).finish (.ok .unit)).still i) ∧
    (s.turns = [] → s.atomic = false → t.triggersDone = true → ∃ u, exec (.disableMode d m) s = .next u ∧
      u.turns = [] ∧ s.SameBytes u ∧ u.still i = ((s.modTs d fun _ => off).finish (.ok .unit)).still i) ∧
    (∀ (k : Nat) (l : Bool) (r : List Turn), rb.backend = .i2c → rb.hasWrite32 = false →
      s.turns = List.replicate k .go ++ .fail l :: r →
      (k < (if m = .interrupt then 4 else 2) →
        ∃ u armed on, exec (.enableMode d m) s = .next u ∧ u.turns = r ∧ s.SameBytes u ∧
          (l = false → armed = (t.hw.armed || decide (2 ≤ k)) ∧ on = t.hw.irqEn) ∧
          u.still i = ((s.modTs d fun _ => { t with
            irqHooked := if k < 2 then t.irqHooked else false,
            hw := { t.hw with armed := armed, irqEn := on } }).finish (.error .io)).still i) ∧
      (k < 2 → s.atomic = false → t.triggersDone = true →
        ∃ u on, exec (.disableMode d .interrupt) s = .next u ∧ u.turns = r ∧ s.SameBytes u ∧
          (l = false → on = t.hw.irqEn) ∧
          u.still i = ((s.modTs d fun _ => { t with
            irqHooked := false, hw := { t.hw with irqEn := on } }).finish (.error .io)).still i)) ∧
    (s.turns = [] → s.atomic = false → t.triggersDone = false → ∃ u l, exec (.disableMode d m) s = .next u ∧
      u.turns = [] ∧ s.SameBytes u ∧ u.still i = ((s.modTs d fun _ => off).setMe fun a =>
        { a with op := some (.disableMode d m), hist := l, blocked := some .other }).still i)

/-- The poll period is at least one tick and the interval rounded up; the default is half a second. The poll period
in host ticks is the smallest number of ticks, at least one, that is no shorter than the interval at P_HOST_HZ
ticks a second; a new device's interval is half a second, which at an even tick rate of two or more is half the
rate. (R517) -/
def Obligations.PollPeriod : Prop :=
  (∀ (hz k : Nat) (sec : U64) (nsec : U32), pollTicks hz sec nsec ≤ k ↔
    1 ≤ k ∧ (sec.toNat * 1000000000 + nsec.toNat) * hz ≤ k * 1000000000) ∧
  (∀ (r : Option Resource) (l d : Bool) (hw : TsHw), (Ts.create r l d hw).pollSec = 0 ∧
    (Ts.create r l d hw).pollNsec = 500000000) ∧
  ∀ k : Nat, 1 ≤ k → pollTicks (2 * k) 0 500000000 = k

/-- ts_probe: the rejection, the cells a probe sets, and a new device. ts_probe without a resource descriptor
returns E_INVAL and changes nothing; otherwise every cell of rule R57 takes its reset value but for the marks of
operations in progress on a device that is probed again, which stay (log entry 49), deferred is the instance's
sleeps, the mode is Interrupt with an interrupt line and Poll without, the interval is the default, no register
is accessed, the capture hardware keeps what it holds and every handle of the device is closed (log entry 14). A
number that names no device creates one, the next, with no operation in progress and capture cells of which
nothing is known, and a removed device refuses (log entry 26). (R501, R57, R705, R40, R611; derived) -/
def Obligations.TsProbe : Prop :=
  ∀ (s : State) (i : Nat) (r : Resource) (rb : Rb) (line : Bool), s.Idle →
    let set (handles : List TsHandle) (hw : TsHw) : Ts := {
      res := some r, removed := false, life := .idle, useCount := 0, mode := if line then .interrupt else .poll,
      pollSec := 0, pollNsec := 500000000, irqLine := line, deferred := rb.sleeps, capacity := 16, buf := [],
      bufCount := 0, readCount := 0, lastEvent := none, irqDepth := 0, irqHooked := false, irqRun := .idle,
      workPending := false, workIrq := false, workerBusy := false, timerOn := false, timerDeadline := 0,
      timerBusy := false, waiters := [], cfgLock := none, readerLock := none, indexLock := none, handles := handles,
      hw := hw }
    (∀ d, (∀ t, s.tss[d]? = some t → t.removed = false) →
      exec (.tsProbe d none line) s = .next (s.finish (.error (.inval .missingResource)))) ∧
    (s.Names r.bus i rb →
      (∀ d t, s.tss[d]? = some t → t.removed = false → exec (.tsProbe d (some r) line) s =
        .next ((s.modTs d fun _ => { set (t.handles.map fun _ => .closed) t.hw with
          irqDepth := t.irqDepth, irqRun := t.irqRun, workPending := t.workPending, workIrq := t.workIrq,
          workerBusy := t.workerBusy, timerBusy := t.timerBusy, waiters := t.waiters, cfgLock := t.cfgLock,
          readerLock := t.readerLock, indexLock := t.indexLock }).finish (.ok .unit))) ∧
      ∀ d, s.tss.length ≤ d → ∃ hw, exec (.tsProbe d (some r) line) s =
        .next (({ s.afterDraws 7 with tss := s.tss ++ [set [] hw] } : State).finish (.ok .unit))) ∧
    ∀ (x : Option Resource) (d : Nat) (t : Ts), s.tss[d]? = some t → t.removed = true →
      exec (.tsProbe d x line) s = .refused .tsRemoved

/-- ts_pulse: every pulse is counted, an armed one is captured. A pulse adds one to pulse_count, modulo 2^32; when
armed it also latches a drawn time and the new count, sets pending and clears armed. Nothing else changes. The
capture hardware of a removed timestamper goes on so (log entry 26). (R502; derived) -/
def Obligations.TsPulse : Prop :=
  ∀ (s : State) (d : Nat) (t : Ts), s.Idle → s.tss[d]? = some t →
    (t.hw.armed = false → exec (.tsPulse d) s = .next ((s.modTs d fun x =>
      { x with hw := { x.hw with pulseCount := x.hw.pulseCount + 1 } }).finish (.ok .unit))) ∧
    (t.hw.armed = true → ∃ (sec : U48) (nsec : BitVec 30), exec (.tsPulse d) s =
      .next (((s.afterDraws 2).modTs d fun x => { x with hw := { x.hw with
        pulseCount := x.hw.pulseCount + 1, latSec := sec, latNsec := nsec, latCounter := x.hw.pulseCount + 1,
        pending := true, armed := false } }).finish (.ok .unit)))

/-- ts_irq: deferred, it masks the line and queues a check; direct, it runs the check; it returns no error. When the
handler is hooked, the request asserted, the line not masked, no handler running and, where the handler itself
runs the check, no other check running: on a deferred device ts_irq adds one to the disable depth, queues a
check marked as the interrupt's and touches no register; on a direct one, over an instance that does not sleep,
it does what event_check does. Nothing else changes but the bookkeeping of the bus. However the bus behaves,
when a ts_irq that began now has returned it returned no error, an E_IO of its check included, irq_busy is false
and the disable depth is as it was, or one more on a deferred device. Otherwise it waits with nothing changed
(log entries 17 and 44). (R510, R503, R518, R601, R623, R620; derived) -/
def Obligations.TsIrq : Prop :=
  (∀ (s u : State) (d : Nat) (t : Ts), s.me.op = none → s.tss[d]? = some t → exec (.tsIrq d) s = .next u →
    u.me.op = none → u.me.stopped = none → u.me.result = some (.ok .unit) ∧
      ∃ t', u.tss[d]? = some t' ∧ t'.irqBusy = false ∧
        t'.irqDepth = (if t.deferred then t.irqDepth + 1 else t.irqDepth)) ∧
  ∀ (s : State) (d : Nat) (t : Ts), s.Ready → s.tss[d]? = some t → t.removed = false →
    let ready := t.irqHooked = true ∧ t.hw.pending = true ∧ t.hw.irqEn = true ∧ t.irqDepth ≤ 0 ∧ t.irqBusy = false ∧
      (t.deferred = true ∨ t.workerBusy = false)
    (ready → t.deferred = true → exec (.tsIrq d) s = .next ((s.modTs d fun x =>
      { x with irqDepth := x.irqDepth + 1, workIrq := true, workPending := true }).finish (.ok .unit))) ∧
    (¬ ready → exec (.tsIrq d) s =
      .next (s.setMe fun a => { a with op := some (.tsIrq d), hist := [0], blocked := some .other })) ∧
    ∀ (i : Nat) (res : Resource) (rb : Rb), ready → t.deferred = false → TsWired s d t res i rb → rb.sleeps = false →
      t.indexLock = none → s.board.bitNew < 32 → 0 < t.capacity → t.bufCount ≤ t.capacity →
      ∃ u, exec (.tsIrq d) s = .next u ∧ u.turns = [] ∧ s.SameBytes u ∧
        u.still i = ((s.modTs d fun _ => if t.stuck = true ∧ s.board.fullPolicy = .skip then t
          else t.checked s.board).finish (.ok .unit)).still i

/-- worker_run: the check, whose error is dropped, and the unmasking that balances the interrupt's mask. With a
check queued and none running, over any backend with the index lock free: worker_run does what event_check does,
takes the job off the queue, and, when the interrupt queued it, lowers the disable depth by one; where that
makes it negative, the depth is so and the agent is stopped with F_IRQ_UNBALANCED, the worker still marked busy.
However the bus behaves, when a worker_run that began now has returned it returned no error, an E_IO of its
check included, the job is off the queue, the worker is free, and the depth is one lower exactly when the
interrupt had queued the job. With none queued, or while one runs, it waits with nothing changed (log entries 17
and 44). Nothing else changes but the bookkeeping of the bus. (R511, R508, R518, R601, R602, R623, R717;
derived) -/
def Obligations.WorkerRun : Prop :=
  (∀ (s u : State) (d : Nat) (t : Ts), s.me.op = none → s.tss[d]? = some t → exec (.workerRun d) s = .next u →
    u.me.op = none → u.me.stopped = none → u.me.result = some (.ok .unit) ∧
      ∃ t', u.tss[d]? = some t' ∧ t'.workPending = false ∧ t'.workIrq = false ∧ t'.workerBusy = false ∧
        t'.irqDepth = (if t.workIrq then t.irqDepth - 1 else t.irqDepth)) ∧
  ∀ (s : State) (d : Nat) (t : Ts), s.Ready → s.tss[d]? = some t → t.removed = false →
    let ready := t.workPending = true ∧ t.workerBusy = false ∧ t.irqRun ≠ .checking
    (¬ ready → exec (.workerRun d) s =
      .next (s.setMe fun a => { a with op := some (.workerRun d), hist := [0], blocked := some .other })) ∧
    ∀ (i : Nat) (res : Resource) (rb : Rb), ready → TsWired s d t res i rb → t.indexLock = none →
      s.board.bitNew < 32 → 0 < t.capacity → t.bufCount ≤ t.capacity →
      let t1 : Ts := if t.stuck = true ∧ s.board.fullPolicy = .skip then t
        else if t.hw.pending = true then t.checked s.board else t.made
      (t.workIrq = true → t.irqDepth ≤ 0 → ∃ u, exec (.workerRun d) s = .next u ∧ u.turns = [] ∧ s.SameBytes u ∧
        u.still i = ((s.modTs d fun _ => { t1 with
          workPending := false, workIrq := false, workerBusy := true,
          irqDepth := t.irqDepth - 1 }).halt .irqUnbalanced).still i) ∧
      (t.workIrq = false ∨ 0 < t.irqDepth → ∃ u, exec (.workerRun d) s = .next u ∧ u.turns = [] ∧ s.SameBytes u ∧
        u.still i = ((s.modTs d fun _ => { t1 with
          workPending := false, workIrq := false, workerBusy := false,
          irqDepth := if t.workIrq then t.irqDepth - 1 else t.irqDepth }).finish (.ok .unit)).still i)

/-- poll_fire: a check is queued and the next deadline set, when the timer is due. When the timer is on, its
deadline reached and no poll_fire of the device running, poll_fire queues a check and sets the deadline to now
plus the poll period, and nothing else changes; otherwise it waits with nothing changed (log entry 17). (R516,
R517, R626, R15; derived) -/
def Obligations.PollFire : Prop :=
  ∀ (s : State) (d : Nat) (t : Ts), s.Idle → s.tss[d]? = some t → t.removed = false →
    (t.timerOn = true ∧ t.timerDeadline ≤ s.hostTicks ∧ t.timerBusy = false →
      exec (.pollFire d) s = .next ((s.modTs d fun x =>
      { x with
        workPending := true, timerBusy := false,
        timerDeadline := s.hostTicks + pollTicks s.board.hostHz x.pollSec x.pollNsec }).finish (.ok .unit))) ∧
    (¬ (t.timerOn = true ∧ t.timerDeadline ≤ s.hostTicks ∧ t.timerBusy = false) → exec (.pollFire d) s =
      .next (s.setMe fun a => { a with op := some (.pollFire d), hist := [0], blocked := some .other }))

/-- host_tick counts, and host_signal reaches a reader that is blocked in an interruptible wait only. host_tick adds
one to the host's tick count and changes nothing else. host_signal to another agent that is blocked in a
ts_read, on waitq while it is among that timestamper's waiters or on the reader lock while it is held, takes it
off waitq and marks the signal for it; to any other agent, a reader that was already woken included, and where
there is no such agent, it changes nothing. What the reader does with the signal is ts_read's (E_INTR,
TsReadOtherwise). (R514, R626, R14; derived) -/
def Obligations.HostSteps : Prop :=
  (∀ s : State, s.Idle →
    exec .hostTick s = .next (({ s with hostTicks := s.hostTicks + 1 } : State).finish (.ok .unit))) ∧
  (∀ s : State, s.Idle → exec (.hostSignal s.me.id) s = .next (s.finish (.ok .unit))) ∧
  (∀ (s : State) (c : Nat), s.Idle → (∀ a ∈ s.me :: s.others, a.id ≠ c) →
    exec (.hostSignal c) s = .next (s.finish (.ok .unit))) ∧
  ∀ (s : State) (c k : Nat) (a : Agent), s.Idle → s.me.id ≠ c →
    (s.others.zipIdx.find? fun e => decide (e.1.id = c)) = some (a, k) →
    let waits (d : Nat) : Prop := ∃ h n nb t, a.op = some (.tsRead d h n nb) ∧ s.tss[d]? = some t ∧
      (a.blocked = some .waitq ∧ c ∈ t.waiters ∨ a.blocked = some .readerLock ∧ t.readerLock ≠ none)
    ((∀ d, ¬ waits d) → exec (.hostSignal c) s = .next (s.finish (.ok .unit))) ∧
    ∀ d, waits d → exec (.hostSignal c) s =
      .next (({ s.modTs d fun t => { t with waiters := t.waiters.filter (· ≠ c) } with
        others := s.others.modify k fun x => { x with signal := true } } : State).finish (.ok .unit))

/-- Operations on a torn-down port or a removed timestamper are refused. After teardown every adapter operation on
the port, a new probe and a best_adapter_link_mode of one of its masks included, is refused with R_ADP_REMOVED;
on a removed timestamper every operation but the pulse of its capture hardware is refused with R_TS_REMOVED, a
new probe included, whatever the operands. That a probe is refused too, and that the hardware still sees pulses,
is log entry 26. (R414, R611; derived) -/
def Obligations.RemovedUnitsRefuse : Prop :=
  (∀ (s : State) (p : Nat) (q : Port) (m : LinkMode) (f : Bool) (r : Option Resource) (x : MaskArg) (a : U16),
    s.Idle → s.portAt p = some q → q.removed = true → ∀ i ∈ [Instr.adpDetect p, .adpSetup p m f,
      .checkLink p, .initAdapter p, .bestAdapterLinkMode (.port p) x, .bestAdapterLinkMode (.mask a) (.port p),
      .adpProbe p r], exec i s = .refused .adpRemoved) ∧
  ∀ (s : State) (d h : Nat) (t : Ts) (len w nsec : U32) (sec : U64) (nb l : Bool) (m : DMode) (r : Option Resource),
    s.Idle → s.tss[d]? = some t → t.removed = true →
    ∀ i ∈ [Instr.tsOpen d, .tsClose d h, .tsRead d h len nb, .changeSettings d w sec nsec, .eventCheck d,
      .enableMode d m, .disableMode d m, .tsIrq d, .workerRun d, .pollFire d, .tsProbe d r l],
      exec i s = .refused .tsRemoved
end

