-- ==== Sys2Proof/Laws/State.lean ====
section
/-!
SUPPORT. What each update of the state leaves in each field, one lemma per field and update.
-/

namespace Sys2Proof.Machine

open Sys2Proof

variable (s : State)

/-! ### `modRb` -/

@[simp] theorem State.modRb_board (i : Nat) (f : Rb → Rb) : (s.modRb i f).board = s.board := rfl
@[simp] theorem State.modRb_rbs (i : Nat) (f : Rb → Rb) : (s.modRb i f).rbs = s.rbs.modify i f := rfl
@[simp] theorem State.modRb_fars (i : Nat) (f : Rb → Rb) : (s.modRb i f).fars = s.fars := rfl
@[simp] theorem State.modRb_topo (i : Nat) (f : Rb → Rb) : (s.modRb i f).topo = s.topo := rfl
@[simp] theorem State.modRb_handles (i : Nat) (f : Rb → Rb) : (s.modRb i f).handles = s.handles := rfl
@[simp] theorem State.modRb_ncos (i : Nat) (f : Rb → Rb) : (s.modRb i f).ncos = s.ncos := rfl
@[simp] theorem State.modRb_ports (i : Nat) (f : Rb → Rb) : (s.modRb i f).ports = s.ports := rfl
@[simp] theorem State.modRb_tss (i : Nat) (f : Rb → Rb) : (s.modRb i f).tss = s.tss := rfl
@[simp] theorem State.modRb_hostTicks (i : Nat) (f : Rb → Rb) : (s.modRb i f).hostTicks = s.hostTicks := rfl
@[simp] theorem State.modRb_me (i : Nat) (f : Rb → Rb) : (s.modRb i f).me = s.me := rfl
@[simp] theorem State.modRb_others (i : Nat) (f : Rb → Rb) : (s.modRb i f).others = s.others := rfl
@[simp] theorem State.modRb_sched (i : Nat) (f : Rb → Rb) : (s.modRb i f).sched = s.sched := rfl
@[simp] theorem State.modRb_cut (i : Nat) (f : Rb → Rb) : (s.modRb i f).cut = s.cut := rfl
@[simp] theorem State.modRb_turns (i : Nat) (f : Rb → Rb) : (s.modRb i f).turns = s.turns := rfl
@[simp] theorem State.modRb_tape (i : Nat) (f : Rb → Rb) : (s.modRb i f).tape = s.tape := rfl
@[simp] theorem State.modRb_draws (i : Nat) (f : Rb → Rb) : (s.modRb i f).draws = s.draws := rfl
@[simp] theorem State.modRb_wire (i : Nat) (f : Rb → Rb) : (s.modRb i f).wire = s.wire := rfl

/-! ### `modFar` -/

@[simp] theorem State.modFar_board (i : Nat) (f : FarEnd → FarEnd) : (s.modFar i f).board = s.board := rfl
@[simp] theorem State.modFar_rbs (i : Nat) (f : FarEnd → FarEnd) : (s.modFar i f).rbs = s.rbs := rfl
@[simp] theorem State.modFar_fars (i : Nat) (f : FarEnd → FarEnd) : (s.modFar i f).fars = s.fars.modify i f := rfl
@[simp] theorem State.modFar_topo (i : Nat) (f : FarEnd → FarEnd) : (s.modFar i f).topo = s.topo := rfl
@[simp] theorem State.modFar_handles (i : Nat) (f : FarEnd → FarEnd) : (s.modFar i f).handles = s.handles := rfl
@[simp] theorem State.modFar_ncos (i : Nat) (f : FarEnd → FarEnd) : (s.modFar i f).ncos = s.ncos := rfl
@[simp] theorem State.modFar_ports (i : Nat) (f : FarEnd → FarEnd) : (s.modFar i f).ports = s.ports := rfl
@[simp] theorem State.modFar_tss (i : Nat) (f : FarEnd → FarEnd) : (s.modFar i f).tss = s.tss := rfl
@[simp] theorem State.modFar_hostTicks (i : Nat) (f : FarEnd → FarEnd) : (s.modFar i f).hostTicks = s.hostTicks := rfl
@[simp] theorem State.modFar_me (i : Nat) (f : FarEnd → FarEnd) : (s.modFar i f).me = s.me := rfl
@[simp] theorem State.modFar_others (i : Nat) (f : FarEnd → FarEnd) : (s.modFar i f).others = s.others := rfl
@[simp] theorem State.modFar_sched (i : Nat) (f : FarEnd → FarEnd) : (s.modFar i f).sched = s.sched := rfl
@[simp] theorem State.modFar_cut (i : Nat) (f : FarEnd → FarEnd) : (s.modFar i f).cut = s.cut := rfl
@[simp] theorem State.modFar_turns (i : Nat) (f : FarEnd → FarEnd) : (s.modFar i f).turns = s.turns := rfl
@[simp] theorem State.modFar_tape (i : Nat) (f : FarEnd → FarEnd) : (s.modFar i f).tape = s.tape := rfl
@[simp] theorem State.modFar_draws (i : Nat) (f : FarEnd → FarEnd) : (s.modFar i f).draws = s.draws := rfl
@[simp] theorem State.modFar_wire (i : Nat) (f : FarEnd → FarEnd) : (s.modFar i f).wire = s.wire := rfl

/-! ### `modNco` -/

@[simp] theorem State.modNco_board (d : Nat) (f : Nco → Nco) : (s.modNco d f).board = s.board := rfl
@[simp] theorem State.modNco_rbs (d : Nat) (f : Nco → Nco) : (s.modNco d f).rbs = s.rbs := rfl
@[simp] theorem State.modNco_fars (d : Nat) (f : Nco → Nco) : (s.modNco d f).fars = s.fars := rfl
@[simp] theorem State.modNco_topo (d : Nat) (f : Nco → Nco) : (s.modNco d f).topo = s.topo := rfl
@[simp] theorem State.modNco_handles (d : Nat) (f : Nco → Nco) : (s.modNco d f).handles = s.handles := rfl
@[simp] theorem State.modNco_ncos (d : Nat) (f : Nco → Nco) : (s.modNco d f).ncos = s.ncos.modify d f := rfl
@[simp] theorem State.modNco_ports (d : Nat) (f : Nco → Nco) : (s.modNco d f).ports = s.ports := rfl
@[simp] theorem State.modNco_tss (d : Nat) (f : Nco → Nco) : (s.modNco d f).tss = s.tss := rfl
@[simp] theorem State.modNco_hostTicks (d : Nat) (f : Nco → Nco) : (s.modNco d f).hostTicks = s.hostTicks := rfl
@[simp] theorem State.modNco_me (d : Nat) (f : Nco → Nco) : (s.modNco d f).me = s.me := rfl
@[simp] theorem State.modNco_others (d : Nat) (f : Nco → Nco) : (s.modNco d f).others = s.others := rfl
@[simp] theorem State.modNco_sched (d : Nat) (f : Nco → Nco) : (s.modNco d f).sched = s.sched := rfl
@[simp] theorem State.modNco_cut (d : Nat) (f : Nco → Nco) : (s.modNco d f).cut = s.cut := rfl
@[simp] theorem State.modNco_turns (d : Nat) (f : Nco → Nco) : (s.modNco d f).turns = s.turns := rfl
@[simp] theorem State.modNco_tape (d : Nat) (f : Nco → Nco) : (s.modNco d f).tape = s.tape := rfl
@[simp] theorem State.modNco_draws (d : Nat) (f : Nco → Nco) : (s.modNco d f).draws = s.draws := rfl
@[simp] theorem State.modNco_wire (d : Nat) (f : Nco → Nco) : (s.modNco d f).wire = s.wire := rfl

/-! ### `modNcoHw` -/

@[simp] theorem State.modNcoHw_board (d : Nat) (f : NcoHw → NcoHw) : (s.modNcoHw d f).board = s.board := rfl
@[simp] theorem State.modNcoHw_rbs (d : Nat) (f : NcoHw → NcoHw) : (s.modNcoHw d f).rbs = s.rbs := rfl
@[simp] theorem State.modNcoHw_fars (d : Nat) (f : NcoHw → NcoHw) : (s.modNcoHw d f).fars = s.fars := rfl
@[simp] theorem State.modNcoHw_topo (d : Nat) (f : NcoHw → NcoHw) : (s.modNcoHw d f).topo = s.topo := rfl
@[simp] theorem State.modNcoHw_handles (d : Nat) (f : NcoHw → NcoHw) : (s.modNcoHw d f).handles = s.handles := rfl
@[simp] theorem State.modNcoHw_ncos (d : Nat) (f : NcoHw → NcoHw) :
    (s.modNcoHw d f).ncos = s.ncos.modify d fun n => { n with hw := f n.hw } := rfl
@[simp] theorem State.modNcoHw_ports (d : Nat) (f : NcoHw → NcoHw) : (s.modNcoHw d f).ports = s.ports := rfl
@[simp] theorem State.modNcoHw_tss (d : Nat) (f : NcoHw → NcoHw) : (s.modNcoHw d f).tss = s.tss := rfl
@[simp] theorem State.modNcoHw_hostTicks (d : Nat) (f : NcoHw → NcoHw) :
    (s.modNcoHw d f).hostTicks = s.hostTicks := rfl
@[simp] theorem State.modNcoHw_me (d : Nat) (f : NcoHw → NcoHw) : (s.modNcoHw d f).me = s.me := rfl
@[simp] theorem State.modNcoHw_others (d : Nat) (f : NcoHw → NcoHw) : (s.modNcoHw d f).others = s.others := rfl
@[simp] theorem State.modNcoHw_sched (d : Nat) (f : NcoHw → NcoHw) : (s.modNcoHw d f).sched = s.sched := rfl
@[simp] theorem State.modNcoHw_cut (d : Nat) (f : NcoHw → NcoHw) : (s.modNcoHw d f).cut = s.cut := rfl
@[simp] theorem State.modNcoHw_turns (d : Nat) (f : NcoHw → NcoHw) : (s.modNcoHw d f).turns = s.turns := rfl
@[simp] theorem State.modNcoHw_tape (d : Nat) (f : NcoHw → NcoHw) : (s.modNcoHw d f).tape = s.tape := rfl
@[simp] theorem State.modNcoHw_draws (d : Nat) (f : NcoHw → NcoHw) : (s.modNcoHw d f).draws = s.draws := rfl
@[simp] theorem State.modNcoHw_wire (d : Nat) (f : NcoHw → NcoHw) : (s.modNcoHw d f).wire = s.wire := rfl

/-! ### `modPort` -/

@[simp] theorem State.modPort_board (p : Nat) (f : Port → Port) : (s.modPort p f).board = s.board := rfl
@[simp] theorem State.modPort_rbs (p : Nat) (f : Port → Port) : (s.modPort p f).rbs = s.rbs := rfl
@[simp] theorem State.modPort_fars (p : Nat) (f : Port → Port) : (s.modPort p f).fars = s.fars := rfl
@[simp] theorem State.modPort_topo (p : Nat) (f : Port → Port) : (s.modPort p f).topo = s.topo := rfl
@[simp] theorem State.modPort_handles (p : Nat) (f : Port → Port) : (s.modPort p f).handles = s.handles := rfl
@[simp] theorem State.modPort_ncos (p : Nat) (f : Port → Port) : (s.modPort p f).ncos = s.ncos := rfl
@[simp] theorem State.modPort_ports (p : Nat) (f : Port → Port) : (s.modPort p f).ports = s.ports.modify (s.portPlace p) f := rfl
@[simp] theorem State.modPort_tss (p : Nat) (f : Port → Port) : (s.modPort p f).tss = s.tss := rfl
@[simp] theorem State.modPort_hostTicks (p : Nat) (f : Port → Port) : (s.modPort p f).hostTicks = s.hostTicks := rfl
@[simp] theorem State.modPort_me (p : Nat) (f : Port → Port) : (s.modPort p f).me = s.me := rfl
@[simp] theorem State.modPort_others (p : Nat) (f : Port → Port) : (s.modPort p f).others = s.others := rfl
@[simp] theorem State.modPort_sched (p : Nat) (f : Port → Port) : (s.modPort p f).sched = s.sched := rfl
@[simp] theorem State.modPort_cut (p : Nat) (f : Port → Port) : (s.modPort p f).cut = s.cut := rfl
@[simp] theorem State.modPort_turns (p : Nat) (f : Port → Port) : (s.modPort p f).turns = s.turns := rfl
@[simp] theorem State.modPort_tape (p : Nat) (f : Port → Port) : (s.modPort p f).tape = s.tape := rfl
@[simp] theorem State.modPort_draws (p : Nat) (f : Port → Port) : (s.modPort p f).draws = s.draws := rfl
@[simp] theorem State.modPort_wire (p : Nat) (f : Port → Port) : (s.modPort p f).wire = s.wire := rfl

/-! ### `modTs` -/

@[simp] theorem State.modTs_board (d : Nat) (f : Ts → Ts) : (s.modTs d f).board = s.board := rfl
@[simp] theorem State.modTs_rbs (d : Nat) (f : Ts → Ts) : (s.modTs d f).rbs = s.rbs := rfl
@[simp] theorem State.modTs_fars (d : Nat) (f : Ts → Ts) : (s.modTs d f).fars = s.fars := rfl
@[simp] theorem State.modTs_topo (d : Nat) (f : Ts → Ts) : (s.modTs d f).topo = s.topo := rfl
@[simp] theorem State.modTs_handles (d : Nat) (f : Ts → Ts) : (s.modTs d f).handles = s.handles := rfl
@[simp] theorem State.modTs_ncos (d : Nat) (f : Ts → Ts) : (s.modTs d f).ncos = s.ncos := rfl
@[simp] theorem State.modTs_ports (d : Nat) (f : Ts → Ts) : (s.modTs d f).ports = s.ports := rfl
@[simp] theorem State.modTs_tss (d : Nat) (f : Ts → Ts) : (s.modTs d f).tss = s.tss.modify d f := rfl
@[simp] theorem State.modTs_hostTicks (d : Nat) (f : Ts → Ts) : (s.modTs d f).hostTicks = s.hostTicks := rfl
@[simp] theorem State.modTs_me (d : Nat) (f : Ts → Ts) : (s.modTs d f).me = s.me := rfl
@[simp] theorem State.modTs_others (d : Nat) (f : Ts → Ts) : (s.modTs d f).others = s.others := rfl
@[simp] theorem State.modTs_sched (d : Nat) (f : Ts → Ts) : (s.modTs d f).sched = s.sched := rfl
@[simp] theorem State.modTs_cut (d : Nat) (f : Ts → Ts) : (s.modTs d f).cut = s.cut := rfl
@[simp] theorem State.modTs_turns (d : Nat) (f : Ts → Ts) : (s.modTs d f).turns = s.turns := rfl
@[simp] theorem State.modTs_tape (d : Nat) (f : Ts → Ts) : (s.modTs d f).tape = s.tape := rfl
@[simp] theorem State.modTs_draws (d : Nat) (f : Ts → Ts) : (s.modTs d f).draws = s.draws := rfl
@[simp] theorem State.modTs_wire (d : Nat) (f : Ts → Ts) : (s.modTs d f).wire = s.wire := rfl

/-! ### `modTsHw` -/

@[simp] theorem State.modTsHw_board (d : Nat) (f : TsHw → TsHw) : (s.modTsHw d f).board = s.board := rfl
@[simp] theorem State.modTsHw_rbs (d : Nat) (f : TsHw → TsHw) : (s.modTsHw d f).rbs = s.rbs := rfl
@[simp] theorem State.modTsHw_fars (d : Nat) (f : TsHw → TsHw) : (s.modTsHw d f).fars = s.fars := rfl
@[simp] theorem State.modTsHw_topo (d : Nat) (f : TsHw → TsHw) : (s.modTsHw d f).topo = s.topo := rfl
@[simp] theorem State.modTsHw_handles (d : Nat) (f : TsHw → TsHw) : (s.modTsHw d f).handles = s.handles := rfl
@[simp] theorem State.modTsHw_ncos (d : Nat) (f : TsHw → TsHw) : (s.modTsHw d f).ncos = s.ncos := rfl
@[simp] theorem State.modTsHw_ports (d : Nat) (f : TsHw → TsHw) : (s.modTsHw d f).ports = s.ports := rfl
@[simp] theorem State.modTsHw_tss (d : Nat) (f : TsHw → TsHw) :
    (s.modTsHw d f).tss = s.tss.modify d fun t => { t with hw := f t.hw } := rfl
@[simp] theorem State.modTsHw_hostTicks (d : Nat) (f : TsHw → TsHw) : (s.modTsHw d f).hostTicks = s.hostTicks := rfl
@[simp] theorem State.modTsHw_me (d : Nat) (f : TsHw → TsHw) : (s.modTsHw d f).me = s.me := rfl
@[simp] theorem State.modTsHw_others (d : Nat) (f : TsHw → TsHw) : (s.modTsHw d f).others = s.others := rfl
@[simp] theorem State.modTsHw_sched (d : Nat) (f : TsHw → TsHw) : (s.modTsHw d f).sched = s.sched := rfl
@[simp] theorem State.modTsHw_cut (d : Nat) (f : TsHw → TsHw) : (s.modTsHw d f).cut = s.cut := rfl
@[simp] theorem State.modTsHw_turns (d : Nat) (f : TsHw → TsHw) : (s.modTsHw d f).turns = s.turns := rfl
@[simp] theorem State.modTsHw_tape (d : Nat) (f : TsHw → TsHw) : (s.modTsHw d f).tape = s.tape := rfl
@[simp] theorem State.modTsHw_draws (d : Nat) (f : TsHw → TsHw) : (s.modTsHw d f).draws = s.draws := rfl
@[simp] theorem State.modTsHw_wire (d : Nat) (f : TsHw → TsHw) : (s.modTsHw d f).wire = s.wire := rfl

/-! ### `setMe` -/

@[simp] theorem State.setMe_board (f : Agent → Agent) : (s.setMe f).board = s.board := rfl
@[simp] theorem State.setMe_rbs (f : Agent → Agent) : (s.setMe f).rbs = s.rbs := rfl
@[simp] theorem State.setMe_fars (f : Agent → Agent) : (s.setMe f).fars = s.fars := rfl
@[simp] theorem State.setMe_topo (f : Agent → Agent) : (s.setMe f).topo = s.topo := rfl
@[simp] theorem State.setMe_handles (f : Agent → Agent) : (s.setMe f).handles = s.handles := rfl
@[simp] theorem State.setMe_ncos (f : Agent → Agent) : (s.setMe f).ncos = s.ncos := rfl
@[simp] theorem State.setMe_ports (f : Agent → Agent) : (s.setMe f).ports = s.ports := rfl
@[simp] theorem State.setMe_tss (f : Agent → Agent) : (s.setMe f).tss = s.tss := rfl
@[simp] theorem State.setMe_hostTicks (f : Agent → Agent) : (s.setMe f).hostTicks = s.hostTicks := rfl
@[simp] theorem State.setMe_me (f : Agent → Agent) : (s.setMe f).me = f s.me := rfl
@[simp] theorem State.setMe_others (f : Agent → Agent) : (s.setMe f).others = s.others := rfl
@[simp] theorem State.setMe_sched (f : Agent → Agent) : (s.setMe f).sched = s.sched := rfl
@[simp] theorem State.setMe_cut (f : Agent → Agent) : (s.setMe f).cut = s.cut := rfl
@[simp] theorem State.setMe_turns (f : Agent → Agent) : (s.setMe f).turns = s.turns := rfl
@[simp] theorem State.setMe_tape (f : Agent → Agent) : (s.setMe f).tape = s.tape := rfl
@[simp] theorem State.setMe_draws (f : Agent → Agent) : (s.setMe f).draws = s.draws := rfl
@[simp] theorem State.setMe_wire (f : Agent → Agent) : (s.setMe f).wire = s.wire := rfl

/-! ### `log` -/

@[simp] theorem State.log_board (i : Nat) (w : Wire) (ok : Bool) : (s.log i w ok).board = s.board := rfl
@[simp] theorem State.log_rbs (i : Nat) (w : Wire) (ok : Bool) : (s.log i w ok).rbs = s.rbs := rfl
@[simp] theorem State.log_fars (i : Nat) (w : Wire) (ok : Bool) : (s.log i w ok).fars = s.fars := rfl
@[simp] theorem State.log_topo (i : Nat) (w : Wire) (ok : Bool) : (s.log i w ok).topo = s.topo := rfl
@[simp] theorem State.log_handles (i : Nat) (w : Wire) (ok : Bool) : (s.log i w ok).handles = s.handles := rfl
@[simp] theorem State.log_ncos (i : Nat) (w : Wire) (ok : Bool) : (s.log i w ok).ncos = s.ncos := rfl
@[simp] theorem State.log_ports (i : Nat) (w : Wire) (ok : Bool) : (s.log i w ok).ports = s.ports := rfl
@[simp] theorem State.log_tss (i : Nat) (w : Wire) (ok : Bool) : (s.log i w ok).tss = s.tss := rfl
@[simp] theorem State.log_hostTicks (i : Nat) (w : Wire) (ok : Bool) : (s.log i w ok).hostTicks = s.hostTicks := rfl
@[simp] theorem State.log_me (i : Nat) (w : Wire) (ok : Bool) : (s.log i w ok).me = s.me := rfl
@[simp] theorem State.log_others (i : Nat) (w : Wire) (ok : Bool) : (s.log i w ok).others = s.others := rfl
@[simp] theorem State.log_sched (i : Nat) (w : Wire) (ok : Bool) : (s.log i w ok).sched = s.sched := rfl
@[simp] theorem State.log_cut (i : Nat) (w : Wire) (ok : Bool) : (s.log i w ok).cut = s.cut := rfl
@[simp] theorem State.log_turns (i : Nat) (w : Wire) (ok : Bool) : (s.log i w ok).turns = s.turns := rfl
@[simp] theorem State.log_tape (i : Nat) (w : Wire) (ok : Bool) : (s.log i w ok).tape = s.tape := rfl
@[simp] theorem State.log_draws (i : Nat) (w : Wire) (ok : Bool) : (s.log i w ok).draws = s.draws := rfl
@[simp] theorem State.log_wire (i : Nat) (w : Wire) (ok : Bool) : (s.log i w ok).wire = ⟨i, w, ok⟩ :: s.wire := rfl

/-! ### `afterDraw` -/

@[simp] theorem State.afterDraw_board : (s.afterDraw).board = s.board := rfl
@[simp] theorem State.afterDraw_rbs : (s.afterDraw).rbs = s.rbs := rfl
@[simp] theorem State.afterDraw_fars : (s.afterDraw).fars = s.fars := rfl
@[simp] theorem State.afterDraw_topo : (s.afterDraw).topo = s.topo := rfl
@[simp] theorem State.afterDraw_handles : (s.afterDraw).handles = s.handles := rfl
@[simp] theorem State.afterDraw_ncos : (s.afterDraw).ncos = s.ncos := rfl
@[simp] theorem State.afterDraw_ports : (s.afterDraw).ports = s.ports := rfl
@[simp] theorem State.afterDraw_tss : (s.afterDraw).tss = s.tss := rfl
@[simp] theorem State.afterDraw_hostTicks : (s.afterDraw).hostTicks = s.hostTicks := rfl
@[simp] theorem State.afterDraw_me : (s.afterDraw).me = s.me := rfl
@[simp] theorem State.afterDraw_others : (s.afterDraw).others = s.others := rfl
@[simp] theorem State.afterDraw_sched : (s.afterDraw).sched = s.sched := rfl
@[simp] theorem State.afterDraw_cut : (s.afterDraw).cut = s.cut := rfl
@[simp] theorem State.afterDraw_turns : (s.afterDraw).turns = s.turns := rfl
@[simp] theorem State.afterDraw_tape : (s.afterDraw).tape = s.tape.tail := rfl
@[simp] theorem State.afterDraw_draws : (s.afterDraw).draws = s.draws + 1 := rfl
@[simp] theorem State.afterDraw_wire : (s.afterDraw).wire = s.wire := rfl

/-! ### `finish` -/

@[simp] theorem State.finish_board (r : Except Err Res) : (s.finish r).board = s.board := rfl
@[simp] theorem State.finish_rbs (r : Except Err Res) : (s.finish r).rbs = s.rbs := rfl
@[simp] theorem State.finish_fars (r : Except Err Res) : (s.finish r).fars = s.fars := rfl
@[simp] theorem State.finish_topo (r : Except Err Res) : (s.finish r).topo = s.topo := rfl
@[simp] theorem State.finish_handles (r : Except Err Res) : (s.finish r).handles = s.handles := rfl
@[simp] theorem State.finish_ncos (r : Except Err Res) : (s.finish r).ncos = s.ncos := rfl
@[simp] theorem State.finish_ports (r : Except Err Res) : (s.finish r).ports = s.ports := rfl
@[simp] theorem State.finish_tss (r : Except Err Res) : (s.finish r).tss = s.tss := rfl
@[simp] theorem State.finish_hostTicks (r : Except Err Res) : (s.finish r).hostTicks = s.hostTicks := rfl
@[simp] theorem State.finish_me (r : Except Err Res) :
    (s.finish r).me = { s.me with op := none, hist := [], blocked := none, result := some r } := rfl
@[simp] theorem State.finish_others (r : Except Err Res) : (s.finish r).others = s.others := rfl
@[simp] theorem State.finish_sched (r : Except Err Res) : (s.finish r).sched = s.sched := rfl
@[simp] theorem State.finish_cut (r : Except Err Res) : (s.finish r).cut = s.cut := rfl
@[simp] theorem State.finish_turns (r : Except Err Res) : (s.finish r).turns = s.turns := rfl
@[simp] theorem State.finish_tape (r : Except Err Res) : (s.finish r).tape = s.tape := rfl
@[simp] theorem State.finish_draws (r : Except Err Res) : (s.finish r).draws = s.draws := rfl
@[simp] theorem State.finish_wire (r : Except Err Res) : (s.finish r).wire = s.wire := rfl

/-! ### `suspend` -/

@[simp] theorem State.suspend_board (l : List Nat) : (s.suspend l).board = s.board := rfl
@[simp] theorem State.suspend_rbs (l : List Nat) : (s.suspend l).rbs = s.rbs := rfl
@[simp] theorem State.suspend_fars (l : List Nat) : (s.suspend l).fars = s.fars := rfl
@[simp] theorem State.suspend_topo (l : List Nat) : (s.suspend l).topo = s.topo := rfl
@[simp] theorem State.suspend_handles (l : List Nat) : (s.suspend l).handles = s.handles := rfl
@[simp] theorem State.suspend_ncos (l : List Nat) : (s.suspend l).ncos = s.ncos := rfl
@[simp] theorem State.suspend_ports (l : List Nat) : (s.suspend l).ports = s.ports := rfl
@[simp] theorem State.suspend_tss (l : List Nat) : (s.suspend l).tss = s.tss := rfl
@[simp] theorem State.suspend_hostTicks (l : List Nat) : (s.suspend l).hostTicks = s.hostTicks := rfl
@[simp] theorem State.suspend_me (l : List Nat) : (s.suspend l).me = { s.me with hist := l } := rfl
@[simp] theorem State.suspend_others (l : List Nat) : (s.suspend l).others = s.others := rfl
@[simp] theorem State.suspend_sched (l : List Nat) : (s.suspend l).sched = s.sched := rfl
@[simp] theorem State.suspend_cut (l : List Nat) : (s.suspend l).cut = s.cut := rfl
@[simp] theorem State.suspend_turns (l : List Nat) : (s.suspend l).turns = s.turns := rfl
@[simp] theorem State.suspend_tape (l : List Nat) : (s.suspend l).tape = s.tape := rfl
@[simp] theorem State.suspend_draws (l : List Nat) : (s.suspend l).draws = s.draws := rfl
@[simp] theorem State.suspend_wire (l : List Nat) : (s.suspend l).wire = s.wire := rfl

/-! ### `halt` -/

@[simp] theorem State.halt_board (x : Fault) : (s.halt x).board = s.board := rfl
@[simp] theorem State.halt_rbs (x : Fault) : (s.halt x).rbs = s.rbs := rfl
@[simp] theorem State.halt_fars (x : Fault) : (s.halt x).fars = s.fars := rfl
@[simp] theorem State.halt_topo (x : Fault) : (s.halt x).topo = s.topo := rfl
@[simp] theorem State.halt_handles (x : Fault) : (s.halt x).handles = s.handles := rfl
@[simp] theorem State.halt_ncos (x : Fault) : (s.halt x).ncos = s.ncos := rfl
@[simp] theorem State.halt_ports (x : Fault) : (s.halt x).ports = s.ports := rfl
@[simp] theorem State.halt_tss (x : Fault) : (s.halt x).tss = s.tss := rfl
@[simp] theorem State.halt_hostTicks (x : Fault) : (s.halt x).hostTicks = s.hostTicks := rfl
@[simp] theorem State.halt_me (x : Fault) : (s.halt x).me =
    { s.me with op := none, hist := [], blocked := none, stopped := some (s.me.stopped.getD x) } := rfl
@[simp] theorem State.halt_others (x : Fault) : (s.halt x).others = s.others := rfl
@[simp] theorem State.halt_sched (x : Fault) : (s.halt x).sched = s.sched := rfl
@[simp] theorem State.halt_cut (x : Fault) : (s.halt x).cut = s.cut := rfl
@[simp] theorem State.halt_turns (x : Fault) : (s.halt x).turns = s.turns := rfl
@[simp] theorem State.halt_tape (x : Fault) : (s.halt x).tape = s.tape := rfl
@[simp] theorem State.halt_draws (x : Fault) : (s.halt x).draws = s.draws := rfl
@[simp] theorem State.halt_wire (x : Fault) : (s.halt x).wire = s.wire := rfl

/-! ### `start` -/

@[simp] theorem State.start_board (i : Instr) : (s.start i).board = s.board := rfl
@[simp] theorem State.start_rbs (i : Instr) : (s.start i).rbs = s.rbs := rfl
@[simp] theorem State.start_fars (i : Instr) : (s.start i).fars = s.fars := rfl
@[simp] theorem State.start_topo (i : Instr) : (s.start i).topo = s.topo := rfl
@[simp] theorem State.start_handles (i : Instr) : (s.start i).handles = s.handles := rfl
@[simp] theorem State.start_ncos (i : Instr) : (s.start i).ncos = s.ncos := rfl
@[simp] theorem State.start_ports (i : Instr) : (s.start i).ports = s.ports := rfl
@[simp] theorem State.start_tss (i : Instr) : (s.start i).tss = s.tss := rfl
@[simp] theorem State.start_hostTicks (i : Instr) : (s.start i).hostTicks = s.hostTicks := rfl
@[simp] theorem State.start_me (i : Instr) :
    (s.start i).me = { s.me with op := some i, hist := [], blocked := none } := rfl
@[simp] theorem State.start_others (i : Instr) : (s.start i).others = s.others := rfl
@[simp] theorem State.start_sched (i : Instr) : (s.start i).sched = s.sched := rfl
@[simp] theorem State.start_cut (i : Instr) : (s.start i).cut = none := rfl
@[simp] theorem State.start_turns (i : Instr) : (s.start i).turns = s.turns := rfl
@[simp] theorem State.start_tape (i : Instr) : (s.start i).tape = s.tape := rfl
@[simp] theorem State.start_draws (i : Instr) : (s.start i).draws = s.draws := rfl
@[simp] theorem State.start_wire (i : Instr) : (s.start i).wire = s.wire := rfl

/-! ### `resume` -/

@[simp] theorem State.resume_board : (s.resume).board = s.board := rfl
@[simp] theorem State.resume_rbs : (s.resume).rbs = s.rbs := rfl
@[simp] theorem State.resume_fars : (s.resume).fars = s.fars := rfl
@[simp] theorem State.resume_topo : (s.resume).topo = s.topo := rfl
@[simp] theorem State.resume_handles : (s.resume).handles = s.handles := rfl
@[simp] theorem State.resume_ncos : (s.resume).ncos = s.ncos := rfl
@[simp] theorem State.resume_ports : (s.resume).ports = s.ports := rfl
@[simp] theorem State.resume_tss : (s.resume).tss = s.tss := rfl
@[simp] theorem State.resume_hostTicks : (s.resume).hostTicks = s.hostTicks := rfl
@[simp] theorem State.resume_me : (s.resume).me = { s.me with blocked := none } := rfl
@[simp] theorem State.resume_others : (s.resume).others = s.others := rfl
@[simp] theorem State.resume_sched : (s.resume).sched = s.sched := rfl
@[simp] theorem State.resume_cut : (s.resume).cut = none := rfl
@[simp] theorem State.resume_turns : (s.resume).turns = s.turns := rfl
@[simp] theorem State.resume_tape : (s.resume).tape = s.tape := rfl
@[simp] theorem State.resume_draws : (s.resume).draws = s.draws := rfl
@[simp] theorem State.resume_wire : (s.resume).wire = s.wire := rfl

/-! ### `hostTick` -/

@[simp] theorem State.hostTick_board : (s.hostTick).board = s.board := rfl
@[simp] theorem State.hostTick_rbs : (s.hostTick).rbs = s.rbs := rfl
@[simp] theorem State.hostTick_fars : (s.hostTick).fars = s.fars := rfl
@[simp] theorem State.hostTick_topo : (s.hostTick).topo = s.topo := rfl
@[simp] theorem State.hostTick_handles : (s.hostTick).handles = s.handles := rfl
@[simp] theorem State.hostTick_ncos : (s.hostTick).ncos = s.ncos := rfl
@[simp] theorem State.hostTick_ports : (s.hostTick).ports = s.ports := rfl
@[simp] theorem State.hostTick_tss : (s.hostTick).tss = s.tss := rfl
@[simp] theorem State.hostTick_hostTicks : (s.hostTick).hostTicks = s.hostTicks + 1 := rfl
@[simp] theorem State.hostTick_me : (s.hostTick).me = s.me := rfl
@[simp] theorem State.hostTick_others : (s.hostTick).others = s.others := rfl
@[simp] theorem State.hostTick_sched : (s.hostTick).sched = s.sched := rfl
@[simp] theorem State.hostTick_cut : (s.hostTick).cut = s.cut := rfl
@[simp] theorem State.hostTick_turns : (s.hostTick).turns = s.turns := rfl
@[simp] theorem State.hostTick_tape : (s.hostTick).tape = s.tape := rfl
@[simp] theorem State.hostTick_draws : (s.hostTick).draws = s.draws := rfl
@[simp] theorem State.hostTick_wire : (s.hostTick).wire = s.wire := rfl

/-! ### `ncoTick` -/

@[simp] theorem State.ncoTick_board (d : Nat) (c : Bool) : (s.ncoTick d c).board = s.board := rfl
@[simp] theorem State.ncoTick_rbs (d : Nat) (c : Bool) : (s.ncoTick d c).rbs = s.rbs := rfl
@[simp] theorem State.ncoTick_fars (d : Nat) (c : Bool) : (s.ncoTick d c).fars = s.fars := rfl
@[simp] theorem State.ncoTick_topo (d : Nat) (c : Bool) : (s.ncoTick d c).topo = s.topo := rfl
@[simp] theorem State.ncoTick_handles (d : Nat) (c : Bool) : (s.ncoTick d c).handles = s.handles := rfl
@[simp] theorem State.ncoTick_ncos (d : Nat) (c : Bool) :
    (s.ncoTick d c).ncos = s.ncos.modify d fun n => { n with hw := n.hw.tick s.board.adjReplacesStep c } := rfl
@[simp] theorem State.ncoTick_ports (d : Nat) (c : Bool) : (s.ncoTick d c).ports = s.ports := rfl
@[simp] theorem State.ncoTick_tss (d : Nat) (c : Bool) : (s.ncoTick d c).tss = s.tss := rfl
@[simp] theorem State.ncoTick_hostTicks (d : Nat) (c : Bool) : (s.ncoTick d c).hostTicks = s.hostTicks := rfl
@[simp] theorem State.ncoTick_me (d : Nat) (c : Bool) : (s.ncoTick d c).me = s.me := rfl
@[simp] theorem State.ncoTick_others (d : Nat) (c : Bool) : (s.ncoTick d c).others = s.others := rfl
@[simp] theorem State.ncoTick_sched (d : Nat) (c : Bool) : (s.ncoTick d c).sched = s.sched := rfl
@[simp] theorem State.ncoTick_cut (d : Nat) (c : Bool) : (s.ncoTick d c).cut = s.cut := rfl
@[simp] theorem State.ncoTick_turns (d : Nat) (c : Bool) : (s.ncoTick d c).turns = s.turns := rfl
@[simp] theorem State.ncoTick_tape (d : Nat) (c : Bool) : (s.ncoTick d c).tape = s.tape := rfl
@[simp] theorem State.ncoTick_draws (d : Nat) (c : Bool) : (s.ncoTick d c).draws = s.draws := rfl
@[simp] theorem State.ncoTick_wire (d : Nat) (c : Bool) : (s.ncoTick d c).wire = s.wire := rfl

/-! ### `takeSignal` -/

@[simp] theorem State.takeSignal_board : (s.takeSignal).board = s.board := rfl
@[simp] theorem State.takeSignal_rbs : (s.takeSignal).rbs = s.rbs := rfl
@[simp] theorem State.takeSignal_fars : (s.takeSignal).fars = s.fars := rfl
@[simp] theorem State.takeSignal_topo : (s.takeSignal).topo = s.topo := rfl
@[simp] theorem State.takeSignal_handles : (s.takeSignal).handles = s.handles := rfl
@[simp] theorem State.takeSignal_ncos : (s.takeSignal).ncos = s.ncos := rfl
@[simp] theorem State.takeSignal_ports : (s.takeSignal).ports = s.ports := rfl
@[simp] theorem State.takeSignal_tss : (s.takeSignal).tss = s.tss := rfl
@[simp] theorem State.takeSignal_hostTicks : (s.takeSignal).hostTicks = s.hostTicks := rfl
@[simp] theorem State.takeSignal_me : (s.takeSignal).me = { s.me with signal := false } := rfl
@[simp] theorem State.takeSignal_others : (s.takeSignal).others = s.others := rfl
@[simp] theorem State.takeSignal_sched : (s.takeSignal).sched = s.sched := rfl
@[simp] theorem State.takeSignal_cut : (s.takeSignal).cut = s.cut := rfl
@[simp] theorem State.takeSignal_turns : (s.takeSignal).turns = s.turns := rfl
@[simp] theorem State.takeSignal_tape : (s.takeSignal).tape = s.tape := rfl
@[simp] theorem State.takeSignal_draws : (s.takeSignal).draws = s.draws := rfl
@[simp] theorem State.takeSignal_wire : (s.takeSignal).wire = s.wire := rfl

/-! ### `toBuffer` -/

@[simp] theorem State.toBuffer_board (x : Nat) (l : List Byte) : (s.toBuffer x l).board = s.board := rfl
@[simp] theorem State.toBuffer_rbs (x : Nat) (l : List Byte) : (s.toBuffer x l).rbs = s.rbs := rfl
@[simp] theorem State.toBuffer_fars (x : Nat) (l : List Byte) : (s.toBuffer x l).fars = s.fars := rfl
@[simp] theorem State.toBuffer_topo (x : Nat) (l : List Byte) : (s.toBuffer x l).topo = s.topo := rfl
@[simp] theorem State.toBuffer_handles (x : Nat) (l : List Byte) : (s.toBuffer x l).handles = s.handles := rfl
@[simp] theorem State.toBuffer_ncos (x : Nat) (l : List Byte) : (s.toBuffer x l).ncos = s.ncos := rfl
@[simp] theorem State.toBuffer_ports (x : Nat) (l : List Byte) : (s.toBuffer x l).ports = s.ports := rfl
@[simp] theorem State.toBuffer_tss (x : Nat) (l : List Byte) : (s.toBuffer x l).tss = s.tss := rfl
@[simp] theorem State.toBuffer_hostTicks (x : Nat) (l : List Byte) : (s.toBuffer x l).hostTicks = s.hostTicks := rfl
@[simp] theorem State.toBuffer_me (x : Nat) (l : List Byte) :
    (s.toBuffer x l).me = { s.me with buffer := Memory.writeBytes s.me.buffer x l } := rfl
@[simp] theorem State.toBuffer_others (x : Nat) (l : List Byte) : (s.toBuffer x l).others = s.others := rfl
@[simp] theorem State.toBuffer_sched (x : Nat) (l : List Byte) : (s.toBuffer x l).sched = s.sched := rfl
@[simp] theorem State.toBuffer_cut (x : Nat) (l : List Byte) : (s.toBuffer x l).cut = s.cut := rfl
@[simp] theorem State.toBuffer_turns (x : Nat) (l : List Byte) : (s.toBuffer x l).turns = s.turns := rfl
@[simp] theorem State.toBuffer_tape (x : Nat) (l : List Byte) : (s.toBuffer x l).tape = s.tape := rfl
@[simp] theorem State.toBuffer_draws (x : Nat) (l : List Byte) : (s.toBuffer x l).draws = s.draws := rfl
@[simp] theorem State.toBuffer_wire (x : Nat) (l : List Byte) : (s.toBuffer x l).wire = s.wire := rfl

/-! ### `setProg` -/

@[simp] theorem State.setProg_board (l : List Byte) : (s.setProg l).board = s.board := rfl
@[simp] theorem State.setProg_rbs (l : List Byte) : (s.setProg l).rbs = s.rbs := rfl
@[simp] theorem State.setProg_fars (l : List Byte) : (s.setProg l).fars = s.fars := rfl
@[simp] theorem State.setProg_topo (l : List Byte) : (s.setProg l).topo = s.topo := rfl
@[simp] theorem State.setProg_handles (l : List Byte) : (s.setProg l).handles = s.handles := rfl
@[simp] theorem State.setProg_ncos (l : List Byte) : (s.setProg l).ncos = s.ncos := rfl
@[simp] theorem State.setProg_ports (l : List Byte) : (s.setProg l).ports = s.ports := rfl
@[simp] theorem State.setProg_tss (l : List Byte) : (s.setProg l).tss = s.tss := rfl
@[simp] theorem State.setProg_hostTicks (l : List Byte) : (s.setProg l).hostTicks = s.hostTicks := rfl
@[simp] theorem State.setProg_me (l : List Byte) : (s.setProg l).me = { s.me with prog := l } := rfl
@[simp] theorem State.setProg_others (l : List Byte) : (s.setProg l).others = s.others := rfl
@[simp] theorem State.setProg_sched (l : List Byte) : (s.setProg l).sched = s.sched := rfl
@[simp] theorem State.setProg_cut (l : List Byte) : (s.setProg l).cut = s.cut := rfl
@[simp] theorem State.setProg_turns (l : List Byte) : (s.setProg l).turns = s.turns := rfl
@[simp] theorem State.setProg_tape (l : List Byte) : (s.setProg l).tape = s.tape := rfl
@[simp] theorem State.setProg_draws (l : List Byte) : (s.setProg l).draws = s.draws := rfl
@[simp] theorem State.setProg_wire (l : List Byte) : (s.setProg l).wire = s.wire := rfl

/-! ### `load` -/

@[simp] theorem State.load_board (l : List Byte) : (s.load l).board = s.board := rfl
@[simp] theorem State.load_rbs (l : List Byte) : (s.load l).rbs = s.rbs := rfl
@[simp] theorem State.load_fars (l : List Byte) : (s.load l).fars = s.fars := rfl
@[simp] theorem State.load_topo (l : List Byte) : (s.load l).topo = s.topo := rfl
@[simp] theorem State.load_handles (l : List Byte) : (s.load l).handles = s.handles := rfl
@[simp] theorem State.load_ncos (l : List Byte) : (s.load l).ncos = s.ncos := rfl
@[simp] theorem State.load_ports (l : List Byte) : (s.load l).ports = s.ports := rfl
@[simp] theorem State.load_tss (l : List Byte) : (s.load l).tss = s.tss := rfl
@[simp] theorem State.load_hostTicks (l : List Byte) : (s.load l).hostTicks = s.hostTicks := rfl
@[simp] theorem State.load_me (l : List Byte) :
    (s.load l).me = { s.me with prog := l, op := none, hist := [], blocked := none, stopped := none } := rfl
@[simp] theorem State.load_others (l : List Byte) : (s.load l).others = s.others := rfl
@[simp] theorem State.load_sched (l : List Byte) : (s.load l).sched = [] := rfl
@[simp] theorem State.load_cut (l : List Byte) : (s.load l).cut = none := rfl
@[simp] theorem State.load_turns (l : List Byte) : (s.load l).turns = s.turns := rfl
@[simp] theorem State.load_tape (l : List Byte) : (s.load l).tape = s.tape := rfl
@[simp] theorem State.load_draws (l : List Byte) : (s.load l).draws = s.draws := rfl
@[simp] theorem State.load_wire (l : List Byte) : (s.load l).wire = s.wire := rfl

/-! ### `still` -/

@[simp] theorem State.still_board (i : Nat) : (s.still i).board = s.board := rfl
@[simp] theorem State.still_rbs (i : Nat) : (s.still i).rbs = s.rbs.modify i Rb.still := rfl
@[simp] theorem State.still_fars (i : Nat) : (s.still i).fars = s.fars := rfl
@[simp] theorem State.still_topo (i : Nat) : (s.still i).topo = s.topo := rfl
@[simp] theorem State.still_handles (i : Nat) : (s.still i).handles = s.handles := rfl
@[simp] theorem State.still_ncos (i : Nat) : (s.still i).ncos = s.ncos := rfl
@[simp] theorem State.still_ports (i : Nat) : (s.still i).ports = s.ports := rfl
@[simp] theorem State.still_tss (i : Nat) : (s.still i).tss = s.tss.map Ts.still := rfl
@[simp] theorem State.still_hostTicks (i : Nat) : (s.still i).hostTicks = s.hostTicks := rfl
@[simp] theorem State.still_me (i : Nat) : (s.still i).me = s.me := rfl
@[simp] theorem State.still_others (i : Nat) : (s.still i).others = s.others := rfl
@[simp] theorem State.still_sched (i : Nat) : (s.still i).sched = s.sched := rfl
@[simp] theorem State.still_cut (i : Nat) : (s.still i).cut = s.cut := rfl
@[simp] theorem State.still_turns (i : Nat) : (s.still i).turns = [] := rfl
@[simp] theorem State.still_tape (i : Nat) : (s.still i).tape = [] := rfl
@[simp] theorem State.still_draws (i : Nat) : (s.still i).draws = 0 := rfl
@[simp] theorem State.still_wire (i : Nat) : (s.still i).wire = [] := rfl

end Sys2Proof.Machine
end

