-- ==== Sys2Proof/Laws/Memory.lean ====
section
/-!
SUPPORT. The laws of memories: every operation keeps the canonical form, a read after a write gives the value
written, and a write leaves every other byte alone.
-/

namespace Sys2Proof.Machine

open Sys2Proof

/-! ### One byte -/

theorem Memory.read_write_same (m : Memory) (x : Nat) (v : Byte) : Memory.read (Memory.write m x v) x = some v := by
  induction m with
  | nil => simp [Memory.write, Memory.read]
  | cons e r ih =>
    obtain ⟨a, b⟩ := e
    simp only [Memory.write]
    split
    · simp [Memory.read]
    · split
      · simp [Memory.read]
      · rename_i h1 h2
        simp [Memory.read, h2, ih]

theorem Memory.read_write_other (m : Memory) (x y : Nat) (v : Byte) (h : y ≠ x) :
    Memory.read (Memory.write m x v) y = Memory.read m y := by
  induction m with
  | nil => simp [Memory.write, Memory.read, h]
  | cons e r ih =>
    obtain ⟨a, b⟩ := e
    simp only [Memory.write]
    split
    · simp [Memory.read, h]
    · split
      · rename_i h1 h2
        subst h2
        simp [Memory.read, h]
      · simp [Memory.read, ih]

/-- Every address of the list is above a bound. -/
def Memory.above (k : Nat) : Memory → Prop
  | [] => True
  | (a, _) :: _ => k < a

theorem Memory.wf_cons (a : Nat) (b : Byte) (r : Memory) :
    Memory.wf ((a, b) :: r) = true ↔ Memory.above a r ∧ Memory.wf r = true := by
  cases r with
  | nil => simp [Memory.wf, Memory.above]
  | cons e r => obtain ⟨c, d⟩ := e; simp [Memory.wf, Memory.above]

theorem Memory.above_write (k : Nat) (m : Memory) (x : Nat) (v : Byte) (h : Memory.above k m) (hx : k < x) :
    Memory.above k (Memory.write m x v) := by
  cases m with
  | nil => simpa [Memory.write, Memory.above] using hx
  | cons e r =>
    obtain ⟨a, b⟩ := e
    simp only [Memory.write]
    split
    · simpa [Memory.above] using hx
    · split
      · simpa [Memory.above] using hx
      · simpa [Memory.above] using h

theorem Memory.write_wf (m : Memory) (x : Nat) (v : Byte) (h : Memory.wf m = true) :
    Memory.wf (Memory.write m x v) = true := by
  induction m with
  | nil => simp [Memory.write, Memory.wf]
  | cons e r ih =>
    obtain ⟨a, b⟩ := e
    have h' := (Memory.wf_cons a b r).mp h
    simp only [Memory.write]
    split
    · rename_i h1
      exact (Memory.wf_cons x v _).mpr ⟨by simpa [Memory.above] using h1, h⟩
    · split
      · rename_i h1 h2
        subst h2
        exact (Memory.wf_cons x v r).mpr h'
      · rename_i h1 h2
        exact (Memory.wf_cons a b _).mpr ⟨Memory.above_write a r x v h'.1 (by omega), ih h'.2⟩

/-! ### Several bytes -/

theorem Memory.writeBytes_wf (l : List Byte) : ∀ (m : Memory) (x : Nat), Memory.wf m = true →
    Memory.wf (Memory.writeBytes m x l) = true := by
  induction l with
  | nil => intro m x h; exact h
  | cons b r ih => intro m x h; exact ih _ _ (Memory.write_wf m x b h)

theorem Memory.read_writeBytes_other (l : List Byte) : ∀ (m : Memory) (x y : Nat), y < x ∨ x + l.length ≤ y →
    Memory.read (Memory.writeBytes m x l) y = Memory.read m y := by
  induction l with
  | nil => intro m x y _; rfl
  | cons b r ih =>
    intro m x y h
    simp only [List.length_cons] at h
    rw [Memory.writeBytes, ih _ _ _ (by omega), Memory.read_write_other _ _ _ _ (by omega)]

theorem Memory.read_writeBytes_at (l : List Byte) : ∀ (m : Memory) (x k : Nat) (h : k < l.length),
    Memory.read (Memory.writeBytes m x l) (x + k) = some l[k] := by
  induction l with
  | nil => intro m x k h; simp at h
  | cons b r ih =>
    intro m x k h
    cases k with
    | zero =>
      rw [Memory.writeBytes, Memory.read_writeBytes_other _ _ _ _ (by omega)]
      simpa using Memory.read_write_same m x b
    | succ k =>
      have := ih (Memory.write m x b) (x + 1) k (by simpa using h)
      rw [Memory.writeBytes, show x + (k + 1) = x + 1 + k by omega, this]
      simp

theorem Memory.readBytes_writeBytes (l : List Byte) : ∀ (m : Memory) (x : Nat),
    Memory.readBytes (Memory.writeBytes m x l) x l.length = some l := by
  suffices h : ∀ (n : Nat) (m : Memory) (x k : Nat), k + n = l.length →
      Memory.readBytes (Memory.writeBytes m x l) (x + k) n = some (l.drop k) by
    intro m x
    simpa using h l.length m x 0 (by omega)
  intro n
  induction n with
  | zero => intro m x k h; simp [Memory.readBytes, List.drop_of_length_le (by omega : l.length ≤ k)]
  | succ n ih =>
    intro m x k h
    have h1 := Memory.read_writeBytes_at l m x k (by omega)
    have h2 := ih m x (k + 1) (by omega)
    rw [show x + (k + 1) = x + k + 1 by omega] at h2
    rw [Memory.readBytes, h1, h2, List.drop_eq_getElem_cons (by omega : k < l.length)]

/-- Reading bytes that two memories share gives the same. -/
theorem Memory.readBytes_congr (m m' : Memory) : ∀ (n x : Nat),
    (∀ y, x ≤ y → y < x + n → Memory.read m' y = Memory.read m y) →
    Memory.readBytes m' x n = Memory.readBytes m x n := by
  intro n
  induction n with
  | zero => intro x _; rfl
  | succ n ih =>
    intro x h
    simp only [Memory.readBytes]
    rw [h x (by omega) (by omega), ih (x + 1) (fun y h1 h2 => h y (by omega) (by omega))]

/-! ### The far end that keeps what is written -/

theorem FarEnd.store_keeps (e : FarEnd) (o : Endian) (a : U32) (v : U16) : (e.store o a v).keeps = e.keeps := rfl

theorem FarEnd.store_cells (e : FarEnd) (o : Endian) (a : U32) (v : U16) : (e.store o a v).cells =
    if e.keeps then Memory.writeBytes e.cells a.toNat (bytesIn o 2 v.toNat) else e.cells := rfl

theorem FarEnd.store_wf (e : FarEnd) (o : Endian) (a : U32) (v : U16) (h : Memory.wf e.cells = true) :
    Memory.wf (e.store o a v).cells = true := by
  rw [FarEnd.store_cells]
  split
  · exact Memory.writeBytes_wf _ _ _ h
  · exact h

theorem bytesIn_length (e : Endian) (n v : Nat) : (bytesIn e n v).length = n := by
  cases e <;> simp [bytesIn]

/-- A reset keeps the canonical form, whatever its effect. -/
theorem FarEnd.reset_wf (e : FarEnd) (o : Endian) (x : ResetEffect) (h : Memory.wf e.cells = true) :
    Memory.wf (e.reset o x).cells = true := by
  cases x with
  | keep => exact h
  | forget => rfl
  | load cells =>
    simp only [FarEnd.reset]
    induction cells generalizing e with
    | nil => exact h
    | cons c r ih => exact ih _ (FarEnd.store_wf e o _ _ h)

theorem FarEnd.reset_keeps (e : FarEnd) (o : Endian) (x : ResetEffect) : (e.reset o x).keeps = e.keeps := by
  cases x with
  | keep => rfl
  | forget => rfl
  | load cells =>
    simp only [FarEnd.reset]
    induction cells generalizing e with
    | nil => rfl
    | cons c r ih => exact ih _

/-- A byte outside the two bytes a store writes reads as before. -/
theorem FarEnd.read_store_other (e : FarEnd) (o : Endian) (a : U32) (v : U16) (y : Nat)
    (h : y < a.toNat ∨ a.toNat + 2 ≤ y) : Memory.read (e.store o a v).cells y = Memory.read e.cells y := by
  rw [FarEnd.store_cells]
  split
  · exact Memory.read_writeBytes_other _ _ _ _ (by rw [bytesIn_length]; exact h)
  · rfl

theorem range_two : List.range 2 = [0, 1] := rfl

/-- The value of the bytes of a 16-bit word in a byte order is the word. -/
theorem valueOfBytes_bytesIn2 (e : Endian) (v : Nat) (h : v < 2 ^ 16) : valueOfBytes e (bytesIn e 2 v) = v := by
  cases e <;> simp only [valueOfBytes, bytesIn, range_two, List.map, List.reverse_cons, List.reverse_nil,
    List.nil_append, List.cons_append, List.foldr, BitVec.toNat_ofNat, Nat.shiftRight_eq_div_pow] <;> omega

/-- A far end that keeps what is written shows the word stored there. -/
theorem FarEnd.stored_store (e : FarEnd) (o : Endian) (a : U32) (v : U16) (hk : e.keeps = true) :
    (e.store o a v).stored o a = some v := by
  have h1 := Memory.readBytes_writeBytes (bytesIn o 2 v.toNat) e.cells a.toNat
  rw [bytesIn_length] at h1
  simp [FarEnd.stored, FarEnd.store, hk, h1, valueOfBytes_bytesIn2 _ _ v.isLt]

/-- A stored word is not touched by a store elsewhere. -/
theorem FarEnd.stored_store_other (e : FarEnd) (o : Endian) (a b : U32) (v : U16)
    (h : b.toNat + 2 ≤ a.toNat ∨ a.toNat + 2 ≤ b.toNat) : (e.store o a v).stored o b = e.stored o b := by
  have : Memory.readBytes (e.store o a v).cells b.toNat 2 = Memory.readBytes e.cells b.toNat 2 :=
    Memory.readBytes_congr _ _ _ _ fun y h1 h2 => FarEnd.read_store_other e o a v y (by omega)
  unfold FarEnd.stored
  rw [this]
  rfl

end Sys2Proof.Machine
end

