-- ==== Sys2Proof/Laws/Run.lean ====
section
/-!
SUPPORT. How operations run: what a run yields, composed along an operation (`Op.Yields`), where it stops with a fault
or a refusal (`Op.Faults`, `Op.Refuses`), and what every step of an operation keeps (`Op.Keeps`). A later proof cites
these and never unfolds `Op.run`.
-/

namespace Sys2Proof.Machine

open Sys2Proof

/-! ### Composition -/

@[simp] theorem Op.bind_ret {α β : Type} (a : α) (g : α → Op β) : (Op.ret a).bind g = g a := rfl

theorem Op.bind_assoc {α β γ : Type} (x : Op α) (g : α → Op β) (k : β → Op γ) :
    (x.bind g).bind k = x.bind fun a => (g a).bind k := by
  induction x with
  | ret a => rfl
  | act f c ih => simp only [Op.bind]; congr; funext n; exact ih n
  | txn f c ih => simp only [Op.bind]; congr; funext n; exact ih n
  | again n => rfl

theorem Op.bind_ret_right {α : Type} (x : Op α) : x.bind Op.ret = x := by
  induction x with
  | ret a => rfl
  | act f c ih => simp only [Op.bind]; congr; funext n; exact ih n
  | txn f c ih => simp only [Op.bind]; congr; funext n; exact ih n
  | again n => rfl

/-! ### Beginning and ending -/

theorem State.left_none {s : State} (h : s.cut = none) : s.left = none := by simp [State.left, h]

theorem State.perform_fresh (s : State) (i : Instr) (o : Op (Except Err Res)) (h : s.Idle) :
    s.perform i o = o.run none [] [] (s.start i) := by
  simp [State.perform, h.1, State.left_none h.2]

theorem State.perform_resume (s : State) (i : Instr) (o : Op (Except Err Res)) (h : s.me.op = some i)
    (hc : s.cut = none) : s.perform i o = o.run none s.me.hist s.me.hist s.resume := by
  simp [State.perform, h, State.left_none hc]

/-- The next `n` turns let everything go on, or there are none. -/
def State.Clear (s : State) (n : Nat) : Prop := ∀ x ∈ s.turns.take n, x = Turn.go

theorem State.clear_of_nil (s : State) (h : s.turns = []) (n : Nat) : s.Clear n := by
  simp [State.Clear, h]

theorem State.Clear.le {s : State} {n m : Nat} (h : s.Clear n) (hm : m ≤ n) : s.Clear m := fun x hx =>
  h x (List.take_subset_take_left s.turns hm hx)

/-- The state with `n` turns fewer. -/
def State.dropTurns (s : State) (n : Nat) : State := { s with turns := s.turns.drop n }

@[simp] theorem State.dropTurns_dropTurns (s : State) (n m : Nat) :
    (s.dropTurns n).dropTurns m = s.dropTurns (n + m) := by
  simp [State.dropTurns, List.drop_drop]

@[simp] theorem State.dropTurns_zero (s : State) : s.dropTurns 0 = s := rfl

theorem State.Clear.drop {s : State} {n m : Nat} (h : s.Clear (n + m)) : (s.dropTurns n).Clear m := by
  intro x hx
  apply h x
  have : s.turns.take (n + m) = s.turns.take n ++ (s.turns.drop n).take m := by rw [List.take_add]
  rw [this]
  exact List.mem_append_right _ hx

theorem takeTurns_clear (s : State) (h : s.Clear 1) : takeTurns s.turns s = .go .ok (s.dropTurns 1) := by
  cases ht : s.turns with
  | nil => simp [takeTurns, State.dropTurns, ht]
  | cons x r =>
    have hx : x = .go := h x (by simp [ht])
    subst hx
    simp [takeTurns, State.dropTurns, ht]

/-! ### What a run yields -/

/-- From state `s` the operation answers `a` and leaves `t`, whatever comes after it. -/
def Op.Yields {α : Type} (o : Op α) (s : State) (a : α) (t : State) : Prop :=
  ∀ (k : α → Op (Except Err Res)) (seen : List Nat), ∃ seen', (o.bind k).run none [] seen s = (k a).run none [] seen' t

/-- From state `s` a fault stops the agent in the operation, the machine being in state `t`. -/
def Op.Faults {α : Type} (o : Op α) (s : State) (f : Fault) (t : State) : Prop :=
  ∀ (k : α → Op (Except Err Res)) (seen : List Nat), (o.bind k).run none [] seen s = .next (t.halt f)

/-- From state `s` the operation ends the machine with a refusal. -/
def Op.Refuses {α : Type} (o : Op α) (s : State) (r : Refusal) : Prop :=
  ∀ (k : α → Op (Except Err Res)) (seen : List Nat), (o.bind k).run none [] seen s = .refused r

theorem State.perform_yields {s : State} {i : Instr} {o : Op (Except Err Res)} {r : Except Err Res} {t : State}
    (h : s.Idle) (ho : o.Yields (s.start i) r t) : s.perform i o = .next (t.finish r) := by
  obtain ⟨seen, hs⟩ := ho Op.ret []
  rw [State.perform_fresh s i o h, ← Op.bind_ret_right o, hs]
  rfl

theorem State.perform_faults {s t : State} {i : Instr} {o : Op (Except Err Res)} {f : Fault}
    (h : s.Idle) (ho : o.Faults (s.start i) f t) : s.perform i o = .next (t.halt f) := by
  rw [State.perform_fresh s i o h, ← Op.bind_ret_right o, ho Op.ret []]

theorem State.perform_refuses {s : State} {i : Instr} {o : Op (Except Err Res)} {r : Refusal}
    (h : s.Idle) (ho : o.Refuses (s.start i) r) : s.perform i o = .refused r := by
  rw [State.perform_fresh s i o h, ← Op.bind_ret_right o, ho Op.ret []]

/-- The operation just begun does not show in what a stopped agent keeps. -/
theorem State.start_halt {s : State} {i : Instr} {f : Fault} (h : s.Idle) : (s.start i).halt f = s.halt f := by
  simp [State.start, State.halt, State.setMe, ← h.2]

section

variable {α β : Type} {s t u : State}

theorem Op.Yields.ret (a : α) : (Op.ret a).Yields s a s := fun _k seen => ⟨seen, rfl⟩

theorem Op.Yields.bind {o : Op α} {g : α → Op β} {a : α} {b : β} (h : o.Yields s a t) (hg : (g a).Yields t b u) :
    (o.bind g).Yields s b u := by
  intro k seen
  obtain ⟨s1, h1⟩ := h (fun a => (g a).bind k) seen
  obtain ⟨s2, h2⟩ := hg k s1
  exact ⟨s2, by rw [Op.bind_assoc, h1, h2]⟩

theorem Op.Yields.act {f : State → Ans} {k : Nat → Op α} {n : Nat} {a : α} (hf : f s = .go n t)
    (hk : (k n).Yields t a u) : (Op.act f k).Yields s a u := by
  intro c seen
  obtain ⟨s1, h1⟩ := hk c (seen ++ [n])
  exact ⟨s1, by rw [← h1]; simp [Op.bind, Op.run, spend, hf]⟩

theorem Op.Yields.txn {f : Verdict → State → Ans} {k : Nat → Op α} {n : Nat} {a : α} (hc : s.Clear 1)
    (hf : f .ok (s.dropTurns 1) = .go n t) (hk : (k n).Yields t a u) : (Op.txn f k).Yields s a u := by
  intro c seen
  obtain ⟨s1, h1⟩ := hk c (seen ++ [n])
  exact ⟨s1, by rw [← h1]; simp [Op.bind, Op.run, spend, takeTurns_clear s hc, hf]⟩

theorem Op.Yields.step {f : State → Ans} {n : Nat} (hf : f s = .go n t) : (Op.step f).Yields s n t :=
  .act hf (.ret n)

theorem Op.Yields.xfer {f : Verdict → State → Ans} {n : Nat} (hc : s.Clear 1)
    (hf : f .ok (s.dropTurns 1) = .go n t) : (Op.xfer f).Yields s n t := .txn hc hf (.ret n)

theorem Op.Yields.get (f : State → Nat) : (Op.get f).Yields s (f s) s := .act rfl (.ret _)

theorem Op.Yields.test (f : State → Bool) : (Op.test f).Yields s (f s) s := by
  refine .act (n := (f s).toNat) rfl ?_
  have : ((f s).toNat != 0) = f s := by cases f s <;> rfl
  rw [this]
  exact .ret _

theorem Op.Yields.set (f : State → State) : (Op.set f).Yields s () (f s) := .act rfl (.ret ())

theorem Op.Yields.tryXfer {f : Verdict → State → Ans} {n : Nat} (hc : s.Clear 1)
    (hf : f .ok (s.dropTurns 1) = .go (n + 1) t) : (Op.tryXfer f).Yields s (.ok n) t := .txn hc hf (.ret _)

theorem Op.Yields.ok (a : α) : (Op.ok a : Op (Except Err α)).Yields s (.ok a) s := .ret _

theorem Op.Yields.raise (e : Err) : (Op.raise e : Op (Except Err α)).Yields s (.error e) s := .ret _

/-- A value goes on past `?`. -/
theorem Op.Yields.q {x : Op (Except Err α)} {g : α → Op (Except Err β)} {a : α} {r : Except Err β}
    (h : x.Yields s (.ok a) t) (hg : (g a).Yields t r u) : (x.q g).Yields s r u :=
  Op.Yields.bind h hg

/-- An error ends the operation at `?`. -/
theorem Op.Yields.qError {x : Op (Except Err α)} {g : α → Op (Except Err β)} {e : Err}
    (h : x.Yields s (.error e) t) : (x.q g).Yields s (.error e) t :=
  Op.Yields.bind h (.ret _)

/-! ### Faults and refusals -/

theorem Op.Faults.fault (f : Fault) : (Op.fault f : Op α).Faults s f s := fun _ _ => rfl

theorem Op.Faults.act {f : State → Ans} {k : Nat → Op α} {x : Fault} (hf : f s = .fault x t) :
    (Op.act f k).Faults s x t := by
  intro c seen; simp [Op.bind, Op.run, spend, hf]

theorem Op.Faults.step {f : State → Ans} {x : Fault} (hf : f s = .fault x t) : (Op.step f).Faults s x t := .act hf

theorem Op.Faults.txn {f : Verdict → State → Ans} {k : Nat → Op α} {x : Fault} (hc : s.Clear 1)
    (hf : f .ok (s.dropTurns 1) = .fault x t) : (Op.txn f k).Faults s x t := by
  intro c seen; simp [Op.bind, Op.run, spend, takeTurns_clear s hc, hf]

theorem Op.Faults.bind {o : Op α} {g : α → Op β} {x : Fault} (h : o.Faults s x t) : (o.bind g).Faults s x t := by
  intro k seen; rw [Op.bind_assoc]; exact h _ seen

theorem Op.Faults.after {o : Op α} {g : α → Op β} {a : α} {x : Fault} (h : o.Yields s a t)
    (hg : (g a).Faults t x u) : (o.bind g).Faults s x u := by
  intro k seen
  obtain ⟨s1, h1⟩ := h (fun a => (g a).bind k) seen
  rw [Op.bind_assoc, h1]
  exact hg k s1

theorem Op.Refuses.act {f : State → Ans} {k : Nat → Op α} {x : Refusal} (hf : f s = .refuse x) :
    (Op.act f k).Refuses s x := by
  intro c seen; simp [Op.bind, Op.run, spend, hf]

theorem Op.Refuses.step {f : State → Ans} {x : Refusal} (hf : f s = .refuse x) : (Op.step f).Refuses s x := .act hf

theorem Op.Refuses.bind {o : Op α} {g : α → Op β} {x : Refusal} (h : o.Refuses s x) :
    (o.bind g).Refuses s x := by
  intro k seen; rw [Op.bind_assoc]; exact h _ seen

end

theorem Op.Refuses.after {α β : Type} {s t : State} {o : Op α} {g : α → Op β} {a : α} {x : Refusal}
    (h : o.Yields s a t) (hg : (g a).Refuses t x) : (o.bind g).Refuses s x := by
  intro k seen
  obtain ⟨s1, h1⟩ := h (fun a => (g a).bind k) seen
  rw [Op.bind_assoc, h1]
  exact hg k s1

/-! ### What every step keeps -/

/-- An answer leaves a state with property `P`, and with `Q` where a fault stops the agent. -/
def Ans.Keeps (P Q : State → Prop) : Ans → Prop
  | .go _ t => P t
  | .block t => P t
  | .fault f t => Q (t.halt f)
  | .refuse _ => True

/-- Every atomic step and transaction of the operation keeps property `P`, and leaves `Q` where a fault stops the
agent. -/
def Op.Keeps {α : Type} (P Q : State → Prop) : Op α → Prop
  | .ret _ => True
  | .again _ => True
  | .act f k => (∀ s, P s → (f s).Keeps P Q) ∧ ∀ n, (k n).Keeps P Q
  | .txn f k => (∀ v s, P s → (f v s).Keeps P Q) ∧ ∀ n, (k n).Keeps P Q

theorem Op.Keeps.bind {α β : Type} {P Q : State → Prop} {o : Op α} {g : α → Op β} (h : o.Keeps P Q)
    (hg : ∀ a, (g a).Keeps P Q) : (o.bind g).Keeps P Q := by
  induction o with
  | ret a => exact hg a
  | act f k ih => exact ⟨h.1, fun n => ih n (h.2 n)⟩
  | txn f k ih => exact ⟨h.1, fun n => ih n (h.2 n)⟩
  | again n => trivial

theorem Op.Keeps.q {α β : Type} {P Q : State → Prop} {x : Op (Except Err α)} {g : α → Op (Except Err β)}
    (h : x.Keeps P Q) (hg : ∀ a, (g a).Keeps P Q) : (x.q g).Keeps P Q :=
  h.bind fun r => by cases r with
    | error e => trivial
    | ok a => exact hg a

/-- A property `P` that the turns' steps, the agent's own control state, the remaining turns and the bound on the steps do
not touch, and that gives `Q`. -/
structure Steady (P Q : State → Prop) : Prop where
  turns : ∀ s l, P s → P { s with turns := l }
  env : ∀ s e, P s → P (s.env e)
  control : ∀ s (c : Option Nat) (op : Option Instr) (h : List Nat) (b : Option WaitKind)
    (r : Option (Except Err Res)), P s →
    P { s with cut := c, me := { s.me with op := op, hist := h, blocked := b, result := r } }
  weaken : ∀ s, P s → Q s

theorem takeTurns_keeps {P Q : State → Prop} (hP : Steady P Q) : ∀ (l : List Turn) (s : State), P s →
    match takeTurns l s with
    | .go _ t => P t
    | .stop t => P t := by
  intro l
  induction l with
  | nil => intro s h; exact hP.turns s _ h
  | cons x r ih =>
    intro s h
    cases x with
    | go => exact hP.turns s _ h
    | fail b => exact hP.turns s _ h
    | preempt => exact hP.turns s _ h
    | env e => exact ih _ (hP.env s e h)

theorem Steady.suspend {P Q : State → Prop} (hP : Steady P Q) {s : State} (h : P s) (l : List Nat) :
    Q (s.suspend l) :=
  hP.weaken _ (hP.control s s.cut s.me.op l s.me.blocked s.me.result h)

/-- What every step of an operation keeps, running it keeps. -/
theorem Op.run_keeps {P Q : State → Prop} (hP : Steady P Q) {o : Op (Except Err Res)} (h : o.Keeps P Q) :
    ∀ (c : Option Nat) (replay seen : List Nat) (s t : State), P s → o.run c replay seen s = .next t → Q t := by
  induction o with
  | ret r =>
    intro c replay seen s t hs hr
    simp only [Op.run, Host.Outcome.next.injEq] at hr
    subst hr
    exact hP.weaken _ (hP.control s s.cut none [] none (some r) hs)
  | again n =>
    intro c replay seen s t hs hr
    simp only [Op.run, Host.Outcome.next.injEq] at hr
    subst hr
    exact hP.suspend hs _
  | act f k ih =>
    intro c replay seen s t hs hr
    cases replay with
    | cons n l => exact ih n (h.2 n) c l seen s t hs hr
    | nil =>
      have hk := h.1 s hs
      simp only [Op.run] at hr
      split at hr
      · simp only [Host.Outcome.next.injEq] at hr
        subst hr
        exact hP.suspend hs _
      · split at hr
        · rename_i n u hf; rw [hf] at hk; exact ih n (h.2 n) _ _ _ _ _ hk hr
        · rename_i u hf
          rw [hf] at hk
          simp only [Host.Outcome.next.injEq] at hr
          subst hr
          exact hP.suspend hk _
        · rename_i x u hf
          rw [hf] at hk
          simp only [Host.Outcome.next.injEq] at hr
          subst hr
          exact hk
        · cases hr
  | txn f k ih =>
    intro c replay seen s t hs hr
    cases replay with
    | cons n l => exact ih n (h.2 n) c l seen s t hs hr
    | nil =>
      have ht := takeTurns_keeps hP s.turns s hs
      simp only [Op.run] at hr
      split at hr
      · simp only [Host.Outcome.next.injEq] at hr
        subst hr
        exact hP.suspend hs _
      · split at hr
        · rename_i u hu
          rw [hu] at ht
          simp only [Host.Outcome.next.injEq] at hr
          subst hr
          exact hP.suspend ht _
        · rename_i v u hu
          rw [hu] at ht
          have hk := h.1 v u ht
          split at hr
          · rename_i n w hf; rw [hf] at hk; exact ih n (h.2 n) _ _ _ _ _ hk hr
          · rename_i w hf
            rw [hf] at hk
            simp only [Host.Outcome.next.injEq] at hr
            subst hr
            exact hP.suspend hk _
          · rename_i x w hf
            rw [hf] at hk
            simp only [Host.Outcome.next.injEq] at hr
            subst hr
            exact hk
          · cases hr

theorem State.perform_keeps {P Q : State → Prop} (hP : Steady P Q) {i : Instr} {o : Op (Except Err Res)}
    (h : o.Keeps P Q) {s t : State} (hs : P s) (hr : s.perform i o = .next t) : Q t := by
  unfold State.perform at hr
  split at hr
  · exact Op.run_keeps hP h _ _ _ _ _ (hP.control s none s.me.op s.me.hist none s.me.result hs) hr
  · exact Op.run_keeps hP h _ _ _ _ _ (hP.control s none (some i) [] none s.me.result hs) hr

end Sys2Proof.Machine
end

