-- ==== Sys2Proof/Laws/Blocks.lean ====
section
/-!
SUPPORT. Operations that block, as a calculus beside `Op.Yields` and `Op.Faults`, and steps and updates on a unit
that exists.
-/

namespace Sys2Proof.Machine

open Sys2Proof

/-- A step on a unit that exists is the step on it. -/
theorem State.onTs_some {s : State} {d : Nat} {t : Ts} (h : s.tss[d]? = some t) (f : Ts → Ans) : s.onTs d f = f t := by
  simp [State.onTs, h]

/-- A step on a unit that exists is the step on it. -/
theorem State.onNco_some {s : State} {d : Nat} {t : Nco} (h : s.ncos[d]? = some t) (f : Nco → Ans) : s.onNco d f = f t := by
  simp [State.onNco, h]

/-- A step on a unit that exists is the step on it. -/
theorem State.onPort_some {s : State} {d : Nat} {t : Port} (h : s.portAt d = some t) (f : Port → Ans) : s.onPort d f = f t := by
  simp [State.onPort, h]

/-- A step on a unit that exists is the step on it. -/
theorem State.onRb_some {s : State} {d : Nat} {t : Rb} (h : s.rbs[d]? = some t) (f : Rb → Ans) : s.onRb d f = f t := by
  simp [State.onRb, h]

/-! ### Operations that block -/

/-- The operation blocks from `s`, after the answers `l`, and leaves `t`. -/
def Op.Blocks {α : Type} (o : Op α) (s : State) (l : List Nat) (t : State) : Prop :=
  ∀ (k : α → Op (Except Err Res)) (seen : List Nat), (o.bind k).run none [] seen s = .next (t.suspend (seen ++ l))

theorem State.perform_blocks {s : State} {i : Instr} {o : Op (Except Err Res)} {l : List Nat} {t : State}
    (h : s.Idle) (ho : Op.Blocks o (s.start i) l t) : s.perform i o = .next (t.suspend l) := by
  rw [State.perform_fresh s i o h, ← Op.bind_ret_right o, ho Op.ret []]; rfl

theorem Op.Blocks.act {α : Type} {f : State → Ans} {k : Nat → Op α} {s t : State} (hf : f s = .block t) :
    Op.Blocks (Op.act f k) s [] t := by
  intro c seen; simp [Op.bind, Op.run, spend, hf]

theorem Op.Blocks.bind {α β : Type} {o : Op α} {g : α → Op β} {s t : State} {l} (h : Op.Blocks o s l t) :
    Op.Blocks (o.bind g) s l t := by
  intro k seen; rw [Op.bind_assoc]; exact h _ seen

theorem Op.Blocks.after {α : Type} {f : State → Ans} {k : Nat → Op α} {n : Nat} {s t u : State} {l} (hf : f s = .go n t)
    (hk : Op.Blocks (k n) t l u) : Op.Blocks (Op.act f k) s (n :: l) u := by
  intro c seen
  have := hk c (seen ++ [n])
  simp [Op.bind, Op.run, spend, hf, this]

/-- The operation blocks from `s`, whatever answers it has had, and leaves `t`. -/
def Op.Parks {α : Type} (o : Op α) (s t : State) : Prop :=
  ∀ (k : α → Op (Except Err Res)) (seen : List Nat), ∃ l, (o.bind k).run none [] seen s = .next (t.suspend l)

theorem Op.Blocks.parks {α : Type} {o : Op α} {s t : State} {l : List Nat} (h : Op.Blocks o s l t) : o.Parks s t :=
  fun k seen => ⟨_, h k seen⟩

theorem Op.Parks.bind {α β : Type} {o : Op α} {g : α → Op β} {s t : State} (h : o.Parks s t) : (o.bind g).Parks s t := by
  intro k seen; rw [Op.bind_assoc]; exact h _ seen

theorem Op.Parks.after {α β : Type} {o : Op α} {g : α → Op β} {s t u : State} {a : α} (h : o.Yields s a t)
    (hg : (g a).Parks t u) : (o.bind g).Parks s u := by
  intro k seen
  obtain ⟨s1, h1⟩ := h (fun a => (g a).bind k) seen
  rw [Op.bind_assoc, h1]
  exact hg k s1

theorem State.perform_parks {s : State} {i : Instr} {o : Op (Except Err Res)} {t : State} (h : s.Idle)
    (ho : o.Parks (s.start i) t) : ∃ l, s.perform i o = .next (t.suspend l) := by
  obtain ⟨l, hl⟩ := ho Op.ret []
  exact ⟨l, by rw [State.perform_fresh s i o h, ← Op.bind_ret_right o, hl]⟩

theorem State.perform_next {s : State} {i : Instr} {o : Op (Except Err Res)} {r : Except Err Res} {t u : State}
    (h : s.Idle) (ho : o.Yields (s.start i) r t) (hu : t.finish r = u) : s.perform i o = .next u := by
  rw [← hu]; exact State.perform_yields h ho

theorem modify_agree {α : Type} (l : List α) (i : Nat) (f g : α → α) (x : α) (h : l[i]? = some x) (e : f x = g x) :
    l.modify i f = l.modify i g := by
  apply List.ext_getElem?; intro k
  simp only [List.getElem?_modify]
  split
  · rename_i hk; subst hk; simp [h, e]
  · rfl

/-- Two updates that agree on the unit are one update. -/
theorem State.modTs_congr {s : State} {i : Nat} {f g : Ts → Ts} {x : Ts} (h : s.tss[i]? = some x) (e : f x = g x) :
    s.modTs i f = s.modTs i g := by simp only [State.modTs, modify_agree _ _ _ _ _ h e]

/-- Two updates that agree on the unit are one update. -/
theorem State.modNco_congr {s : State} {i : Nat} {f g : Nco → Nco} {x : Nco} (h : s.ncos[i]? = some x) (e : f x = g x) :
    s.modNco i f = s.modNco i g := by simp only [State.modNco, modify_agree _ _ _ _ _ h e]

/-- Two updates that agree on the unit are one update. -/
theorem State.modPort_congr {s : State} {i : Nat} {f g : Port → Port} {x : Port} (h : s.portAt i = some x) (e : f x = g x) :
    s.modPort i f = s.modPort i g := by simp only [State.modPort, modify_agree _ _ _ _ _ h e]

/-- Two updates that agree on the unit are one update. -/
theorem State.modRb_congr {s : State} {i : Nat} {f g : Rb → Rb} {x : Rb} (h : s.rbs[i]? = some x) (e : f x = g x) :
    s.modRb i f = s.modRb i g := by simp only [State.modRb, modify_agree _ _ _ _ _ h e]

end Sys2Proof.Machine
end

