-- ==== Sys2Proof/Laws/Far.lean ====
section
/-!
SUPPORT. The far ends: which register an address reaches depends only on the wiring (`SameMap`), a read answers the
register's word and takes at most some draws, and bus bookkeeping (`State.moved`) changes neither.
-/

namespace Sys2Proof.Machine

open Sys2Proof

/-! ### The wiring -/

/-- Two states wire the devices' registers the same way. -/
structure SameMap (s t : State) : Prop where
  board : t.board = s.board
  handles : t.handles = s.handles
  ncos : t.ncos.map (·.res) = s.ncos.map (·.res)
  tss : t.tss.map (·.res) = s.tss.map (·.res)
  ports : t.ports.map (fun q => (q.port, q.res, q.variant)) = s.ports.map fun q => (q.port, q.res, q.variant)

theorem SameMap.refl (s : State) : SameMap s s := ⟨rfl, rfl, rfl, rfl, rfl⟩

theorem SameMap.trans {s t u : State} (h : SameMap s t) (h' : SameMap t u) : SameMap s u :=
  ⟨h'.board.trans h.board, h'.handles.trans h.handles, h'.ncos.trans h.ncos, h'.tss.trans h.tss,
    h'.ports.trans h.ports⟩

theorem findSome_zipIdx_map {α β γ : Type} (l : List α) (f : α → β) (g : β × Nat → Option γ) :
    (l.zipIdx.reverse.findSome? fun e => g (f e.1, e.2)) = (l.map f).zipIdx.reverse.findSome? g := by
  rw [List.zipIdx_map, ← List.map_reverse, List.findSome?_map]
  rfl

theorem instOf_congr {s t : State} (h : SameMap s t) (b : BusRef) : t.instOf b = s.instOf b := by
  cases b <;> simp [State.instOf, h.handles]

theorem baseOn_congr {s t : State} (h : SameMap s t) (i : Nat) (r : Option Resource) :
    t.baseOn i r = s.baseOn i r := by
  cases r <;> simp [State.baseOn, instOf_congr h]

theorem ncoTarget_congr {s t : State} (h : SameMap s t) (regs : List NcoReg) (i : Nat) (a : U32) :
    t.ncoTarget regs i a = s.ncoTarget regs i a := by
  unfold State.ncoTarget
  have e : ∀ u : State, SameMap s u → (u.ncos.zipIdx.reverse.findSome? fun e =>
      match u.baseOn i e.1.res with
      | none => none
      | some base =>
        match findReg regs u.board.ncoMap.off base a with
        | some (r, h) => some (Target.nco e.2 r h)
        | none => none) = (u.ncos.map (·.res)).zipIdx.reverse.findSome? fun e =>
      match s.baseOn i e.1 with
      | none => none
      | some base =>
        match findReg regs s.board.ncoMap.off base a with
        | some (r, h) => some (Target.nco e.2 r h)
        | none => none := by
    intro u hu
    rw [← findSome_zipIdx_map]
    simp only [baseOn_congr hu, hu.board]
  refine (e t h).trans ?_
  rw [h.ncos]
  exact (e s (SameMap.refl s)).symm

theorem tsTarget_congr {s t : State} (h : SameMap s t) (regs : List TsReg) (i : Nat) (a : U32) :
    t.tsTarget regs i a = s.tsTarget regs i a := by
  unfold State.tsTarget
  have e : ∀ u : State, SameMap s u → (u.tss.zipIdx.reverse.findSome? fun e =>
      match u.baseOn i e.1.res with
      | none => none
      | some base =>
        match findReg regs u.board.tsMap.off base a with
        | some (r, h) => some (Target.ts e.2 r h)
        | none => none) = (u.tss.map (·.res)).zipIdx.reverse.findSome? fun e =>
      match s.baseOn i e.1 with
      | none => none
      | some base =>
        match findReg regs s.board.tsMap.off base a with
        | some (r, h) => some (Target.ts e.2 r h)
        | none => none := by
    intro u hu
    rw [← findSome_zipIdx_map]
    simp only [baseOn_congr hu, hu.board]
  refine (e t h).trans ?_
  rw [h.tss]
  exact (e s (SameMap.refl s)).symm

theorem adpTarget_congr {s t : State} (h : SameMap s t) (i : Nat) (a : U32) : t.adpTarget i a = s.adpTarget i a := by
  unfold State.adpTarget
  have e : ∀ u : State, SameMap s u → (u.ports.reverse.findSome? fun q =>
      match u.baseOn i q.res with
      | none => none
      | some base =>
        AdpReg.readable.findSome? fun r =>
          match u.board.adpMap.off r q.variant with
          | some off => if a = evenAddr (base + off) then some (Target.adp q.port r) else none
          | none => none) = (u.ports.map (fun q => (q.port, q.res, q.variant))).reverse.findSome? fun e =>
      match s.baseOn i e.2.1 with
      | none => none
      | some base =>
        AdpReg.readable.findSome? fun r =>
          match s.board.adpMap.off r e.2.2 with
          | some off => if a = evenAddr (base + off) then some (Target.adp e.1 r) else none
          | none => none := by
    intro u hu
    rw [← List.map_reverse, List.findSome?_map]
    simp only [baseOn_congr hu, hu.board]
    rfl
  refine (e t h).trans ?_
  rw [h.ports]
  exact (e s (SameMap.refl s)).symm

theorem readTarget_congr {s t : State} (h : SameMap s t) (i : Nat) (a : U32) :
    t.readTarget i a = s.readTarget i a := by
  simp only [State.readTarget, ncoTarget_congr h, tsTarget_congr h, adpTarget_congr h]

theorem writeTarget_congr {s t : State} (h : SameMap s t) (i : Nat) (a : U32) :
    t.writeTarget i a = s.writeTarget i a := by
  simp only [State.writeTarget, ncoTarget_congr h, tsTarget_congr h]

/-! ### Updates keep the wiring -/

theorem map_modify_same {α β : Type} (l : List α) (d : Nat) (f : α → α) (g : α → β) (h : ∀ x, g (f x) = g x) :
    (l.modify d f).map g = l.map g := by
  apply List.ext_getElem? ; intro n
  simp only [List.getElem?_map, List.getElem?_modify]
  split
  · cases l[n]? <;> simp [h]
  · simp

theorem SameMap.modNco (s : State) (d : Nat) (f : Nco → Nco) (h : ∀ n, (f n).res = n.res) :
    SameMap s (s.modNco d f) := ⟨rfl, rfl, map_modify_same _ _ _ _ h, rfl, rfl⟩

theorem SameMap.modNcoHw (s : State) (d : Nat) (f : NcoHw → NcoHw) : SameMap s (s.modNcoHw d f) :=
  SameMap.modNco s d _ fun _ => rfl

theorem SameMap.modTs (s : State) (d : Nat) (f : Ts → Ts) (h : ∀ t, (f t).res = t.res) :
    SameMap s (s.modTs d f) := ⟨rfl, rfl, rfl, map_modify_same _ _ _ _ h, rfl⟩

theorem SameMap.modTsHw (s : State) (d : Nat) (f : TsHw → TsHw) : SameMap s (s.modTsHw d f) :=
  SameMap.modTs s d _ fun _ => rfl

theorem SameMap.modPort (s : State) (p : Nat) (f : Port → Port)
    (h : ∀ q, (f q).port = q.port ∧ (f q).res = q.res ∧ (f q).variant = q.variant) : SameMap s (s.modPort p f) :=
  ⟨rfl, rfl, rfl, rfl, map_modify_same _ _ _ _ fun q => by simp [h q]⟩

theorem SameMap.modRb (s : State) (i : Nat) (f : Rb → Rb) : SameMap s (s.modRb i f) := ⟨rfl, rfl, rfl, rfl, rfl⟩

theorem SameMap.modFar (s : State) (i : Nat) (f : FarEnd → FarEnd) : SameMap s (s.modFar i f) :=
  ⟨rfl, rfl, rfl, rfl, rfl⟩

theorem SameMap.setMe (s : State) (f : Agent → Agent) : SameMap s (s.setMe f) := ⟨rfl, rfl, rfl, rfl, rfl⟩

theorem SameMap.storeWord (s : State) (t : Target) (p : Part) : SameMap s (s.storeWord t p) := by
  cases t with
  | nco d r h => exact SameMap.modNcoHw s d fun h => h.store s.board r p
  | ts d r h => exact SameMap.modTsHw s d fun h => h.store s.board r p
  | adp q r => exact SameMap.refl s

theorem SameMap.farWrite16 (s : State) (i : Nat) (a : U32) (v : U16) : SameMap s (s.farWrite16 i a v) := by
  unfold State.farWrite16
  split
  · exact SameMap.storeWord s _ _
  · exact SameMap.modFar s i _

/-! ### Draws -/

theorem afterDraws_eq (n : Nat) : ∀ s : State,
    s.afterDraws n = { s with tape := s.tape.drop n, draws := s.draws + n } := by
  induction n with
  | zero => intro s; rfl
  | succ n ih =>
    intro s
    rw [State.afterDraws, ih]
    simp only [State.afterDraw]
    congr 1
    · cases s.tape <;> simp
    · omega

theorem readWord_snd (s : State) (t : Target) : ∃ n, (s.readWord t).2 = s.afterDraws n := by
  unfold State.readWord
  split <;> split <;> (try split) <;> first | exact ⟨0, rfl⟩ | exact ⟨1, rfl⟩

theorem farRead16_snd (s : State) (i : Nat) (a : U32) : ∃ n, (s.farRead16 i a).2 = s.afterDraws n := by
  unfold State.farRead16
  split
  · exact readWord_snd s _
  · split
    · exact ⟨0, rfl⟩
    · exact ⟨1, rfl⟩

theorem afterDraws_add (s : State) (n m : Nat) : (s.afterDraws n).afterDraws m = s.afterDraws (n + m) := by
  simp only [afterDraws_eq, List.drop_drop, Nat.add_assoc]

/-- A 32-bit read of the two registers that lie at an address and behind it. -/
def State.farPair (s : State) (i : Nat) (a : U32) : U32 × State :=
  (joinHalves ((s.farRead16 i a).2.farRead16 i (highAddr a)).1 (s.farRead16 i a).1,
    ((s.farRead16 i a).2.farRead16 i (highAddr a)).2)

/-- What a 32-bit read can be: a whole device register, or two 16-bit registers. -/
theorem farRead32_cases (s : State) (i : Nat) (a : U32) :
    (∃ t, s.readTarget i a = some t ∧ s.farRead32 i a = s.readWord t) ∨ s.farRead32 i a = s.farPair i a := by
  unfold State.farRead32
  split
  · rename_i h; exact .inl ⟨_, h, rfl⟩
  · rename_i h; exact .inl ⟨_, h, rfl⟩
  · exact .inr rfl

theorem farPair_snd (s : State) (i : Nat) (a : U32) : ∃ n, (s.farPair i a).2 = s.afterDraws n := by
  obtain ⟨n, h⟩ := farRead16_snd s i a
  obtain ⟨m, h'⟩ := farRead16_snd (s.farRead16 i a).2 i (highAddr a)
  exact ⟨n + m, by rw [State.farPair, h', h, afterDraws_add]⟩

theorem farRead32_snd (s : State) (i : Nat) (a : U32) : ∃ n, (s.farRead32 i a).2 = s.afterDraws n := by
  obtain ⟨t, -, h⟩ | h := farRead32_cases s i a
  · rw [h]; exact readWord_snd s t
  · rw [h]; exact farPair_snd s i a

/-- State `t` has had some draws more than `s`. -/
def State.Later (s t : State) : Prop := ∃ n, t.tape = s.tape.drop n ∧ t.draws = s.draws + n

theorem State.Later.refl (s : State) : s.Later s := ⟨0, rfl, rfl⟩

theorem State.Later.of_eq {s t : State} (h : t.tape = s.tape) (h' : t.draws = s.draws) : s.Later t := ⟨0, h, h'⟩

theorem State.Later.trans {s t u : State} (h : s.Later t) (h' : t.Later u) : s.Later u := by
  obtain ⟨n, h1, h2⟩ := h
  obtain ⟨m, h3, h4⟩ := h'
  exact ⟨n + m, by rw [h3, h1, List.drop_drop], by rw [h4, h2, Nat.add_assoc]⟩

theorem State.later_afterDraws (s : State) (n : Nat) : s.Later (s.afterDraws n) :=
  ⟨n, by simp [afterDraws_eq], by simp [afterDraws_eq]⟩

/-- The draws of a later state are draws of the earlier one. -/
theorem State.Later.drawn {s t : State} (h : s.Later t) :
    ∃ n, ∀ k, (t.afterDraws k).drawn = (s.afterDraws (n + k)).drawn := by
  obtain ⟨n, h1, h2⟩ := h
  exact ⟨n, fun k => by simp only [State.drawn, afterDraws_eq, h1, h2, List.drop_drop, Nat.add_assoc]⟩

/-! ### Bookkeeping of a bus -/

/-- The state after transactions on instance `i`: `k` turns are taken, the AA1 cache holds `c`, the mark of an
unfinished access is `b`, and the wire record is `w`. -/
def State.moved (s : State) (i k : Nat) (c : Option U16) (b : Option Nat) (w : List Xfer) : State :=
  { s.modRb i fun rb => { rb with aa1Cache := c, busy := b } with turns := s.turns.drop k, wire := w }

theorem SameMap.moved (s : State) (i k : Nat) (c : Option U16) (b : Option Nat) (w : List Xfer) : SameMap s (s.moved i k c b w) :=
  ⟨rfl, rfl, rfl, rfl, rfl⟩

theorem modify_modify {α : Type} (l : List α) (i : Nat) (f g : α → α) :
    (l.modify i f).modify i g = l.modify i fun x => g (f x) := by
  apply List.ext_getElem?; intro n
  simp only [List.getElem?_modify]
  split <;> cases l[n]? <;> simp

theorem modify_comm {α : Type} (l : List α) (i j : Nat) (f g : α → α) (h : ∀ x, g (f x) = f (g x)) :
    (l.modify i f).modify j g = (l.modify j g).modify i f := by
  apply List.ext_getElem?; intro n
  simp only [List.getElem?_modify]
  split <;> split <;> cases l[n]? <;> simp [h]

theorem modify_self {α : Type} (l : List α) (i : Nat) (f : α → α) (h : ∀ x, l[i]? = some x → f x = x) :
    l.modify i f = l := by
  apply List.ext_getElem?; intro n
  simp only [List.getElem?_modify]
  split
  · rename_i hn
    subst hn
    cases hx : l[i]? with
    | none => simp
    | some x => simp [h x hx]
  · simp

theorem State.moved_moved (s : State) (i k k' : Nat) (c c' : Option U16) (b b' : Option Nat) (w w' : List Xfer) :
    (s.moved i k c b w).moved i k' c' b' w' = s.moved i (k + k') c' b' w' := by
  simp [State.moved, State.modRb, modify_modify, List.drop_drop]

theorem State.moved_still (s : State) (i k : Nat) (c : Option U16) (b : Option Nat) (w : List Xfer) :
    (s.moved i k c b w).still i = s.still i := by
  simp only [State.moved, State.still, State.modRb, modify_modify]
  rfl

theorem State.afterDraws_still (s : State) (i n : Nat) : (s.afterDraws n).still i = s.still i := by
  simp [afterDraws_eq, State.still, State.modRb]

theorem farOrder_moved (s : State) (i k : Nat) (c : Option U16) (b : Option Nat) (w : List Xfer) (j : Nat) :
    (s.moved i k c b w).farOrder j = s.farOrder j := by
  simp only [State.farOrder, State.moved, State.modRb, List.getElem?_modify]
  cases s.rbs[j]? with
  | none => rfl
  | some rb => by_cases h : i = j <;> simp [h]

theorem storedAt_moved (s : State) (i k : Nat) (c : Option U16) (b : Option Nat) (w : List Xfer) (j : Nat) (a : U32) :
    (s.moved i k c b w).storedAt j a = s.storedAt j a := by
  simp only [State.storedAt, farOrder_moved, show (s.moved i k c b w).fars = s.fars from rfl]

theorem drawn_moved (s : State) (i k : Nat) (c : Option U16) (b : Option Nat) (w : List Xfer) :
    (s.moved i k c b w).drawn = s.drawn := rfl

theorem afterDraw_moved (s : State) (i k : Nat) (c : Option U16) (b : Option Nat) (w : List Xfer) :
    (s.moved i k c b w).afterDraw = s.afterDraw.moved i k c b w := rfl

theorem readWord_moved (s : State) (i k : Nat) (c : Option U16) (b : Option Nat) (w : List Xfer) (t : Target) :
    (s.moved i k c b w).readWord t = ((s.readWord t).1, (s.readWord t).2.moved i k c b w) := by
  cases t with
  | nco d r h =>
    simp only [State.readWord, show (s.moved i k c b w).ncos = s.ncos from rfl,
      show (s.moved i k c b w).board = s.board from rfl, drawn_moved, afterDraw_moved]
    cases s.ncos[d]? with
    | none => rfl
    | some n => simp only; split <;> rfl
  | ts d r h =>
    simp only [State.readWord, show (s.moved i k c b w).tss = s.tss from rfl,
      show (s.moved i k c b w).board = s.board from rfl, drawn_moved, afterDraw_moved]
    cases s.tss[d]? with
    | none => rfl
    | some n => simp only; split <;> rfl
  | adp p r =>
    simp only [State.readWord, show (s.moved i k c b w).portAt p = s.portAt p from rfl, drawn_moved, afterDraw_moved]
    cases s.portAt p <;> rfl

theorem farRead16_moved (s : State) (i k : Nat) (c : Option U16) (b : Option Nat) (w : List Xfer) (j : Nat) (a : U32) :
    (s.moved i k c b w).farRead16 j a = ((s.farRead16 j a).1, (s.farRead16 j a).2.moved i k c b w) := by
  simp only [State.farRead16, readTarget_congr (SameMap.moved s i k c b w), storedAt_moved]
  split
  · simp only [readWord_moved]
  · split <;> rfl

theorem farRead32_moved (s : State) (i k : Nat) (c : Option U16) (b : Option Nat) (w : List Xfer) (j : Nat) (a : U32) :
    (s.moved i k c b w).farRead32 j a = ((s.farRead32 j a).1, (s.farRead32 j a).2.moved i k c b w) := by
  simp only [State.farRead32, readTarget_congr (SameMap.moved s i k c b w), readWord_moved, farRead16_moved]
  split <;> rfl

theorem storeWord_moved (s : State) (i k : Nat) (c : Option U16) (b : Option Nat) (w : List Xfer) (t : Target) (p : Part) :
    (s.moved i k c b w).storeWord t p = (s.storeWord t p).moved i k c b w := by
  cases t <;> rfl

theorem farWrite16_moved (s : State) (i k : Nat) (c : Option U16) (b : Option Nat) (w : List Xfer) (j : Nat) (a : U32) (v : U16) :
    (s.moved i k c b w).farWrite16 j a v = (s.farWrite16 j a v).moved i k c b w := by
  simp only [State.farWrite16, writeTarget_congr (SameMap.moved s i k c b w)]
  split
  · exact storeWord_moved s i k c b w _ _
  · simp only [farOrder_moved]
    rfl

theorem farWrite32_moved (s : State) (i k : Nat) (c : Option U16) (b : Option Nat) (w : List Xfer) (j : Nat) (a v : U32) :
    (s.moved i k c b w).farWrite32 j a v = (s.farWrite32 j a v).moved i k c b w := by
  simp only [State.farWrite32, writeTarget_congr (SameMap.moved s i k c b w)]
  split
  · exact storeWord_moved s i k c b w _ _
  · exact storeWord_moved s i k c b w _ _
  · simp only [farWrite16_moved]

/-! ### The agent's control state does not matter to the far ends -/

theorem farRead16_setMe (s : State) (f : Agent → Agent) (i : Nat) (a : U32) :
    (s.setMe f).farRead16 i a = ((s.farRead16 i a).1, (s.farRead16 i a).2.setMe f) := by
  have hw : ∀ t, (s.setMe f).readWord t = ((s.readWord t).1, (s.readWord t).2.setMe f) := by
    intro t
    cases t with
    | nco d r h =>
      simp only [State.readWord, State.setMe_ncos, State.setMe_board]
      cases s.ncos[d]? with
      | none => rfl
      | some n => simp only; split <;> rfl
    | ts d r h =>
      simp only [State.readWord, State.setMe_tss, State.setMe_board]
      cases s.tss[d]? with
      | none => rfl
      | some n => simp only; split <;> rfl
    | adp p r =>
      simp only [State.readWord, show (s.setMe f).portAt p = s.portAt p from rfl]
      cases s.portAt p <;> rfl
  simp only [State.farRead16, readTarget_congr (SameMap.setMe s f)]
  split
  · simp only [hw]
  · simp only [State.storedAt, State.farOrder, State.setMe_rbs, State.setMe_fars]
    split <;> rfl

theorem storeWord_setMe (s : State) (f : Agent → Agent) (t : Target) (p : Part) :
    (s.setMe f).storeWord t p = (s.storeWord t p).setMe f := by
  cases t <;> rfl

theorem farWrite16_setMe (s : State) (f : Agent → Agent) (i : Nat) (a : U32) (v : U16) :
    (s.setMe f).farWrite16 i a v = (s.farWrite16 i a v).setMe f := by
  simp only [State.farWrite16, writeTarget_congr (SameMap.setMe s f)]
  split
  · exact storeWord_setMe s f _ _
  · rfl

end Sys2Proof.Machine
end

