-- ==== Sys2Proof/Laws/Bus.lean ====
section
/-!
SUPPORT. What a bus access yields when its transactions succeed: the value the far end shows, the far end after a
write, the words on the wire, the AA1 cache, and nothing else; and where it faults.
-/

namespace Sys2Proof.Machine

open Sys2Proof

/-! ### Instances under updates -/

theorem getElem?_modify_self {α : Type} (l : List α) (i : Nat) (f : α → α) (x : α) (h : l[i]? = some x) :
    (l.modify i f)[i]? = some (f x) := by
  simp [h]

theorem moved_rb {s : State} {i : Nat} {rb : Rb} (h : s.rbs[i]? = some rb) (k : Nat) (c : Option U16)
    (b : Option Nat) (w : List Xfer) : (s.moved i k c b w).rbs[i]? = some { rb with aa1Cache := c, busy := b } :=
  getElem?_modify_self _ _ _ _ h

/-- A state is moved from itself by nothing. -/
theorem moved_zero {s : State} {i : Nat} {rb : Rb} (h : s.rbs[i]? = some rb) :
    s.moved i 0 rb.aa1Cache rb.busy s.wire = s := by
  have : s.rbs.modify i (fun r => { r with aa1Cache := rb.aa1Cache, busy := rb.busy }) = s.rbs :=
    modify_self _ _ _ fun x hx => by rw [h] at hx; cases hx; rfl
  simp [State.moved, State.modRb, this]

/-- One turn is taken, and a wire record of success is added. -/
theorem moved_one {s : State} {i : Nat} {rb : Rb} (h : s.rbs[i]? = some rb) (w : List Xfer) :
    { s.dropTurns 1 with wire := w } = s.moved i 1 rb.aa1Cache rb.busy w := by
  have : s.rbs.modify i (fun r => { r with aa1Cache := rb.aa1Cache, busy := rb.busy }) = s.rbs :=
    modify_self _ _ _ fun x hx => by rw [h] at hx; cases hx; rfl
  simp [State.moved, State.modRb, State.dropTurns, this]

/-- An access by the running agent is unfinished. -/
theorem moved_busy {s : State} {i : Nat} {rb : Rb} (h : s.rbs[i]? = some rb) :
    (s.modRb i fun r => { r with busy := some s.me.id }) = s.moved i 0 rb.aa1Cache (some s.me.id) s.wire := by
  simp only [State.moved, State.modRb, List.drop_zero]
  congr 1
  apply List.ext_getElem?; intro n
  simp only [List.getElem?_modify]
  split
  · rename_i hn; subst hn; simp [h]
  · rfl

theorem moved_end (s : State) (i k : Nat) (c : Option U16) (b : Option Nat) (w : List Xfer) :
    ((s.moved i k c b w).modRb i fun rb => { rb with busy := none }) = s.moved i k c none w := by
  simp [State.moved, State.modRb, modify_modify]

theorem moved_cache (s : State) (i k : Nat) (c c' : Option U16) (b : Option Nat) (w : List Xfer) :
    ((s.moved i k c b w).modRb i fun rb => { rb with aa1Cache := c' }) = s.moved i k c' b w := by
  simp [State.moved, State.modRb, modify_modify]

theorem farRead16_rbs (s : State) (i : Nat) (a : U32) : (s.farRead16 i a).2.rbs = s.rbs := by
  obtain ⟨n, h⟩ := farRead16_snd s i a
  simp [h, afterDraws_eq]

theorem farRead16_wire (s : State) (i : Nat) (a : U32) : (s.farRead16 i a).2.wire = s.wire := by
  obtain ⟨n, h⟩ := farRead16_snd s i a
  simp [h, afterDraws_eq]

theorem farRead32_rbs (s : State) (i : Nat) (a : U32) : (s.farRead32 i a).2.rbs = s.rbs := by
  obtain ⟨n, h⟩ := farRead32_snd s i a
  simp [h, afterDraws_eq]

theorem storeWord_rbs (s : State) (t : Target) (p : Part) : (s.storeWord t p).rbs = s.rbs := by
  cases t <;> rfl

theorem farRead32_wire (s : State) (i : Nat) (a : U32) : (s.farRead32 i a).2.wire = s.wire := by
  obtain ⟨n, h⟩ := farRead32_snd s i a
  simp [h, afterDraws_eq]

theorem storeWord_tape (s : State) (t : Target) (p : Part) : (s.storeWord t p).tape = s.tape := by
  cases t <;> rfl

theorem storeWord_draws (s : State) (t : Target) (p : Part) : (s.storeWord t p).draws = s.draws := by
  cases t <;> rfl

/-- A far-end write leaves every instance as it is. -/
theorem farWrite16_rbs (s : State) (i : Nat) (a : U32) (v : U16) : (s.farWrite16 i a v).rbs = s.rbs := by
  unfold State.farWrite16
  split
  · exact storeWord_rbs _ _ _
  · rfl

theorem farWrite32_rbs (s : State) (i : Nat) (a v : U32) : (s.farWrite32 i a v).rbs = s.rbs := by
  unfold State.farWrite32
  split
  · exact storeWord_rbs _ _ _
  · exact storeWord_rbs _ _ _
  · rw [farWrite16_rbs, farWrite16_rbs]

theorem farWrite16_wire (s : State) (i : Nat) (a : U32) (v : U16) : (s.farWrite16 i a v).wire = s.wire := by
  unfold State.farWrite16
  split
  · rename_i t _; cases t <;> rfl
  · rfl

theorem farWrite16_turns (s : State) (i : Nat) (a : U32) (v : U16) : (s.farWrite16 i a v).turns = s.turns := by
  unfold State.farWrite16
  split
  · rename_i t _; cases t <;> rfl
  · rfl

theorem farWrite16_me (s : State) (i : Nat) (a : U32) (v : U16) : (s.farWrite16 i a v).me = s.me := by
  unfold State.farWrite16
  split
  · rename_i t _; cases t <;> rfl
  · rfl

/-! ### Context -/

theorem contextCheck_yields {s : State} {i : Nat} {rb : Rb} (h : s.rbs[i]? = some rb)
    (hu : (rb.sleeps && s.atomic) = false) : (contextCheck i).Yields s 0 s :=
  .step (by simp [State.onRb, h, hu])

theorem contextCheck_faults {s : State} {i : Nat} {rb : Rb} (h : s.rbs[i]? = some rb)
    (hu : (rb.sleeps && s.atomic) = true) : (contextCheck i).Faults s .atomicSleep s :=
  .step (by simp [State.onRb, h, hu])

theorem backendOf_yields {s : State} {i : Nat} {rb : Rb} (h : s.rbs[i]? = some rb) :
    (backendOf i).Yields s rb.backend.code s := .step (by simp [State.onRb, h])

theorem capability_yields {s : State} {i : Nat} {rb : Rb} (h : s.rbs[i]? = some rb) (f : Rb → Bool) :
    (capability i f).Yields s (if f rb then 1 else 0) s := .step (by simp [State.onRb, h])

theorem State.Names.resolve {s : State} {b : BusRef} {i : Nat} {rb : Rb} (h : s.Names b i rb) : s.resolve b = .go i s := by
  obtain ⟨hr, hb⟩ := h
  cases b with
  | inst j =>
    subst hb
    have : j < s.rbs.length := by
      rcases Nat.lt_or_ge j s.rbs.length with h | h
      · exact h
      · simp [List.getElem?_eq_none h] at hr
    simp [State.resolve, this]
  | handle k =>
    have hb : s.handles[k]? = some ⟨i, false⟩ := hb
    simp [State.resolve, hb]

theorem resolveBus_yields {s : State} {b : BusRef} {i : Nat} {rb : Rb} (h : s.Names b i rb) :
    (resolveBus b).Yields s i s := .step h.resolve

/-! ### MMIO -/

theorem evenOnly_even {α : Type} {a : U32} (h : isOdd a = false) (x : Op α) : evenOnly a x = x := by
  simp [evenOnly, h]

theorem evenOnly_faults {α : Type} {a : U32} (h : isOdd a = true) (x : Op α) (s : State) :
    (evenOnly a x).Faults s .misaligned s := by
  simp only [evenOnly, h, if_true]; exact .fault _

theorem alignedOnly_aligned {α : Type} {a : U32} (h : isAligned4 a = true) (x : Op α) : alignedOnly a x = x := by
  simp [alignedOnly, h]

theorem alignedOnly_faults {α : Type} {a : U32} (h : isAligned4 a = false) (x : Op α) (s : State) :
    (alignedOnly a x).Faults s .misaligned s := by
  simp only [alignedOnly, h]; exact .fault _

theorem mmioXfer_yields {s : State} {i n : Nat} {rb : Rb} {f : Rb → State → Ans} {t : State}
    (h : s.rbs[i]? = some rb) (hc : s.Clear 1) (hf : f rb (s.dropTurns 1) = .go n t) :
    (mmioXfer i f).Yields s (.ok n) t := by
  refine Op.Yields.bind (Op.Yields.xfer (t := t) (n := n) hc ?_) (.ok n)
  have : (s.dropTurns 1).rbs[i]? = some rb := h
  simp [State.onRb, this, hf]

theorem dropTurns_moved {s : State} {i : Nat} {rb : Rb} (h : s.rbs[i]? = some rb) :
    s.dropTurns 1 = s.moved i 1 rb.aa1Cache rb.busy s.wire := (moved_one h s.wire).symm ▸ rfl

theorem moved_log (s : State) (i k : Nat) (c : Option U16) (b : Option Nat) (w : List Xfer) (x : Wire) :
    (s.moved i k c b w).log i x true = s.moved i k c b (⟨i, x, true⟩ :: w) := rfl

theorem mmioRead16On_yields {s : State} {i : Nat} {rb : Rb} {a : U32} (h : s.rbs[i]? = some rb) (hb : rb.busy = none)
    (ha : isOdd a = false) (hc : s.Clear 1) :
    (mmioRead16On i a).Yields s (.ok (s.farRead16 i a).1.toNat)
      ((s.farRead16 i a).2.moved i 1 rb.aa1Cache none
        (⟨i, .ioLoad (rb.cfg.mmioBase + a.toNat) 2 ((s.farRead16 i a).1.setWidth 32), true⟩ :: s.wire)) := by
  rw [mmioRead16On, evenOnly_even ha]
  refine mmioXfer_yields h hc ?_
  rw [dropTurns_moved h, farRead16_moved, hb]
  rfl

theorem mmioWrite16On_yields {s : State} {i : Nat} {rb : Rb} {a : U32} {v : U16} (h : s.rbs[i]? = some rb)
    (hb : rb.busy = none) (ha : isOdd a = false) (hc : s.Clear 1) :
    (mmioWrite16On i a v).Yields s (.ok 0)
      ((s.farWrite16 i a v).moved i 1 rb.aa1Cache none
        (⟨i, .ioStore (rb.cfg.mmioBase + a.toNat) 2 (v.setWidth 32), true⟩ :: s.wire)) := by
  rw [mmioWrite16On, evenOnly_even ha]
  refine mmioXfer_yields h hc ?_
  rw [dropTurns_moved h, farWrite16_moved, hb]
  rfl

theorem nativeRead32On_yields {s : State} {i : Nat} {rb : Rb} {a : U32} (h : s.rbs[i]? = some rb)
    (hb : rb.busy = none) (ha : isAligned4 a = true) (hc : s.Clear 1) :
    (nativeRead32On i a).Yields s (.ok (s.farRead32 i a).1.toNat)
      ((s.farRead32 i a).2.moved i 1 rb.aa1Cache none
        (⟨i, .ioLoad (rb.cfg.mmioBase + a.toNat) 4 (s.farRead32 i a).1, true⟩ :: s.wire)) := by
  rw [nativeRead32On, alignedOnly_aligned ha]
  refine mmioXfer_yields h hc ?_
  rw [dropTurns_moved h, farRead32_moved, hb]
  rfl

theorem nativeWrite32On_yields {s : State} {i : Nat} {rb : Rb} {a v : U32} (h : s.rbs[i]? = some rb)
    (hb : rb.busy = none) (ha : isAligned4 a = true) (hc : s.Clear 1) :
    (nativeWrite32On i a v).Yields s (.ok 0)
      ((s.farWrite32 i a v).moved i 1 rb.aa1Cache none
        (⟨i, .ioStore (rb.cfg.mmioBase + a.toNat) 4 v, true⟩ :: s.wire)) := by
  rw [nativeWrite32On, alignedOnly_aligned ha]
  refine mmioXfer_yields h hc ?_
  rw [dropTurns_moved h, farWrite32_moved, hb]
  rfl

/-! ### I2C -/

theorem i2cRead16On_yields {s : State} {i : Nat} {rb : Rb} {a : U32} (h : s.rbs[i]? = some rb) (hb : rb.busy = none)
    (hc : s.Clear 1) :
    (i2cRead16On i a).Yields s (.ok (s.farRead16 i a).1.toNat)
      ((s.farRead16 i a).2.moved i 1 rb.aa1Cache none
        (⟨i, .i2c rb.cfg.i2cSlave (i2cReadFrame a) (i2cDataFrame (s.farRead16 i a).1), true⟩ :: s.wire)) := by
  refine Op.Yields.tryXfer hc ?_
  have : (s.dropTurns 1).rbs[i]? = some rb := h
  simp only [State.onRb, this]
  rw [dropTurns_moved h, farRead16_moved, hb]
  rfl

theorem i2cWrite16On_yields {s : State} {i : Nat} {rb : Rb} {a : U32} {v : U16} (h : s.rbs[i]? = some rb)
    (hb : rb.busy = none) (hc : s.Clear 1) :
    (i2cWrite16On i a v).Yields s (.ok 0)
      ((s.farWrite16 i a v).moved i 1 rb.aa1Cache none
        (⟨i, .i2c rb.cfg.i2cSlave (i2cWriteFrame a v) [], true⟩ :: s.wire)) := by
  refine Op.Yields.tryXfer hc ?_
  have : (s.dropTurns 1).rbs[i]? = some rb := h
  simp only [State.onRb, this]
  rw [dropTurns_moved h, farWrite16_moved, hb]
  rfl

/-! ### MDIO -/

theorem mdioXfer_yields {s : State} {i n : Nat} {rb : Rb} {f : Rb → Verdict → State → Ans} {t : State}
    (h : s.rbs[i]? = some rb) (hc : s.Clear 1) (hf : f rb .ok (s.moved i 1 rb.aa1Cache rb.busy s.wire) = .go (n + 1) t) :
    (mdioXfer i f).Yields s (.ok n) t := by
  refine Op.Yields.tryXfer hc ?_
  have h1 : (s.dropTurns 1).rbs[i]? = some rb := h
  simp only [State.onRb, h1]
  rw [dropTurns_moved h, hf]

theorem mdioWriteOn_yields {s : State} {i : Nat} {rb : Rb} {phy reg : RbCfg → U5} {w : U16}
    (h : s.rbs[i]? = some rb) (hc : s.Clear 1) :
    (mdioWriteOn i phy reg w none).Yields s (.ok 0)
      (s.moved i 1 rb.aa1Cache rb.busy (⟨i, .mdioWrite (phy rb.cfg) (reg rb.cfg) w, true⟩ :: s.wire)) :=
  mdioXfer_yields h hc rfl

theorem mdioWriteOn_far_yields {s : State} {i : Nat} {rb : Rb} {phy reg : RbCfg → U5} {w : U16} {a : U32} {v : U16}
    (h : s.rbs[i]? = some rb) (hc : s.Clear 1) :
    (mdioWriteOn i phy reg w (some (a, v))).Yields s (.ok 0)
      ((s.farWrite16 i a v).moved i 1 rb.aa1Cache rb.busy
        (⟨i, .mdioWrite (phy rb.cfg) (reg rb.cfg) w, true⟩ :: s.wire)) :=
  mdioXfer_yields h hc (by simp only [State.farDone, farWrite16_moved]; rfl)

theorem mdioReadOn_yields {s : State} {i : Nat} {rb : Rb} {phy reg : RbCfg → U5} {a : U32}
    (h : s.rbs[i]? = some rb) (hc : s.Clear 1) :
    (mdioReadOn i phy reg a).Yields s (.ok (s.farRead16 i a).1.toNat)
      ((s.farRead16 i a).2.moved i 1 rb.aa1Cache rb.busy
        (⟨i, .mdioRead (phy rb.cfg) (reg rb.cfg) (s.farRead16 i a).1, true⟩ :: s.wire)) :=
  mdioXfer_yields h hc (by simp only [farRead16_moved]; rfl)

theorem bridgeAddrOn_yields {s : State} {i : Nat} {rb : Rb} {a : U32} {rw : U16}
    (h : s.rbs[i]? = some rb) (hc : s.Clear 1) :
    (bridgeAddrOn i a rw none).Yields s (.ok 0)
      (s.moved i 1 rb.aa1Cache rb.busy
        (⟨i, .mdioWrite (bridgePhyOf a rb.cfg) rb.cfg.regBAA (bridgeAA rb.cfg.bridgeBits a rw), true⟩ :: s.wire)) :=
  mdioXfer_yields h hc rfl

theorem bridgeAddrOn_far_yields {s : State} {i : Nat} {rb : Rb} {a : U32} {rw : U16} {x : U32} {v : U16}
    (h : s.rbs[i]? = some rb) (hc : s.Clear 1) :
    (bridgeAddrOn i a rw (some (x, v))).Yields s (.ok 0)
      ((s.farWrite16 i x v).moved i 1 rb.aa1Cache rb.busy
        (⟨i, .mdioWrite (bridgePhyOf a rb.cfg) rb.cfg.regBAA (bridgeAA rb.cfg.bridgeBits a rw), true⟩ :: s.wire)) :=
  mdioXfer_yields h hc (by simp only [State.farDone, farWrite16_moved]; rfl)

/-- The state in which an MDIO access of the running agent has begun. -/
def State.begun (s : State) (i : Nat) (rb : Rb) : State := s.moved i 0 rb.aa1Cache (some s.me.id) s.wire

theorem mdioBegin_yields {s : State} {i : Nat} {rb : Rb} (h : s.rbs[i]? = some rb) (hb : rb.busy = none) :
    (mdioBegin i).Yields s 0 (s.begun i rb) := by
  refine .step ?_
  simp only [State.onRb, h, hb, true_or, if_true]
  rw [moved_busy h]
  rfl

/-- An MDIO access faults while another agent's is unfinished. -/
theorem mdioAccess_faults {s : State} {i k : Nat} {rb : Rb} (h : s.rbs[i]? = some rb) (hb : rb.busy = some k)
    (hk : k ≠ s.me.id) (x : Op (Except Err Nat)) : (mdioAccess i x).Faults s .busOverlap s :=
  .bind (.step (by simp [State.onRb, h, hb, hk]))

/-- An access that leaves the instance moved is finished with no mark. -/
theorem mdioAccess_yields {s u : State} {i k : Nat} {rb : Rb} {c : Option U16} {b : Option Nat} {w : List Xfer}
    {r : Except Err Nat} {x : Op (Except Err Nat)} (h : s.rbs[i]? = some rb) (hb : rb.busy = none)
    (hx : x.Yields (s.begun i rb) r (u.moved i k c b w)) : (mdioAccess i x).Yields s r (u.moved i k c none w) := by
  refine Op.Yields.bind (mdioBegin_yields h hb) (Op.Yields.bind hx (Op.Yields.bind (.set _) ?_))
  rw [moved_end]
  exact .ret r

theorem begun_rb {s : State} {i : Nat} {rb : Rb} (h : s.rbs[i]? = some rb) :
    (s.begun i rb).rbs[i]? = some { rb with busy := some s.me.id } := moved_rb h _ _ _ _

theorem begun_clear {s : State} {n : Nat} (h : s.Clear n) (i : Nat) (rb : Rb) : (s.begun i rb).Clear n := h

theorem begun_moved (s : State) (i : Nat) (rb : Rb) (k : Nat) (c : Option U16) (b : Option Nat) (w : List Xfer) :
    (s.begun i rb).moved i k c b w = s.moved i k c b w := by
  rw [State.begun, State.moved_moved, Nat.zero_add]

theorem State.Clear.moved {s : State} {k m : Nat} (h : s.Clear (k + m)) (i : Nat) (c : Option U16) (b : Option Nat)
    (w : List Xfer) : (s.moved i k c b w).Clear m := State.Clear.drop (s := s) h

/-- The turns an AA1 selection takes: none where the cache holds the high half. -/
def aa1Turns (rb : Rb) (a : U32) : Nat := if rb.aa1Cache = some (aa1Word a) then 0 else 1

/-- The wire record of an AA1 selection. -/
def aa1Wire (i : Nat) (rb : Rb) (a : U32) (w : List Xfer) : List Xfer :=
  if rb.aa1Cache = some (aa1Word a) then w
  else ⟨i, .mdioWrite rb.cfg.phy rb.cfg.regAA1 (aa1Word a), true⟩ :: w

theorem slaveSelectHigh_yields {s : State} {i : Nat} {rb : Rb} {a : U32} (h : s.rbs[i]? = some rb)
    (hc : s.Clear (aa1Turns rb a)) : (slaveSelectHigh i a).Yields s (.ok 0)
      (s.moved i (aa1Turns rb a) (some (aa1Word a)) rb.busy (aa1Wire i rb a s.wire)) := by
  by_cases hit : rb.aa1Cache = some (aa1Word a)
  · have h1 : s.moved i (aa1Turns rb a) (some (aa1Word a)) rb.busy (aa1Wire i rb a s.wire) = s := by
      simp only [aa1Turns, aa1Wire, ← hit]
      exact moved_zero h
    rw [h1]
    refine Op.Yields.bind (.step (n := 1) (t := s) (by simp [State.onRb, h, hit])) ?_
    exact .ok 0
  · simp only [aa1Turns, aa1Wire, if_neg hit] at hc ⊢
    refine Op.Yields.bind (.step (n := 0) (t := s) (by simp [State.onRb, h, hit])) ?_
    simp only [Nat.zero_ne_one, if_false]
    refine Op.Yields.bind (mdioWriteOn_yields h hc) ?_
    refine Op.Yields.bind (.set _) ?_
    rw [moved_cache]
    exact .ok 0

theorem slaveRead16On_yields {s : State} {i : Nat} {rb : Rb} {a : U32} (h : s.rbs[i]? = some rb)
    (hb : rb.busy = none) (ha : isOdd a = false) (hc : s.Clear (aa1Turns rb a + 2)) :
    (slaveRead16On i a).Yields s (.ok (s.farRead16 i a).1.toNat)
      ((s.farRead16 i a).2.moved i (aa1Turns rb a + 2) (some (aa1Word a)) none
        (⟨i, .mdioRead rb.cfg.phy rb.cfg.regAD (s.farRead16 i a).1, true⟩ ::
          ⟨i, .mdioWrite rb.cfg.phy rb.cfg.regAA0 (aa0Word a Config.mdioRwRead), true⟩ ::
          aa1Wire i rb a s.wire)) := by
  rw [slaveRead16On, evenOnly_even ha]
  have hsel := slaveSelectHigh_yields (begun_rb h)
    (begun_clear (hc.le (Nat.le_add_right _ 2)) i rb : (s.begun i rb).Clear (aa1Turns { rb with busy := _ } a))
  rw [begun_moved] at hsel
  refine mdioAccess_yields (b := some s.me.id) h hb (Op.Yields.q hsel ?_)
  refine Op.Yields.q (mdioWriteOn_yields (moved_rb h _ _ _ _) ((State.Clear.moved hc i _ _ _).le (by omega))) ?_
  rw [State.moved_moved]
  have := mdioReadOn_yields (phy := (·.phy)) (reg := (·.regAD)) (a := a)
    (moved_rb h (aa1Turns rb a + 1) (some (aa1Word a)) (some s.me.id)
      (⟨i, .mdioWrite rb.cfg.phy rb.cfg.regAA0 (aa0Word a Config.mdioRwRead), true⟩ :: aa1Wire i rb a s.wire))
    (State.Clear.moved (m := 1) hc i _ _ _)
  rw [farRead16_moved, State.moved_moved] at this
  exact this

theorem writeOrderIs_yields {s : State} {i : Nat} {rb : Rb} (h : s.rbs[i]? = some rb) (sel : RbCfg → WriteOrder) :
    (writeOrderIs i sel).Yields s (if sel rb.cfg = .dataFirst then 1 else 0) s :=
  .step (by simp [State.onRb, h])

/-- The data and address words of an MDIO write on the wire, newest first. -/
def orderWire (o : WriteOrder) (data addr : Xfer) (w : List Xfer) : List Xfer :=
  match o with
  | .dataFirst => addr :: data :: w
  | .addrFirst => data :: addr :: w

theorem slaveWrite16On_yields {s : State} {i : Nat} {rb : Rb} {a : U32} {v : U16} (h : s.rbs[i]? = some rb)
    (hb : rb.busy = none) (ha : isOdd a = false) (hc : s.Clear (aa1Turns rb a + 2)) :
    (slaveWrite16On i a v).Yields s (.ok 0)
      ((s.farWrite16 i a v).moved i (aa1Turns rb a + 2) (some (aa1Word a)) none
        (orderWire rb.cfg.mdioOrder ⟨i, .mdioWrite rb.cfg.phy rb.cfg.regAD v, true⟩
          ⟨i, .mdioWrite rb.cfg.phy rb.cfg.regAA0 (aa0Word a Config.mdioRwWrite), true⟩
          (aa1Wire i rb a s.wire))) := by
  rw [slaveWrite16On, evenOnly_even ha]
  have hsel := slaveSelectHigh_yields (begun_rb h)
    (begun_clear (hc.le (Nat.le_add_right _ 2)) i rb : (s.begun i rb).Clear (aa1Turns { rb with busy := _ } a))
  rw [begun_moved] at hsel
  refine mdioAccess_yields (b := some s.me.id) h hb (Op.Yields.q hsel ?_)
  refine Op.Yields.bind (writeOrderIs_yields (moved_rb h _ _ _ _) _) ?_
  cases ho : rb.cfg.mdioOrder with
  | dataFirst =>
    simp only [if_true]
    refine Op.Yields.q (mdioWriteOn_yields (moved_rb h _ _ _ _) ((State.Clear.moved hc i _ _ _).le (by omega))) ?_
    rw [State.moved_moved]
    have := mdioWriteOn_far_yields (phy := (·.phy)) (reg := (·.regAA0)) (w := aa0Word a Config.mdioRwWrite)
      (a := a) (v := v)
      (moved_rb h (aa1Turns rb a + 1) (some (aa1Word a)) (some s.me.id)
        (⟨i, .mdioWrite rb.cfg.phy rb.cfg.regAD v, true⟩ :: aa1Wire i rb a s.wire))
      (State.Clear.moved (m := 1) hc i _ _ _)
    rw [farWrite16_moved, State.moved_moved] at this
    exact this
  | addrFirst =>
    simp only [reduceCtorEq, if_false, Nat.zero_ne_one]
    refine Op.Yields.q (mdioWriteOn_yields (moved_rb h _ _ _ _) ((State.Clear.moved hc i _ _ _).le (by omega))) ?_
    rw [State.moved_moved]
    have := mdioWriteOn_far_yields (phy := (·.phy)) (reg := (·.regAD)) (w := v) (a := a) (v := v)
      (moved_rb h (aa1Turns rb a + 1) (some (aa1Word a)) (some s.me.id)
        (⟨i, .mdioWrite rb.cfg.phy rb.cfg.regAA0 (aa0Word a Config.mdioRwWrite), true⟩ :: aa1Wire i rb a s.wire))
      (State.Clear.moved (m := 1) hc i _ _ _)
    rw [farWrite16_moved, State.moved_moved] at this
    exact this

theorem bridgeRange_yields {s : State} {i : Nat} {rb : Rb} {a : U32} (h : s.rbs[i]? = some rb)
    (hr : bridgePhy rb.cfg.bridgeBits a ≤ 31) : (bridgeRange i a).Yields s 0 s :=
  .step (by simp only [State.onRb, h]; rw [if_neg (by omega)])

theorem bridgeRange_faults {s : State} {i : Nat} {rb : Rb} {a : U32} (h : s.rbs[i]? = some rb)
    (hr : 31 < bridgePhy rb.cfg.bridgeBits a) : (bridgeRange i a).Faults s .bridgeRange s :=
  .step (by simp only [State.onRb, h]; rw [if_pos hr])

theorem bridgeRead16On_yields {s : State} {i : Nat} {rb : Rb} {a : U32} (h : s.rbs[i]? = some rb)
    (hb : rb.busy = none) (ha : isOdd a = false) (hr : bridgePhy rb.cfg.bridgeBits a ≤ 31) (hc : s.Clear 2) :
    (bridgeRead16On i a).Yields s (.ok (s.farRead16 i a).1.toNat)
      ((s.farRead16 i a).2.moved i 2 rb.aa1Cache none
        (⟨i, .mdioRead (bridgePhyOf a rb.cfg) rb.cfg.regBAD (s.farRead16 i a).1, true⟩ ::
          ⟨i, .mdioWrite (bridgePhyOf a rb.cfg) rb.cfg.regBAA
            (bridgeAA rb.cfg.bridgeBits a Config.mdioRwRead), true⟩ :: s.wire)) := by
  rw [bridgeRead16On, evenOnly_even ha]
  refine Op.Yields.bind (bridgeRange_yields h hr) (mdioAccess_yields (b := some s.me.id) h hb ?_)
  refine Op.Yields.q (bridgeAddrOn_yields (begun_rb h) (begun_clear (hc.le (by omega)) i rb)) ?_
  rw [begun_moved]
  have := mdioReadOn_yields (phy := bridgePhyOf a) (reg := (·.regBAD)) (a := a)
    (moved_rb h 1 rb.aa1Cache (some s.me.id)
      (⟨i, .mdioWrite (bridgePhyOf a rb.cfg) rb.cfg.regBAA (bridgeAA rb.cfg.bridgeBits a Config.mdioRwRead), true⟩
        :: s.wire))
    (State.Clear.moved (m := 1) hc i _ _ _)
  rw [farRead16_moved, State.moved_moved] at this
  exact this

theorem bridgeWrite16On_yields {s : State} {i : Nat} {rb : Rb} {a : U32} {v : U16} (h : s.rbs[i]? = some rb)
    (hb : rb.busy = none) (ha : isOdd a = false) (hr : bridgePhy rb.cfg.bridgeBits a ≤ 31) (hc : s.Clear 2) :
    (bridgeWrite16On i a v).Yields s (.ok 0)
      ((s.farWrite16 i a v).moved i 2 rb.aa1Cache none
        (orderWire rb.cfg.bridgeOrder ⟨i, .mdioWrite (bridgePhyOf a rb.cfg) rb.cfg.regBAD v, true⟩
          ⟨i, .mdioWrite (bridgePhyOf a rb.cfg) rb.cfg.regBAA
            (bridgeAA rb.cfg.bridgeBits a Config.mdioRwWrite), true⟩ s.wire)) := by
  rw [bridgeWrite16On, evenOnly_even ha]
  refine Op.Yields.bind (bridgeRange_yields h hr) (mdioAccess_yields (b := some s.me.id) h hb ?_)
  refine Op.Yields.bind (writeOrderIs_yields (begun_rb h) _) ?_
  cases ho : rb.cfg.bridgeOrder with
  | dataFirst =>
    simp only [if_true]
    refine Op.Yields.q (mdioWriteOn_yields (begun_rb h) (begun_clear (hc.le (by omega)) i rb)) ?_
    rw [begun_moved]
    have := bridgeAddrOn_far_yields (a := a) (rw := Config.mdioRwWrite) (x := a) (v := v)
      (moved_rb h 1 rb.aa1Cache (some s.me.id)
        (⟨i, .mdioWrite (bridgePhyOf a rb.cfg) rb.cfg.regBAD v, true⟩ :: s.wire))
      (State.Clear.moved (m := 1) hc i _ _ _)
    rw [farWrite16_moved, State.moved_moved] at this
    exact this
  | addrFirst =>
    simp only [reduceCtorEq, if_false, Nat.zero_ne_one]
    refine Op.Yields.q (bridgeAddrOn_yields (begun_rb h) (begun_clear (hc.le (by omega)) i rb)) ?_
    rw [begun_moved]
    have := mdioWriteOn_far_yields (phy := bridgePhyOf a) (reg := (·.regBAD)) (w := v) (a := a) (v := v)
      (moved_rb h 1 rb.aa1Cache (some s.me.id)
        (⟨i, .mdioWrite (bridgePhyOf a rb.cfg) rb.cfg.regBAA
          (bridgeAA rb.cfg.bridgeBits a Config.mdioRwWrite), true⟩ :: s.wire))
      (State.Clear.moved (m := 1) hc i _ _ _)
    rw [farWrite16_moved, State.moved_moved] at this
    exact this

/-! ### Any backend -/

/-- The transactions of a 16-bit access (rule R171). -/
def Rb.cost16 (rb : Rb) (a : U32) : Nat :=
  match rb.backend with
  | .mmio => 1
  | .i2c => 1
  | .mdioSlave => aa1Turns rb a + 2
  | .mdioBridge => 2

/-- The AA1 cache after a 16-bit access. -/
def Rb.cache16 (rb : Rb) (a : U32) : Option U16 :=
  if rb.backend = .mdioSlave then some (aa1Word a) else rb.aa1Cache

theorem read16On_yields {s : State} {i : Nat} {rb : Rb} {a : U32} (h : s.rbs[i]? = some rb) (hu : s.MayUse rb)
    (hr : rb.reaches a = true) (hc : s.Clear (rb.cost16 a)) :
    ∃ w, (read16On i a).Yields s (.ok (s.farRead16 i a).1.toNat)
      ((s.farRead16 i a).2.moved i (rb.cost16 a) (rb.cache16 a) none w) := by
  have go : ∀ t r, (match rb.backend.code with
      | 0 => mmioRead16On i a | 1 => i2cRead16On i a | 2 => slaveRead16On i a | _ => bridgeRead16On i a).Yields s r t →
      (read16On i a).Yields s r t := fun t r ht =>
    Op.Yields.bind (contextCheck_yields h hu.1) (Op.Yields.bind (backendOf_yields h) ht)
  cases hk : rb.backend <;> simp only [hk, Rb.cost16, Rb.reaches, Rb.cache16, Backend.code, Bool.not_eq_true',
    Bool.and_eq_true, decide_eq_true_eq, reduceCtorEq, if_true, if_false] at hr hc go ⊢
  · exact ⟨_, go _ _ (mmioRead16On_yields h hu.2 hr hc)⟩
  · exact ⟨_, go _ _ (i2cRead16On_yields h hu.2 hc)⟩
  · exact ⟨_, go _ _ (slaveRead16On_yields h hu.2 hr hc)⟩
  · exact ⟨_, go _ _ (bridgeRead16On_yields h hu.2 hr.1 hr.2 hc)⟩

theorem write16On_yields {s : State} {i : Nat} {rb : Rb} {a : U32} {v : U16} (h : s.rbs[i]? = some rb)
    (hu : s.MayUse rb) (hr : rb.reaches a = true) (hc : s.Clear (rb.cost16 a)) :
    ∃ w, (write16On i a v).Yields s (.ok 0)
      ((s.farWrite16 i a v).moved i (rb.cost16 a) (rb.cache16 a) none w) := by
  have go : ∀ t r, (match rb.backend.code with
      | 0 => mmioWrite16On i a v | 1 => i2cWrite16On i a v | 2 => slaveWrite16On i a v
      | _ => bridgeWrite16On i a v).Yields s r t →
      (write16On i a v).Yields s r t := fun t r ht =>
    Op.Yields.bind (contextCheck_yields h hu.1) (Op.Yields.bind (backendOf_yields h) ht)
  cases hk : rb.backend <;> simp only [hk, Rb.cost16, Rb.reaches, Rb.cache16, Backend.code, Bool.not_eq_true',
    Bool.and_eq_true, decide_eq_true_eq, reduceCtorEq, if_true, if_false] at hr hc go ⊢
  · exact ⟨_, go _ _ (mmioWrite16On_yields h hu.2 hr hc)⟩
  · exact ⟨_, go _ _ (i2cWrite16On_yields h hu.2 hc)⟩
  · exact ⟨_, go _ _ (slaveWrite16On_yields h hu.2 hr hc)⟩
  · exact ⟨_, go _ _ (bridgeWrite16On_yields h hu.2 hr.1 hr.2 hc)⟩

end Sys2Proof.Machine
end

