-- ==== Sys2Proof/Laws/Decode.lean ====
section
/-!
SUPPORT. Operands as bytes: reading what was written gives the operand back and the bytes after it, one lemma for each
operand type.
-/

namespace Sys2Proof

theorem take16_put16 (v : U16) (r : List Byte) : take16 (put16 v ++ r) = .ok (v, r) := by
  have h : (byteOf v 1 ++ byteOf v 0 : BitVec (8 + 8)) = v := by
    apply BitVec.eq_of_getLsbD_eq; intro i hi
    simp only [byteOf, BitVec.getLsbD_append, BitVec.getLsbD_extractLsb']
    split
    all_goals (rw [decide_eq_true (by omega), Bool.true_and]; congr 1; omega)
  simp only [put16, List.cons_append, List.nil_append, take16]
  rw [h]

theorem take32_put32 (v : U32) (r : List Byte) : take32 (put32 v ++ r) = .ok (v, r) := by
  have h : (byteOf v 3 ++ byteOf v 2 ++ byteOf v 1 ++ byteOf v 0 : BitVec (8 + 8 + 8 + 8)) = v := by
    apply BitVec.eq_of_getLsbD_eq; intro i hi
    simp only [byteOf, BitVec.getLsbD_append, BitVec.getLsbD_extractLsb']
    repeat' split
    all_goals (rw [decide_eq_true (by omega), Bool.true_and]; congr 1; omega)
  simp only [put32, List.cons_append, List.nil_append, take32]
  rw [h]

theorem take64_put64 (v : U64) (r : List Byte) : take64 (put64 v ++ r) = .ok (v, r) := by
  have h : (byteOf v 7 ++ byteOf v 6 ++ byteOf v 5 ++ byteOf v 4 ++ byteOf v 3 ++ byteOf v 2 ++ byteOf v 1 ++
      byteOf v 0 : BitVec (8 + 8 + 8 + 8 + 8 + 8 + 8 + 8)) = v := by
    apply BitVec.eq_of_getLsbD_eq; intro i hi
    simp only [byteOf, BitVec.getLsbD_append, BitVec.getLsbD_extractLsb']
    repeat' split
    all_goals (rw [decide_eq_true (by omega), Bool.true_and]; congr 1; omega)
  simp only [put64, List.cons_append, List.nil_append, take64]
  rw [h]

theorem takeIndex_putIndex (n : Nat) (h : indexOk n = true) (r : List Byte) : takeIndex (putIndex n ++ r) = .ok (n, r) := by
  simp only [takeIndex, putIndex, take16_put16, BitVec.toNat_ofNat]
  rw [Nat.mod_eq_of_lt (by simpa [indexOk] using h)]

theorem takeKey_putKey (n : Nat) (h : keyOk n = true) (r : List Byte) : takeKey (putKey n ++ r) = .ok (n, r) := by
  simp only [takeKey, putKey, take32_put32, BitVec.toNat_ofNat]
  rw [Nat.mod_eq_of_lt (by simpa [keyOk] using h)]

theorem takeBool_putBool (b : Bool) (r : List Byte) : takeBool (putBool b ++ r) = .ok (b, r) := by cases b <;> rfl

theorem takeBus_putBus (b : BusRef) (h : b.wellFormed = true) (r : List Byte) : takeBus (putBus b ++ r) = .ok (b, r) := by
  cases b <;> simp only [putBus, List.cons_append, takeBus, takeIndex_putIndex _ h] <;> rfl

theorem takeResource_putResource (x : Option Resource) (h : resourceOk x = true) (r : List Byte) :
    takeResource (putResource x ++ r) = .ok (x, r) := by
  rcases x with _ | ⟨_ | _, a⟩
  · rfl
  · simp only [putResource, List.cons_append, List.append_assoc, takeResource, takeIndex_putIndex _ h, take32_put32]
    rfl
  · simp only [putResource, List.cons_append, List.append_assoc, takeResource, takeIndex_putIndex _ h, take32_put32]
    rfl

theorem takeStep_putStep (x : Option StepReq) (r : List Byte) : takeStep (putStep x ++ r) = .ok (x, r) := by
  rcases x with _ | ⟨n, s⟩
  · rfl
  · simp only [putStep, List.cons_append, List.append_assoc, takeStep, take32_put32]; rfl

theorem takeMask_putMask (m : MaskArg) (h : m.wellFormed = true) (r : List Byte) :
    takeMask (putMask m ++ r) = .ok (m, r) := by
  cases m with
  | mask m => simp only [putMask, List.cons_append, takeMask, take16_put16]; rfl
  | port p => simp only [putMask, List.cons_append, takeMask, takeIndex_putIndex _ h]; rfl

theorem takeCmd_putCmd (c : Cmd) (r : List Byte) : takeCmd (putCmd c ++ r) = .ok (c, r) := by cases c <;> rfl

theorem takeLinkMode_putLinkMode (m : LinkMode) (r : List Byte) : takeLinkMode (putLinkMode m ++ r) = .ok (m, r) := by
  cases m <;> rfl

theorem takeDMode_putDMode (m : DMode) (r : List Byte) : takeDMode (putDMode m ++ r) = .ok (m, r) := by
  cases m <;> rfl

end Sys2Proof
end

