-- ==== Sys2Proof/Laws/Words.lean ====
section
/-!
SUPPORT. The 32-bit registers over their 16-bit halves: a word read by halves is a word the register shows, a word
written by halves is what a whole write leaves, and the registers a device shows lie at even addresses.
-/

namespace Sys2Proof.Machine

open Sys2Proof

/-! ### Halves -/

theorem join_getLsbD (h l : U16) (k : Nat) :
    (joinHalves h l).getLsbD k = if k < 16 then l.getLsbD k else h.getLsbD (k - 16) := by
  simp only [joinHalves, BitVec.getLsbD_append]

theorem lowHalf_getLsbD (v : U32) (k : Nat) : (lowHalf v).getLsbD k = (decide (k < 16) && v.getLsbD k) := by
  simp [lowHalf, BitVec.getLsbD_extractLsb']

theorem highHalf_getLsbD (v : U32) (k : Nat) :
    (highHalf v).getLsbD k = (decide (k < 16) && v.getLsbD (16 + k)) := by
  simp [highHalf, BitVec.getLsbD_extractLsb']

@[simp] theorem lowHalf_join (h l : U16) : lowHalf (joinHalves h l) = l := by
  apply BitVec.eq_of_getLsbD_eq; intro i hi
  simp only [lowHalf_getLsbD, join_getLsbD, hi, if_true, decide_true, Bool.true_and]

@[simp] theorem highHalf_join (h l : U16) : highHalf (joinHalves h l) = h := by
  apply BitVec.eq_of_getLsbD_eq; intro i hi
  rw [highHalf_getLsbD, join_getLsbD, if_neg (by omega), show 16 + i - 16 = i by omega]
  simp only [hi, decide_true, Bool.true_and]

@[simp] theorem join_halves (v : U32) : joinHalves (highHalf v) (lowHalf v) = v := by
  apply BitVec.eq_of_getLsbD_eq; intro k hk
  rw [join_getLsbD]
  split
  · rename_i h; rw [lowHalf_getLsbD]; simp only [h, decide_true, Bool.true_and]
  · rw [highHalf_getLsbD, show 16 + (k - 16) = k by omega]
    simp only [show k - 16 < 16 by omega, decide_true, Bool.true_and]

/-- Words whose every bit is one Boolean function of the same bit of a draw. -/
def bitwise (f : U32 → U32) : Prop := ∃ g : Nat → Bool → Bool, ∀ x, ∀ k, k < 32 → (f x).getLsbD k = g k (x.getLsbD k)

/-- The halves of a bitwise word, taken at two draws, are the halves of the word at one draw. -/
theorem bitwise_join {f : U32 → U32} (h : bitwise f) (x y : U32) :
    joinHalves (highHalf (f y)) (lowHalf (f x)) = f (joinHalves (highHalf y) (lowHalf x)) := by
  obtain ⟨g, hg⟩ := h
  apply BitVec.eq_of_getLsbD_eq; intro k hk
  rw [hg _ k hk, join_getLsbD, join_getLsbD]
  split
  · rw [lowHalf_getLsbD, lowHalf_getLsbD, hg x k hk]; simp_all
  · have e : 16 + (k - 16) = k := by omega
    have h16 : k - 16 < 16 := by omega
    rw [highHalf_getLsbD, highHalf_getLsbD, e, hg y k hk]; simp [h16]

theorem bitwise_id : bitwise fun x => x := ⟨fun _ b => b, fun _ _ _ => rfl⟩

theorem bitwise_const (v : U32) : bitwise fun _ => v := ⟨fun k _ => v.getLsbD k, fun _ _ _ => rfl⟩

theorem bitwise_and {f g : U32 → U32} (hf : bitwise f) (hg : bitwise g) : bitwise fun x => f x &&& g x := by
  obtain ⟨p, hp⟩ := hf; obtain ⟨q, hq⟩ := hg
  exact ⟨fun k b => p k b && q k b, fun x k hk => by simp [BitVec.getLsbD_and, hp x k hk, hq x k hk]⟩

theorem bitwise_or {f g : U32 → U32} (hf : bitwise f) (hg : bitwise g) : bitwise fun x => f x ||| g x := by
  obtain ⟨p, hp⟩ := hf; obtain ⟨q, hq⟩ := hg
  exact ⟨fun k b => p k b || q k b, fun x k hk => by simp [BitVec.getLsbD_or, hp x k hk, hq x k hk]⟩

theorem bitwise_overDraw (w : Nat) (v : U32) : bitwise (overDraw w v) :=
  bitwise_or (bitwise_and bitwise_id (bitwise_const _)) (bitwise_const _)

theorem NcoHw.word_bitwise (h : NcoHw) (b : Board) (r : NcoReg) : bitwise fun x => h.word b x r := by
  cases r
  case cmd => exact bitwise_or (bitwise_and bitwise_id (bitwise_const _)) (bitwise_const _)
  case cntLo => exact bitwise_const h.latCntLo
  case secLo => exact bitwise_const h.latSecLo
  case cntHi => exact bitwise_overDraw 16 h.latCntHi
  case secHi => exact bitwise_overDraw 16 h.latSecHi
  case nsec => exact bitwise_overDraw 30 h.latNsec
  all_goals exact bitwise_id

theorem TsHw.word_bitwise (h : TsHw) (b : Board) (r : TsReg) : bitwise fun x => h.word b x r := by
  cases r
  case status =>
    simp only [TsHw.word, TsHw.statusWord]
    split
    · exact bitwise_or bitwise_id (bitwise_const _)
    · exact bitwise_and bitwise_id (bitwise_const _)
  case secLo => exact bitwise_const (h.latSec.extractLsb' 0 32)
  case counter => exact bitwise_const h.latCounter
  case secHi => exact bitwise_overDraw 16 ((h.latSec.extractLsb' 32 16).setWidth 32)
  case nsec => exact bitwise_overDraw 30 (h.latNsec.setWidth 32)
  all_goals exact bitwise_id

/-! ### Registers written by halves -/

theorem withHalf_twice (old v : U32) : withHalf true (withHalf false old (lowHalf v)) (highHalf v) = v := by
  simp [withHalf]

theorem and_eq_zero_iff_halves (v m : U32) :
    v &&& m = 0 ↔ joinHalves 0 (lowHalf v) &&& m = 0 ∧ joinHalves (highHalf v) 0 &&& m = 0 := by
  constructor
  · intro h
    have hb : ∀ k, k < 32 → (v.getLsbD k && m.getLsbD k) = false := fun k hk => by
      have := congrArg (BitVec.getLsbD · k) h; simpa [BitVec.getLsbD_and] using this
    constructor <;> apply BitVec.eq_of_getLsbD_eq <;> intro k hk <;> have := hb k hk <;>
      simp only [BitVec.getLsbD_and, join_getLsbD]
    · split
      · rw [lowHalf_getLsbD]; cases h1 : v.getLsbD k <;> simp_all
      · simp
    · split
      · simp
      · rw [highHalf_getLsbD, show 16 + (k - 16) = k by omega]; cases h1 : v.getLsbD k <;> simp_all
  · rintro ⟨h1, h2⟩
    apply BitVec.eq_of_getLsbD_eq; intro k hk
    have a := congrArg (BitVec.getLsbD · k) h1
    have b := congrArg (BitVec.getLsbD · k) h2
    simp only [BitVec.getLsbD_and, join_getLsbD, lowHalf_getLsbD, highHalf_getLsbD] at a b ⊢
    by_cases hk' : k < 16
    · simpa [hk'] using a
    · have e : 16 + (k - 16) = k := by omega
      have h16 : k - 16 < 16 := by omega
      simpa [hk', e, h16] using b

theorem cmdSet_halves (b : Board) (v : U32) (c : Cmd) :
    (b.cmdSet (Part.half false (lowHalf v)).bits c || b.cmdSet (Part.half true (highHalf v)).bits c) = b.cmdSet v c := by
  have := and_eq_zero_iff_halves v (b.cmdMask c)
  simp only [Board.cmdSet, Part.bits, Part.over, withHalf, if_true, if_false, Bool.false_eq_true,
    show highHalf 0 = 0 from rfl, show lowHalf 0 = 0 from rfl]
  by_cases h1 : joinHalves 0 (lowHalf v) &&& b.cmdMask c = 0 <;>
    by_cases h2 : joinHalves (highHalf v) 0 &&& b.cmdMask c = 0 <;> simp_all

/-- An NCO register written by halves is left as a whole write leaves it. -/
theorem NcoHw.store_halves (h : NcoHw) (b : Board) (r : NcoReg) (v : U32) :
    (h.store b r (.half false (lowHalf v))).store b r (.half true (highHalf v)) = h.store b r (.whole v) := by
  cases r <;> simp only [NcoHw.store, Part.over, withHalf_twice]
  simp only [NcoHw.addPending, Bool.or_assoc, cmdSet_halves]
  rfl

/-- The capture hardware without the low halves it keeps (log entry 9). -/
def TsHw.still (h : TsHw) : TsHw := { h with ackLow := 0, armLow := 0, irqLow := 0 }

theorem TsHw.act_still (h : TsHw) (b : Board) (r : TsReg) (v : U32) : (h.act b r v).still = h.still.act b r v := by
  cases r <;> simp only [TsHw.act] <;> repeat' split
  all_goals rfl

theorem TsHw.keepLow_still (h : TsHw) (r : TsReg) (v : U16) : (h.keepLow r v).still = h.still := by
  cases r <;> rfl

/-- A timestamper action register written by halves acts as a whole write does. -/
theorem TsHw.store_halves (h : TsHw) (b : Board) (r : TsReg) (v : U32) (hr : r ∈ TsReg.writable) :
    ((h.store b r (.half false (lowHalf v))).store b r (.half true (highHalf v))).still =
      (h.store b r (.whole v)).still := by
  have hl : (h.keepLow r (lowHalf v)).lowKept r = lowHalf v := by
    simp only [TsReg.writable, List.mem_cons, List.not_mem_nil, or_false] at hr
    rcases hr with rfl | rfl | rfl <;> rfl
  simp only [TsHw.store, hl, join_halves, TsHw.act_still, TsHw.keepLow_still]

/-! ### Words with drawn bits -/

theorem lowHalf_overDraw (v x : U32) : lowHalf (overDraw 16 v x) = lowHalf v := by
  apply BitVec.eq_of_getLsbD_eq; intro k hk
  have h : (BitVec.ofNat 32 (2 ^ 16 - 1)).getLsbD k = true := by
    have : k < 16 := hk
    interval_cases k <;> rfl
  simp only [lowHalf_getLsbD, overDraw, BitVec.getLsbD_or, BitVec.getLsbD_and, BitVec.getLsbD_not, h]
  simp

theorem nsec_overDraw (v x : U32) : (overDraw 30 v x).setWidth 30 = v.setWidth 30 := by
  apply BitVec.eq_of_getLsbD_eq; intro k hk
  have h : (BitVec.ofNat 32 (2 ^ 30 - 1)).getLsbD k = true := by
    have : k < 30 := hk
    interval_cases k <;> rfl
  simp only [BitVec.getLsbD_setWidth, overDraw, BitVec.getLsbD_or, BitVec.getLsbD_and, BitVec.getLsbD_not, h]
  simp

/-! ### Registers lie at even addresses -/

@[simp] theorem evenAddr_evenAddr (a : U32) : evenAddr (evenAddr a) = evenAddr a := by
  simp [evenAddr, BitVec.and_assoc]

theorem evenMask_getLsbD (k : Nat) (h : k < 31) : (0xFFFFFFFE : U32).getLsbD (k + 1) = true := by
  interval_cases k <;> rfl

theorem evenAddr_eq_self {a : U32} (h : isOdd a = false) : evenAddr a = a := by
  apply BitVec.eq_of_getLsbD_eq; intro i hi
  rw [evenAddr, BitVec.getLsbD_and]
  match i with
  | 0 => rw [isOdd] at h; rw [h, Bool.false_and]
  | k + 1 => rw [evenMask_getLsbD k (by omega), Bool.and_true]

theorem isOdd_eq (a : U32) : isOdd a = decide (a.toNat % 2 = 1) := by
  simp [isOdd, BitVec.getLsbD, Nat.testBit_zero]

theorem isOdd_evenAddr (a : U32) : isOdd (evenAddr a) = false := by
  simp [isOdd, evenAddr]

theorem isOdd_add_two (a : U32) : isOdd (a + 2) = isOdd a := by
  have h2 : (2 : U32).toNat = 2 := rfl
  rw [isOdd_eq, isOdd_eq, BitVec.toNat_add, h2]
  congr 1
  apply propext
  omega

theorem evenAddr_add_two (a : U32) : evenAddr (evenAddr a + 2) = evenAddr a + 2 :=
  evenAddr_eq_self (by rw [isOdd_add_two, isOdd_evenAddr])

theorem hitHalf_even {base off a : U32} {h : Bool} (hh : hitHalf base off a = some h) : evenAddr a = a := by
  unfold hitHalf at hh
  split at hh
  · rename_i e; rw [e, evenAddr_evenAddr]
  · split at hh
    · rename_i e; rw [e, evenAddr_add_two]
    · cases hh

theorem findReg_even {R : Type} {regs : List R} {off : R → U32} {base a : U32} {x : R × Bool}
    (h : findReg regs off base a = some x) : evenAddr a = a := by
  unfold findReg at h
  obtain ⟨r, -, hr⟩ := List.exists_of_findSome?_eq_some h
  split at hr
  · rename_i hh; exact hitHalf_even hh
  · cases hr

theorem ncoTarget_even {s : State} {regs : List NcoReg} {i : Nat} {a : U32} {t : Target}
    (h : s.ncoTarget regs i a = some t) : evenAddr a = a := by
  obtain ⟨e, -, he⟩ := List.exists_of_findSome?_eq_some h
  split at he
  · cases he
  · split at he
    · rename_i hf; exact findReg_even hf
    · cases he

theorem tsTarget_even {s : State} {regs : List TsReg} {i : Nat} {a : U32} {t : Target}
    (h : s.tsTarget regs i a = some t) : evenAddr a = a := by
  obtain ⟨e, -, he⟩ := List.exists_of_findSome?_eq_some h
  split at he
  · cases he
  · split at he
    · rename_i hf; exact findReg_even hf
    · cases he

theorem adpTarget_even {s : State} {i : Nat} {a : U32} {t : Target} (h : s.adpTarget i a = some t) :
    evenAddr a = a := by
  obtain ⟨e, -, he⟩ := List.exists_of_findSome?_eq_some h
  split at he
  · cases he
  · obtain ⟨r, -, hr⟩ := List.exists_of_findSome?_eq_some he
    split at hr
    · split at hr
      · rename_i e; rw [e, evenAddr_evenAddr]
      · cases hr
    · cases hr

theorem readTarget_even {s : State} {i : Nat} {a : U32} {t : Target} (h : s.readTarget i a = some t) :
    evenAddr a = a := by
  unfold State.readTarget at h
  split at h
  · rename_i hn; exact ncoTarget_even hn
  · split at h
    · rename_i hn; exact tsTarget_even hn
    · exact adpTarget_even h

theorem writeTarget_even {s : State} {i : Nat} {a : U32} {t : Target} (h : s.writeTarget i a = some t) :
    evenAddr a = a := by
  unfold State.writeTarget at h
  split at h
  · rename_i hn; exact ncoTarget_even hn
  · exact tsTarget_even h

end Sys2Proof.Machine
end

