-- ==== Sys2Proof/Laws/Device.lean ====
section
/-!
SUPPORT. Accesses to 32-bit device registers over any backend: what a read answers and a write leaves, how many turns
they take, what they leave of the AA1 cache; and nothing else but the bookkeeping of the bus.
-/

namespace Sys2Proof.Machine

open Sys2Proof

/-! ### What a run ends in -/

/-- From state `s` the operation yields an answer and a state with property `Q`. -/
def Op.Ends {α : Type} (o : Op α) (s : State) (Q : α → State → Prop) : Prop := ∃ a t, o.Yields s a t ∧ Q a t

theorem Op.Yields.ends {α : Type} {o : Op α} {s t : State} {a : α} {Q : α → State → Prop} (h : o.Yields s a t)
    (hq : Q a t) : o.Ends s Q := ⟨a, t, h, hq⟩

theorem Op.Ends.bind {α β : Type} {o : Op α} {g : α → Op β} {s : State} {Q : α → State → Prop}
    {R : β → State → Prop} (h : o.Ends s Q) (hg : ∀ a t, Q a t → (g a).Ends t R) : (o.bind g).Ends s R := by
  obtain ⟨a, t, ho, hq⟩ := h
  obtain ⟨b, u, hb, hr⟩ := hg a t hq
  exact ⟨b, u, ho.bind hb, hr⟩

/-- From state `s` the operation yields a value and a state with property `Q`, and no error. -/
def Op.EndsOk (o : Op (Except Err Nat)) (s : State) (Q : Nat → State → Prop) : Prop :=
  ∃ n t, o.Yields s (.ok n) t ∧ Q n t

theorem Op.EndsOk.q {β : Type} {x : Op (Except Err Nat)} {g : Nat → Op (Except Err β)} {s : State}
    {Q : Nat → State → Prop} {R : Except Err β → State → Prop} (h : x.EndsOk s Q)
    (hg : ∀ n t, Q n t → (g n).Ends t R) : (x.q g).Ends s R := by
  obtain ⟨n, t, ho, hq⟩ := h
  obtain ⟨b, u, hb, hr⟩ := hg n t hq
  exact ⟨b, u, ho.q hb, hr⟩

theorem Op.EndsOk.qOk {x : Op (Except Err Nat)} {g : Nat → Op (Except Err Nat)} {s : State}
    {Q : Nat → State → Prop} {R : Nat → State → Prop} (h : x.EndsOk s Q)
    (hg : ∀ n t, Q n t → (g n).EndsOk t R) : (x.q g).EndsOk s R := by
  obtain ⟨n, t, ho, hq⟩ := h
  obtain ⟨b, u, hb, hr⟩ := hg n t hq
  exact ⟨b, u, ho.q hb, hr⟩

theorem Op.Ends.thenOk {α : Type} {x : Op α} {g : α → Op (Except Err Nat)} {s : State}
    {Q : α → State → Prop} {R : Nat → State → Prop} (h : x.Ends s Q)
    (hg : ∀ n t, Q n t → (g n).EndsOk t R) : (x.bind g).EndsOk s R := by
  obtain ⟨n, t, ho, hq⟩ := h
  obtain ⟨b, u, hb, hr⟩ := hg n t hq
  exact ⟨b, u, ho.bind hb, hr⟩

theorem Op.EndsOk.mono {o : Op (Except Err Nat)} {s : State} {Q R : Nat → State → Prop} (h : o.EndsOk s Q)
    (hr : ∀ a t, Q a t → R a t) : o.EndsOk s R := by
  obtain ⟨a, t, ho, hq⟩ := h
  exact ⟨a, t, ho, hr a t hq⟩

theorem Op.Ends.mono {α : Type} {o : Op α} {s : State} {Q R : α → State → Prop} (h : o.Ends s Q)
    (hr : ∀ a t, Q a t → R a t) : o.Ends s R := by
  obtain ⟨a, t, ho, hq⟩ := h
  exact ⟨a, t, ho, hr a t hq⟩

/-! ### Turns -/

theorem State.clear_replicate (s : State) (n : Nat) (l : List Turn) (h : s.turns = List.replicate n .go ++ l) :
    s.Clear n := by
  intro x hx
  rw [h, List.take_append_of_le_length (by simp)] at hx
  exact List.eq_of_mem_replicate (List.mem_of_mem_take hx)

/-! ### 32-bit accesses -/

/-- After an access on instance `i`: the machine is as before but for the bookkeeping of the bus, no access is
unfinished, the AA1 cache holds `c`, and `k` turns are gone. -/
structure Quiet (s : State) (i : Nat) (rb : Rb) (c : Option U16) (k : Nat) (t : State) : Prop where
  still : t.still i = s.still i
  inst : t.rbs[i]? = some { rb with aa1Cache := c, busy := none }
  turns : t.turns = s.turns.drop k
  later : s.Later t

theorem State.of_still_board {s t : State} {i : Nat} (h : t.still i = s.still i) : t.board = s.board := by
  have := congrArg State.board h; exact this

theorem State.of_still_ncos {s t : State} {i : Nat} (h : t.still i = s.still i) : t.ncos = s.ncos := by
  have := congrArg State.ncos h; exact this

theorem State.of_still_ports {s t : State} {i : Nat} (h : t.still i = s.still i) : t.ports = s.ports := by
  have := congrArg State.ports h; exact this

theorem State.of_still_handles {s t : State} {i : Nat} (h : t.still i = s.still i) : t.handles = s.handles := by
  have := congrArg State.handles h; exact this

theorem State.of_still_me {s t : State} {i : Nat} (h : t.still i = s.still i) : t.me = s.me := by
  have := congrArg State.me h; exact this

theorem State.of_still_others {s t : State} {i : Nat} (h : t.still i = s.still i) : t.others = s.others := by
  have := congrArg State.others h; exact this

theorem State.of_still_hostTicks {s t : State} {i : Nat} (h : t.still i = s.still i) : t.hostTicks = s.hostTicks := by
  have := congrArg State.hostTicks h; exact this

theorem State.of_still_tss {s t : State} {i : Nat} (h : t.still i = s.still i) :
    t.tss.map Ts.still = s.tss.map Ts.still :=
  congrArg State.tss h

theorem State.of_still_ts {s t : State} {i d : Nat} {x : Ts} (h : t.still i = s.still i) (hx : s.tss[d]? = some x) :
    ∃ y, t.tss[d]? = some y ∧ y.still = x.still := by
  have h1 := congrArg (·[d]?) (State.of_still_tss h)
  simp only [List.getElem?_map, hx, Option.map_some] at h1
  cases hy : t.tss[d]? with
  | none => simp [hy] at h1
  | some y => exact ⟨y, rfl, by simpa [hy] using h1⟩

theorem State.of_still_sameMap {s t : State} {i : Nat} (h : t.still i = s.still i) : SameMap s t where
  board := State.of_still_board h
  handles := State.of_still_handles h
  ncos := by rw [State.of_still_ncos h]
  tss := by
    have := congrArg (List.map (·.res)) (State.of_still_tss h)
    simpa only [List.map_map, Function.comp_def, Ts.still] using this
  ports := by rw [State.of_still_ports h]

theorem State.of_still_atomic {s t : State} {i : Nat} (h : t.still i = s.still i) : t.atomic = s.atomic := by
  simp only [State.atomic, State.of_still_ncos h, State.of_still_me h]

theorem Quiet.use {s t : State} {i k : Nat} {rb : Rb} {c : Option U16} (h : Quiet s i rb c k t) (hu : s.MayUse rb) :
    t.MayUse { rb with aa1Cache := c, busy := none } := by
  refine ⟨?_, rfl⟩
  show (rb.sleeps && t.atomic) = false
  rw [State.of_still_atomic h.still]; exact hu.1

theorem quiet_moved {s : State} {i : Nat} {rb : Rb} (h : s.rbs[i]? = some rb) (n k : Nat) (c : Option U16)
    (w : List Xfer) : Quiet s i rb c k ((s.afterDraws n).moved i k c none w) where
  still := by rw [State.moved_still, State.afterDraws_still]
  inst := moved_rb (by simp [afterDraws_eq, h]) _ _ _ _
  turns := by simp [State.moved, afterDraws_eq]
  later := s.later_afterDraws n

theorem Quiet.trans {s t u : State} {i k m : Nat} {rb : Rb} {c c' : Option U16} (h : Quiet s i rb c k t)
    (h' : Quiet t i { rb with aa1Cache := c, busy := none } c' m u) : Quiet s i rb c' (k + m) u where
  still := h'.still.trans h.still
  inst := h'.inst
  turns := by rw [h'.turns, h.turns, List.drop_drop]
  later := h.later.trans h'.later

@[simp] theorem Rb.reaches_still (rb : Rb) (c : Option U16) (b : Option Nat) (a : U32) :
    ({ rb with aa1Cache := c, busy := b } : Rb).reaches a = rb.reaches a := rfl

/-- The transactions of a decomposed access are those of its halves. -/
theorem Rb.cost_halves (rb : Rb) (a : U32) :
    rb.cost false rb.aa1Cache a =
      rb.cost16 a + ({ rb with aa1Cache := rb.cache16 a, busy := none } : Rb).cost16 (highAddr a) := by
  cases hk : rb.backend <;> simp [Rb.cost, Rb.cost16, hk, Rb.cache16, aa1Turns]
  by_cases h1 : rb.aa1Cache = some (aa1Word a) <;> by_cases h2 : aa1Word (highAddr a) = aa1Word a
  · simp [h1, h2]
  · simp [h1, h2, Ne.symm h2]
  · simp [h1, h2]
  · simp [h1, h2, Ne.symm h2]

theorem Rb.cacheAfter_halves (rb : Rb) (a : U32) :
    ({ rb with aa1Cache := rb.cache16 a, busy := none } : Rb).cache16 (highAddr a) =
      rb.cacheAfter false rb.aa1Cache a := by
  cases hk : rb.backend <;> simp [Rb.cacheAfter, Rb.cache16, hk]

/-- A read of a 32-bit register whose word is `W` of a draw. -/
theorem read32On_word {s : State} {i : Nat} {rb : Rb} {a : U32} {T : Bool → Target} {W : U32 → U32}
    (h : s.rbs[i]? = some rb) (hu : s.MayUse rb) (hr : rb.reaches32 rb.hasRead32 a = true)
    (h0 : s.readTarget i a = some (T false)) (h1 : s.readTarget i (highAddr a) = some (T true))
    (hT : ∀ b, (T b).high = b) (h32 : s.farRead32 i a = s.readWord (T false)) (hW : bitwise W)
    (hw : ∀ k b, ∃ x n, (s.afterDraws k).readWord (T b) = (W x, s.afterDraws n))
    (hc : s.Clear (rb.cost rb.hasRead32 rb.aa1Cache a)) :
    (read32On i a).EndsOk s (fun v t => (∃ x, v = (W x).toNat) ∧
      Quiet s i rb (rb.cacheAfter rb.hasRead32 rb.aa1Cache a) (rb.cost rb.hasRead32 rb.aa1Cache a) t) := by
  obtain ⟨x, n, hx⟩ := hw 0 false
  have hx : s.readWord (T false) = (W x, s.afterDraws n) := hx
  cases hn : rb.hasRead32 with
  | true =>
    rw [hn] at hr hc
    have := nativeRead32On_yields (a := a) h hu.2 hr hc
    rw [h32, hx] at this
    refine ⟨_, _, .bind (contextCheck_yields h hu.1) (.bind (capability_yields h _) ?_), ⟨x, rfl⟩,
      quiet_moved h n 1 rb.aa1Cache
        (⟨i, .ioLoad (rb.cfg.mmioBase + a.toNat) 4 (W x), true⟩ :: s.wire)⟩
    simp only [hn, if_true]
    exact this
  | false =>
    rw [hn] at hr hc
    simp only [Rb.reaches32, Bool.false_eq_true, if_false, Bool.and_eq_true] at hr
    rw [Rb.cost_halves] at hc
    have e0 := readTarget_even h0
    have e1 := readTarget_even h1
    obtain ⟨y, m, hy⟩ := hw n true
    have f0 : s.farRead16 i a = (lowHalf (W x), s.afterDraws n) := by
      simp [State.farRead16, e0, h0, hT, halfOf, hx]
    have hm : SameMap s (s.afterDraws n) := State.of_still_sameMap (i := i) (State.afterDraws_still s i n)
    have f1 : (s.afterDraws n).farRead16 i (highAddr a) = (highHalf (W y), s.afterDraws m) := by
      simp [State.farRead16, e1, readTarget_congr hm, h1, hT, halfOf, hy]
    obtain ⟨w, r0⟩ := read16On_yields h hu hr.1 (hc.le (Nat.le_add_right _ _))
    rw [f0] at r0
    have q0 := quiet_moved h n (rb.cost16 a) (rb.cache16 a) w
    have hd : (s.afterDraws n).turns = s.turns := by simp [afterDraws_eq]
    obtain ⟨w', r1⟩ := read16On_yields (a := highAddr a) q0.inst (q0.use hu) (by simpa using hr.2)
      (State.Clear.moved (s := s.afterDraws n) (by rw [State.Clear, hd]; exact hc) i _ _ _)
    rw [farRead16_moved, f1] at r1
    simp only [State.moved_moved] at r1
    have key := bitwise_join hW x y
    rw [Rb.cost_halves, ← Rb.cacheAfter_halves]
    refine ⟨(W (joinHalves (highHalf y) (lowHalf x))).toNat, _,
      .bind (contextCheck_yields h hu.1) (.bind (capability_yields h _) ?_), ⟨_, rfl⟩, quiet_moved h m _ _ w'⟩
    simp only [hn, Bool.false_eq_true, if_false, Nat.zero_ne_one]
    refine Op.Yields.q r0 (Op.Yields.q r1 ?_)
    simp only [BitVec.ofNat_toNat, BitVec.setWidth_eq, key]
    exact .ok _

/-! ### Device registers -/

theorem State.readWord_nco {s : State} {d : Nat} {n : Nco} (h : s.ncos[d]? = some n) (r : NcoReg) (k : Nat) (b : Bool) :
    ∃ x m, (s.afterDraws k).readWord (.nco d r b) = (n.hw.word s.board x r, s.afterDraws m) := by
  have h' : (s.afterDraws k).ncos[d]? = some n := by simp [afterDraws_eq, h]
  have hb : (s.afterDraws k).board = s.board := by simp [afterDraws_eq]
  simp only [State.readWord, h', hb]
  have ha : (s.afterDraws k).afterDraw = s.afterDraws (k + 1) := by
    simp [afterDraws_eq, State.afterDraw, Nat.add_assoc]
  split
  · exact ⟨BitVec.ofNat 32 (s.afterDraws k).drawn, k + 1, by rw [ha]⟩
  · exact ⟨0, k, rfl⟩

theorem State.readWord_ts {s : State} {d : Nat} {n : Ts} (h : s.tss[d]? = some n) (r : TsReg) (k : Nat) (b : Bool) :
    ∃ x m, (s.afterDraws k).readWord (.ts d r b) = (n.hw.word s.board x r, s.afterDraws m) := by
  have h' : (s.afterDraws k).tss[d]? = some n := by simp [afterDraws_eq, h]
  have hb : (s.afterDraws k).board = s.board := by simp [afterDraws_eq]
  simp only [State.readWord, h', hb]
  have ha : (s.afterDraws k).afterDraw = s.afterDraws (k + 1) := by
    simp [afterDraws_eq, State.afterDraw, Nat.add_assoc]
  split
  · exact ⟨BitVec.ofNat 32 (s.afterDraws k).drawn, k + 1, by rw [ha]⟩
  · exact ⟨0, k, rfl⟩

/-- A read of an NCO register answers its word. -/
theorem read32On_nco {s : State} {i d : Nat} {rb : Rb} {a : U32} {r : NcoReg} {n : Nco}
    (h : s.rbs[i]? = some rb) (hu : s.MayUse rb) (hr : rb.reaches32 rb.hasRead32 a = true)
    (hs : s.ShowsNco i d r a) (hn : s.ncos[d]? = some n) (hc : s.Clear (rb.cost rb.hasRead32 rb.aa1Cache a)) :
    (read32On i a).EndsOk s (fun v t => (∃ x, v = (n.hw.word s.board x r).toNat) ∧
      Quiet s i rb (rb.cacheAfter rb.hasRead32 rb.aa1Cache a) (rb.cost rb.hasRead32 rb.aa1Cache a) t) :=
  read32On_word (T := .nco d r) h hu hr hs.1 hs.2 (fun _ => rfl) (by simp [State.farRead32, hs.1])
    (n.hw.word_bitwise s.board r) (State.readWord_nco hn r) hc

/-- A read of a timestamper register answers its word. -/
theorem read32On_ts {s : State} {i d : Nat} {rb : Rb} {a : U32} {r : TsReg} {n : Ts}
    (h : s.rbs[i]? = some rb) (hu : s.MayUse rb) (hr : rb.reaches32 rb.hasRead32 a = true)
    (hs : s.ShowsTs i d r a) (hn : s.tss[d]? = some n) (hc : s.Clear (rb.cost rb.hasRead32 rb.aa1Cache a)) :
    (read32On i a).EndsOk s (fun v t => (∃ x, v = (n.hw.word s.board x r).toNat) ∧
      Quiet s i rb (rb.cacheAfter rb.hasRead32 rb.aa1Cache a) (rb.cost rb.hasRead32 rb.aa1Cache a) t) :=
  read32On_word (T := .ts d r) h hu hr hs.1 hs.2 (fun _ => rfl) (by simp [State.farRead32, hs.1])
    (n.hw.word_bitwise s.board r) (State.readWord_ts hn r) hc

/-- A write of a 32-bit register over any backend, which leaves the machine as the whole write does. -/
theorem write32On_word {s : State} {i : Nat} {rb : Rb} {a v : U32} {T : Bool → Target}
    (h : s.rbs[i]? = some rb) (hu : s.MayUse rb) (hr : rb.reaches32 rb.hasWrite32 a = true)
    (h0 : s.writeTarget i a = some (T false)) (h1 : s.writeTarget i (highAddr a) = some (T true))
    (hT : ∀ b, (T b).high = b) (h32 : s.farWrite32 i a v = s.storeWord (T false) (.whole v))
    (hat : ∀ p, (s.storeWord (T false) p).atomic = s.atomic)
    (hh : (((s.storeWord (T false) (.half false (lowHalf v))).storeWord (T true) (.half true (highHalf v)))).still i =
      (s.storeWord (T false) (.whole v)).still i)
    (hc : s.Clear (rb.cost rb.hasWrite32 rb.aa1Cache a)) :
    (write32On i a v).EndsOk s (fun _ t =>
      Quiet (s.storeWord (T false) (.whole v)) i rb (rb.cacheAfter rb.hasWrite32 rb.aa1Cache a)
        (rb.cost rb.hasWrite32 rb.aa1Cache a) t) := by
  have hrb : ∀ t p, (s.storeWord t p).rbs[i]? = some rb := fun t p => by rw [storeWord_rbs]; exact h
  have htu : ∀ (s : State) t p, (s.storeWord t p).turns = s.turns := fun s t p => by cases t <;> rfl
  cases hn : rb.hasWrite32 with
  | true =>
    rw [hn] at hr hc
    have := nativeWrite32On_yields (a := a) (v := v) h hu.2 hr hc
    rw [h32] at this
    refine ⟨0, _, .bind (contextCheck_yields h hu.1) (.bind (capability_yields h _) ?_),
      quiet_moved (hrb _ _) 0 1 rb.aa1Cache
        (⟨i, .ioStore (rb.cfg.mmioBase + a.toNat) 4 v, true⟩ :: s.wire)⟩
    simp only [hn, if_true]
    exact this
  | false =>
    rw [hn] at hr hc
    simp only [Rb.reaches32, Bool.false_eq_true, if_false, Bool.and_eq_true] at hr
    rw [Rb.cost_halves] at hc
    have e0 := writeTarget_even h0
    have e1 := writeTarget_even h1
    have f0 : s.farWrite16 i a (lowHalf v) = s.storeWord (T false) (.half false (lowHalf v)) := by
      simp [State.farWrite16, e0, h0, hT]
    have hm : SameMap s (s.storeWord (T false) (.half false (lowHalf v))) := SameMap.storeWord s _ _
    have f1 : (s.storeWord (T false) (.half false (lowHalf v))).farWrite16 i (highAddr a) (highHalf v) =
        (s.storeWord (T false) (.half false (lowHalf v))).storeWord (T true) (.half true (highHalf v)) := by
      simp [State.farWrite16, e1, writeTarget_congr hm, h1, hT]
    obtain ⟨w, r0⟩ := write16On_yields (v := lowHalf v) h hu hr.1 (hc.le (Nat.le_add_right _ _))
    rw [f0] at r0
    have u1 : ((s.storeWord (T false) (.half false (lowHalf v))).moved i (rb.cost16 a) (rb.cache16 a) none w).MayUse
        { rb with aa1Cache := rb.cache16 a, busy := none } := by
      refine ⟨?_, rfl⟩
      have : ((s.storeWord (T false) (.half false (lowHalf v))).moved i (rb.cost16 a) (rb.cache16 a) none w).atomic =
          s.atomic := hat _
      rw [this]; exact hu.1
    obtain ⟨w', r1⟩ := write16On_yields (a := highAddr a) (v := highHalf v) (moved_rb (hrb _ _) _ _ _ _) u1
      (by simpa using hr.2)
      (State.Clear.moved (by rw [State.Clear, htu]; exact hc) i _ _ _)
    rw [farWrite16_moved, f1] at r1
    simp only [State.moved_moved] at r1
    rw [Rb.cost_halves, ← Rb.cacheAfter_halves]
    have hq := Op.Yields.q (g := fun _ => write16On i (highAddr a) (highHalf v)) r0 r1
    have hy : ∀ u, ((write16On i a (lowHalf v)).q fun _ => write16On i (highAddr a) (highHalf v)).Yields s (.ok 0) u →
        (write32On i a v).Yields s (.ok 0) u := fun u hv =>
      .bind (contextCheck_yields h hu.1) (.bind (capability_yields h _) (by
        simp only [hn, Bool.false_eq_true, if_false, Nat.zero_ne_one]; exact hv))
    refine ⟨0, _, hy _ hq, ?_, ?_, ?_, ?_⟩
    · rw [State.moved_still, hh]
    · exact moved_rb (by rw [storeWord_rbs]; exact hrb _ _) _ _ _ _
    · simp [State.moved, htu]
    · refine State.Later.of_eq ?_ ?_
      · show (State.storeWord _ (T true) _).tape = _
        simp only [storeWord_tape]
      · show (State.storeWord _ (T true) _).draws = _
        simp only [storeWord_draws]

theorem State.modTsHw_still (s : State) (i d : Nat) (f g : TsHw → TsHw)
    (h : ∀ x, (f x).still = (g x).still) : (s.modTsHw d f).still i = (s.modTsHw d g).still i := by
  simp only [State.still, State.modRb, State.modTsHw, State.modTs]
  congr 1
  apply List.ext_getElem?; intro n
  simp only [List.getElem?_map, List.getElem?_modify]
  split
  · cases s.tss[n]? with
    | none => rfl
    | some t =>
      have e : ∀ x : TsHw, ({ t with hw := x } : Ts).still = { t with hw := x.still } := fun _ => rfl
      simp only [Option.map_eq_map, Option.map_some, e, h]
  · rfl

theorem any_modify_same {α : Type} (l : List α) (d : Nat) (f : α → α) (p : α → Bool) (h : ∀ x, p (f x) = p x) :
    (l.modify d f).any p = l.any p := by
  have := map_modify_same l d f p h
  have e : ∀ m : List α, m.any p = (m.map p).any id := fun m => by simp [List.any_map]
  rw [e, this, e]

theorem State.modNcoHw_atomic (s : State) (d : Nat) (f : NcoHw → NcoHw) : (s.modNcoHw d f).atomic = s.atomic := by
  simp only [State.atomic, State.modNcoHw_ncos, State.modNcoHw_me]
  congr 1
  exact any_modify_same _ _ _ _ fun _ => rfl

/-- A write of an NCO register leaves the machine as a whole write does. -/
theorem write32On_nco {s : State} {i d : Nat} {rb : Rb} {a v : U32} {r : NcoReg}
    (h : s.rbs[i]? = some rb) (hu : s.MayUse rb) (hr : rb.reaches32 rb.hasWrite32 a = true)
    (hs : s.TakesNco i d r a) (hc : s.Clear (rb.cost rb.hasWrite32 rb.aa1Cache a)) :
    (write32On i a v).EndsOk s (fun _ t =>
      Quiet (s.modNcoHw d fun h => h.store s.board r (.whole v)) i rb
        (rb.cacheAfter rb.hasWrite32 rb.aa1Cache a) (rb.cost rb.hasWrite32 rb.aa1Cache a) t) :=
  write32On_word (T := .nco d r) h hu hr hs.1 hs.2 (fun _ => rfl) (by simp [State.farWrite32, hs.1])
    (fun _ => State.modNcoHw_atomic s d _)
    (by
      simp only [State.storeWord, State.modNcoHw, State.modNco, modify_modify, NcoHw.store_halves])
    hc

/-- A write of a timestamper register leaves the machine as a whole write does. -/
theorem write32On_ts {s : State} {i d : Nat} {rb : Rb} {a v : U32} {r : TsReg} (hw : r ∈ TsReg.writable)
    (h : s.rbs[i]? = some rb) (hu : s.MayUse rb) (hr : rb.reaches32 rb.hasWrite32 a = true)
    (hs : s.TakesTs i d r a) (hc : s.Clear (rb.cost rb.hasWrite32 rb.aa1Cache a)) :
    (write32On i a v).EndsOk s (fun _ t =>
      Quiet (s.modTsHw d fun h => h.store s.board r (.whole v)) i rb
        (rb.cacheAfter rb.hasWrite32 rb.aa1Cache a) (rb.cost rb.hasWrite32 rb.aa1Cache a) t) :=
  write32On_word (T := .ts d r) h hu hr hs.1 hs.2 (fun _ => rfl) (by simp [State.farWrite32, hs.1])
    (fun _ => rfl)
    (by
      have : ((s.storeWord (.ts d r false) (.half false (lowHalf v))).storeWord (.ts d r true)
          (.half true (highHalf v))) =
          s.modTsHw d fun h => (h.store s.board r (.half false (lowHalf v))).store s.board r (.half true (highHalf v)) := by
        simp only [State.storeWord, State.modTsHw, State.modTs, modify_modify]
      rw [this]
      exact State.modTsHw_still s i d _ _ fun x => x.store_halves s.board r v hw)
    hc

/-! ### A turn of another agent before a transaction -/

/-- The turns to come go the same way from both states, but for what they leave. -/
def SameTurns (s s' : State) : Prop := takeTurns s.turns s = takeTurns s'.turns s'

/-- The operation's steps up to its first transaction go the same way from `s` and from `s'`, and leave states from which
the turns go on the same way. -/
def Op.Waits {α : Type} : Op α → State → State → Prop
  | .act f k, s, s' => ∃ n t t', f s = .go n t ∧ f s' = .go n t' ∧ (k n).Waits t t'
  | .txn _ _, s, s' => SameTurns s s'
  | .ret _, _, _ => False
  | .again _, _, _ => False

/-- The operation makes no transaction, changes neither `s` nor `s'`, and answers `a` in both. -/
def Op.Passes {α : Type} (s s' : State) (a : α) : Op α → Prop
  | .act f k => ∃ n, f s = .go n s ∧ f s' = .go n s' ∧ (k n).Passes s s' a
  | .txn _ _ => False
  | .ret b => b = a
  | .again _ => False

theorem Op.Waits.bind {α β : Type} {o : Op α} {g : α → Op β} : ∀ {s s' : State}, o.Waits s s' →
    (o.bind g).Waits s s' := by
  induction o with
  | ret a => exact fun h => h.elim
  | again n => exact fun h => h.elim
  | txn f k ih => exact fun h => h
  | act f k ih => rintro s s' ⟨n, t, t', h1, h2, h3⟩; exact ⟨n, t, t', h1, h2, ih n h3⟩

theorem Op.Passes.waits {α β : Type} {s s' : State} {o : Op α} {g : α → Op β} {a : α} (h : o.Passes s s' a)
    (hg : (g a).Waits s s') : (o.bind g).Waits s s' := by
  induction o with
  | ret b => cases h; exact hg
  | again n => exact h.elim
  | txn f k ih => exact h.elim
  | act f k ih => obtain ⟨n, h1, h2, h3⟩ := h; exact ⟨n, s, s', h1, h2, ih n h3⟩

theorem Op.Passes.step {s s' : State} {f : State → Ans} {n : Nat} (h : f s = .go n s) (h' : f s' = .go n s') :
    (Op.step f).Passes s s' n := ⟨n, h, h', rfl⟩

theorem Op.Passes.get {s s' : State} {f : State → Nat} (h : f s' = f s) : (Op.get f).Passes s s' (f s) :=
  ⟨f s, rfl, by simp only [h], rfl⟩

theorem Op.Waits.run {o : Op (Except Err Res)} : ∀ {s s' : State}, o.Waits s s' →
    ∀ seen, o.run none [] seen s = o.run none [] seen s' := by
  induction o with
  | ret a => exact fun h => h.elim
  | again n => exact fun h => h.elim
  | txn f k ih =>
    intro s s' h seen
    have h : takeTurns s.turns s = takeTurns s'.turns s' := h
    simp only [Op.run, spend, h]
  | act f k ih =>
    rintro s s' ⟨n, t, t', h1, h2, h3⟩ seen
    simp only [Op.run, spend, h1, h2]
    exact ih n h3 _

/-- An operation that waits for a transaction goes on from the state after the turn before it. -/
theorem Op.Waits.yields {α : Type} {s s' t : State} {o : Op α} {a : α} (h : o.Waits s s') (hy : o.Yields s' a t) :
    o.Yields s a t := by
  intro k seen
  obtain ⟨seen', e⟩ := hy k seen
  exact ⟨seen', by rw [h.bind.run, e]⟩

section

variable {s s' : State} {i : Nat} {rb : Rb} {a : U32}

theorem contextCheck_passes (h : s.rbs[i]? = some rb) (hr : s'.rbs = s.rbs) (ha : s'.atomic = s.atomic)
    (hu : (rb.sleeps && s.atomic) = false) : (contextCheck i).Passes s s' 0 :=
  .step (by simp [State.onRb, h, hu]) (by simp [State.onRb, hr, h, ha, hu])

theorem capability_passes (h : s.rbs[i]? = some rb) (hr : s'.rbs = s.rbs) (f : Rb → Bool) :
    (capability i f).Passes s s' (if f rb then 1 else 0) :=
  .step (by simp [State.onRb, h]) (by simp [State.onRb, hr, h])

theorem backendOf_passes (h : s.rbs[i]? = some rb) (hr : s'.rbs = s.rbs) :
    (backendOf i).Passes s s' rb.backend.code :=
  .step (by simp [State.onRb, h]) (by simp [State.onRb, hr, h])

/-- The beginning of an MDIO access does not matter to the turns. -/
def SameTurnsBegun (s s' : State) (i : Nat) : Prop :=
  s'.me = s.me ∧ ∀ f : Rb → Rb, SameTurns (s.modRb i f) (s'.modRb i f)

theorem slaveSelectHigh_waits {g : Nat → Op (Except Err Nat)} (h : s.rbs[i]? = some rb) (hr : s'.rbs = s.rbs)
    (ht : SameTurns s s') (hg : (g 0).Waits s s') : ((slaveSelectHigh i a).q g).Waits s s' := by
  simp only [Op.q, slaveSelectHigh, Op.bind_assoc]
  by_cases hit : rb.aa1Cache = some (aa1Word a)
  · have hp : (aa1Is i (aa1Word a)).Passes s s' 1 :=
      .step (by simp [State.onRb, h, hit]) (by simp [State.onRb, hr, h, hit])
    exact hp.waits hg
  · have hp : (aa1Is i (aa1Word a)).Passes s s' 0 :=
      .step (by simp [State.onRb, h, hit]) (by simp [State.onRb, hr, h, hit])
    exact hp.waits ht

theorem mdioAccess_waits {x : Op (Except Err Nat)} (h : s.rbs[i]? = some rb) (hr : s'.rbs = s.rbs)
    (hb : rb.busy = none) (ht : SameTurnsBegun s s' i)
    (hx : x.Waits (s.modRb i fun r => { r with busy := some s.me.id }) (s'.modRb i fun r => { r with busy := some s.me.id })) :
    (mdioAccess i x).Waits s s' := by
  have e : s'.me.id = s.me.id := by rw [ht.1]
  exact ⟨0, _, _, by simp [State.onRb, h, hb], by simp [State.onRb, hr, h, hb, e], hx.bind⟩

theorem slaveRead16On_waits (h : s.rbs[i]? = some rb) (hr : s'.rbs = s.rbs) (hb : rb.busy = none)
    (ht : SameTurnsBegun s s' i) (ha : isOdd a = false) : (slaveRead16On i a).Waits s s' := by
  rw [slaveRead16On, evenOnly_even ha]
  refine mdioAccess_waits h hr hb ht ?_
  refine slaveSelectHigh_waits (rb := { rb with busy := some s.me.id }) (getElem?_modify_self _ _ _ _ h) ?_ (ht.2 _) (ht.2 _)
  simp [State.modRb, hr]

theorem read16On_waits (h : s.rbs[i]? = some rb) (hr : s'.rbs = s.rbs) (ha : s'.atomic = s.atomic)
    (hu : s.MayUse rb) (ht : SameTurns s s') (hb : SameTurnsBegun s s' i) (hreach : rb.reaches a = true) :
    (read16On i a).Waits s s' := by
  refine (contextCheck_passes h hr ha hu.1).waits ((backendOf_passes h hr).waits ?_)
  cases hk : rb.backend <;> simp only [hk, Rb.reaches, Backend.code, Bool.not_eq_true',
    Bool.and_eq_true, decide_eq_true_eq] at hreach ⊢
  · rw [mmioRead16On, evenOnly_even hreach]; exact ht
  · exact ht
  · exact slaveRead16On_waits h hr hu.2 hb hreach
  · rw [bridgeRead16On, evenOnly_even hreach.1]
    have hp : (bridgeRange i a).Passes s s' 0 :=
      .step (by simp only [State.onRb, h]; rw [if_neg (by omega)])
        (by simp only [State.onRb, hr, h]; rw [if_neg (by omega)])
    exact hp.waits (mdioAccess_waits h hr hu.2 hb (hb.2 _))

theorem read32On_waits (h : s.rbs[i]? = some rb) (hr : s'.rbs = s.rbs) (ha : s'.atomic = s.atomic)
    (hu : s.MayUse rb) (ht : SameTurns s s') (hb : SameTurnsBegun s s' i)
    (hreach : rb.reaches32 rb.hasRead32 a = true) : (read32On i a).Waits s s' := by
  refine (contextCheck_passes h hr ha hu.1).waits ((capability_passes h hr _).waits ?_)
  cases hn : rb.hasRead32 with
  | true =>
    rw [hn] at hreach
    simp only [if_true]
    rw [nativeRead32On, alignedOnly_aligned hreach]; exact ht
  | false =>
    simp only [hn, Rb.reaches32, Bool.false_eq_true, if_false, Bool.and_eq_true] at hreach
    simp only [Bool.false_eq_true, if_false, Nat.zero_ne_one]
    exact (read16On_waits h hr ha hu ht hb hreach.1).bind

end

theorem env_turns (s : State) (e : Env) (l : List Turn) : ({ s with turns := l } : State).env e = { s.env e with turns := l } := by
  cases e with
  | tsPulse d =>
    simp only [State.env, State.tsPulse]
    cases s.tss[d]? with
    | none => rfl
    | some t =>
      simp only
      split
      · simp only [afterDraws_eq]; rfl
      · rfl
  | _ => rfl

theorem takeTurns_turns (l m : List Turn) : ∀ s : State, takeTurns l { s with turns := m } = takeTurns l s := by
  induction l with
  | nil => intro s; rfl
  | cons x r ih =>
    intro s
    cases x with
    | go => rfl
    | fail b => rfl
    | preempt => rfl
    | env e => simp only [takeTurns, env_turns, ih]

theorem takeTurns_env {s : State} {e : Env} {l : List Turn} (h : s.turns = .env e :: l) :
    takeTurns s.turns s = takeTurns l { s.env e with turns := l } := by
  rw [h, takeTurns]
  exact (takeTurns_turns l l (s.env e)).symm

end Sys2Proof.Machine
end

