-- ==== Sys2Proof/Laws/Nco.lean ====
section
/-!
SUPPORT. Runs of an NCO operation: where such a run stands (`NcoRun`), and what each of its parts (lock, register read,
register write, command, poll, host time) does to it, over any backend.
-/

namespace Sys2Proof.Machine

open Sys2Proof

/-- A run of an operation on NCO `d` that began in state `s0` stands in state `s`: the device's cells are `m`, the AA1
cache holds `c`, the turns still to come are `L`, and everything else is as in `s0` but for the bookkeeping of the bus.
-/
structure NcoRun (s0 : State) (d : Nat) (n : Nco) (i : Nat) (rb : Rb) (m : Nco) (c : Option U16) (L : List Turn)
    (s : State) : Prop where
  still : s.still i = (s0.modNco d fun _ => m).still i
  inst : s.rbs[i]? = some { rb with aa1Cache := c, busy := none }
  turns : s.turns = L
  res : m.res = n.res
  spin : m.spin = n.spin
  later : s0.Later s

section

variable {s0 s : State} {d i : Nat} {n m : Nco} {rb : Rb} {res : Resource} {c : Option U16} {L : List Turn}

theorem NcoWired.start (w : NcoWired s0 d n res i rb) (x : Instr) (ho : s0.Idle)
    (hx : atomicOp (some x) = false) : NcoWired (s0.start x) d n res i rb where
  device := w.device
  resource := w.resource
  names := w.names
  use := by
    refine ⟨?_, w.use.2⟩
    have h := w.use.1
    have e : (s0.start x).atomic = s0.atomic := by
      simp only [State.atomic, State.start, ho.1, hx]; rfl
    rw [e]; exact h
  kept := w.kept
  free := w.free
  lockKind := w.lockKind
  commands := w.commands
  reads := fun r hr hs => by
    obtain ⟨h1, h2⟩ := w.reads r hr hs
    exact ⟨h1, h2⟩
  writes := fun r hr => by
    obtain ⟨h1, h2⟩ := w.writes r hr
    exact ⟨h1, h2⟩

theorem modify_const_self {α : Type} (l : List α) (d : Nat) (x : α) (h : l[d]? = some x) : l.modify d (fun _ => x) = l :=
  modify_self _ _ _ fun y hy => by rw [h] at hy; cases hy; rfl

/-- A run begins with the cells the device has. -/
theorem NcoRun.begin (w : NcoWired s0 d n res i rb) : NcoRun s0 d n i rb n rb.aa1Cache s0.turns s0 where
  still := by
    have : s0.modNco d (fun _ => n) = s0 := by
      simp only [State.modNco, modify_const_self _ _ _ w.device]
    rw [this]
  inst := by
    rw [w.names.1]
    have := w.use.2
    cases rb; cases this; rfl
  turns := rfl
  res := rfl
  spin := rfl
  later := .refl s0

theorem NcoRun.board (r : NcoRun s0 d n i rb m c L s) : s.board = s0.board := by
  rw [State.of_still_board r.still]; rfl

theorem NcoRun.ncos (r : NcoRun s0 d n i rb m c L s) : s.ncos = s0.ncos.modify d fun _ => m :=
  State.of_still_ncos r.still

theorem NcoRun.device (w : NcoWired s0 d n res i rb) (r : NcoRun s0 d n i rb m c L s) : s.ncos[d]? = some m := by
  rw [r.ncos]; exact getElem?_modify_self _ _ _ _ w.device

theorem NcoRun.map (w : NcoWired s0 d n res i rb) (r : NcoRun s0 d n i rb m c L s) : SameMap s0 s := by
  refine SameMap.trans (t := s0.modNco d fun _ => m) ⟨rfl, rfl, ?_, rfl, rfl⟩ (State.of_still_sameMap r.still)
  apply List.ext_getElem?; intro k
  simp only [State.modNco, List.getElem?_map, List.getElem?_modify]
  split
  · rename_i hk; subst hk; simp [w.device, r.res]
  · simp

theorem NcoRun.me (r : NcoRun s0 d n i rb m c L s) : s.me = s0.me := by
  have := State.of_still_me r.still; exact this

theorem NcoRun.atomic (w : NcoWired s0 d n res i rb) (r : NcoRun s0 d n i rb m c L s) (hs : rb.sleeps = true) :
    s.atomic = false := by
  have h0 : s0.atomic = false := by have := w.use.1; rw [hs] at this; simpa using this
  have hm : m.spin = false := by rw [r.spin, w.lockKind, hs]; rfl
  have h1 : s.atomic = (s0.modNco d fun _ => m).atomic := State.of_still_atomic r.still
  rw [h1]
  simp only [State.atomic, Bool.or_eq_false_iff, State.modNco] at h0 ⊢
  refine ⟨h0.1, ?_⟩
  rw [List.any_eq_false] at h0 ⊢
  intro x hx
  obtain ⟨k, hk⟩ := List.getElem?_of_mem hx
  rw [List.getElem?_modify] at hk
  cases hd : s0.ncos[k]? with
  | none => simp [hd] at hk
  | some y =>
    simp only [hd, Option.map_eq_map, Option.map_some, Option.some.injEq] at hk
    split at hk
    · rw [← hk]; simp [hm]
    · subst hk; exact h0.2 _ (List.mem_of_getElem? hd)

theorem NcoRun.use (w : NcoWired s0 d n res i rb) (r : NcoRun s0 d n i rb m c L s) :
    s.MayUse { rb with aa1Cache := c, busy := none } := by
  refine ⟨?_, rfl⟩
  show (rb.sleeps && s.atomic) = false
  cases hs : rb.sleeps with
  | false => rfl
  | true => rw [r.atomic w hs]; rfl

theorem NcoRun.names (w : NcoWired s0 d n res i rb) (r : NcoRun s0 d n i rb m c L s) :
    s.Names res.bus i { rb with aa1Cache := c, busy := none } := by
  refine ⟨r.inst, ?_⟩
  have h := w.names.2
  have hh : s.handles = s0.handles := by rw [State.of_still_handles r.still]; rfl
  cases hb : res.bus with
  | inst j => rw [hb] at h; exact h
  | handle k => rw [hb] at h; rw [hh]; exact h

/-- The device's cells are updated. -/
theorem NcoRun.mod (r : NcoRun s0 d n i rb m c L s) (f : Nco → Nco)
    (hr : (f m).res = m.res) (hp : (f m).spin = m.spin) :
    NcoRun s0 d n i rb (f m) c L (s.modNco d f) where
  still := by
    have h : (s.modNco d f).still i = (s.still i).modNco d f := rfl
    have h2 : ((s0.modNco d fun _ => m).still i).modNco d f = (s0.modNco d fun _ => f m).still i := by
      simp only [State.still, State.modNco, State.modRb, modify_modify]
    rw [h, r.still, h2]
  inst := r.inst
  turns := r.turns
  res := hr.trans r.res
  spin := hp.trans r.spin
  later := r.later

/-- Bus bookkeeping after an update of the device's hardware. -/
theorem NcoRun.quiet (r : NcoRun s0 d n i rb m c L s) {c' : Option U16} {k : Nat}
    {t : State} (f : Nco → Nco) (hr : (f m).res = m.res) (hp : (f m).spin = m.spin)
    (q : Quiet (s.modNco d f) i { rb with aa1Cache := c, busy := none } c' k t) :
    NcoRun s0 d n i rb (f m) c' (L.drop k) t where
  still := q.still.trans (r.mod f hr hp).still
  inst := q.inst
  turns := by rw [q.turns]; show s.turns.drop k = _; rw [r.turns]
  res := hr.trans r.res
  spin := hp.trans r.spin
  later := r.later.trans q.later

theorem NcoRun.quiet' (r : NcoRun s0 d n i rb m c L s) {c' : Option U16} {k : Nat}
    {t : State} (q : Quiet s i { rb with aa1Cache := c, busy := none } c' k t) :
    NcoRun s0 d n i rb m c' (L.drop k) t where
  still := q.still.trans r.still
  inst := q.inst
  turns := by rw [q.turns, r.turns]
  res := r.res
  spin := r.spin
  later := r.later.trans q.later

theorem NcoRun.dropped (r : NcoRun s0 d n i rb m c L s) {L' : List Turn}
    (k : Nat) (h : L = (List.replicate k Turn.go ++ L').drop k) : NcoRun s0 d n i rb m c L' s := by
  rw [List.drop_left' (by simp)] at h
  subst h; exact r

/-! ### Parts of a run -/

theorem NcoRun.onNco (w : NcoWired s0 d n res i rb) (r : NcoRun s0 d n i rb m c L s) (f : Nco → Ans) :
    s.onNco d f = f m := by
  simp [State.onNco, r.device w]

theorem NcoRun.addr (w : NcoWired s0 d n res i rb) (r : NcoRun s0 d n i rb m c L s) (x : NcoReg) :
    s.ncoAddr d x = res.base + s0.board.ncoMap.off x := by
  simp [State.ncoAddr, r.device w, r.res, w.resource, baseOf, r.board]

theorem ncoReg_yields (w : NcoWired s0 d n res i rb) (r : NcoRun s0 d n i rb m c L s) {x : NcoReg}
    {f : Nat → U32 → Op (Except Err Nat)} {Q : Nat → State → Prop}
    (h : (f i (res.base + s0.board.ncoMap.off x)).EndsOk s Q) : (ncoReg d x f).EndsOk s Q := by
  obtain ⟨v, t, hy, hq⟩ := h
  refine ⟨v, t, .bind (.step (n := i) (t := s) ?_) (.bind (.get _) ?_), hq⟩
  · rw [r.onNco w, r.res, w.resource]
    exact (r.names w).resolve
  · rw [r.addr w, BitVec.ofNat_toNat, BitVec.setWidth_eq]
    exact hy

/-- A register read in a run. -/
theorem ncoRead_drop (w : NcoWired s0 d n res i rb) {x : NcoReg} (hx : x ∈ NcoReg.readable)
    (hsub : x ≠ .subnsec ∨ s0.board.readSubnsec = true)
    (r : NcoRun s0 d n i rb m c L s) (hc : s.Clear (rb.cost rb.hasRead32 c (res.base + s0.board.ncoMap.off x))) :
    (ncoRead d x).EndsOk s fun v t => (∃ y, v = (m.hw.word s0.board y x).toNat) ∧
      NcoRun s0 d n i rb m (rb.cacheAfter rb.hasRead32 c (res.base + s0.board.ncoMap.off x))
        (L.drop (rb.cost rb.hasRead32 c (res.base + s0.board.ncoMap.off x))) t := by
  obtain ⟨hr, hs⟩ := w.reads x hx hsub
  have hs' : s.ShowsNco i d x (res.base + s0.board.ncoMap.off x) := by
    refine ⟨?_, ?_⟩
    · rw [readTarget_congr (r.map w)]; exact hs.1
    · rw [readTarget_congr (r.map w)]; exact hs.2
  refine ncoReg_yields w r ((read32On_nco r.inst (r.use w) hr hs' (r.device w) hc).mono ?_)
  rintro v t ⟨⟨y, hy⟩, q⟩
  exact ⟨⟨y, by rw [hy, r.board]⟩, r.quiet' q⟩

theorem ncoRead_run (w : NcoWired s0 d n res i rb) {x : NcoReg} (hx : x ∈ NcoReg.readable)
    (hsub : x ≠ .subnsec ∨ s0.board.readSubnsec = true) {l : List Beat}
    (r : NcoRun s0 d n i rb m c (rb.script d c (.readAt (res.base + s0.board.ncoMap.off x) :: l)) s) :
    (ncoRead d x).EndsOk s fun v t => (∃ y, v = (m.hw.word s0.board y x).toNat) ∧
      ∃ c', NcoRun s0 d n i rb m c' (rb.script d c' l) t :=
  (ncoRead_drop w hx hsub r (State.clear_replicate _ _ _ r.turns)).mono fun _ _ h =>
    ⟨h.1, _, h.2.dropped (rb.cost rb.hasRead32 c (res.base + s0.board.ncoMap.off x)) rfl⟩

/-- A register write in a run. -/
theorem ncoWrite_run (w : NcoWired s0 d n res i rb) {x : NcoReg} (hx : x ∈ NcoReg.writable) (v : U32) {l : List Beat}
    (r : NcoRun s0 d n i rb m c (rb.script d c (.writeAt (res.base + s0.board.ncoMap.off x) :: l)) s) :
    (ncoWrite d x v).EndsOk s fun _ t =>
      ∃ c', NcoRun s0 d n i rb { m with hw := m.hw.store s0.board x (.whole v) } c' (rb.script d c' l) t := by
  obtain ⟨hr, hs⟩ := w.writes x hx
  have hs' : s.TakesNco i d x (res.base + s0.board.ncoMap.off x) := by
    refine ⟨?_, ?_⟩
    · rw [writeTarget_congr (r.map w)]; exact hs.1
    · rw [writeTarget_congr (r.map w)]; exact hs.2
  refine ncoReg_yields w r ((write32On_nco r.inst (r.use w) hr hs' ?_).mono ?_)
  · exact State.clear_replicate _ (rb.cost rb.hasWrite32 c _) _ r.turns
  · intro y t q
    rw [r.board] at q
    have := r.quiet (fun m => { m with hw := m.hw.store s0.board x (.whole v) }) rfl rfl q
    exact ⟨_, this.dropped (rb.cost rb.hasWrite32 c (res.base + s0.board.ncoMap.off x)) rfl⟩

/-- A command in a run. -/
theorem ncoCommand_run (w : NcoWired s0 d n res i rb) (x : Cmd) {l : List Beat}
    (r : NcoRun s0 d n i rb m c (rb.script d c (.writeAt (res.base + s0.board.ncoMap.cmd) :: l)) s) :
    (ncoCommand d x).EndsOk s fun _ t =>
      ∃ c', NcoRun s0 d n i rb { m with hw := m.hw.addPending s0.board (s0.board.cmdMask x) } c'
        (rb.script d c' l) t := by
  refine Op.Ends.thenOk (Op.Yields.ends (.get _) (Q := fun a t => a = (s0.board.cmdMask x).toNat ∧ t = s) ?_) ?_
  · exact ⟨by rw [r.board], rfl⟩
  · rintro a t ⟨rfl, rfl⟩
    rw [BitVec.ofNat_toNat, BitVec.setWidth_eq]
    exact ncoWrite_run w (x := .cmd) (by decide) _ r

/-- The device's hardware after it was asked to complete a command. -/
def NcoHw.asked (h : NcoHw) (replaces : Bool) (e : Cmd) : NcoHw :=
  if h.pending e then h.complete replaces e else h

/-- A register read in a run after the hardware has completed a command. -/
theorem ncoRead_deferred (w : NcoWired s0 d n res i rb) {x : NcoReg} (hx : x ∈ NcoReg.readable)
    (hsub : x ≠ .subnsec ∨ s0.board.readSubnsec = true) (e : Cmd) {l : List Beat}
    (r : NcoRun s0 d n i rb m c (rb.script d c (.complete e :: .readAt (res.base + s0.board.ncoMap.off x) :: l)) s) :
    (ncoRead d x).EndsOk s fun v t =>
      (∃ y, v = ((m.hw.asked s0.board.adjReplacesStep e).word s0.board y x).toNat) ∧
      ∃ c', NcoRun s0 d n i rb { m with hw := m.hw.asked s0.board.adjReplacesStep e } c' (rb.script d c' l) t := by
  have r' : NcoRun s0 d n i rb { m with hw := m.hw.asked s0.board.adjReplacesStep e } c
      (rb.script d c (.readAt (res.base + s0.board.ncoMap.off x) :: l))
      { s.env (.ncoComplete d e) with
        turns := rb.script d c (.readAt (res.base + s0.board.ncoMap.off x) :: l) } := by
    have h := r.mod (fun m => { m with hw := m.hw.asked s0.board.adjReplacesStep e }) rfl rfl
    exact ⟨by rw [← h.still, ← r.board]; rfl, h.inst, rfl, h.res, h.spin, h.later⟩
  obtain ⟨v, t, hy, hq⟩ := ncoRead_run w hx hsub r'
  obtain ⟨hr, -⟩ := w.reads x hx hsub
  refine ⟨v, t, ?_, hq⟩
  have ht : ∀ f : Rb → Rb, SameTurns (s.modRb i f) (State.modRb { s.env (.ncoComplete d e) with
      turns := rb.script d c (.readAt (res.base + s0.board.ncoMap.off x) :: l) } i f) := by
    intro f
    show takeTurns s.turns (s.modRb i f) = _
    exact takeTurns_env (s := s.modRb i f) r.turns
  refine Op.Waits.yields (s' := { s.env (.ncoComplete d e) with
    turns := rb.script d c (.readAt (res.base + s0.board.ncoMap.off x) :: l) }) ?_ hy
  refine Op.Passes.waits (a := i) (.step ?_ ?_) (Op.Passes.waits (.get ?_) ?_)
  · rw [r.onNco w, r.res, w.resource]; exact (r.names w).resolve
  · rw [r'.onNco w, r'.res, w.resource]; exact (r'.names w).resolve
  · rw [r.addr w, r'.addr w]
  · rw [r.addr w, BitVec.ofNat_toNat, BitVec.setWidth_eq]
    refine read32On_waits r.inst rfl ?_ (r.use w) ?_ ⟨rfl, ht⟩ hr
    · show (s.ncoComplete d e).atomic = s.atomic
      exact State.modNcoHw_atomic s d _
    · exact takeTurns_env r.turns

/-- The lock is taken. -/
theorem ncoAcquire_run (w : NcoWired s0 d n res i rb) (r : NcoRun s0 d n i rb m c L s) (hl : m.lock = none) :
    (ncoAcquire d).Ends s fun _ t => NcoRun s0 d n i rb { m with lock := some s0.me.id } c L t := by
  refine Op.Yields.ends (.step (n := 0) (t := s.modNco d fun m => { m with lock := some s0.me.id }) ?_) ?_
  · rw [r.onNco w]
    have : (!m.spin && s.atomic) = false := by
      cases hs : m.spin with
      | true => rfl
      | false =>
        have : rb.sleeps = true := by
          have h := w.lockKind; rw [← r.spin, hs] at h; cases hr : rb.sleeps
          · rw [hr] at h; cases h
          · rfl
        rw [r.atomic w this]; rfl
    simp [this, hl, r.me]
  · exact r.mod (fun m => { m with lock := some s0.me.id }) rfl rfl

/-- The lock is released. -/
theorem ncoRelease_run (r : NcoRun s0 d n i rb m c L s) :
    (ncoRelease d).Ends s fun _ t => NcoRun s0 d n i rb { m with lock := none } c L t :=
  Op.Yields.ends (.set _) (r.mod (fun m => { m with lock := none }) rfl rfl)

/-- A locked section in a run. -/
theorem ncoLocked_run {α : Type} (w : NcoWired s0 d n res i rb) {o : Op (Except Err α)}
    {Q : Except Err α → State → Prop} (r : NcoRun s0 d n i rb m c L s) (hl : m.lock = none)
    (ho : ∀ t, NcoRun s0 d n i rb { m with lock := some s0.me.id } c L t → o.Ends t fun a u =>
      ∃ m' c' L', NcoRun s0 d n i rb m' c' L' u ∧
        ∀ v, NcoRun s0 d n i rb { m' with lock := none } c' L' v → Q a v) :
    (ncoLocked d o).Ends s Q := by
  refine (ncoAcquire_run w r hl).bind fun _ t ht => (ho t ht).bind ?_
  rintro a u ⟨m', c', L', hu, hQ⟩
  exact (ncoRelease_run hu).bind fun _ v hv => Op.Yields.ends (.ret a) (hQ v hv)

/-- The host's time in a run: two draws, normalized. -/
theorem hostNow_run (r : NcoRun s0 d n i rb m c L s) :
    hostNow.Ends s fun h t => (∃ k, h = s0.hostDrawn k) ∧ NcoRun s0 d n i rb m c L t := by
  refine Op.Yields.ends (.bind (.step rfl) (.bind (.step rfl) (.ret _))) ⟨?_, ?_⟩
  · obtain ⟨k, hk⟩ := r.later.drawn
    have h0 : s.drawn = (s0.afterDraws k).drawn := hk 0
    have h1 : s.afterDraw.drawn = (s0.afterDraws (k + 1)).drawn := hk 1
    refine ⟨k, ?_⟩
    rw [State.hostDrawn, ← h0, ← h1]
    congr 1
    apply BitVec.eq_of_toNat_eq; simp
  · exact ⟨by rw [← r.still]; rfl, r.inst, r.turns, r.res, r.spin, r.later.trans (s.later_afterDraws 2)⟩

theorem hostDrawn_nsec (s : State) (k : Nat) : (s.hostDrawn k).2.toNat < Config.giga := by
  simp only [State.hostDrawn, BitVec.toNat_ofNat, Config.giga]; omega

/-- A cell of the device in a run. -/
theorem ncoGet_run (w : NcoWired s0 d n res i rb) (r : NcoRun s0 d n i rb m c L s) (f : Nco → Nat) :
    (ncoGet d f).Yields s (f m) s := .step (by rw [r.onNco w])

theorem cmdTest_run (r : NcoRun s0 d n i rb m c L s) (x : Cmd) (v : U32) :
    (cmdTest x v.toNat).Yields s (s0.board.cmdSet v x).toNat s := by
  have : (s0.board.cmdSet v x).toNat = (fun s : State => (s.board.cmdSet (BitVec.ofNat 32 v.toNat) x).toNat) s := by
    simp [r.board]
  rw [this]; exact .get _

end

/-! ### Command words -/

theorem cmdBits_disjoint {b : Board} (h : b.CmdBits) {x y : Cmd} (hxy : x ≠ y) : b.cmdMask x &&& b.cmdMask y = 0 := by
  obtain ⟨-, -, -, h1, h2, h3⟩ := h
  cases x <;> cases y <;> first | exact absurd rfl hxy | assumption | (rw [BitVec.and_comm]; assumption)

theorem cmdBits_nonzero {b : Board} (h : b.CmdBits) (x : Cmd) : b.cmdMask x ≠ 0 := by
  obtain ⟨h1, h2, h3, -⟩ := h
  cases x <;> assumption

/-- A command register's word has a command's bit set exactly when the command is pending. -/
theorem cmdSet_cmdWord {b : Board} (hb : b.CmdBits) (h : NcoHw) (v : U32) (x : Cmd) :
    b.cmdSet (h.cmdWord b v) x = h.pending x := by
  have key : h.cmdWord b v &&& b.cmdMask x = b.cmdBit (h.pending x) x := by
    have d := fun y (hy : x ≠ y) => cmdBits_disjoint hb hy
    have hbit : ∀ (on : Bool) (y : Cmd), b.cmdBit on y &&& b.cmdMask x = if on then b.cmdMask y &&& b.cmdMask x else 0 := by
      intro on y; cases on <;> simp [Board.cmdBit]
    have hfree : (v &&& ~~~(b.cmdRead ||| b.cmdAdjClock ||| b.cmdAdjStep)) &&& b.cmdMask x = 0 := by
      apply BitVec.eq_of_getLsbD_eq; intro k hk
      simp only [BitVec.getLsbD_and, BitVec.getLsbD_not, BitVec.getLsbD_or, hk, decide_true, Bool.true_and]
      cases x <;> simp only [Board.cmdMask] <;>
        cases b.cmdRead.getLsbD k <;> cases b.cmdAdjClock.getLsbD k <;> cases b.cmdAdjStep.getLsbD k <;> simp
    have dist : ∀ p q r : U32, (p ||| q) &&& r = (p &&& r) ||| (q &&& r) := by
      intro p q r; ext k hk; simp [Bool.and_or_distrib_right]
    rw [NcoHw.cmdWord, dist, hfree, show ∀ y : U32, 0 ||| y = y from fun y => by simp, dist, dist, hbit, hbit, hbit]
    have hz : ∀ y, y ≠ x → b.cmdMask y &&& b.cmdMask x = 0 := fun y hy => cmdBits_disjoint hb hy
    cases x
    · rw [hz .adjClock (by decide), hz .adjStep (by decide)]
      cases hp : h.pendRead <;> simp [NcoHw.pending, Board.cmdBit, hp]
    · rw [hz .read (by decide), hz .adjStep (by decide)]
      cases hp : h.pendAdjClock <;> simp [NcoHw.pending, Board.cmdBit, hp]
    · rw [hz .read (by decide), hz .adjClock (by decide)]
      cases hp : h.pendAdjStep <;> simp [NcoHw.pending, Board.cmdBit, hp]
  simp only [Board.cmdSet, key, Board.cmdBit]
  have := cmdBits_nonzero hb x
  cases hp : h.pending x <;> simp_all

theorem cmdSet_mask {b : Board} (hb : b.CmdBits) (x y : Cmd) : b.cmdSet (b.cmdMask x) y = decide (x = y) := by
  by_cases h : x = y
  · subst h
    have := cmdBits_nonzero hb x
    simpa [Board.cmdSet] using this
  · simp [Board.cmdSet, cmdBits_disjoint hb h, h]

/-- One command is added to the pending ones. -/
def NcoHw.addOne (h : NcoHw) : Cmd → NcoHw
  | .read => { h with pendRead := true }
  | .adjClock => { h with pendAdjClock := true }
  | .adjStep => { h with pendAdjStep := true }

theorem addPending_mask {b : Board} (hb : b.CmdBits) (h : NcoHw) (x : Cmd) :
    h.addPending b (b.cmdMask x) = h.addOne x := by
  cases x <;> simp [NcoHw.addPending, NcoHw.addOne, cmdSet_mask hb]

theorem complete_not_pending (h : NcoHw) (r : Bool) (x : Cmd) : (h.complete r x).pending x = false := by
  cases x with
  | read => rfl
  | adjStep => rfl
  | adjClock =>
    simp only [NcoHw.complete, NcoHw.tick, NcoHw.pending]
    cases hp : h.pendAdjClock <;> simp [NcoHw.tickAdjust, NcoHw.tickNormal, hp]

section

variable {s0 s : State} {d i : Nat} {n m : Nco} {rb : Rb} {res : Resource} {c : Option U16} {L : List Turn}

/-- A poll that finds its command done at the first read. -/
theorem cmdPollFrom_clear (w : NcoWired s0 d n res i rb) (x : Cmd) (budget : Nat) (hp : m.hw.pending x = false)
    (r : NcoRun s0 d n i rb m c L s)
    (hc : s.Clear (rb.cost rb.hasRead32 c (res.base + s0.board.ncoMap.cmd))) :
    (cmdPollFrom d x budget).EndsOk s fun _ t =>
      NcoRun s0 d n i rb m (rb.cacheAfter rb.hasRead32 c (res.base + s0.board.ncoMap.cmd))
        (L.drop (rb.cost rb.hasRead32 c (res.base + s0.board.ncoMap.cmd))) t := by
  have go : ∀ g : Op (Except Err Nat), ((ncoRead d .cmd).q fun v => (cmdTest x v).bind fun set =>
      if set = 0 then .ok 0 else g).EndsOk s fun _ t =>
      NcoRun s0 d n i rb m (rb.cacheAfter rb.hasRead32 c (res.base + s0.board.ncoMap.cmd))
        (L.drop (rb.cost rb.hasRead32 c (res.base + s0.board.ncoMap.cmd))) t := by
    intro g
    refine (ncoRead_drop w (x := .cmd) (by decide) (.inl (by decide)) r hc).qOk ?_
    rintro v t ⟨⟨y, rfl⟩, ht⟩
    refine ⟨0, t, .bind (cmdTest_run ht x _) ?_, ht⟩
    simp only [NcoHw.word, cmdSet_cmdWord w.commands, hp, Bool.toNat_false, if_true]
    exact .ok 0
  cases budget with
  | zero => exact go _
  | succ b => exact go _

/-- A poll whose command is never completed times out after one read more than its budget (rule R303). -/
theorem cmdPollFrom_timeout (w : NcoWired s0 d n res i rb) (x : Cmd) (hp : m.hw.pending x = true) :
    ∀ (budget : Nat) (c : Option U16) (s : State), NcoRun s0 d n i rb m c [] s →
      (cmdPollFrom d x budget).Ends s fun a t => a = .error .timeout ∧ ∃ c', NcoRun s0 d n i rb m c' [] t := by
  intro budget
  have hread : ∀ (c : Option U16) (s : State), NcoRun s0 d n i rb m c [] s → (ncoRead d .cmd).EndsOk s fun v t =>
      (∃ y, v = (m.hw.word s0.board y .cmd).toNat) ∧ ∃ c', NcoRun s0 d n i rb m c' [] t := fun c s r =>
    (ncoRead_drop w (x := .cmd) (by decide) (.inl (by decide)) r (s.clear_of_nil r.turns _)).mono fun v t h =>
      ⟨h.1, _, by have := h.2; rwa [List.drop_nil] at this⟩
  induction budget with
  | zero =>
    intro c s r
    refine (hread c s r).q ?_
    rintro v t ⟨⟨y, rfl⟩, c', ht⟩
    refine Op.Yields.ends (.bind (cmdTest_run ht x _) ?_) ⟨rfl, c', ht⟩
    simp only [NcoHw.word, cmdSet_cmdWord w.commands, hp, Bool.toNat_true, Nat.one_ne_zero, if_false]
    exact .raise _
  | succ b ih =>
    intro c s r
    refine (hread c s r).q ?_
    rintro v t ⟨⟨y, rfl⟩, c', ht⟩
    refine (Op.Yields.ends (cmdTest_run ht x _) (Q := fun a u => a = 1 ∧ u = t) ?_).bind ?_
    · simp [NcoHw.word, cmdSet_cmdWord w.commands, hp]
    · rintro a u ⟨rfl, rfl⟩
      simp only [Nat.one_ne_zero, if_false]
      exact ih c' u ht

/-- A poll that finds its command pending a number of times within its budget, before the hardware completes it. -/
theorem cmdPollFrom_run (w : NcoWired s0 d n res i rb) (x : Cmd) (hp : m.hw.pending x = true) (l : List Beat) :
    ∀ (p budget : Nat) (c : Option U16) (s : State), p ≤ budget →
      NcoRun s0 d n i rb m c (rb.script d c (pollBeats s0.board res.base p x ++ l)) s →
      (cmdPollFrom d x budget).EndsOk s fun _ t =>
        ∃ c', NcoRun s0 d n i rb { m with hw := m.hw.complete s0.board.adjReplacesStep x } c' (rb.script d c' l) t := by
  intro p
  induction p with
  | zero =>
    intro budget c s _ r
    have go : ∀ g : Op (Except Err Nat), ((ncoRead d .cmd).q fun v => (cmdTest x v).bind fun set =>
        if set = 0 then .ok 0 else g).EndsOk s fun _ t =>
        ∃ c', NcoRun s0 d n i rb { m with hw := m.hw.complete s0.board.adjReplacesStep x } c' (rb.script d c' l) t := by
      intro g
      have hr := ncoRead_deferred w (x := .cmd) (by decide) (.inl (by decide)) x r
      simp only [NcoHw.asked, hp, if_true] at hr
      refine hr.qOk ?_
      rintro v t ⟨⟨y, rfl⟩, c', ht⟩
      refine ⟨0, t, .bind (cmdTest_run ht x _) ?_, c', ht⟩
      simp only [NcoHw.word, cmdSet_cmdWord w.commands, complete_not_pending, Bool.toNat_false, if_true]
      exact .ok 0
    cases budget with
    | zero => exact go _
    | succ b => exact go _
  | succ p ih =>
    intro budget c s hb r
    cases budget with
    | zero => omega
    | succ b =>
      refine (ncoRead_run w (x := .cmd) (by decide) (.inl (by decide)) r).qOk ?_
      rintro v t ⟨⟨y, rfl⟩, c', ht⟩
      refine (Op.Yields.ends (cmdTest_run ht x _) (Q := fun a u => a = 1 ∧ u = t) ?_).thenOk ?_
      · simp [NcoHw.word, cmdSet_cmdWord w.commands, hp]
      · rintro a u ⟨rfl, rfl⟩
        simp only [Nat.one_ne_zero, if_false]
        exact ih b c' u (by omega) ht

/-! ### Operations -/

theorem addOne_pending (h : NcoHw) (x : Cmd) : (h.addOne x).pending x = true := by cases x <;> rfl

/-- A command and its poll in a run. -/
theorem command_run (w : NcoWired s0 d n res i rb) (x : Cmd) {p : Nat} (hp : p ≤ Config.pollBudget) {l : List Beat}
    (r : NcoRun s0 d n i rb m c
      (rb.script d c (.writeAt (res.base + s0.board.ncoMap.cmd) :: (pollBeats s0.board res.base p x ++ l))) s) :
    ((ncoCommand d x).q fun _ => cmdPollOn d x).EndsOk s fun _ t =>
      ∃ c', NcoRun s0 d n i rb { m with hw := (m.hw.addOne x).complete s0.board.adjReplacesStep x } c'
        (rb.script d c' l) t := by
  refine (ncoCommand_run w x r).qOk ?_
  rintro _ t ⟨c', ht⟩
  rw [addPending_mask w.commands] at ht
  exact cmdPollFrom_run (m := { m with hw := m.hw.addOne x }) w x (addOne_pending _ _) l p _ c' t hp ht

theorem q_assoc {α β γ : Type} (x : Op (Except Err α)) (g : α → Op (Except Err β)) (k : β → Op (Except Err γ)) :
    (x.q g).q k = x.q fun a => (g a).q k := by
  simp only [Op.q, Op.bind_assoc]
  congr 1
  funext r
  cases r <;> rfl

end

/-! ### The words of a latched snapshot -/

theorem lowHalf_withHalf (old : U32) (v : U16) : lowHalf (withHalf false old v) = v := by
  simp [withHalf]

theorem join_extract48 (v : U48) : ((v.extractLsb' 32 16 : U16) ++ (v.extractLsb' 0 32 : U32) : BitVec (16 + 32)) = v := by
  apply BitVec.eq_of_getLsbD_eq; intro k hk
  rw [BitVec.getLsbD_append]
  split
  · rename_i h
    rw [BitVec.getLsbD_extractLsb']; simp [h]
  · rw [BitVec.getLsbD_extractLsb', show 32 + (k - 32) = k by omega]
    simp [show k - 32 < 16 by omega]

/-- The time and counter that the five latched words give. -/
theorem latched_counter (h : NcoHw) (b : Board) (x y : U32) :
    counterOfWords (h.latch.word b x .cntHi) (h.latch.word b y .cntLo) = h.counter := by
  simp only [NcoHw.word, NcoHw.latch, counterOfWords, lowHalf_overDraw, lowHalf_withHalf]
  exact join_extract48 h.counter

theorem toNat_split48 (v : U48) :
    (v.extractLsb' 32 16 : U16).toNat * 2 ^ 32 + (v.extractLsb' 0 32 : U32).toNat = v.toNat := by
  simp only [BitVec.extractLsb'_toNat, Nat.shiftRight_eq_div_pow]
  have := v.isLt
  omega

theorem latched_time (h : NcoHw) (b : Board) (x y z : U32) :
    timeOfWords (h.latch.word b x .secHi) (h.latch.word b y .secLo) (h.latch.word b z .nsec) =
      (BitVec.ofNat 64 (normalize h.sec.toNat h.nsec.toNat).1, BitVec.ofNat 32 (normalize h.sec.toNat h.nsec.toNat).2) := by
  have h3 : ((h.latch.word b z .nsec).setWidth 30).toNat = h.nsec.toNat := by
    simp only [NcoHw.word, NcoHw.latch, nsec_overDraw]
    rw [BitVec.setWidth_setWidth_of_le _ (by decide)]
    simp
  simp only [timeOfWords, h3]
  simp only [NcoHw.word, NcoHw.latch, lowHalf_overDraw, lowHalf_withHalf, toNat_split48]

end Sys2Proof.Machine
end

