-- ==== Sys2Proof/Laws/NcoOps.lean ====
section
/-!
SUPPORT. Whole NCO operations as runs: what `read_time`, `adjust_time`, `adjust_frequency` and the two locked sections of
`init_registers` answer and leave, over any backend, when their commands complete within the poll budget.
-/

namespace Sys2Proof.Machine

open Sys2Proof

/-- The result of `read_time` in a run from `s` when the hardware's cells are `h`. -/
structure ReadsTime (s : State) (b : Board) (h : NcoHw) (r : TimeResult) : Prop where
  counter : r.counter = h.counter
  sec : r.sec = BitVec.ofNat 64 (normalize h.sec.toNat h.nsec.toNat).1
  nsec : r.nsec = BitVec.ofNat 32 (normalize h.sec.toNat h.nsec.toNat).2
  subnsec : b.readSubnsec = false → r.subnsec = 0
  src : ∃ k, (r.srcSec, r.srcNsec) = s.hostDrawn k

section

variable {s0 s : State} {d i : Nat} {n m : Nco} {rb : Rb} {res : Resource} {c : Option U16} {L : List Turn}

theorem ncoSubnsec_run (w : NcoWired s0 d n res i rb) {l : List Beat}
    (r : NcoRun s0 d n i rb m c
      (rb.script d c ((if s0.board.readSubnsec then [.readAt (res.base + s0.board.ncoMap.subnsec)] else []) ++ l)) s) :
    (ncoSubnsec d).EndsOk s fun v t => (s0.board.readSubnsec = false → v = 0) ∧
      ∃ c', NcoRun s0 d n i rb m c' (rb.script d c' l) t := by
  refine Op.Ends.thenOk (Op.Yields.ends (.get _) (Q := fun a t => a = s0.board.readSubnsec.toNat ∧ t = s) ?_) ?_
  · exact ⟨by rw [r.board], rfl⟩
  · rintro a t ⟨rfl, rfl⟩
    cases hs : s0.board.readSubnsec with
    | false =>
      rw [hs] at r
      exact ⟨0, t, .ok 0, fun _ => rfl, c, r⟩
    | true =>
      rw [hs] at r
      refine (ncoRead_run w (x := .subnsec) (by decide) (.inr hs) r).mono ?_
      rintro v t ⟨-, h⟩
      exact ⟨fun h => (by cases h), h⟩

theorem readTimeOn_run (w : NcoWired s0 d n res i rb) {p : Nat} (hp : p ≤ Config.pollBudget) {l : List Beat}
    (r : NcoRun s0 d n i rb m c (rb.script d c (readTimeBeats s0.board res.base p ++ l)) s) (hl : m.lock = none) :
    (readTimeOn d).Ends s fun a t => ∃ v, a = .ok v ∧ ReadsTime s0 s0.board m.hw v ∧
      ∃ c', NcoRun s0 d n i rb { m with hw := m.hw.latch } c' (rb.script d c' l) t := by
  refine ncoLocked_run w r hl fun t ht => ?_
  simp only [readTimeBeats, List.cons_append, List.append_assoc] at ht
  refine (ncoCommand_run w .read ht).q ?_
  rintro _ t1 ⟨c1, h1⟩
  rw [addPending_mask w.commands] at h1
  refine (cmdPollFrom_run (m := { m with lock := some s0.me.id, hw := m.hw.addOne .read }) w .read rfl _ p _ c1 t1 hp
    h1).q ?_
  rintro _ t2 ⟨c2, h2⟩
  have h2 : NcoRun s0 d n i rb { m with lock := some s0.me.id, hw := m.hw.latch } c2 _ t2 := h2
  refine (ncoRead_run w (x := .cntLo) (by decide) (.inl (by decide)) h2).q ?_
  rintro _ t3 ⟨⟨y3, rfl⟩, c3, h3⟩
  refine (ncoRead_run w (x := .cntHi) (by decide) (.inl (by decide)) h3).q ?_
  rintro _ t4 ⟨⟨y4, rfl⟩, c4, h4⟩
  refine (ncoRead_run w (x := .secLo) (by decide) (.inl (by decide)) h4).q ?_
  rintro _ t5 ⟨⟨y5, rfl⟩, c5, h5⟩
  refine (ncoRead_run w (x := .secHi) (by decide) (.inl (by decide)) h5).q ?_
  rintro _ t6 ⟨⟨y6, rfl⟩, c6, h6⟩
  refine (ncoRead_run w (x := .nsec) (by decide) (.inl (by decide)) h6).q ?_
  rintro _ t7 ⟨⟨y7, rfl⟩, c7, h7⟩
  refine (ncoSubnsec_run w h7).q ?_
  rintro sub t8 ⟨hsub, c8, h8⟩
  refine (hostNow_run h8).bind ?_
  rintro src t9 ⟨hsrc, h9⟩
  refine Op.Yields.ends (.ok _) ⟨_, _, _, h9, fun v hv => ⟨_, rfl, ?_, c8, ?_⟩⟩
  · constructor
    · simp only [timeResult, BitVec.ofNat_toNat, BitVec.setWidth_eq]
      exact latched_counter _ _ _ _
    · simp only [timeResult, BitVec.ofNat_toNat, BitVec.setWidth_eq, latched_time]
    · simp only [timeResult, BitVec.ofNat_toNat, BitVec.setWidth_eq, latched_time]
    · intro h; simp [timeResult, hsub h]
    · exact hsrc
  · have : ({ m with lock := none, hw := m.hw.latch } : Nco) = { m with hw := m.hw.latch } := by rw [← hl]
    rw [← this]; exact hv

theorem adjustTimeOn_run (w : NcoWired s0 d n res i rb) {p : Nat} (hp : p ≤ Config.pollBudget) {l : List Beat}
    (sign : U32) (sec : U64) (nsec : U32) (hn : nsec.toNat < 2 ^ 31)
    (r : NcoRun s0 d n i rb m c (rb.script d c (adjustTimeBeats s0.board res.base p ++ l)) s) (hl : m.lock = none) :
    (adjustTimeOn d sign sec nsec).EndsOk s fun _ t =>
      ∃ c', NcoRun s0 d n i rb
        { m with
          hw := (m.hw.stageAdjust (adjustWords sign sec nsec m.currentStepNsec.toNat).1
            (adjustWords sign sec nsec m.currentStepNsec.toNat).2).tickAdjust s0.board.adjReplacesStep }
        c' (rb.script d c' l) t := by
  have key : (adjustTimeOn d sign sec nsec).Ends s fun a t => ∃ v, a = .ok v ∧
      ∃ c', NcoRun s0 d n i rb
        { m with
          hw := (m.hw.stageAdjust (adjustWords sign sec nsec m.currentStepNsec.toNat).1
            (adjustWords sign sec nsec m.currentStepNsec.toNat).2).tickAdjust s0.board.adjReplacesStep }
        c' (rb.script d c' l) t := by
    unfold adjustTimeOn
    rw [if_neg (by omega)]
    refine ncoLocked_run w r hl fun t ht => ?_
    simp only [adjustTimeBeats, List.cons_append, List.nil_append] at ht
    refine (Op.Yields.ends (ncoGet_run w ht _) (Q := fun a u => a = m.currentStepNsec.toNat ∧ u = t) ⟨rfl, rfl⟩).bind ?_
    rintro a u ⟨rfl, rfl⟩
    refine (ncoWrite_run w (x := .adjSecHi) (by decide) _ ht).q ?_
    rintro _ t1 ⟨c1, h1⟩
    refine (ncoWrite_run w (x := .adjSecLo) (by decide) _ h1).q ?_
    rintro _ t2 ⟨c2, h2⟩
    refine (ncoWrite_run w (x := .adjNsec) (by decide) _ h2).q ?_
    rintro _ t3 ⟨c3, h3⟩
    refine (ncoCommand_run w .adjClock h3).q ?_
    rintro _ t4 ⟨c4, h4⟩
    rw [addPending_mask w.commands] at h4
    obtain ⟨v, t5, hy, c5, h5⟩ := cmdPollFrom_run w .adjClock rfl _ p Config.pollBudget c4 t4 hp h4
    refine Op.Yields.ends hy ⟨_, c5, _, h5, fun u hu => ⟨v, rfl, c5, ?_⟩⟩
    have : ∀ x : NcoHw, ({ m with lock := none, hw := x } : Nco) = { m with hw := x } := fun x => by rw [← hl]
    rw [← this]; exact hu
  obtain ⟨a, t, hy, v, rfl, h⟩ := key
  exact ⟨v, t, hy, h⟩

theorem initStage_run (w : NcoWired s0 d n res i rb) {l : List Beat}
    (r : NcoRun s0 d n i rb m c (rb.script d c (.writeAt (res.base + s0.board.ncoMap.stepNsec) ::
      .writeAt (res.base + s0.board.ncoMap.stepSubnsec) :: l)) s) (hl : m.lock = none) :
    (initStage d).EndsOk s fun _ t =>
      ∃ c', NcoRun s0 d n i rb
        { m with hw := { m.hw with stageStepNsec := m.nominalNsec.setWidth 32, stageStepSubnsec := m.nominalSubnsec } }
        c' (rb.script d c' l) t := by
  have key : (initStage d).Ends s fun a t => ∃ v, a = .ok v ∧
      ∃ c', NcoRun s0 d n i rb
        { m with hw := { m.hw with stageStepNsec := m.nominalNsec.setWidth 32, stageStepSubnsec := m.nominalSubnsec } }
        c' (rb.script d c' l) t := by
    refine ncoLocked_run w r hl fun t ht => ?_
    refine (Op.Yields.ends (ncoGet_run w ht _) (Q := fun a u => a = m.nominalNsec.toNat ∧ u = t) ⟨rfl, rfl⟩).bind ?_
    rintro a u ⟨rfl, rfl⟩
    refine (ncoWrite_run w (x := .stepNsec) (by decide) _ ht).q ?_
    rintro _ t1 ⟨c1, h1⟩
    refine (Op.Yields.ends (ncoGet_run w h1 _) (Q := fun a u => a = m.nominalSubnsec.toNat ∧ u = t1) ⟨rfl, rfl⟩).bind ?_
    rintro a u ⟨rfl, rfl⟩
    obtain ⟨v, t2, hy, c2, h2⟩ := ncoWrite_run w (x := .stepSubnsec) (by decide) (BitVec.ofNat 32 m.nominalSubnsec.toNat) h1
    refine Op.Yields.ends hy ⟨_, c2, _, h2, fun u hu => ⟨v, rfl, c2, ?_⟩⟩
    have e : ∀ x : NcoHw, ({ m with lock := none, hw := x } : Nco) = { m with hw := x } := fun x => by rw [← hl]
    have e1 : BitVec.ofNat 32 m.nominalNsec.toNat = m.nominalNsec.setWidth 32 := by
      apply BitVec.eq_of_toNat_eq; simp
    have e2 : BitVec.ofNat 32 m.nominalSubnsec.toNat = m.nominalSubnsec := by simp
    rw [e1, e2] at hu
    rw [← e]; exact hu
  obtain ⟨a, t, hy, v, rfl, h⟩ := key
  exact ⟨v, t, hy, h⟩

theorem initCommit_run (w : NcoWired s0 d n res i rb) {p : Nat} (hp : p ≤ Config.pollBudget) {l : List Beat}
    (r : NcoRun s0 d n i rb m c
      (rb.script d c (.writeAt (res.base + s0.board.ncoMap.cmd) :: (pollBeats s0.board res.base p .adjStep ++ l))) s)
    (hl : m.lock = none) :
    (initCommit d).EndsOk s fun _ t =>
      ∃ c', NcoRun s0 d n i rb { m with hw := m.hw.takeStep, currentStepNsec := m.nominalNsec } c' (rb.script d c' l) t := by
  have key : (initCommit d).Ends s fun a t => ∃ v, a = .ok v ∧
      ∃ c', NcoRun s0 d n i rb { m with hw := m.hw.takeStep, currentStepNsec := m.nominalNsec } c'
        (rb.script d c' l) t := by
    refine ncoLocked_run w r hl fun t ht => ?_
    refine (ncoCommand_run w .adjStep ht).q ?_
    rintro _ t1 ⟨c1, h1⟩
    rw [addPending_mask w.commands] at h1
    refine (cmdPollFrom_run w .adjStep rfl _ p _ c1 t1 hp h1).q ?_
    rintro _ t2 ⟨c2, h2⟩
    have h3 := h2.mod (fun n => { n with currentStepNsec := n.nominalNsec }) rfl rfl
    refine Op.Yields.ends (.bind (.set _) (.ok 0)) ⟨_, c2, _, h3, fun u hu => ⟨0, rfl, c2, ?_⟩⟩
    have e : ∀ (x : NcoHw) (y : BitVec 6), ({ m with lock := none, hw := x, currentStepNsec := y } : Nco) =
        { m with hw := x, currentStepNsec := y } := fun x y => by rw [← hl]
    rw [← e]; exact hu
  obtain ⟨a, t, hy, v, rfl, h⟩ := key
  exact ⟨v, t, hy, h⟩

/-- `adjust_frequency` with a step that fits. -/
theorem adjustFrequencyOn_run (w : NcoWired s0 d n res i rb) {p : Nat} (hp : p ≤ Config.pollBudget) {l : List Beat}
    (ppb : U32) {nsec sub : Nat} (hs : newStep m.nominal48.toNat (ppbDelta s0.board.ppb m.scale ppb) = some (nsec, sub))
    (r : NcoRun s0 d n i rb m c (rb.script d c (adjustFrequencyBeats s0.board res.base p ++ l)) s) (hl : m.lock = none) :
    (adjustFrequencyOn d ppb).EndsOk s fun _ t =>
      ∃ c', NcoRun s0 d n i rb
        { m with
          hw := { m.hw with stageStepNsec := BitVec.ofNat 32 nsec, stageStepSubnsec := BitVec.ofNat 32 sub }.takeStep
          currentStepNsec := BitVec.ofNat 6 nsec }
        c' (rb.script d c' l) t := by
  have hsub : sub < 2 ^ 32 := by
    unfold newStep at hs
    simp only at hs
    split at hs
    · cases hs
    · simp only [Option.some.injEq, Prod.mk.injEq] at hs
      omega
  have key : (adjustFrequencyOn d ppb).Ends s fun a t => ∃ v, a = .ok v ∧
      ∃ c', NcoRun s0 d n i rb
        { m with
          hw := { m.hw with stageStepNsec := BitVec.ofNat 32 nsec, stageStepSubnsec := BitVec.ofNat 32 sub }.takeStep
          currentStepNsec := BitVec.ofNat 6 nsec }
        c' (rb.script d c' l) t := by
    refine ncoLocked_run w r hl fun t ht => ?_
    simp only [adjustFrequencyBeats, List.cons_append, List.nil_append] at ht
    obtain ⟨v, hv⟩ : ∃ v, v = nsec * 2 ^ 32 + sub := ⟨_, rfl⟩
    have e1 : v / 2 ^ 32 = nsec := by omega
    have e2 : BitVec.ofNat 32 v = BitVec.ofNat 32 sub := by
      apply BitVec.eq_of_toNat_eq; simp only [BitVec.toNat_ofNat]; omega
    have hst : stepAnswer t.board.ppb ppb { m with lock := some s0.me.id } = v + 1 := by
      simp only [stepAnswer, ht.board, hs, hv]
    clear hv hsub hs
    refine (Op.Yields.ends (.step (n := v + 1) (t := t) ?_) (Q := fun a u => a = v + 1 ∧ u = t) ⟨rfl, rfl⟩).bind ?_
    · rw [ht.onNco w, hst]
    rintro a u ⟨rfl, rfl⟩
    simp only
    rw [e1, e2]
    refine (ncoWrite_run w (x := .stepNsec) (by decide) _ ht).q ?_
    rintro _ t1 ⟨c1, h1⟩
    refine (ncoWrite_run w (x := .stepSubnsec) (by decide) _ h1).q ?_
    rintro _ t2 ⟨c2, h2⟩
    refine (ncoCommand_run w .adjStep h2).q ?_
    rintro _ t3 ⟨c3, h3⟩
    rw [addPending_mask w.commands] at h3
    refine (cmdPollFrom_run w .adjStep rfl _ p _ c3 t3 hp h3).q ?_
    rintro _ t4 ⟨c4, h4⟩
    have h5 := h4.mod (fun n => { n with currentStepNsec := BitVec.ofNat 6 nsec }) rfl rfl
    refine Op.Yields.ends (.bind (.set _) (.ok 0)) ⟨_, c4, _, h5, fun u hu => ⟨0, rfl, c4, ?_⟩⟩
    have e : ∀ (x : NcoHw) (y : BitVec 6), ({ m with lock := none, hw := x, currentStepNsec := y } : Nco) =
        { m with hw := x, currentStepNsec := y } := fun x y => by rw [← hl]
    rw [← e]; exact hu
  obtain ⟨a, t, hy, v, rfl, h⟩ := key
  exact ⟨v, t, hy, h⟩

end

end Sys2Proof.Machine
end

