-- ==== Sys2Proof/Laws/PerInstr.lean ====
section
/-!
SUPPORT. The family of statements made for every operation: its bytes begin with its operation word and are no more
than the longest operation's.
-/

namespace Sys2Proof

@[simp] theorem putBus_length (b : BusRef) : (putBus b).length = 3 := by cases b <;> rfl

theorem putResource_length (x : Option Resource) : (putResource x).length ≤ 7 := by
  rcases x with _ | ⟨_ | _, a⟩ <;> simp [putResource, putIndex, put16, put32]

theorem putStep_length (x : Option StepReq) : (putStep x).length ≤ 9 := by
  rcases x with _ | ⟨n, s⟩ <;> simp [putStep, put32]

@[simp] theorem putCmd_length (c : Cmd) : (putCmd c).length = 1 := by cases c <;> rfl

@[simp] theorem putLinkMode_length (m : LinkMode) : (putLinkMode m).length = 1 := by cases m <;> rfl

@[simp] theorem putDMode_length (m : DMode) : (putDMode m).length = 1 := by cases m <;> rfl

@[simp] theorem putIndex_length (n : Nat) : (putIndex n).length = 2 := rfl

@[simp] theorem putKey_length (n : Nat) : (putKey n).length = 4 := rfl

@[simp] theorem put16_length (v : U16) : (put16 v).length = 2 := rfl

@[simp] theorem put32_length (v : U32) : (put32 v).length = 4 := rfl

@[simp] theorem put64_length (v : U64) : (put64 v).length = 8 := rfl

@[simp] theorem putBool_length (b : Bool) : (putBool b).length = 1 := rfl

/-- The bytes of an operation begin with its word, and are at most the longest operation's. -/
def Laws.Bounded.Statement (i : Instr) : Prop := (encode i).head? = some i.word ∧ (encode i).length ≤ maxInstrBytes

/-- No operation has more than 27 operand bytes. -/
theorem operandBytes_length (i : Instr) : i.operandBytes.length ≤ 27 := by
  cases i with
  | ncoProbe d r p q =>
    have := putResource_length r
    have := putStep_length p
    have := putStep_length q
    simp [Instr.operandBytes]
    omega
  | adpProbe p r => have := putResource_length r; simp [Instr.operandBytes]; omega
  | bestAdapterLinkMode a s => cases a <;> cases s <;> simp [Instr.operandBytes, putMask]
  | tsProbe d r l => have := putResource_length r; simp [Instr.operandBytes]; omega
  | _ => simp [Instr.operandBytes]

theorem Laws.Bounded.of_operands (i : Instr) : Laws.Bounded.Statement i :=
  ⟨rfl, Nat.succ_le_succ (operandBytes_length i)⟩

theorem Laws.Bounded.read16 (b : BusRef) (addr : U32) : Laws.Bounded.Statement (.read16 b addr) :=
  Laws.Bounded.of_operands _

theorem Laws.Bounded.write16 (b : BusRef) (addr : U32) (value : U16) : Laws.Bounded.Statement (.write16 b addr value) :=
  Laws.Bounded.of_operands _

theorem Laws.Bounded.read32 (b : BusRef) (addr : U32) : Laws.Bounded.Statement (.read32 b addr) :=
  Laws.Bounded.of_operands _

theorem Laws.Bounded.write32 (b : BusRef) (addr : U32) (value : U32) : Laws.Bounded.Statement (.write32 b addr value) :=
  Laws.Bounded.of_operands _

theorem Laws.Bounded.reset (b : BusRef) : Laws.Bounded.Statement (.reset b) :=
  Laws.Bounded.of_operands _

theorem Laws.Bounded.lookup (t : Nat) : Laws.Bounded.Statement (.lookup t) :=
  Laws.Bounded.of_operands _

theorem Laws.Bounded.release (h : Nat) : Laws.Bounded.Statement (.release h) :=
  Laws.Bounded.of_operands _

theorem Laws.Bounded.mmioRead16 (b : BusRef) (addr : U32) : Laws.Bounded.Statement (.mmioRead16 b addr) :=
  Laws.Bounded.of_operands _

theorem Laws.Bounded.mmioWrite16 (b : BusRef) (addr : U32) (value : U16) :
    Laws.Bounded.Statement (.mmioWrite16 b addr value) :=
  Laws.Bounded.of_operands _

theorem Laws.Bounded.nativeRead32 (b : BusRef) (addr : U32) : Laws.Bounded.Statement (.nativeRead32 b addr) :=
  Laws.Bounded.of_operands _

theorem Laws.Bounded.nativeWrite32 (b : BusRef) (addr : U32) (value : U32) :
    Laws.Bounded.Statement (.nativeWrite32 b addr value) :=
  Laws.Bounded.of_operands _

theorem Laws.Bounded.i2cRead16 (b : BusRef) (addr : U32) : Laws.Bounded.Statement (.i2cRead16 b addr) :=
  Laws.Bounded.of_operands _

theorem Laws.Bounded.i2cWrite16 (b : BusRef) (addr : U32) (value : U16) :
    Laws.Bounded.Statement (.i2cWrite16 b addr value) :=
  Laws.Bounded.of_operands _

theorem Laws.Bounded.slaveRead16 (b : BusRef) (addr : U32) : Laws.Bounded.Statement (.slaveRead16 b addr) :=
  Laws.Bounded.of_operands _

theorem Laws.Bounded.slaveWrite16 (b : BusRef) (addr : U32) (value : U16) :
    Laws.Bounded.Statement (.slaveWrite16 b addr value) :=
  Laws.Bounded.of_operands _

theorem Laws.Bounded.bridgeRead16 (b : BusRef) (addr : U32) : Laws.Bounded.Statement (.bridgeRead16 b addr) :=
  Laws.Bounded.of_operands _

theorem Laws.Bounded.bridgeWrite16 (b : BusRef) (addr : U32) (value : U16) :
    Laws.Bounded.Statement (.bridgeWrite16 b addr value) :=
  Laws.Bounded.of_operands _

theorem Laws.Bounded.readTime (d : Nat) : Laws.Bounded.Statement (.readTime d) :=
  Laws.Bounded.of_operands _

theorem Laws.Bounded.adjustTime (d : Nat) (sign : U32) (sec : U64) (nsec : U32) :
    Laws.Bounded.Statement (.adjustTime d sign sec nsec) :=
  Laws.Bounded.of_operands _

theorem Laws.Bounded.adjustFrequency (d : Nat) (ppb : U32) : Laws.Bounded.Statement (.adjustFrequency d ppb) :=
  Laws.Bounded.of_operands _

theorem Laws.Bounded.initRegisters (d : Nat) : Laws.Bounded.Statement (.initRegisters d) :=
  Laws.Bounded.of_operands _

theorem Laws.Bounded.ncoProbe (d : Nat) (res : Option Resource) (param prop : Option StepReq) :
    Laws.Bounded.Statement (.ncoProbe d res param prop) :=
  Laws.Bounded.of_operands _

theorem Laws.Bounded.cmdPoll (d : Nat) (c : Cmd) : Laws.Bounded.Statement (.cmdPoll d c) :=
  Laws.Bounded.of_operands _

theorem Laws.Bounded.ncoTick (d : Nat) : Laws.Bounded.Statement (.ncoTick d) :=
  Laws.Bounded.of_operands _

theorem Laws.Bounded.ncoCmdComplete (d : Nat) (c : Cmd) : Laws.Bounded.Statement (.ncoCmdComplete d c) :=
  Laws.Bounded.of_operands _

theorem Laws.Bounded.adpDetect (p : Nat) : Laws.Bounded.Statement (.adpDetect p) :=
  Laws.Bounded.of_operands _

theorem Laws.Bounded.adpSetup (p : Nat) (desired : LinkMode) (forced : Bool) :
    Laws.Bounded.Statement (.adpSetup p desired forced) :=
  Laws.Bounded.of_operands _

theorem Laws.Bounded.checkLink (p : Nat) : Laws.Bounded.Statement (.checkLink p) :=
  Laws.Bounded.of_operands _

theorem Laws.Bounded.initAdapter (p : Nat) : Laws.Bounded.Statement (.initAdapter p) :=
  Laws.Bounded.of_operands _

theorem Laws.Bounded.bestAdapterLinkMode (adapterMask sfpMask : MaskArg) :
    Laws.Bounded.Statement (.bestAdapterLinkMode adapterMask sfpMask) :=
  Laws.Bounded.of_operands _

theorem Laws.Bounded.adpProbe (p : Nat) (res : Option Resource) : Laws.Bounded.Statement (.adpProbe p res) :=
  Laws.Bounded.of_operands _

theorem Laws.Bounded.tsOpen (d : Nat) : Laws.Bounded.Statement (.tsOpen d) :=
  Laws.Bounded.of_operands _

theorem Laws.Bounded.tsClose (d h : Nat) : Laws.Bounded.Statement (.tsClose d h) :=
  Laws.Bounded.of_operands _

theorem Laws.Bounded.tsRead (d h : Nat) (bufferLen : U32) (nonblock : Bool) :
    Laws.Bounded.Statement (.tsRead d h bufferLen nonblock) :=
  Laws.Bounded.of_operands _

theorem Laws.Bounded.changeSettings (d : Nat) (mode : U32) (piSec : U64) (piNsec : U32) :
    Laws.Bounded.Statement (.changeSettings d mode piSec piNsec) :=
  Laws.Bounded.of_operands _

theorem Laws.Bounded.eventCheck (d : Nat) : Laws.Bounded.Statement (.eventCheck d) :=
  Laws.Bounded.of_operands _

theorem Laws.Bounded.enableMode (d : Nat) (m : DMode) : Laws.Bounded.Statement (.enableMode d m) :=
  Laws.Bounded.of_operands _

theorem Laws.Bounded.disableMode (d : Nat) (m : DMode) : Laws.Bounded.Statement (.disableMode d m) :=
  Laws.Bounded.of_operands _

theorem Laws.Bounded.tsProbe (d : Nat) (res : Option Resource) (irqLine : Bool) :
    Laws.Bounded.Statement (.tsProbe d res irqLine) :=
  Laws.Bounded.of_operands _

theorem Laws.Bounded.tsPulse (d : Nat) : Laws.Bounded.Statement (.tsPulse d) :=
  Laws.Bounded.of_operands _

theorem Laws.Bounded.tsIrq (d : Nat) : Laws.Bounded.Statement (.tsIrq d) :=
  Laws.Bounded.of_operands _

theorem Laws.Bounded.workerRun (d : Nat) : Laws.Bounded.Statement (.workerRun d) :=
  Laws.Bounded.of_operands _

theorem Laws.Bounded.pollFire (d : Nat) : Laws.Bounded.Statement (.pollFire d) :=
  Laws.Bounded.of_operands _

theorem Laws.Bounded.hostSignal (c : Nat) : Laws.Bounded.Statement (.hostSignal c) :=
  Laws.Bounded.of_operands _

theorem Laws.Bounded.hostTick : Laws.Bounded.Statement .hostTick :=
  Laws.Bounded.of_operands _

end Sys2Proof
end

