-- ==== Sys2Proof/Laws/Ports.lean ====
section
/-!
SUPPORT. Ports by their index (rules R52, R404): what port an index names, after an update and after a new port, and that
updates keep the indices.
-/

namespace Sys2Proof.Machine

open Sys2Proof

/-- An index names the first port that has it. -/
theorem State.portAt_eq_find (s : State) (p : Nat) : s.portAt p = s.ports.find? fun q => decide (q.port = p) :=
  List.find?_eq_getElem?_findIdx.symm

theorem State.portAt_port {s : State} {p : Nat} {q : Port} (h : s.portAt p = some q) : q.port = p := by
  rw [State.portAt_eq_find] at h
  simpa using List.find?_some h

theorem State.portAt_none {s : State} {p : Nat} : s.portAt p = none ↔ p ∉ s.ports.map (·.port) := by
  simp [State.portAt_eq_find]

theorem find_modify_port (l : List Port) (p k : Nat) (f : Port → Port) (hf : ∀ q, (f q).port = q.port) :
    (l.modify (l.findIdx fun q => decide (q.port = p)) f).find? (fun q => decide (q.port = k)) =
      if k = p then (l.find? fun q => decide (q.port = p)).map f else l.find? fun q => decide (q.port = k) := by
  induction l with
  | nil => simp
  | cons a l ih =>
    rw [List.findIdx_cons]
    by_cases h : a.port = p
    · by_cases hk : k = p
      · subst hk; simp [h, hf]
      · simp [h, hk, hf, Ne.symm hk]
    · by_cases ha : a.port = k
      · have : ¬ k = p := fun e => h (ha.trans e)
        simp [ha, this]
      · simp [h, ha, ih]

/-- An update of port `p` that keeps its index changes what `p` names and nothing else. -/
theorem State.portAt_modPort (s : State) (p k : Nat) (f : Port → Port) (hf : ∀ q, (f q).port = q.port) :
    (s.modPort p f).portAt k = if k = p then (s.portAt p).map f else s.portAt k := by
  simp only [State.portAt_eq_find]
  exact find_modify_port s.ports p k f hf

/-- A new port is named by its index where no port there was has it. -/
theorem State.portAt_append (s : State) (q : Port) (k : Nat) :
    State.portAt { s with ports := s.ports ++ [q] } k = (s.portAt k).or (if q.port = k then some q else none) := by
  simp only [State.portAt_eq_find, List.find?_append, List.find?_singleton, decide_eq_true_eq]

theorem State.modPort_indices (s : State) (p : Nat) (f : Port → Port) (hf : ∀ q, (f q).port = q.port) :
    (s.modPort p f).ports.map (·.port) = s.ports.map (·.port) := map_modify_same _ _ _ _ hf

/-- An update that keeps the index keeps the indices distinct. -/
theorem State.modPort_distinct {s : State} {p : Nat} {f : Port → Port} (hf : ∀ q, (f q).port = q.port)
    (h : s.portsDistinct = true) : (s.modPort p f).portsDistinct = true := by
  simpa only [State.portsDistinct, State.modPort_indices s p f hf] using h

/-- A new port of an index that names none keeps the indices distinct. -/
theorem State.append_distinct {s : State} {q : Port} (hn : s.portAt q.port = none) (h : s.portsDistinct = true) :
    State.portsDistinct { s with ports := s.ports ++ [q] } = true := by
  rw [State.portAt_none] at hn
  simp only [State.portsDistinct, decide_eq_true_eq] at h ⊢
  rw [List.map_append, List.nodup_append]
  refine ⟨h, by simp, fun a ha b hb => ?_⟩
  rintro rfl
  simp only [List.map_cons, List.map_nil, List.mem_singleton] at hb
  exact hn (hb ▸ ha)

@[simp] theorem State.afterDraw_distinct (s : State) : s.afterDraw.portsDistinct = s.portsDistinct := rfl

theorem State.afterDraws_ports (n : Nat) (s : State) : (s.afterDraws n).ports = s.ports := by
  induction n generalizing s with
  | zero => rfl
  | succ n ih => exact ih s.afterDraw

/-- A probe keeps the indices distinct (rule R404). -/
theorem State.probePort_distinct {s : State} (p : Nat) (r : Resource) (h : s.portsDistinct = true) :
    (s.probePort p r).portsDistinct = true := by
  unfold State.probePort
  split
  · rename_i q hq
    have e : s.afterDraw.modPort p (fun q => q.probed p r (s.drawn.testBit 0)) =
        s.afterDraw.modPort p fun x => { x.probed p r (s.drawn.testBit 0) with port := x.port } :=
      State.modPort_congr (x := q) hq (by rw [State.portAt_port hq]; rfl)
    rw [e]
    exact State.modPort_distinct (fun _ => rfl) h
  · rename_i hn
    have hq : ∀ q : Port, q.port = p → (State.portsDistinct { s with ports := s.ports ++ [q] }) = true :=
      fun q e => State.append_distinct (e ▸ hn) h
    simpa only [State.portsDistinct] using hq _ rfl

end Sys2Proof.Machine
end

