-- ==== Sys2Proof/Laws/Ts.lean ====
section
/-!
SUPPORT. Runs of a timestamper operation: where such a run stands (`TsRun`), and what each of its parts (cell, lock,
register read, register write, delivery mode, event-check) does to it, over any backend.
-/

namespace Sys2Proof.Machine

open Sys2Proof

/-- A run of an operation on timestamper `d` that began in state `s0` stands in state `s`: the device's cells are `m`, no
turn is given, and everything else is as in `s0` but for the bookkeeping of the bus. -/
structure TsRun (s0 : State) (d : Nat) (t0 : Ts) (i : Nat) (rb : Rb) (m : Ts) (c : Option U16) (s : State) : Prop where
  still : s.still i = (s0.modTs d fun _ => m).still i
  inst : s.rbs[i]? = some { rb with aa1Cache := c, busy := none }
  turns : s.turns = []
  res : m.res = t0.res

/-- An update of a timestamper's cells that does not look at the low halves its action registers keep. -/
def Ts.blind (f : Ts → Ts) : Prop := ∀ t, (f t).still = (f t.still).still

section

variable {s0 s : State} {d i : Nat} {t0 m : Ts} {rb : Rb} {res : Resource} {c : Option U16}

theorem TsWired.start (w : TsWired s0 d t0 res i rb) (x : Instr) (ho : s0.Idle)
    (hx : atomicOp (some x) = false) : TsWired (s0.start x) d t0 res i rb where
  device := w.device
  resource := w.resource
  names := w.names
  use := by
    refine ⟨?_, w.use.2⟩
    have h := w.use.1
    have e : (s0.start x).atomic = s0.atomic := by
      simp only [State.atomic, State.start, ho.1, hx]; rfl
    rw [e]; exact h
  kept := w.kept
  reads := fun r hr => ⟨(w.reads r hr).1, (w.reads r hr).2⟩
  writes := fun r hr => ⟨(w.writes r hr).1, (w.writes r hr).2⟩

theorem TsRun.begin (w : TsWired s0 d t0 res i rb) (ht : s0.turns = []) : TsRun s0 d t0 i rb t0 rb.aa1Cache s0 where
  still := by
    have : s0.modTs d (fun _ => t0) = s0 := by
      have h : s0.tss.modify d (fun _ => t0) = s0.tss :=
        modify_self _ _ _ fun y hy => by rw [w.device] at hy; cases hy; rfl
      simp only [State.modTs, h]
    rw [this]
  inst := by
    rw [w.names.1]
    have := w.use.2
    cases rb; cases this; rfl
  turns := ht
  res := rfl

theorem TsRun.board (r : TsRun s0 d t0 i rb m c s) : s.board = s0.board := by
  have := State.of_still_board r.still; exact this

theorem TsRun.me (r : TsRun s0 d t0 i rb m c s) : s.me = s0.me := by
  have := State.of_still_me r.still; exact this

theorem TsRun.others (r : TsRun s0 d t0 i rb m c s) : s.others = s0.others := by
  have := State.of_still_others r.still; exact this

theorem TsRun.hostTicks (r : TsRun s0 d t0 i rb m c s) : s.hostTicks = s0.hostTicks := by
  have := State.of_still_hostTicks r.still; exact this

theorem TsRun.atomic (r : TsRun s0 d t0 i rb m c s) : s.atomic = s0.atomic := by
  have := State.of_still_atomic r.still; exact this

theorem TsRun.device (w : TsWired s0 d t0 res i rb) (r : TsRun s0 d t0 i rb m c s) :
    ∃ y, s.tss[d]? = some y ∧ y.still = m.still :=
  State.of_still_ts r.still (getElem?_modify_self _ _ _ _ w.device)

theorem TsRun.map (w : TsWired s0 d t0 res i rb) (r : TsRun s0 d t0 i rb m c s) : SameMap s0 s := by
  refine SameMap.trans (t := s0.modTs d fun _ => m) ⟨rfl, rfl, rfl, ?_, rfl⟩ (State.of_still_sameMap r.still)
  apply List.ext_getElem?; intro k
  simp only [State.modTs, List.getElem?_map, List.getElem?_modify]
  split
  · rename_i hk; subst hk; simp [w.device, r.res]
  · simp

theorem TsRun.use (w : TsWired s0 d t0 res i rb) (r : TsRun s0 d t0 i rb m c s) :
    s.MayUse { rb with aa1Cache := c, busy := none } := by
  refine ⟨?_, rfl⟩
  show (rb.sleeps && s.atomic) = false
  rw [r.atomic]; exact w.use.1

theorem TsRun.names (w : TsWired s0 d t0 res i rb) (r : TsRun s0 d t0 i rb m c s) :
    s.Names res.bus i { rb with aa1Cache := c, busy := none } := by
  refine ⟨r.inst, ?_⟩
  have h := w.names.2
  have hh : s.handles = s0.handles := by have := State.of_still_handles r.still; exact this
  cases hb : res.bus with
  | inst j => rw [hb] at h; exact h
  | handle k => rw [hb] at h; rw [hh]; exact h

theorem modTs_still_eq (s : State) (i d : Nat) (f : Ts → Ts) (hf : Ts.blind f) :
    (s.modTs d f).still i = ((s.still i).modTs d f).still i := by
  simp only [State.still, State.modRb, State.modTs, modify_modify]
  congr 1
  apply List.ext_getElem?; intro n
  simp only [List.getElem?_map, List.getElem?_modify]
  split
  · cases s.tss[n]? with
    | none => rfl
    | some t => simp only [Option.map_eq_map, Option.map_some]; rw [hf t]
  · cases s.tss[n]? <;> rfl

/-- The device's cells are updated. -/
theorem TsRun.mod (r : TsRun s0 d t0 i rb m c s) (f : Ts → Ts) (hf : Ts.blind f) (hr : (f m).res = m.res) :
    TsRun s0 d t0 i rb (f m) c (s.modTs d f) where
  still := by
    rw [modTs_still_eq s i d f hf, r.still, ← modTs_still_eq (s0.modTs d fun _ => m) i d f hf]
    simp only [State.modTs, modify_modify]
  inst := r.inst
  turns := r.turns
  res := hr.trans r.res

theorem TsRun.quiet (r : TsRun s0 d t0 i rb m c s) {c' : Option U16} {k : Nat}
    {t : State} (q : Quiet s i { rb with aa1Cache := c, busy := none } c' k t) : TsRun s0 d t0 i rb m c' t where
  still := q.still.trans r.still
  inst := q.inst
  turns := by rw [q.turns, r.turns, List.drop_nil]
  res := r.res

theorem TsRun.onTs (w : TsWired s0 d t0 res i rb) (r : TsRun s0 d t0 i rb m c s) (f : Ts → Ans) :
    ∃ y, y.still = m.still ∧ s.onTs d f = f y := by
  obtain ⟨y, hy, he⟩ := r.device w
  exact ⟨y, he, by simp [State.onTs, hy]⟩

/-! ### Parts of a run -/

theorem tsGet_run (w : TsWired s0 d t0 res i rb) (r : TsRun s0 d t0 i rb m c s) (f : Ts → Nat)
    (hf : ∀ t, f t = f t.still) : (tsGet d f).Yields s (f m) s := by
  obtain ⟨y, he, hy⟩ := r.onTs w fun t => .go (f t) s
  refine .step ?_
  rw [hy, hf y, he, ← hf m]

theorem tsSet_run (r : TsRun s0 d t0 i rb m c s) (f : Ts → Ts) (hf : Ts.blind f) (hr : (f m).res = m.res) :
    (tsSet d f).Ends s fun _ t => TsRun s0 d t0 i rb (f m) c t :=
  Op.Yields.ends (.set _) (r.mod f hf hr)

theorem currentMode_run (w : TsWired s0 d t0 res i rb) (r : TsRun s0 d t0 i rb m c s) :
    (currentMode d).Yields s m.mode s := by
  refine .bind (tsGet_run w r _ fun _ => rfl) ?_
  have : DMode.ofCode m.mode.code = m.mode := by cases m.mode <;> rfl
  rw [this]; exact .ret _

theorem tsReg_yields (w : TsWired s0 d t0 res i rb) (r : TsRun s0 d t0 i rb m c s) {x : TsReg}
    {f : Nat → U32 → Op (Except Err Nat)} {Q : Nat → State → Prop}
    (h : (f i (res.base + s0.board.tsMap.off x)).EndsOk s Q) : (tsReg d x f).EndsOk s Q := by
  obtain ⟨v, t, hy, hq⟩ := h
  obtain ⟨y, hd, he⟩ := r.device w
  have hres : y.res = some res := by
    have : y.res = m.res := by have h := congrArg Ts.res he; exact h
    rw [this, r.res, w.resource]
  refine ⟨v, t, .bind (.step (n := i) (t := s) ?_) (.bind (.get _) ?_), hq⟩
  · simp only [State.onTs, hd, hres]
    exact (r.names w).resolve
  · have : s.tsAddr d x = res.base + s0.board.tsMap.off x := by
      simp [State.tsAddr, hd, hres, baseOf, r.board]
    rw [this, BitVec.ofNat_toNat, BitVec.setWidth_eq]
    exact hy

theorem TsHw.word_still (h h' : TsHw) (he : h.still = h'.still) (b : Board) (x : U32) (r : TsReg) :
    h.word b x r = h'.word b x r := by
  have e : ∀ k : TsHw, k.word b x r = k.still.word b x r := fun k => by cases r <;> rfl
  rw [e h, e h', he]

theorem Ts.hw_still {t t' : Ts} (h : t.still = t'.still) : t.hw.still = t'.hw.still := congrArg Ts.hw h

/-- A register read in a run. -/
theorem tsRegRead_run (w : TsWired s0 d t0 res i rb) {x : TsReg} (hx : x ∈ TsReg.readable)
    (r : TsRun s0 d t0 i rb m c s) :
    (tsRegRead d x).EndsOk s fun v t => (∃ y, v = (m.hw.word s0.board y x).toNat) ∧
      ∃ c', TsRun s0 d t0 i rb m c' t := by
  obtain ⟨hr, hs⟩ := w.reads x hx
  have hs' : s.ShowsTs i d x (res.base + s0.board.tsMap.off x) := by
    refine ⟨?_, ?_⟩
    · rw [readTarget_congr (r.map w)]; exact hs.1
    · rw [readTarget_congr (r.map w)]; exact hs.2
  obtain ⟨y, hd, he⟩ := r.device w
  refine tsReg_yields w r ((read32On_ts r.inst (r.use w) hr hs' hd (s.clear_of_nil r.turns _)).mono ?_)
  rintro v t ⟨⟨z, hz⟩, q⟩
  exact ⟨⟨z, by rw [hz, r.board, TsHw.word_still _ _ (Ts.hw_still he)]⟩, _, r.quiet q⟩

/-- A register write in a run. -/
theorem tsRegWrite_run (w : TsWired s0 d t0 res i rb) {x : TsReg} (hx : x ∈ TsReg.writable) (v : Board → U32)
    (r : TsRun s0 d t0 i rb m c s) :
    (tsRegWrite d x v).EndsOk s fun _ t =>
      ∃ c', TsRun s0 d t0 i rb (m.acted s0.board x (v s0.board)) c' t := by
  obtain ⟨hr, hs⟩ := w.writes x hx
  have hs' : s.TakesTs i d x (res.base + s0.board.tsMap.off x) := by
    refine ⟨?_, ?_⟩
    · rw [writeTarget_congr (r.map w)]; exact hs.1
    · rw [writeTarget_congr (r.map w)]; exact hs.2
  refine Op.Ends.thenOk (Op.Yields.ends (.get _) (Q := fun a t => a = (v s0.board).toNat ∧ t = s) ?_) ?_
  · exact ⟨by rw [r.board], rfl⟩
  · rintro a t ⟨rfl, rfl⟩
    rw [BitVec.ofNat_toNat, BitVec.setWidth_eq]
    refine tsReg_yields w r
      ((write32On_ts (v := v s0.board) hx r.inst (r.use w) hr hs' (t.clear_of_nil r.turns _)).mono ?_)
    intro _ u q
    have hb : Ts.blind fun m : Ts => m.acted s0.board x (v s0.board) := by
      intro y
      have e := TsHw.act_still y.hw s0.board x (v s0.board)
      have e' := TsHw.act_still y.hw.still s0.board x (v s0.board)
      have e2 : ∀ z : TsHw, ({ y with hw := z } : Ts).still = { y with hw := z.still } := fun _ => rfl
      show ({ y with hw := y.hw.act s0.board x (v s0.board) } : Ts).still =
        ({ y with hw := y.hw.still.act s0.board x (v s0.board) } : Ts).still
      rw [e2, e2, e, e']; rfl
    have h1 := r.mod (fun m => m.acted s0.board x (v s0.board)) hb rfl
    rw [r.board] at q
    exact ⟨_, q.still.trans h1.still, q.inst, by rw [q.turns]; show t.turns.drop _ = []; rw [r.turns, List.drop_nil],
      h1.res⟩

theorem wakeAll_run (r : TsRun s0 d t0 i rb m c s) :
    (wakeAll d).Ends s fun _ t => TsRun s0 d t0 i rb { m with waiters := [] } c t :=
  tsSet_run r (fun t => { t with waiters := [] }) (fun _ => rfl) rfl

theorem acquireIndex_run (w : TsWired s0 d t0 res i rb) (r : TsRun s0 d t0 i rb m c s) (hl : m.indexLock = none) :
    (acquireIndex d).Ends s fun _ t => TsRun s0 d t0 i rb { m with indexLock := some s0.me.id } c t := by
  obtain ⟨y, hd, he⟩ := r.device w
  have hly : y.indexLock = none := by rw [← hl]; have h := congrArg Ts.indexLock he; exact h
  refine Op.Yields.ends (.step (n := 0) (t := s.modTs d fun x => { x with indexLock := some s0.me.id }) ?_)
    (r.mod (fun x => { x with indexLock := some s0.me.id }) (fun _ => rfl) rfl)
  simp [State.onTs, hd, hly, r.me]

theorem releaseIndex_run (r : TsRun s0 d t0 i rb m c s) :
    (releaseIndex d).Ends s fun _ t => TsRun s0 d t0 i rb { m with indexLock := none } c t :=
  tsSet_run r (fun t => { t with indexLock := none }) (fun _ => rfl) rfl

theorem acquireCfg_run (w : TsWired s0 d t0 res i rb) (r : TsRun s0 d t0 i rb m c s) (hl : m.cfgLock = none)
    (ha : s0.atomic = false) :
    (acquireCfg d).Ends s fun _ t => TsRun s0 d t0 i rb { m with cfgLock := some s0.me.id } c t := by
  obtain ⟨y, hd, he⟩ := r.device w
  have hly : y.cfgLock = none := by rw [← hl]; have h := congrArg Ts.cfgLock he; exact h
  refine Op.Yields.ends (.step (n := 0) (t := s.modTs d fun x => { x with cfgLock := some s0.me.id }) ?_)
    (r.mod (fun x => { x with cfgLock := some s0.me.id }) (fun _ => rfl) rfl)
  simp [State.onTs, hd, hly, r.me, r.atomic, ha]

theorem releaseCfg_run (r : TsRun s0 d t0 i rb m c s) :
    (releaseCfg d).Ends s fun _ t => TsRun s0 d t0 i rb { m with cfgLock := none } c t :=
  tsSet_run r (fun t => { t with cfgLock := none }) (fun _ => rfl) rfl

theorem acquireReader_run (w : TsWired s0 d t0 res i rb) (r : TsRun s0 d t0 i rb m c s) (hl : m.readerLock = none)
    (ha : s0.atomic = false) :
    (acquireReader d).Ends s fun _ t => TsRun s0 d t0 i rb { m with readerLock := some s0.me.id } c t := by
  obtain ⟨y, hd, he⟩ := r.device w
  have hly : y.readerLock = none := by rw [← hl]; have h := congrArg Ts.readerLock he; exact h
  refine Op.Yields.ends (.step (n := 0) (t := s.modTs d fun x => { x with readerLock := some s0.me.id }) ?_)
    (r.mod (fun x => { x with readerLock := some s0.me.id }) (fun _ => rfl) rfl)
  simp [State.onTs, hd, hly, r.me, r.atomic, ha]

theorem releaseReader_run (r : TsRun s0 d t0 i rb m c s) :
    (releaseReader d).Ends s fun _ t => TsRun s0 d t0 i rb { m with readerLock := none } c t :=
  tsSet_run r (fun t => { t with readerLock := none }) (fun _ => rfl) rfl

/-- A section inside the index lock. -/
theorem underIndex_run {α : Type} (w : TsWired s0 d t0 res i rb) {o : Op α} {Q : α → State → Prop}
    (r : TsRun s0 d t0 i rb m c s) (hl : m.indexLock = none)
    (ho : ∀ t, TsRun s0 d t0 i rb { m with indexLock := some s0.me.id } c t → o.Ends t fun a u =>
      ∃ m' c', TsRun s0 d t0 i rb m' c' u ∧ ∀ v, TsRun s0 d t0 i rb { m' with indexLock := none } c' v → Q a v) :
    (underIndex d o).Ends s Q := by
  refine (acquireIndex_run w r hl).bind fun _ t ht => (ho t ht).bind ?_
  rintro a u ⟨m', c', hu, hQ⟩
  exact (releaseIndex_run hu).bind fun _ v hv => Op.Yields.ends (.ret a) (hQ v hv)

/-! ### Delivery modes -/

theorem enableModeOn_run (w : TsWired s0 d t0 res i rb) (k : DMode) (r : TsRun s0 d t0 i rb m c s) :
    (enableModeOn d k).EndsOk s fun _ t =>
      ∃ c', TsRun s0 d t0 i rb (m.enabled s0.board s0.hostTicks k) c' t := by
  refine (tsRegWrite_run w (by decide) _ r).qOk ?_
  rintro _ t ⟨c1, h1⟩
  cases k with
  | interrupt =>
    refine (tsSet_run h1 (fun t => { t with irqHooked := true }) (fun _ => rfl) rfl).thenOk ?_
    intro _ t2 h2
    obtain ⟨v, u, hy, c3, h3⟩ := tsRegWrite_run w (x := .irqEn) (by decide) (·.irqOn) h2
    exact ⟨0, u, .bind hy (.ok 0), c3, h3⟩
  | poll =>
    have h2 := h1.mod (fun x => { x with timerOn := true }) (fun _ => rfl) rfl
    have h3 := h2.mod (fun x => x.setDeadline t.board.hostHz t.hostTicks) (fun _ => rfl) rfl
    refine ⟨0, _, .bind (.set _) (.bind (.set _) (.ok 0)), c1, ?_⟩
    simp only [State.modTs_board, State.modTs_hostTicks]
    rw [h1.board, h1.hostTicks] at h3 ⊢
    exact h3
  | direct => exact ⟨0, t, .ok 0, c1, h1⟩

theorem awaitTriggers_run (w : TsWired s0 d t0 res i rb) (r : TsRun s0 d t0 i rb m c s) (ha : s0.atomic = false)
    (hd : m.triggersDone = true) : (awaitTriggers d).Yields s 0 s := by
  obtain ⟨y, hy, he⟩ := r.device w
  have : y.triggersDone = true := by
    have e : ∀ t : Ts, t.triggersDone = t.still.triggersDone := fun _ => rfl
    rw [e, he, ← e, hd]
  exact .step (by simp [State.onTs, hy, this, r.atomic, ha])

theorem disableModeOn_run (w : TsWired s0 d t0 res i rb) (k : DMode) (r : TsRun s0 d t0 i rb m c s)
    (ha : s0.atomic = false) (hd : m.triggersDone = true) :
    (disableModeOn d k).EndsOk s fun _ t => ∃ c', TsRun s0 d t0 i rb (m.disabled s0.board k) c' t := by
  cases k with
  | interrupt =>
    refine (tsSet_run r (fun t => { t with irqHooked := false }) (fun _ => rfl) rfl).thenOk ?_
    intro _ t2 h2
    obtain ⟨v, u, hy, c3, h3⟩ := tsRegWrite_run w (x := .irqEn) (by decide) (·.irqOff) h2
    exact ⟨v, u, .bind hy (.bind (awaitTriggers_run w h3 ha hd) (.ret _)), c3, h3⟩
  | poll =>
    refine (tsSet_run r (fun t => { t with timerOn := false }) (fun _ => rfl) rfl).thenOk ?_
    intro _ t2 h2
    exact ⟨0, t2, .bind (awaitTriggers_run w h2 ha hd) (.ok 0), c, h2⟩
  | direct => exact ⟨0, s, .bind (awaitTriggers_run w r ha hd) (.ok 0), c, r⟩

/-! ### One event-check at a time (rule R518) -/

/-- A handler that begins keeps the event-checks of the device to one. -/
theorem Ts.beginIrq_oneCheck {t : Ts} (h : t.irqReady = true) : t.beginIrq.oneCheck = true := by
  cases hd : t.deferred <;> simp_all [Ts.irqReady, Ts.checkFree, Ts.beginIrq, Ts.oneCheck]

/-- A worker that takes a job while no check runs keeps the event-checks of the device to one. -/
theorem Ts.takeJob_oneCheck {t : Ts} (h : t.checkFree = true) : t.takeJob.oneCheck = true := by
  simp_all [Ts.checkFree, Ts.takeJob, Ts.oneCheck]

@[simp] theorem Ts.endIrq_oneCheck (t : Ts) : t.endIrq.oneCheck = true := by simp [Ts.endIrq, Ts.oneCheck]

/-- A probe of a device keeps what runs on it. -/
@[simp] theorem Ts.probed_checkFree (t : Ts) (r : Resource) (l k : Bool) : (t.probed r l k).checkFree = t.checkFree := rfl

@[simp] theorem Ts.probed_oneCheck (t : Ts) (r : Resource) (l k : Bool) : (t.probed r l k).oneCheck = t.oneCheck := rfl

@[simp] theorem Ts.beginIrq_irqBusy (t : Ts) : t.beginIrq.irqBusy = true := by
  cases hd : t.deferred <;> simp [Ts.beginIrq, Ts.irqBusy, hd]

@[simp] theorem Ts.endIrq_irqBusy (t : Ts) : t.endIrq.irqBusy = false := rfl

/-- What `takeIrq` does on a device that is ready: the handler begins, and the answer says whether it defers. -/
theorem takeIrq_yields {s : State} {d : Nat} {t : Ts} (h : s.tss[d]? = some t) (hr : t.irqReady = true) :
    (takeIrq d).Yields s t.deferred.toNat (s.modTs d Ts.beginIrq) :=
  .step (by simp [State.onTs, h, hr])

/-! ### The event-check -/

theorem event_of_words (h : TsHw) (b : Board) (x y z u : U32) :
    eventOf (h.word b y .secLo).toNat (h.word b x .secHi).toNat (h.word b z .nsec).toNat (h.word b u .counter).toNat =
      h.event := by
  have h1 : (lowHalf (h.word b x .secHi)).toNat * 2 ^ 32 + (h.word b y .secLo).toNat = h.latSec.toNat := by
    simp only [TsHw.word, lowHalf_overDraw]
    have : lowHalf ((h.latSec.extractLsb' 32 16).setWidth 32) = h.latSec.extractLsb' 32 16 := by
      apply BitVec.eq_of_toNat_eq
      simp [lowHalf, BitVec.extractLsb'_toNat]
    rw [this]
    simp only [BitVec.extractLsb'_toNat, Nat.shiftRight_eq_div_pow]
    have := h.latSec.isLt
    omega
  have h3 : ((h.word b z .nsec).setWidth 30).toNat = h.latNsec.toNat := by
    simp only [TsHw.word, nsec_overDraw]
    rw [BitVec.setWidth_setWidth_of_le _ (by decide)]
    simp
  simp only [eventOf, BitVec.ofNat_toNat, BitVec.setWidth_eq, timeOfWords, h1, h3]
  rfl

theorem statusWord_bit (h : TsHw) (b : Board) (x : U32) (hb : b.bitNew < 32) :
    (h.statusWord b x).getLsbD b.bitNew = h.pending := by
  have h1 : ((1 : U32) <<< b.bitNew).getLsbD b.bitNew = true := by
    simp [hb]
  unfold TsHw.statusWord
  cases hp : h.pending
  · simp only [Bool.false_eq_true, if_false, BitVec.getLsbD_and, BitVec.getLsbD_not, h1]; simp
  · simp only [if_true, BitVec.getLsbD_or, h1]; simp

theorem checkFull_run (w : TsWired s0 d t0 res i rb) (r : TsRun s0 d t0 i rb m c s) (hl : m.indexLock = none) :
    (checkFull d).Ends s fun a t => a = m.stuck.toNat ∧ TsRun s0 d t0 i rb m.made c t := by
  refine underIndex_run w r hl fun t ht => ?_
  obtain ⟨y, hy, he⟩ := ht.device w
  have e1 : y.bufCount = m.bufCount := by have h := congrArg Ts.bufCount he; exact h
  have e2 : y.capacity = m.capacity := by have h := congrArg Ts.capacity he; exact h
  have e3 : y.readCount = m.readCount := by have h := congrArg Ts.readCount he; exact h
  have back : ∀ x : Ts, x.indexLock = none → ({ x with indexLock := none } : Ts) = x := fun x hx => by rw [← hx]
  by_cases h1 : m.bufCount = m.capacity <;> by_cases h2 : m.readCount = m.bufCount
  · refine Op.Yields.ends (.step (n := 0) (t := t.modTs d Ts.reclaim) ?_)
      ⟨_, c, ht.mod Ts.reclaim (fun _ => rfl) rfl, fun v hv => ⟨?_, ?_⟩⟩
    · have e4 : m.readCount = m.capacity := h2.trans h1
      simp [State.onTs, hy, e1, e2, e3, h1, e4]
    · simp [Ts.stuck, h1, h2]
    · have e4 : m.readCount = m.capacity := h2.trans h1
      have : m.made = m.reclaim := by simp [Ts.made, h1, e4]
      rw [this, ← back m.reclaim hl]; exact hv
  · refine Op.Yields.ends (.step (n := 1) (t := t) ?_) ⟨_, c, ht, fun v hv => ⟨?_, ?_⟩⟩
    · have e4 : ¬ m.readCount = m.capacity := fun h => h2 (h.trans h1.symm)
      simp [State.onTs, hy, e1, e2, e3, h1, e4]
    · have e4 : ¬ m.readCount = m.capacity := fun h => h2 (h.trans h1.symm)
      simp [Ts.stuck, h1, e4]
    · have : m.made = m := by simp [Ts.made, h2]
      rw [this, ← back m hl]; exact hv
  all_goals
    refine Op.Yields.ends (.step (n := 0) (t := t) ?_) ⟨_, c, ht, fun v hv => ⟨?_, ?_⟩⟩
    · simp [State.onTs, hy, e1, e2, h1]
    · simp [Ts.stuck, h1]
    · have : m.made = m := by simp [Ts.made, h1]
      rw [this, ← back m hl]; exact hv

theorem eventCheckOn_run (w : TsWired s0 d t0 res i rb) (r : TsRun s0 d t0 i rb m c s) (hl : m.indexLock = none)
    (hb : s0.board.bitNew < 32) :
    (eventCheckOn d).EndsOk s fun _ t =>
      ∃ c', TsRun s0 d t0 i rb
        (if m.stuck = true ∧ s0.board.fullPolicy = .skip then m
          else if m.hw.pending then m.checked s0.board else m.made) c' t := by
  refine (checkFull_run w r hl).thenOk ?_
  rintro full t ⟨rfl, h1⟩
  refine Op.Ends.thenOk (Op.Yields.ends (.get _)
    (Q := fun a u => a = (decide (s0.board.fullPolicy = .skip)).toNat ∧ u = t) ⟨by rw [h1.board], rfl⟩) ?_
  rintro skip u ⟨rfl, rfl⟩
  by_cases hskip : m.stuck = true ∧ s0.board.fullPolicy = .skip
  · have hm : m.made = m := by
      have := hskip.1
      simp only [Ts.stuck, Bool.and_eq_true, decide_eq_true_eq, Bool.not_eq_true', decide_eq_false_iff_not] at this
      simp [Ts.made, this.2]
    rw [if_pos hskip, if_pos (by simp [hskip.1, hskip.2])]
    rw [hm] at h1
    exact ⟨0, u, .ok 0, c, h1⟩
  · rw [if_neg hskip, if_neg (by
      intro h
      apply hskip
      obtain ⟨ha, hb⟩ := h
      constructor
      · cases hs : m.stuck <;> simp_all
      · by_contra hn; simp [hn] at hb)]
    have hmade : m.made.hw = m.hw := by unfold Ts.made; split <;> rfl
    refine (tsRegRead_run w (x := .status) (by decide) h1).qOk ?_
    rintro _ t2 ⟨⟨y, rfl⟩, c2, h2⟩
    refine Op.Ends.thenOk (Op.Yields.ends (.get _) (Q := fun a v => a = m.hw.pending.toNat ∧ v = t2) ⟨?_, rfl⟩) ?_
    · rw [h2.board, BitVec.ofNat_toNat, BitVec.setWidth_eq, hmade]
      show ((m.hw.statusWord s0.board y).getLsbD s0.board.bitNew).toNat = _
      rw [statusWord_bit _ _ _ hb]
    rintro isNew v ⟨rfl, rfl⟩
    cases hp : m.hw.pending with
    | false => exact ⟨0, v, .ok 0, c2, h2⟩
    | true =>
      simp only [Bool.toNat_true, Nat.one_ne_zero, if_false, if_true]
      refine (tsRegRead_run w (x := .secLo) (by decide) h2).qOk ?_
      rintro _ t3 ⟨⟨y3, rfl⟩, c3, h3⟩
      refine (tsRegRead_run w (x := .secHi) (by decide) h3).qOk ?_
      rintro _ t4 ⟨⟨y4, rfl⟩, c4, h4⟩
      refine (tsRegRead_run w (x := .nsec) (by decide) h4).qOk ?_
      rintro _ t5 ⟨⟨y5, rfl⟩, c5, h5⟩
      refine (tsRegRead_run w (x := .counter) (by decide) h5).qOk ?_
      rintro _ t6 ⟨⟨y6, rfl⟩, c6, h6⟩
      rw [event_of_words, hmade]
      refine (tsSet_run h6 (fun t => { t with lastEvent := some m.hw.event }) (fun _ => rfl) rfl).thenOk ?_
      intro _ t7 h7
      refine (tsRegWrite_run w (x := .ack) (by decide) (·.ackVal) h7).qOk ?_
      rintro _ t8 ⟨c8, h8⟩
      refine (tsRegWrite_run w (x := .arm) (by decide) (·.armVal) h8).qOk ?_
      rintro _ t9 ⟨c9, h9⟩
      cases hs : m.stuck with
      | true =>
        simp only [Bool.toNat_true, if_true]
        refine ⟨0, t9, .ok 0, c9, ?_⟩
        have : m.checked s0.board =
            (({ m.made with lastEvent := some m.hw.event } : Ts).acted s0.board .ack s0.board.ackVal).acted s0.board .arm
              s0.board.armVal := by simp [Ts.checked, hs]
        rw [this]; exact h9
      | false =>
        simp only [Bool.toNat_false, Nat.zero_ne_one, if_false]
        have hil : ∀ x : Ts, x.made.indexLock = x.indexLock := fun x => by unfold Ts.made; split <;> rfl
        have hlk : ((({ m.made with lastEvent := some m.hw.event } : Ts).acted s0.board .ack s0.board.ackVal).acted
            s0.board .arm s0.board.armVal).indexLock = none := (hil m).trans hl
        refine Op.Ends.thenOk (Q := fun _ u => TsRun s0 d t0 i rb
          (((({ m.made with lastEvent := some m.hw.event } : Ts).acted s0.board .ack s0.board.ackVal).acted
            s0.board .arm s0.board.armVal).append m.hw.event) c9 u)
          (underIndex_run w h9 hlk fun t ht => ?_) ?_
        · refine (tsSet_run ht (fun t => t.append m.hw.event) (fun _ => rfl) rfl).mono fun _ u hu => ⟨_, c9, hu, ?_⟩
          intro v hv
          have back : ∀ x : Ts, x.indexLock = none →
              ({ ({ x with indexLock := some s0.me.id } : Ts).append m.hw.event with indexLock := none } : Ts) =
                x.append m.hw.event := fun x hx => by simp only [Ts.append, ← hx]
          rw [← back _ hlk]; exact hv
        · intro _ u hu
          refine (wakeAll_run hu).thenOk fun _ v hv => ⟨0, v, .ok 0, c9, ?_⟩
          have : m.checked s0.board =
            { (((({ m.made with lastEvent := some m.hw.event } : Ts).acted s0.board .ack s0.board.ackVal).acted
              s0.board .arm s0.board.armVal).append m.hw.event) with waiters := [] } := by simp [Ts.checked, hs]
          rw [this]; exact hv

end

end Sys2Proof.Machine
end

