-- ==== Sys2Proof/Tests/Slice0.lean ====
section
/-!
SUPPORT. Small tests: ill-formed terms are refused, operation words decode, the vectors of spec/95_test_vectors.md
hold on a small board, and for every statement with hypotheses a state and operands that meet them.
-/

set_option Elab.async false

namespace Sys2Proof.Tests

open Sys2Proof Sys2Proof.Machine

/-! ### A small board -/

/-- The board of the test vectors, the OPEN addresses and bits chosen small. -/
def board : Board where
  ncoMap := ⟨0x00, 0x04, 0x08, 0x0C, 0x10, 0x14, 0x18, 0x1C, 0x20, 0x24, 0x28, 0x2C⟩
  cmdRead := 1
  cmdAdjClock := 2
  cmdAdjStep := 4
  adjReplacesStep := true
  initCheck := .lexGt
  readSubnsec := false
  ppb := .reference
  idMap := [(8, .rgmii), (3, .sgmiiOr1000BaseXOr100BaseFX)]
  adpMap := ⟨0x80, 0x82, 0x84, 0x86, 0x88, 0x8A, 0x8C, 0x8E, 0x90⟩
  bitLink := 0
  bitAn := 1
  fldSpeed := 2
  fldPcsSpeed := 4
  speedMap := ⟨.full10, .full100, .full1000, .down⟩
  setup := [⟨.rgmii, .none, true, .down, [(0x92, 1), (0x94, 2)]⟩]
  inferSfp := .reference
  tsMap := ⟨0x40, 0x44, 0x48, 0x4C, 0x50, 0x54, 0x58, 0x5C⟩
  bitNew := 0
  ackVal := 1
  armVal := 1
  irqOn := 1
  irqOff := 0
  fullPolicy := .readAndDrop
  irqLine := true
  hostHz := 100
  hostEndian := .little
  timePad := false
  settingsLayout := ⟨⟨0, 4⟩, ⟨8, 8⟩, ⟨16, 4⟩, ⟨0, 4⟩, ⟨8, 8⟩, ⟨16, 4⟩, ⟨4, 4⟩⟩
  readResultLayout := ⟨8, ⟨0, 8⟩, ⟨24, 8⟩, ⟨32, 4⟩⟩

/-- The configuration of every instance. -/
def cfg : RbCfg where
  mmioBase := 0x1000
  mmioEndian := .little
  i2cSlave := 0x50
  phy := 3
  regAA1 := 1
  regAA0 := 0
  regAD := 2
  mdioOrder := .addrFirst
  bridgeLess1 := 15
  regBAA := 4
  regBAD := 5
  bridgeOrder := .addrFirst
  resetEffect := .keep

/-- Instances 0 to 4: MMIO, MMIO with native 32-bit accesses, I2C, MDIO slave, MDIO bridge. -/
def base : State := State.resetOn board cfg

/-- Instance `i` as it is in `base`. -/
def rbOf (i : Nat) : Rb := base.rbs.getD i (Rb.create 0 "" .mmio false false cfg)

/-- NCO hardware at a time, with step (8, 0). -/
def ncoHw (sec : U48) (nsec : BitVec 30) : NcoHw := ⟨sec, nsec, 0, 6, 8, 0, 0, 0, 0, 0, 0, 0, 0, 0, 0, 0, false, false, false⟩

/-- An initialised NCO at address 0 of instance `i`. -/
def ncoOf (i : Nat) : Nco :=
  { ({ Nco.ofCells (fun _ => 0) board with hw := ncoHw 100 999999990 } : Nco).probed board ⟨.inst i, 0⟩ (!(rbOf i).sleeps) ⟨8, 0⟩ with
    initialised := true }

/-- Capture hardware that waits for its first pulse. -/
def tsHw : TsHw := ⟨true, false, 0, 0, 0, 6, false, 0, 0, 0⟩

/-- Capture hardware with an event: 5 seconds and 1000000001 nanoseconds, counter 9. -/
def tsHwEvent : TsHw := ⟨false, true, 5, 1000000001, 9, 9, true, 0, 0, 0⟩

/-- A timestamper at address 0 of instance `i`, with one open handle. -/
def tsOf (i : Nat) : Ts := { Ts.create (some ⟨.inst i, 0⟩) true (rbOf i).sleeps tsHw with useCount := 1, handles := [.held 0] }

/-- A port at address 0 of instance `i`, of a variant, with link and autonegotiation bits set and speed code 2. -/
def portOf (i : Nat) (v : Variant) : Port :=
  { Port.ofCells (fun _ => 0) 0 with
    res := some ⟨.inst i, 0⟩
    variant := v
    supported := 0xF
    anEnabled := true
    hwId := 8
    hwStatus := 0x000B
    hwPcs := 0x0010 }

/-- The three devices on instance `i`, the port of a variant. -/
def wired (i : Nat) (v : Variant) : State :=
  { base with ncos := [ncoOf i], tss := [tsOf i], ports := [portOf i v] }

/-- The timestamper of `wired i .rgmii` after an update of its cells. -/
def withTs (i : Nat) (f : Ts → Ts) : State := { wired i .rgmii with tss := [f (tsOf i)] }

/-- The NCO of `wired i .rgmii` after an update of its cells. -/
def withNco (i : Nat) (f : Nco → Nco) : State := { wired i .rgmii with ncos := [f (ncoOf i)] }

/-- A ring with these counts and its first slots filled by events whose counters are 0, 1, and so on. -/
def ring (count unread : Nat) (t : Ts) : Ts :=
  { t with
    buf := (List.range 16).map fun k => if k < count then some ⟨7, 0, BitVec.ofNat 32 k⟩ else none
    bufCount := count
    readCount := count - unread }

/-- The running agent holds the spinlocks of the NCOs, and is so in atomic context. -/
def atomically (s : State) : State := { s with ncos := s.ncos.map fun n => { n with spin := true, lock := some s.me.id } }

/-- `base` where the far end of instance `i` keeps what is written and holds these bytes (log entry 11). -/
def keeping (i : Nat) (cells : Memory) : State := { base with fars := base.fars.modify i fun _ => ⟨true, cells⟩ }

/-- What an operation leaves, seen through `f`. -/
def ran {α : Type} (i : Instr) (s : State) (f : State → α) : Option α :=
  match exec i s with
  | .next t => some (f t)
  | .fault _ => none
  | .refused _ => none

/-- The fault that an operation stops its agent with. -/
def faultOf (i : Instr) (s : State) : Option Fault :=
  match exec i s with
  | .next t => t.me.stopped
  | .fault _ => none
  | .refused _ => none

/-- The refusal an operation ends in. -/
def refusalIn (i : Instr) (s : State) : Option Refusal :=
  match exec i s with
  | .next _ => none
  | .fault _ => none
  | .refused r => some r

/-- The result an operation returned to its caller. -/
def answer (t : State) : Option Res :=
  match t.me.result with
  | some (.ok r) => some r
  | _ => none

/-- The error an operation returned to its caller. -/
def errorIn (t : State) : Option Err :=
  match t.me.result with
  | some (.error e) => some e
  | _ => none

/-- The transactions of an operation, oldest first. -/
def sent (t : State) : List Wire := t.wire.reverse.map (·.wire)

/-! ### WellFormed: an ill-formed term for each check (log entry 1) -/

theorem test_refuses_instance_index : (Instr.read16 (.inst 65536) 0).wellFormed = false := by decide
theorem test_refuses_handle_index : (Instr.read16 (.handle 65536) 0).wellFormed = false := by decide
theorem test_refuses_topology_key : (Instr.lookup 4294967296).wellFormed = false := by decide
theorem test_refuses_release_index : (Instr.release 65536).wellFormed = false := by decide
theorem test_refuses_device_index : (Instr.readTime 65536).wellFormed = false := by decide
theorem test_refuses_ts_handle_index : (Instr.tsClose 0 65536).wellFormed = false := by decide
theorem test_refuses_resource_bus : (Instr.tsProbe 0 (some ⟨.handle 65536, 0⟩) true).wellFormed = false := by decide
theorem test_refuses_nco_resource : (Instr.ncoProbe 0 (some ⟨.inst 65536, 0⟩) none none).wellFormed = false := by decide
theorem test_refuses_port_of_masks : (Instr.bestAdapterLinkMode (.port 65536) (.mask 0)).wellFormed = false := by decide
theorem test_refuses_port_of_sfp_mask : (Instr.bestAdapterLinkMode (.mask 0) (.port 65536)).wellFormed = false := by decide
theorem test_refuses_port_resource : (Instr.adpProbe 65536 none).wellFormed = false := by decide

/-! ### Decoding: the words of the table of rule R141, operands as log entry 1 lays them out -/

theorem test_decode_read16 : decode [0x01, 0, 2, 0, 0x34, 0x12, 0, 0] = .ok (.read16 (.inst 2) 0x1234, []) := by decide
theorem test_decode_write16 :
    decode [0x02, 1, 0, 1, 0x78, 0x56, 0x34, 0x12, 0xFE, 0xCA] =
      .ok (.write16 (.handle 256) 0x12345678 0xCAFE, []) := by decide
theorem test_decode_read32 : decode [0x03, 0, 0, 0, 0xFE, 0xFF, 0xFF, 0xFF] = .ok (.read32 (.inst 0) 0xFFFFFFFE, []) := by
  decide
theorem test_decode_write32 :
    decode [0x04, 0, 0, 0, 0x10, 0, 0, 0, 0xBE, 0xBA, 0xFE, 0xCA] = .ok (.write32 (.inst 0) 0x10 0xCAFEBABE, []) := by
  decide
theorem test_decode_reset : decode [0x05, 1, 3, 0, 0x65] = .ok (.reset (.handle 3), [0x65]) := by decide
theorem test_decode_lookup : decode [0x06, 4, 3, 2, 1] = .ok (.lookup 0x01020304, []) := by decide
theorem test_decode_release : decode [0x07, 2, 1] = .ok (.release 258, []) := by decide
theorem test_decode_mmio_read16 : decode [0x10, 0, 0, 0, 2, 0, 0, 0] = .ok (.mmioRead16 (.inst 0) 2, []) := by decide
theorem test_decode_mmio_write16 : decode [0x11, 0, 0, 0, 2, 0, 0, 0, 3, 4] = .ok (.mmioWrite16 (.inst 0) 2 0x0403, []) := by
  decide
theorem test_decode_native_read32 : decode [0x12, 0, 1, 0, 4, 0, 0, 0] = .ok (.nativeRead32 (.inst 1) 4, []) := by decide
theorem test_decode_native_write32 :
    decode [0x13, 0, 1, 0, 4, 0, 0, 0, 1, 2, 3, 4] = .ok (.nativeWrite32 (.inst 1) 4 0x04030201, []) := by decide
theorem test_decode_i2c_read16 : decode [0x14, 0, 2, 0, 4, 0, 0, 0] = .ok (.i2cRead16 (.inst 2) 4, []) := by decide
theorem test_decode_i2c_write16 : decode [0x15, 0, 2, 0, 4, 0, 0, 0, 5, 0] = .ok (.i2cWrite16 (.inst 2) 4 5, []) := by decide
theorem test_decode_slave_read16 : decode [0x16, 0, 3, 0, 0x10, 0, 2, 0] = .ok (.slaveRead16 (.inst 3) 0x00020010, []) := by
  decide
theorem test_decode_slave_write16 :
    decode [0x17, 0, 3, 0, 0x10, 0, 2, 0, 0xAB, 0] = .ok (.slaveWrite16 (.inst 3) 0x00020010 0x00AB, []) := by decide
theorem test_decode_bridge_read16 : decode [0x18, 0, 4, 0, 0x10, 0, 3, 0] = .ok (.bridgeRead16 (.inst 4) 0x00030010, []) := by
  decide
theorem test_decode_bridge_write16 :
    decode [0x19, 0, 4, 0, 0x10, 0, 3, 0, 1, 0] = .ok (.bridgeWrite16 (.inst 4) 0x00030010 1, []) := by decide
theorem test_decode_read_time : decode [0x21, 0, 0] = .ok (.readTime 0, []) := by decide
theorem test_decode_adjust_time :
    decode [0x22, 0, 0, 0xFF, 0xFF, 0xFF, 0xFF, 5, 0, 0, 0, 0, 0, 0, 0, 7, 0, 0, 0] =
      .ok (.adjustTime 0 0xFFFFFFFF 5 7, []) := by decide
theorem test_decode_adjust_frequency : decode [0x23, 0, 0, 0x65, 0xCD, 0x1D, 0] = .ok (.adjustFrequency 0 1953125, []) := by
  decide
theorem test_decode_init_registers : decode [0x24, 1, 0] = .ok (.initRegisters 1, []) := by decide
theorem test_decode_nco_probe :
    decode [0x25, 0, 0, 0, 1, 0, 0x20, 0, 0, 0, 1, 9, 0, 0, 0, 8, 0, 0, 0, 0] =
      .ok (.ncoProbe 0 (some ⟨.inst 1, 0x20⟩) (some ⟨9, 8⟩) none, []) := by decide
theorem test_decode_nco_probe_missing : decode [0x25, 0, 0, 2, 0, 0] = .ok (.ncoProbe 0 none none none, []) := by decide
theorem test_decode_cmd_poll : decode [0x28, 0, 0, 2] = .ok (.cmdPoll 0 .adjStep, []) := by decide
theorem test_decode_nco_tick : decode [0x30, 0, 0] = .ok (.ncoTick 0, []) := by decide
theorem test_decode_nco_cmd_complete : decode [0x31, 0, 0, 1] = .ok (.ncoCmdComplete 0 .adjClock, []) := by decide
theorem test_decode_adp_detect : decode [0x41, 0, 0] = .ok (.adpDetect 0, []) := by decide
theorem test_decode_adp_setup : decode [0x42, 0, 0, 3, 1] = .ok (.adpSetup 0 .full1000 true, []) := by decide
theorem test_decode_check_link : decode [0x43, 0, 0] = .ok (.checkLink 0, []) := by decide
theorem test_decode_init_adapter : decode [0x44, 0, 0] = .ok (.initAdapter 0, []) := by decide
theorem test_decode_best_adapter_link_mode :
    decode [0x45, 0, 0xF, 0, 0, 0xA, 0] = .ok (.bestAdapterLinkMode (.mask 0xF) (.mask 0xA), []) := by decide
theorem test_decode_best_mode_of_port :
    decode [0x45, 1, 2, 0, 1, 2, 0] = .ok (.bestAdapterLinkMode (.port 2) (.port 2), []) := by decide
theorem test_decode_adp_probe : decode [0x46, 0, 0, 1, 3, 0, 4, 0, 0, 0] = .ok (.adpProbe 0 (some ⟨.handle 3, 4⟩), []) := by decide
theorem test_decode_ts_open : decode [0x51, 0, 0] = .ok (.tsOpen 0, []) := by decide
theorem test_decode_ts_close : decode [0x52, 0, 0, 1, 0] = .ok (.tsClose 0 1, []) := by decide
theorem test_decode_ts_read : decode [0x53, 0, 0, 1, 0, 0x20, 0, 0, 0, 1] = .ok (.tsRead 0 1 32 true, []) := by decide
theorem test_decode_change_settings :
    decode [0x54, 0, 0, 2, 0, 0, 0, 1, 0, 0, 0, 0, 0, 0, 0, 3, 0, 0, 0] = .ok (.changeSettings 0 2 1 3, []) := by decide
theorem test_decode_event_check : decode [0x55, 0, 0] = .ok (.eventCheck 0, []) := by decide
theorem test_decode_enable_mode : decode [0x56, 0, 0, 1] = .ok (.enableMode 0 .poll, []) := by decide
theorem test_decode_disable_mode : decode [0x57, 0, 0, 0] = .ok (.disableMode 0 .interrupt, []) := by decide
theorem test_decode_ts_probe : decode [0x58, 0, 0, 0, 2, 0, 0, 1, 0, 0, 1] = .ok (.tsProbe 0 (some ⟨.inst 2, 0x100⟩) true, []) := by
  decide
theorem test_decode_ts_pulse : decode [0x60, 0, 0] = .ok (.tsPulse 0, []) := by decide
theorem test_decode_ts_irq : decode [0x61, 0, 0] = .ok (.tsIrq 0, []) := by decide
theorem test_decode_worker_run : decode [0x62, 0, 0] = .ok (.workerRun 0, []) := by decide
theorem test_decode_poll_fire : decode [0x63, 0, 0] = .ok (.pollFire 0, []) := by decide
theorem test_decode_host_signal : decode [0x64, 1, 0] = .ok (.hostSignal 1, []) := by decide
theorem test_decode_host_tick : decode [0x65] = .ok (.hostTick, []) := by decide
/-- X5: the word 0x20 names no operation. -/
theorem test_decode_unassigned : decode [0x20, 0, 0] = .error (.illegalOp 0x20) := by decide
theorem test_decode_bad_operand : decode [0x28, 0, 0, 3] = .error (.badOperand 3) := by decide
theorem test_decode_truncated : decode [0x22, 0, 0] = .error .truncated := by decide

/-! ### Vectors of spec/95_test_vectors.md, by number -/

/-- S11: a decomposed read of the words 0x5678 and 0x1234 at 0x100 and 0x102. -/
theorem test_S11_read32 : ran (.read32 (.inst 2) 0x100)
    (keeping 2 [(0x100, 0x78), (0x101, 0x56), (0x102, 0x34), (0x103, 0x12)])
    answer = some (some (.val32 0x12345678)) := by decide +kernel
/-- B6: a decomposed read wraps from 0xFFFFFFFE to 0. -/
theorem test_B6_read32_wraps : ran (.read32 (.inst 0) 0xFFFFFFFE)
    (keeping 0 [(0, 0x34), (1, 0x12), (0xFFFFFFFE, 0x78), (0xFFFFFFFF, 0x56)])
    answer = some (some (.val32 0x12345678)) := by decide +kernel
/-- S1: `write32` writes the low half, then the high half. -/
theorem test_S1_write32 : ran (.write32 (.inst 2) 0x10 0xCAFEBABE) base sent =
    some [.i2c 0x50 [0, 0, 0, 0x10, 0xBA, 0xBE] [], .i2c 0x50 [0, 0, 0, 0x12, 0xCA, 0xFE] []] := by decide +kernel
/-- S8: the first read through an MDIO slave instance selects the high half. -/
theorem test_S8_read16 : ran (.read16 (.inst 3) 0x00020010)
    (keeping 3 [(0x00020010, 0x11), (0x00020011, 0x22)]) sent =
    some [.mdioWrite 3 1 0x0002, .mdioWrite 3 0 0x0011, .mdioRead 3 2 0x2211] := by decide +kernel
/-- X1: the context check comes before the alignment check. -/
theorem test_X1_read16 : faultOf (.read16 (.inst 3) 0x00020011) (atomically base) = some .atomicSleep := by decide +kernel
/-- B11: `ADDR_FIRST` writes AA0, then AD. -/
theorem test_B11_write16 : ran (.write16 (.inst 3) 0x00020010 0x00AB)
    { base with rbs := base.rbs.modify 3 fun rb => { rb with aa1Cache := some 0x0002 } } sent =
    some [.mdioWrite 3 0 0x0010, .mdioWrite 3 2 0x00AB] := by decide +kernel
/-- B16: a reset drops the AA1 cache. -/
theorem test_B16_reset : ran (.reset (.inst 3))
    { base with rbs := base.rbs.modify 3 fun rb => { rb with aa1Cache := some 0x0002 } } (fun t => t.rbs[3]?.map (·.aa1Cache)) =
    some (some none) := by decide +kernel
/-- B17: no reset capability. -/
theorem test_B17_reset : ran (.reset (.inst 0)) base errorIn = some (some .unsupported) := by decide +kernel
/-- B18: no instance is bound to the key. -/
theorem test_B18_lookup : ran (.lookup 9) base errorIn = some (some .notFound) := by decide +kernel
/-- P1 line 1: one more reference and a handle. -/
theorem test_P1_lookup : ran (.lookup 3) base (fun t => (answer t, t.rbs[3]?.map (·.refs))) =
    some (some (.handle 0), some 1) := by decide +kernel
/-- B19: the second release faults. -/
theorem test_B19_release : faultOf (.release 0) { base with handles := [⟨3, true⟩] } = some .doubleRelease := by decide +kernel
/-- P1 line 8: a release lowers the count. -/
theorem test_P1_release : ran (.release 0)
    { base with handles := [⟨3, false⟩], rbs := base.rbs.modify 3 fun rb => { rb with refs := 1 } }
    (fun t => t.rbs[3]?.map (·.refs)) = some (some 0) := by decide +kernel
/-- B5: an odd address on MMIO. -/
theorem test_B5_mmio_read16 : faultOf (.mmioRead16 (.inst 0) 0x11) base = some .misaligned := by decide +kernel
/-- R206: a store at the window's base plus the address. -/
theorem test_R206_mmio_write16 : ran (.mmioWrite16 (.inst 0) 0x12 0xABCD) base sent =
    some [.ioStore 0x1012 2 0xABCD] := by decide +kernel
/-- R207: a native load needs a multiple of 4. -/
theorem test_R207_native_read32 : faultOf (.nativeRead32 (.inst 1) 0x12) base = some .misaligned := by decide +kernel
/-- R208: one store of 4 bytes. -/
theorem test_R208_native_write32 : ran (.nativeWrite32 (.inst 1) 0x100 0xCAFEBABE) base sent =
    some [.ioStore 0x1100 4 0xCAFEBABE] := by decide +kernel
/-- S7: an I2C read frame, and the two data bytes high byte first. -/
theorem test_S7_i2c_read16 : ran (.i2cRead16 (.inst 2) 0x00001234)
    (keeping 2 [(0x1234, 0xEF), (0x1235, 0xBE)]) (fun t => (answer t, sent t)) =
    some (some (.val16 0xBEEF), [.i2c 0x50 [0x00, 0x00, 0x12, 0x35] [0xBE, 0xEF]]) := by decide +kernel
/-- B2: bit 0 of the address is ignored by an I2C write. -/
theorem test_B2_i2c_write16 : ran (.i2cWrite16 (.inst 2) 0x00001235 0x00FF) base sent =
    some [.i2c 0x50 [0x00, 0x00, 0x12, 0x34, 0x00, 0xFF] []] := by decide +kernel
/-- B8: another high half is selected again. -/
theorem test_B8_slave_read16 : ran (.slaveRead16 (.inst 3) 0x00030010)
    { keeping 3 [(0x30010, 1), (0x30011, 0)] with rbs := base.rbs.modify 3 fun rb => { rb with aa1Cache := some 0x0002 } }
    (fun t => (sent t, t.rbs[3]?.map (·.aa1Cache))) =
    some ([.mdioWrite 3 1 0x0003, .mdioWrite 3 0 0x0011, .mdioRead 3 2 0x0001], some (some 0x0003)) := by decide +kernel
/-- B12: `DATA_FIRST` writes AD, then AA0. -/
theorem test_B12_slave_write16 : ran (.slaveWrite16 (.inst 3) 0x00020010 0x00AB)
    { base with rbs := base.rbs.modify 3 fun rb => { rb with aa1Cache := some 0x0002, cfg := { cfg with mdioOrder := .dataFirst } } }
    sent = some [.mdioWrite 3 2 0x00AB, .mdioWrite 3 0 0x0010] := by decide +kernel
/-- B14: the PHY part is above 31. -/
theorem test_B14_bridge_read16 : faultOf (.bridgeRead16 (.inst 4) 0x00200000) base = some .bridgeRange := by decide +kernel
/-- B15: 8 address bits, PHY 31. -/
theorem test_B15_bridge_write16 : ran (.bridgeWrite16 (.inst 4) 0x00001F42 0x1234)
    { base with rbs := base.rbs.modify 4 fun rb => { rb with cfg := { cfg with bridgeLess1 := 7 } } } sent =
    some [.mdioWrite 31 4 0x0042, .mdioWrite 31 5 0x1234] := by decide +kernel
/-- P2 line 2b: the latched time and counter, the hardware completing the command at the first poll. -/
theorem test_P2_read_time : ran (.readTime 0)
    { wired 1 .rgmii with turns := [.go, .env (.ncoComplete 0 .read)], tape := [0, 0, 0, 0, 0, 0, 0, 0] }
    (fun t => match answer t with
      | some (.time v) => some (v.counter, v.sec, v.nsec, v.subnsec)
      | _ => none) = some (some (6, 100, 999999990, 0)) := by decide +kernel
/-- X6: a removed NCO. -/
theorem test_X6_read_time : refusalIn (.readTime 0) (withNco 1 fun n => { n with removed := true }) = some .ncoRemoved := by
  decide +kernel
/-- P2 lines 2d and 2e: the staged words of `adjust_time(-1, (100, 999999990))`, applied to (101, 6). -/
theorem test_P2_adjust_time : ran (.adjustTime 0 0xFFFFFFFF 100 999999990)
    { (withNco 1 fun n => { n with hw := ncoHw 101 6 }) with
      turns := [.go, .go, .go, .go, .env (.ncoComplete 0 .adjClock)], tape := [0] }
    (fun t => t.ncos[0]?.map fun n => (n.hw.stageAdjSecHi, n.hw.stageAdjSecLo, n.hw.stageAdjNsec, n.hw.sec, n.hw.nsec)) =
    some (some (0x0000FFFF, 0xFFFFFF9B, 18, 0, 24)) := by decide +kernel
/-- N10: nanoseconds of 2^31 and more are rejected. -/
theorem test_N10_adjust_time : ran (.adjustTime 0 1 0 0x80000000) (wired 1 .rgmii) (fun t => (errorIn t, sent t)) =
    some (some (.inval .adjNsecRange), []) := by decide +kernel
/-- N17: the largest request of a nominal (8, 0). -/
theorem test_N17_adjust_frequency : ran (.adjustFrequency 0 0x7FFFFFFF)
    { wired 1 .rgmii with turns := [.go, .go, .go, .env (.ncoComplete 0 .adjStep)], tape := [0] }
    (fun t => t.ncos[0]?.map fun n => (n.hw.stepNsec, n.hw.stepSubnsec, n.currentStepNsec)) =
    some (some (25, 0x2E0BE804, 25)) := by decide +kernel
/-- N18: a step below 0 is rejected. -/
theorem test_N18_adjust_frequency : ran (.adjustFrequency 0 0x80000000) (wired 1 .rgmii) (fun t => (errorIn t, sent t)) =
    some (some (.inval .stepRange), []) := by decide +kernel
/-- P2 line 2 without the ticks: the time is the host's plus twice the step, and the check holds. -/
theorem test_P2_init_registers : ran (.initRegisters 0)
    { (withNco 1 fun n => { n with initialised := false }) with
      tape := [0, 0, 0, 0, 0, 0, 1700000000, 500, 0, 0, 0, 0, 0, 0, 0, 0]
      turns := [.go, .go, .go, .env (.ncoComplete 0 .read), .go, .go, .go, .go, .go, .go,
        .go, .go, .go, .go, .env (.ncoComplete 0 .adjClock), .go, .go, .go, .go, .go, .env (.ncoComplete 0 .adjClock), .go,
        .go, .env (.ncoComplete 0 .adjStep), .go, .go, .env (.ncoComplete 0 .read)] }
    (fun t => t.ncos[0]?.map fun n => (n.initialised, n.hw.sec, n.hw.nsec)) =
    some (some (true, 1700000000, 516)) := by decide +kernel
/-- N24: a nominal step above 63. -/
theorem test_N24_nco_probe : ran (.ncoProbe 0 (some ⟨.inst 1, 0⟩) none (some ⟨64, 0⟩)) base errorIn =
    some (some (.inval .badNominal)) := by decide +kernel
/-- S12: no module parameter and no property. -/
theorem test_S12_nco_probe : ran (.ncoProbe 0 (some ⟨.inst 1, 0⟩) none none) base
    (fun t => t.ncos[0]?.map fun n => (n.nominal48, n.currentStepNsec)) = some (some (0x000800000000, 8)) := by decide +kernel
/-- N2: the bit is clear at the first read. -/
theorem test_N2_cmd_poll : ran (.cmdPoll 0 .read) { wired 1 .rgmii with tape := [0] } (fun t => (answer t, t.wire.length)) =
    some (some .unit, 1) := by decide +kernel
/-- N1: 101 reads, then the timeout. -/
theorem test_N1_cmd_poll : ran (.cmdPoll 0 .read)
    { (withNco 1 fun n => { n with hw := { n.hw with pendRead := true } }) with tape := List.replicate 101 0 }
    (fun t => (errorIn t, t.wire.length)) = some (some .timeout, 101) := by decide +kernel
/-- N14: the fraction carries into nanoseconds and these into seconds. -/
theorem test_N14_nco_tick : ran (.ncoTick 0)
    (withNco 1 fun n => { n with hw := { ncoHw 4 999999996 with frac := 0x80000000, stepSubnsec := 0x80000000 } })
    (fun t => t.ncos[0]?.map fun n => (n.hw.sec, n.hw.nsec, n.hw.frac, n.hw.counter)) = some (some (5, 5, 0, 7)) := by
  decide +kernel
/-- N15: the seconds wrap. -/
theorem test_N15_nco_tick : ran (.ncoTick 0) (withNco 1 fun n => { n with hw := ncoHw 0xFFFFFFFFFFFF 999999999 })
    (fun t => t.ncos[0]?.map fun n => (n.hw.sec, n.hw.nsec)) = some (some (0, 7)) := by decide +kernel
/-- N12: the tick that applies an adjustment. -/
theorem test_N12_nco_cmd_complete : ran (.ncoCmdComplete 0 .adjClock)
    (withNco 1 fun n => { n with hw := { ncoHw 101 6 with
      stageAdjSecHi := 0xFFFF, stageAdjSecLo := 0xFFFFFF9B, stageAdjNsec := 18, pendAdjClock := true } })
    (fun t => t.ncos[0]?.map fun n => (n.hw.sec, n.hw.nsec, n.hw.counter, n.hw.pendAdjClock)) = some (some (0, 24, 7, false)) := by
  decide +kernel
/-- N13: the same where the adjusting tick adds the step as well. -/
theorem test_N13_nco_cmd_complete : ran (.ncoCmdComplete 0 .adjClock)
    { (withNco 1 fun n => { n with hw := { ncoHw 101 6 with
        stageAdjSecHi := 0xFFFF, stageAdjSecLo := 0xFFFFFF9B, stageAdjNsec := 18, pendAdjClock := true } }) with
      board := { board with adjReplacesStep := false } }
    (fun t => t.ncos[0]?.map fun n => (n.hw.sec, n.hw.nsec)) = some (some (0, 32)) := by decide +kernel
/-- A2: a value the map does not name. -/
theorem test_A2_adp_detect : ran (.adpDetect 0) { wired 0 .rgmii with ports := [{ portOf 0 .rgmii with hwId := 9 }] } answer =
    some (some (.variant .none)) := by decide +kernel
/-- A1: the ID read fails. -/
theorem test_A1_adp_detect : ran (.adpDetect 0) { wired 2 .rgmii with turns := [.fail false] } answer =
    some (some (.variant .none)) := by decide +kernel
/-- P4 line 1: the variant, its modes and the link. -/
theorem test_P4_adp_probe : ran (.adpProbe 0 (some ⟨.inst 0, 0⟩)) { wired 0 .rgmii with ports := [{ portOf 0 .mii with hwId := 3 }] }
    (fun t => t.ports[0]?.map fun q => (q.variant, q.supported, q.advertised, q.linkMode)) =
    some (some (.sgmiiOr1000BaseXOr100BaseFX, 0xF, 0xF, .down)) := by decide +kernel
/-- A7: link and autonegotiation bits, speed code 2. -/
theorem test_A7_check_link : ran (.checkLink 0) (wired 0 .rgmii) answer = some (some (.linkMode .full1000)) := by decide +kernel
/-- A8: the link bit without the autonegotiation bit. -/
theorem test_A8_check_link : ran (.checkLink 0) { wired 0 .rgmii with ports := [{ portOf 0 .rgmii with hwStatus := 0x0009 }] } answer =
    some (some (.linkMode .down)) := by decide +kernel
/-- A27: the second setup write fails. -/
theorem test_A27_adp_setup : ran (.adpSetup 0 .down false) { wired 2 .rgmii with turns := [.go, .fail false] }
    (fun t => (answer t, t.ports[0]?.map fun q => (q.variant, q.linkMode))) = some (some .unit, some (.none, .down)) := by
  decide +kernel
/-- R408: a forced mode that the port does not support. -/
theorem test_R408_adp_setup : ran (.adpSetup 0 .full10 true) { wired 0 .rgmii with ports := [{ portOf 0 .rgmii with supported := 4 }] }
    errorIn = some (some (.inval .mode)) := by decide +kernel
/-- R408: the PCS mode is chosen before the list of writes looks at the variant, so a setup that is put aside in between
makes the writes of the new variant with the PCS mode of the old one. -/
theorem test_R408_pcs_first : ran (.adpSetup 0 .down false)
    { wired 0 .mii with me := { (wired 0 .mii).me with op := some (.adpSetup 0 .down false), hist := [0, 0, PcsMode.sgmii.code] } }
    (fun t => (t.wire, t.ports.map (·.pcsMode))) = some ([], [.sgmii]) := by decide +kernel
/-- P4 line 2: the SFP type comes from the EEPROM. -/
theorem test_P4_init_adapter : ran (.initAdapter 0)
    { wired 0 .rgmii with ports := [{ portOf 0 .sgmiiOr1000BaseXOr100BaseFX with
      inputs := { PortInputs.reset with sfpEepromPresent := true, sfpEepromType := .fiber100BaseFX } }] }
    (fun t => t.ports[0]?.map fun q => (q.sfpType, q.linkCheckEnabled, q.advertised)) =
    some (some (.fiber100BaseFX, true, 0xF)) := by decide +kernel
/-- S6: the highest shared speed, and none. -/
theorem test_S6_best_mode : ran (.bestAdapterLinkMode (.mask 0x7) (.mask 0xA)) base answer = some (some (.linkMode .full100)) := by decide +kernel
theorem test_A28_best_mode : ran (.bestAdapterLinkMode (.mask 0xC) (.mask 0xA)) base answer = some (some (.linkMode .down)) := by decide +kernel
/-- P3 line 2: the first open. -/
theorem test_P3_ts_open : ran (.tsOpen 0) (withTs 1 fun t => { t with useCount := 0, handles := [], hw := { tsHw with armed := false } })
    (fun u => (answer u, u.tss[0]?.map fun t => (t.life, t.hw.armed, t.hw.irqEn, t.irqHooked))) =
    some (some (.handle 0), some (.active, true, true, true)) := by decide +kernel
/-- P3 line 13: the last close. -/
theorem test_P3_ts_close : ran (.tsClose 0 0) (withTs 1 fun t => { t with life := .active, mode := .poll, timerOn := true })
    (fun u => u.tss[0]?.map fun t => (t.life, t.useCount, t.timerOn, t.buf.length)) = some (some (.idle, 0, false, 0)) := by
  decide +kernel
/-- T-R1: two of two unread records. -/
theorem test_TR1_ts_read : ran (.tsRead 0 0 40 false) (withTs 1 (ring 3 2))
    (fun u => (answer u, u.tss[0]?.map (·.readCount), u.bufByte 12, u.bufByte 28)) =
    some (some (.bytes 32), some 3, some 1, some 2) := by decide +kernel
/-- X3: a closed handle comes before a short buffer. -/
theorem test_X3_ts_read : faultOf (.tsRead 0 1 0 false) (wired 1 .rgmii) = some .tsNotOpen := by decide +kernel
/-- T-S5: from poll to poll with another interval. -/
theorem test_TS5_change_settings : ran (.changeSettings 0 1 0 250000000)
    { (withTs 1 fun t => { t with life := .active, mode := .poll, timerOn := true, waiters := [1] }) with hostTicks := 7 }
    (fun u => u.tss[0]?.map fun t => (t.timerOn, t.timerDeadline, t.waiters)) = some (some (true, 32, [])) := by decide +kernel
/-- X4: the mode is checked before the interval. -/
theorem test_X4_change_settings : ran (.changeSettings 0 3 0 2000000000) (wired 1 .rgmii) errorIn =
    some (some (.inval .mode)) := by decide +kernel
/-- T-C1, with seconds 5 and 1000000001 ns: the event is normalized, recorded and appended at slot 3. -/
theorem test_TC1_event_check : ran (.eventCheck 0) { (withTs 1 fun t => ring 3 2 { t with hw := tsHwEvent }) with tape := List.replicate 9 0 }
    (fun u => u.tss[0]?.map fun t => (t.slot 3, t.bufCount, t.readCount, t.hw.pending, t.hw.armed)) =
    some (some (some ⟨6, 1, 9⟩, 4, 1, false, true)) := by decide +kernel
/-- T-C4: a full ring under the policy SKIP. -/
theorem test_TC4_event_check : ran (.eventCheck 0)
    { (withTs 1 fun t => ring 16 11 { t with hw := tsHwEvent }) with board := { board with fullPolicy := .skip } }
    (fun u => (u.wire.length, u.tss[0]?.map fun t => (t.bufCount, t.readCount, t.hw.pending))) =
    some (0, some (16, 5, true)) := by decide +kernel
/-- R506: the interrupt mode hooks the handler and writes the interrupt on. -/
theorem test_R506_enable_mode : ran (.enableMode 0 .interrupt) (wired 1 .rgmii)
    (fun u => u.tss[0]?.map fun t => (t.irqHooked, t.hw.irqEn, t.timerOn)) = some (some (true, true, false)) := by decide +kernel
/-- R507: the poll mode stops the timer. -/
theorem test_R507_disable_mode : ran (.disableMode 0 .poll) (withTs 1 fun t => { t with timerOn := true })
    (fun u => u.tss[0]?.map (·.timerOn)) = some (some false) := by decide +kernel
/-- P3 line 1: the mode by the interrupt line. -/
theorem test_P3_ts_probe : ran (.tsProbe 0 (some ⟨.inst 2, 0⟩) true) base
    (fun u => u.tss[0]?.map fun t => (t.mode, t.life, t.deferred, t.pollNsec)) =
    some (some (.interrupt, .idle, true, 500000000)) := by decide +kernel
/-- T-K1: an armed capture takes the pulse. -/
theorem test_TK1_ts_pulse : ran (.tsPulse 0) { wired 1 .rgmii with tape := [5, 7] }
    (fun u => u.tss[0]?.map fun t => (t.hw.latCounter, t.hw.pending, t.hw.armed)) = some (some (7, true, false)) := by
  decide +kernel
/-- T-K2: otherwise it is only counted. -/
theorem test_TK2_ts_pulse : ran (.tsPulse 0) (withTs 1 fun t => { t with hw := { tsHw with armed := false, pulseCount := 7 } })
    (fun u => u.tss[0]?.map fun t => (t.hw.pulseCount, t.hw.pending)) = some (some (8, false)) := by decide +kernel
/-- T-I1: a deferred interrupt masks the line and queues the check. -/
theorem test_TI1_ts_irq : ran (.tsIrq 0) (withTs 2 fun t => { t with irqHooked := true, hw := tsHwEvent })
    (fun u => (u.wire.length, u.tss[0]?.map fun t => (t.irqDepth, t.workIrq, t.workPending))) =
    some (0, some (1, true, true)) := by decide +kernel
/-- T-I2: the worker runs the check and unmasks. -/
theorem test_TI2_worker_run : ran (.workerRun 0)
    { (withTs 2 fun t => { t with irqDepth := 1, workIrq := true, workPending := true }) with tape := [0, 0] }
    (fun u => u.tss[0]?.map fun t => (t.irqDepth, t.workPending)) = some (some (0, false)) := by decide +kernel
/-- T-I3: an unbalanced unmasking. -/
theorem test_TI3_worker_run : faultOf (.workerRun 0)
    { (withTs 2 fun t => { t with workIrq := true, workPending := true }) with tape := [0, 0] } = some .irqUnbalanced := by
  decide +kernel
/-- P3 line 10: the timer fires at its deadline. -/
theorem test_P3_poll_fire : ran (.pollFire 0) { (withTs 1 fun t => { t with timerOn := true, timerDeadline := 50 }) with hostTicks := 50 }
    (fun u => u.tss[0]?.map fun t => (t.workPending, t.timerDeadline)) = some (some (true, 100)) := by decide +kernel
/-- T-R8: a signal reaches a blocked reader. -/
theorem test_TR8_host_signal : ran (.hostSignal 1)
    { (withTs 1 fun t => { t with waiters := [1] }) with
      others := [{ Agent.idle 1 .caller with op := some (.tsRead 0 0 32 false), blocked := some .waitq }] }
    (fun u => (u.others.map (·.signal), u.tss[0]?.map (·.waiters))) = some ([true], some []) := by decide +kernel
/-- R626: a host tick. -/
theorem test_R626_host_tick : ran .hostTick base (·.hostTicks) = some 1 := by decide +kernel
/-- X5: a program that begins with an unassigned word. -/
theorem test_X5_step : (match step { base with me := { base.me with prog := [0x20] } } with
    | .refused r => some r
    | _ => none) = some (.illegalOp 0x20) := by decide +kernel

/-! ### Records (rules R151 to R154), agents and far ends -/

/-- R151: a settings request of mode 2 and the interval (1, 3), in the layout of `board`. -/
theorem test_R151_settings_request :
    board.settingsRequest [2, 0, 0, 0, 9, 9, 9, 9, 1, 0, 0, 0, 0, 0, 0, 0, 3, 0, 0, 0] = (2, 1, 3) := by decide +kernel
/-- R153 and R154: the sign -1 with the time (5, 7), and the adjustment 256. -/
theorem test_R153_adjust_request :
    board.adjustRequest [0xFF, 0xFF, 0xFF, 0xFF, 0, 0, 0, 0, 5, 0, 0, 0, 0, 0, 0, 0, 7, 0, 0, 0] = (0xFFFFFFFF, 5, 7) ∧
      board.frequencyRequest [9, 9, 9, 9, 0, 1, 0, 0] = 256 := by decide +kernel
/-- R152: seconds, nanoseconds and sub-nanoseconds at 0, 8 and 12 of the time record, which `board` puts at byte 8. -/
theorem test_R152_read_result :
    ([0, 8, 16, 20, 22, 24, 32, 36].map fun k => (⟨6, 100, 0x01020304, 5, 77, 88⟩ : TimeResult).resultByte board k) =
      [some 6, some 100, some 4, some 5, none, some 77, some 88, none] := by decide +kernel
/-- R44: what is written to a far end that keeps nothing leaves no trace, and a read of it is a draw. -/
theorem test_R44_write_then_read :
    ran (.mmioWrite16 (.inst 0) 0x300 0xABCD) base (·.fars) = some base.fars ∧
      ran (.mmioRead16 (.inst 0) 0x300) { base with tape := [7] } answer = some (some (.val16 7)) := by decide +kernel
/-- R105: the low half of a native write lies at the address under either byte order (log entry 38). -/
theorem test_R105_native_low_half : ran (.nativeWrite32 (.inst 1) 0x300 0x12345678)
    { keeping 1 [] with rbs := base.rbs.modify 1 fun rb => { rb with cfg := { cfg with mmioEndian := .big } } }
    (fun t => ((t.farRead16 1 0x300).1, t.farByte 1 0x300)) = some (0x5678, some 0x56) := by decide +kernel
/-- R111: an agent put aside before its first MDIO transaction is already inside its access. -/
theorem test_R111_access_begun : ran (.slaveRead16 (.inst 3) 0x00020010) { base with turns := [.preempt] }
    (fun t => (t.rbs[3]?.map (·.busy), t.wire.length, t.me.op)) =
    some (some (some 0), 0, some (.slaveRead16 (.inst 3) 0x00020010)) := by decide +kernel
/-- R309: other callers can step between two sub-operations of `init_registers`: put aside there, it holds no lock. -/
theorem test_R309_other_callers : ran (.initRegisters 0) { withNco 1 (fun n => { n with initialised := false }) with cut := some 14 }
    (fun t => (t.me.op, t.ncos[0]?.map (·.lock), t.wire.length)) = some (some (.initRegisters 0), some none, 2) := by decide +kernel
/-- R610: a fault stops the agent that made it, and a later move of it reports the fault. -/
theorem test_R610_stopped_agent :
    (match step { base with me := { base.me with stopped := some .misaligned } } with
      | .fault f => some f
      | _ => none) = some .misaligned := by decide +kernel
/-- R610: the other agents go on. -/
theorem test_R610_others_go_on :
    (match step { base with me := { base.me with stopped := some .misaligned }, sched := [.agent 1],
                            others := [{ Agent.idle 1 .caller with prog := [0x65] }] } with
      | .next t => some t.hostTicks
      | _ => none) = some 1 := by decide +kernel
/-- R514: a reader that was already woken is not blocked, and a signal has no effect on it. -/
theorem test_R514_woken_reader : ran (.hostSignal 1)
    { wired 1 .rgmii with others := [{ Agent.idle 1 .caller with op := some (.tsRead 0 0 32 false), blocked := some .waitq }] }
    (fun u => u.others.map (·.signal)) = some [false] := by decide +kernel
/-- R40: a probe of a number that names no device creates one. -/
theorem test_R40_nco_probe : ran (.ncoProbe 1 (some ⟨.inst 1, 0x100⟩) none none) (wired 1 .rgmii)
    (fun t => t.ncos.map (·.nominal48)) = some [0x000800000000, 0x000800000000] := by decide +kernel
/-- R413: the highest mode of a port's supported modes and of its SFP type's. -/
theorem test_R413_best_mode_of_port : ran (.bestAdapterLinkMode (.port 0) (.port 0))
    { wired 0 .rgmii with ports := [{ portOf 0 .rgmii with supported := 0xA, sfpType := .fiber100BaseFX }] } answer =
    some (some (.linkMode .full100)) := by decide +kernel
/-- R508: an acknowledge that fails leaves the event pending. -/
theorem test_R508_failed_acknowledge : ran (.eventCheck 0)
    { (withTs 2 fun t => ring 3 2 { t with hw := tsHwEvent }) with
      tape := List.replicate 9 0, turns := List.replicate 11 .go ++ [.fail true] }
    (fun u => (errorIn u, u.tss[0]?.map fun t => t.hw.pending)) = some (some .io, some true) := by decide +kernel

/-- R40, R404: a probe of a number that names no device creates one, a port with that number as its index, and that
port can be used. -/
theorem test_R40_probe_beyond : ran (.tsProbe 7 (some ⟨.inst 1, 0x200⟩) true) (wired 1 .rgmii) (·.tss.length) = some 2 ∧
    ran (.adpProbe 7 (some ⟨.inst 1, 0x200⟩)) (wired 1 .rgmii) (fun t => t.ports.map (·.port)) = some [0, 7] ∧
    ran (.adpDetect 7) { wired 0 .rgmii with ports := [{ portOf 0 .mii with port := 7, hwId := 3 }] } answer =
      some (some (.variant .sgmiiOr1000BaseXOr100BaseFX)) := by decide +kernel
/-- R602: a read of no records ends with its check of the handle, at once, and counts as no use of it. -/
theorem test_R602_read_of_none : ran (.tsRead 0 0 8 false) { withTs 1 id with cut := some 1 }
    (fun u => (errorIn u, u.tss.map (·.handles))) = some (some (.inval .zeroRecords), [[.held 0]]) := by decide +kernel
/-- R518: a check that the interrupt's handler began stays the only one when a probe makes the device one that defers. -/
theorem test_R518_probe_in_check :
    ran (.tsProbe 0 (some ⟨.inst 2, 0⟩) true) (withTs 1 fun t => { t with irqRun := .checking, workPending := true })
      (fun u => u.tss.map fun t => (t.deferred, t.irqRun, t.checkFree)) = some [(true, .checking, false)] ∧
    ran (.workerRun 0) (withTs 2 fun t => { t with irqRun := .checking, workPending := true }) (fun u => u.me.blocked) =
      some (some .other) := by decide +kernel
/-- R14: a probe of a device whose lock another agent holds leaves the lock with it (log entry 49). -/
theorem test_R14_probe_keeps_lock : ran (.ncoProbe 0 (some ⟨.inst 1, 0⟩) none none) (withNco 1 fun n => { n with lock := some 3 })
    (fun t => t.ncos.map (·.lock)) = some [some 3] := by decide +kernel
/-- R15: a move of an agent that does not exist moves none. -/
theorem test_R15_no_such_agent :
    (match step { base with me := { base.me with prog := [0x65] }, sched := [.agent 99] } with
      | .next t => some (t.hostTicks, t.sched)
      | _ => none) = some (0, []) := by decide +kernel
/-- R118: of two devices at one address the newer one is reached (log entry 10). -/
theorem test_R118_newest_window :
    ({ wired 1 .rgmii with ncos := [ncoOf 1, ncoOf 1] } : State).readTarget 1 0 = some (.nco 1 .cmd false) := by decide +kernel
/-- R505: a handle closed while a read is on it keeps its use of the device until that read ends (log entry 20). -/
theorem test_R505_reader_keeps_handle :
    ran (.tsClose 0 0) (withTs 1 fun t => { t with handles := [.held 1] })
      (fun u => (answer u, u.tss[0]?.map fun t => (t.useCount, t.handles))) = some (some .unit, some (1, [.closing 0])) ∧
    ran (.tsRead 0 0 16 true) { withTs 1 (fun t => { t with handles := [.closing 0], useCount := 1 }) with
        me := { base.me with op := some (.tsRead 0 0 16 true), hist := [0, 0] } }
      (fun u => (errorIn u, u.tss[0]?.map fun t => (t.life, t.useCount, t.handles))) =
      some (some .again, some (.idle, 0, [.closed])) := by decide +kernel
/-- R511: the mark of the interrupt's job is read and cleared in one step, so an interrupt that comes after it marks the
next job. -/
theorem test_R511_mark_in_one_step : ran (.workerRun 0)
    { (withTs 2 fun t => { t with irqDepth := 1, workIrq := true, workPending := true }) with cut := some 2 }
    (fun u => (u.me.hist, u.tss[0]?.map fun t => (t.workIrq, t.irqDepth))) = some ([0, 0, 1], some (false, 1)) := by decide +kernel
/-- R511: a check that fails is unmasked all the same. -/
theorem test_R511_failed_check : ran (.workerRun 0)
    { (withTs 2 fun t => { t with irqDepth := 1, workIrq := true, workPending := true }) with turns := [.fail true] }
    (fun u => (answer u, u.tss[0]?.map fun t => (t.irqDepth, t.workerBusy))) = some (some .unit, some (0, false)) := by decide +kernel
/-- R506: the timer is on before its deadline is set. -/
theorem test_R506_timer_then_deadline : ran (.enableMode 0 .poll) { wired 1 .rgmii with hostTicks := 7, cut := some 7 }
    (fun u => u.tss[0]?.map fun t => (t.timerOn, t.timerDeadline)) = some (some (true, 0)) := by decide +kernel
/-- R513: in `Direct` mode a check is queued; where the mode is another one after the lock is released, the reader loops. -/
theorem test_R513_mode_again : ran (.tsRead 0 0 16 false)
    { withTs 1 (fun t => { t with mode := .poll, handles := [.held 1], readerLock := none }) with
      me := { base.me with op := some (.tsRead 0 0 16 false), hist := [0, 0, 0, 0, 1, 0, 0, 0, 0, 0, 1, 0, 0] } }
    (fun u => u.me.hist) = some [0, 0] := by decide +kernel

/-! ### The hypotheses of the statements can be met -/

theorem test_meets_DecodeEncode :
    (Instr.tsClose 65535 65535).wellFormed = true ∧ (Instr.lookup 4294967295).wellFormed = true ∧
    (Instr.bestAdapterLinkMode (.port 65535) (.port 65535)).wellFormed = true := by decide

theorem test_meets_UnassignedWordRefused :
    (∀ i : Instr, i.word ≠ 0x20) ∧ base.sched = [] ∧ base.me.op = none ∧ base.me.stopped = none ∧
      ({ base with me := { base.me with prog := [0x20, 0] } } : State).me.prog = 0x20 :: [0] :=
  ⟨fun i => by cases i <;> (intro h; cases h), rfl, rfl, rfl, rfl⟩

/-- A state whose running agent is about to take a host tick. -/
def aboutToTick : State := { base with me := { base.me with prog := [0x65, 0x30, 0, 0] } }

theorem test_meets_StepRunsDecoded :
    aboutToTick.sched = [] ∧ aboutToTick.me.op = none ∧ aboutToTick.me.stopped = none ∧
      decode aboutToTick.me.prog = .ok (.hostTick, [0x30, 0, 0]) ∧
      ∃ r, decode (tableBytes 8 0x65) = .ok (.hostTick, r) := ⟨rfl, rfl, rfl, by decide, _, rfl⟩

/-- A fault has stopped agent 0. -/
def stopped : State := { base with me := { base.me with stopped := some .misaligned } }

theorem test_meets_StepMoves :
    (base.sched = [] ∧ base.me.stopped = none ∧ base.me.op = none ∧ base.me.prog = []) ∧
    ({ base with me := { base.me with op := some .hostTick } } : State).me.op = some .hostTick ∧
    (stopped.me.stopped = some .misaligned ∧ stopped.sched = []) ∧
    (∃ r, ({ stopped with sched := [.agent 0] } : State).sched = .agent stopped.me.id :: r) ∧
    (∃ n r, ({ stopped with sched := [.part 0 3] } : State).sched = .part stopped.me.id n :: r) ∧
    (∃ e r, ({ base with sched := [.env .hostTick, .agent 1] } : State).sched = .env e :: r) ∧
    (∃ r, ({ base with sched := [.agent 0] } : State).sched = .agent base.me.id :: r) ∧
    (∃ a, a.id ≠ base.me.id ∧ base.others.find? (fun x => decide (x.id = a.id)) = some a) ∧
    9 ≠ base.me.id ∧ base.others.find? (fun x => decide (x.id = 9)) = none :=
  ⟨⟨rfl, rfl, rfl, rfl⟩, rfl, ⟨rfl, rfl⟩, ⟨_, rfl⟩, ⟨_, _, rfl⟩, ⟨_, _, rfl⟩, ⟨_, rfl⟩,
    ⟨Agent.idle 7 .host, by decide, rfl⟩, by decide, rfl⟩

theorem test_meets_StepKeepsSound : aboutToTick.sound = true ∧ ∃ t, step aboutToTick = .next t ∧ t.hostTicks = 1 :=
  ⟨by decide +kernel, _, rfl, rfl⟩

/-- One handle of instance 3 is held and one is released. -/
def holding : State :=
  { base with handles := [⟨3, false⟩, ⟨3, true⟩], rbs := base.rbs.modify 3 fun rb => { rb with refs := 1 } }

theorem test_meets_StepKeepsBalanced : holding.balanced ∧ ∃ t, step (holding.load [0x07, 0, 0]) = .next t ∧ t.handles ≠ holding.handles := by
  refine ⟨⟨by decide, by decide, ?_⟩, _, rfl, by decide +kernel⟩
  intro i rb h
  have hi : i < 5 := by
    rcases Nat.lt_or_ge i 5 with h5 | h5
    · exact h5
    · rw [List.getElem?_eq_none (by exact h5)] at h; cases h
  interval_cases i <;> (cases h; rfl)

theorem test_meets_ResetInvariants : board.ok = true := by decide

theorem test_meets_StepKeepsNcoBelow : 0 < (wired 1 .rgmii).ncos.length ∧ (wired 1 .rgmii).ncoBelow 0 ∧
    ∃ t, step ((wired 1 .rgmii).load [0x30, 0, 0]) = .next t ∧ t.ncos ≠ (wired 1 .rgmii).ncos :=
  ⟨by decide, fun n h => by cases h; decide, _, rfl, by decide +kernel⟩

theorem test_meets_StepKeepsInstances :
    (∃ t, step aboutToTick = .next t) ∧ aboutToTick.rbs[4]? = some (rbOf 4) ∧ aboutToTick.fars[4]? = some ⟨false, []⟩ :=
  ⟨⟨_, rfl⟩, rfl, rfl⟩

theorem test_meets_CellsAtCreation : (⟨false, []⟩ : FarEnd) ∈ (State.resetOn board cfg).fars := by decide

theorem test_meets_FarWriteFrame :
    (wired 1 .rgmii).writeTarget 1 (evenAddr 0) = some (.nco 0 .cmd false) ∧
    (wired 1 .rgmii).writeTarget 1 (evenAddr 0x5F) = some (.ts 0 .irqEn true) ∧
    (wired 1 .rgmii).writeTarget 1 (evenAddr 0xFFFFFFFF) = none ∧
    (wired 1 .rgmii).readTarget 1 (evenAddr 0xFFFFFFFF) = none ∧
    (wired 1 .rgmii).fars[1]? = some ⟨false, []⟩ ∧ (keeping 1 []).fars[1]? = some ⟨true, []⟩ ∧
    (keeping 1 []).writeTarget 1 (evenAddr 0xFFFFFFFF) = none := by decide +kernel

theorem test_meets_MmioAccess :
    base.Ready ∧ base.Names (.inst 1) 1 (rbOf 1) ∧ ((rbOf 1).sleeps && base.atomic) = false ∧ (rbOf 1).backend = .mmio ∧
    base.Names (.inst 0) 0 (rbOf 0) ∧ (rbOf 0).backend = .mmio ∧ (rbOf 0).hasRead32 = false ∧
    (0xFFFFFFFF : U32).getLsbD 0 = true ∧ (0xFFFFFFFE : U32).getLsbD 0 = false ∧ (0xFFFFFFFE : U32) &&& 3 ≠ 0 ∧
    (0xFFFFFFFC : U32) &&& 3 = 0 :=
  ⟨⟨⟨rfl, rfl⟩, rfl⟩, ⟨rfl, rfl⟩, rfl, rfl, ⟨rfl, rfl⟩, rfl, rfl, by decide, by decide, by decide, by decide⟩

/-- The next transaction fails, the one after it is put aside. -/
def failing (s : State) : State := { s with turns := [.fail true, .preempt] }

/-- The next transaction succeeds and the one after it fails. -/
def failingSecond (s : State) : State := { s with turns := [.go, .fail false] }

theorem test_meets_I2cAccess :
    base.Idle ∧ base.Names (.inst 2) 2 (rbOf 2) ∧ ((rbOf 2).sleeps && base.atomic) = false ∧
    (rbOf 2).backend = .i2c ∧ base.turns = [] ∧ (failing base).Idle ∧ (failing base).Names (.inst 2) 2 (rbOf 2) ∧
    (failing base).turns = .fail true :: [.preempt] :=
  ⟨⟨rfl, rfl⟩, ⟨rfl, rfl⟩, rfl, rfl, rfl, ⟨rfl, rfl⟩, ⟨rfl, rfl⟩, rfl⟩

theorem test_meets_SlaveAccess :
    holding.Ready ∧ holding.Names (.handle 0) 3 { rbOf 3 with refs := 1 } ∧ holding.MayUse { rbOf 3 with refs := 1 } ∧
    (rbOf 3).backend = .mdioSlave ∧ (0x00020011 : U32).getLsbD 0 = true ∧ (0xFFFFFFFE : U32).getLsbD 0 = false :=
  ⟨⟨⟨rfl, rfl⟩, rfl⟩, ⟨rfl, rfl⟩, ⟨rfl, rfl⟩, rfl, by decide, by decide⟩

/-- Instance 3 with the high half of 0x00020010 in its AA1 cache. -/
def cachedRb : Rb := { rbOf 3 with aa1Cache := some 0x0002 }

/-- `base` with that instance. -/
def cached : State := { base with rbs := base.rbs.modify 3 fun _ => cachedRb }

/-- The third transaction fails. -/
def failingThird (s : State) : State := { s with turns := [.go, .go, .fail true] }

theorem test_meets_SlaveAccessFails :
    (failing base).Idle ∧ (failing base).Names (.inst 3) 3 (rbOf 3) ∧ (failing base).MayUse (rbOf 3) ∧
    (failingSecond base).Idle ∧ (failingSecond base).Names (.inst 3) 3 (rbOf 3) ∧ (failingSecond base).MayUse (rbOf 3) ∧
    (failingThird base).Idle ∧ (failingThird base).Names (.inst 3) 3 (rbOf 3) ∧ (failingThird base).MayUse (rbOf 3) ∧
    (failing cached).Idle ∧ (failing cached).Names (.inst 3) 3 cachedRb ∧ (failing cached).MayUse cachedRb ∧
    (failingSecond cached).Idle ∧ (failingSecond cached).Names (.inst 3) 3 cachedRb ∧ (failingSecond cached).MayUse cachedRb ∧
    (rbOf 3).backend = .mdioSlave ∧ cachedRb.backend = .mdioSlave ∧
    (0x00020010 : U32).getLsbD 0 = false ∧ (rbOf 3).aa1Cache ≠ some ((0x00020010 : U32).extractLsb' 16 16) ∧
    cachedRb.aa1Cache = some ((0x00020010 : U32).extractLsb' 16 16) ∧
    (failing base).turns = .fail true :: [.preempt] ∧ (failing cached).turns = [] ++ .fail true :: [.preempt] ∧
    (failingSecond base).turns = [.go] ++ .fail false :: [] ∧ (failingSecond cached).turns = [] ++ .go :: .fail false :: [] ∧
    (failingThird base).turns = [.go] ++ .go :: .fail true :: [] :=
  ⟨⟨rfl, rfl⟩, ⟨rfl, rfl⟩, ⟨rfl, rfl⟩, ⟨rfl, rfl⟩, ⟨rfl, rfl⟩, ⟨rfl, rfl⟩, ⟨rfl, rfl⟩, ⟨rfl, rfl⟩, ⟨rfl, rfl⟩,
    ⟨rfl, rfl⟩, ⟨rfl, rfl⟩, ⟨rfl, rfl⟩, ⟨rfl, rfl⟩, ⟨rfl, rfl⟩, ⟨rfl, rfl⟩, rfl, rfl, by decide, by decide, by decide, rfl,
    rfl, rfl, rfl, rfl⟩

theorem test_meets_BridgeAccess :
    base.Ready ∧ base.Names (.inst 4) 4 (rbOf 4) ∧ base.MayUse (rbOf 4) ∧ (rbOf 4).backend = .mdioBridge ∧
    (failing base).Idle ∧ (failing base).Names (.inst 4) 4 (rbOf 4) ∧ (failing base).MayUse (rbOf 4) ∧
    (failingSecond base).Idle ∧ (failingSecond base).Names (.inst 4) 4 (rbOf 4) ∧ (failingSecond base).MayUse (rbOf 4) ∧
    (failing base).turns = .fail true :: [.preempt] ∧ (failingSecond base).turns = .go :: .fail false :: [] ∧
    (0x00200000 : U32).getLsbD 0 = false ∧ (0x001FFFFE : U32).getLsbD 0 = false ∧ (0x001FFFFF : U32).getLsbD 0 = true ∧ 31 < ((0x00200000 : U32) >>> (rbOf 4).cfg.bridgeBits).toNat ∧
    ((0x001FFFFE : U32) >>> (rbOf 4).cfg.bridgeBits).toNat = 31 :=
  ⟨⟨⟨rfl, rfl⟩, rfl⟩, ⟨rfl, rfl⟩, ⟨rfl, rfl⟩, rfl, ⟨rfl, rfl⟩, ⟨rfl, rfl⟩, ⟨rfl, rfl⟩, ⟨rfl, rfl⟩, ⟨rfl, rfl⟩, ⟨rfl, rfl⟩,
    rfl, rfl, by decide, by decide, by decide, by decide, by decide⟩

/-- Agent 1 is inside an access on instance 3. -/
def overlapped : State := { base with rbs := base.rbs.modify 3 fun rb => { rb with busy := some 1 } }

theorem test_meets_BusOverlapFaults :
    overlapped.Idle ∧ overlapped.Names (.inst 3) 3 { rbOf 3 with busy := some 1 } ∧
    ((rbOf 3).sleeps && overlapped.atomic) = false ∧ 1 ≠ overlapped.me.id ∧ (0x001FFFFE : U32).getLsbD 0 = false ∧
    ((0x001FFFFE : U32) >>> (rbOf 3).cfg.bridgeBits).toNat ≤ 31 :=
  ⟨⟨rfl, rfl⟩, ⟨rfl, rfl⟩, rfl, by decide, by decide, by decide⟩

theorem test_meets_MisalignedFaults :
    base.Idle ∧ ((rbOf 4).sleeps && base.atomic) = false ∧ base.Names (.inst 0) 0 (rbOf 0) ∧
    base.Names (.inst 3) 3 (rbOf 3) ∧ base.Names (.inst 4) 4 (rbOf 4) ∧ (rbOf 0).backend = .mmio ∧
    (rbOf 3).backend = .mdioSlave ∧ (rbOf 4).backend = .mdioBridge ∧ (0xFFFFFFFF : U32).getLsbD 0 = true :=
  ⟨⟨rfl, rfl⟩, rfl, ⟨rfl, rfl⟩, ⟨rfl, rfl⟩, ⟨rfl, rfl⟩, rfl, rfl, rfl, by decide⟩

theorem test_meets_Access16OnAnyBackend :
    base.Ready ∧ base.Names (.inst 4) 4 (rbOf 4) ∧ base.MayUse (rbOf 4) ∧ (rbOf 4).reaches 0x001FFFFE = true ∧
    base.Names (.inst 2) 2 (rbOf 2) ∧ base.MayUse (rbOf 2) ∧ (rbOf 2).reaches 0xFFFFFFFF = true :=
  ⟨⟨⟨rfl, rfl⟩, rfl⟩, ⟨rfl, rfl⟩, ⟨rfl, rfl⟩, by decide, ⟨rfl, rfl⟩, ⟨rfl, rfl⟩, by decide⟩

theorem test_meets_Access32OnAnyBackend :
    base.Ready ∧ base.Names (.inst 1) 1 (rbOf 1) ∧ (rbOf 1).hasRead32 = true ∧ (rbOf 1).hasWrite32 = true ∧
    base.Names (.inst 0) 0 (rbOf 0) ∧ base.MayUse (rbOf 0) ∧ (rbOf 0).reaches 0xFFFFFFFE = true ∧
    (rbOf 0).reaches (0xFFFFFFFE + 2) = true ∧ (rbOf 0).hasRead32 = false ∧ (rbOf 0).hasWrite32 = false :=
  ⟨⟨⟨rfl, rfl⟩, rfl⟩, ⟨rfl, rfl⟩, rfl, rfl, ⟨rfl, rfl⟩, ⟨rfl, rfl⟩, by decide, by decide, rfl, rfl⟩

theorem test_meets_FailFast32 :
    (failing base).Idle ∧ (failing base).Names (.inst 2) 2 (rbOf 2) ∧
    ((rbOf 2).sleeps && (failing base).atomic) = false ∧ (rbOf 2).backend = .i2c ∧ (rbOf 2).hasRead32 = false ∧
    (rbOf 2).hasWrite32 = false ∧ (failing base).turns = .fail true :: [.preempt] ∧
    (failingSecond base).Idle ∧ (failingSecond base).Names (.inst 2) 2 (rbOf 2) ∧
    (failingSecond base).turns = .go :: .fail false :: [] :=
  ⟨⟨rfl, rfl⟩, ⟨rfl, rfl⟩, rfl, rfl, rfl, rfl, rfl, ⟨rfl, rfl⟩, ⟨rfl, rfl⟩, rfl⟩

/-- The three devices on instance 3, whose far end keeps what is written. -/
def wiredKeeping : State := { wired 3 .rgmii with fars := (keeping 3 []).fars }

theorem test_meets_RoundTrip32 :
    wiredKeeping.Ready ∧ wiredKeeping.Names (.inst 3) 3 (rbOf 3) ∧ wiredKeeping.MayUse (rbOf 3) ∧
    (rbOf 3).reaches32 (rbOf 3).hasWrite32 0xFFFFFFFC = true ∧ (rbOf 3).reaches32 (rbOf 3).hasRead32 0xFFFFFFFC = true ∧
    (rbOf 3).reaches 0xFFFFFFFC = true ∧ wiredKeeping.fars[3]? = some ⟨true, []⟩ ∧
    ∀ x : U32, x = evenAddr 0xFFFFFFFC ∨ x = evenAddr (0xFFFFFFFC + 2) →
      wiredKeeping.readTarget 3 x = none ∧ wiredKeeping.writeTarget 3 x = none :=
  ⟨⟨⟨rfl, rfl⟩, rfl⟩, ⟨rfl, rfl⟩, ⟨rfl, rfl⟩, by decide, by decide, by decide, rfl,
    by rintro x (rfl | rfl) <;> decide +kernel⟩

theorem test_meets_BusReset :
    base.Idle ∧ base.Names (.inst 0) 0 (rbOf 0) ∧ (rbOf 0).hasReset = false ∧ base.Names (.inst 3) 3 (rbOf 3) ∧
    ((rbOf 3).sleeps && base.atomic) = false ∧ (rbOf 3).hasReset = true ∧ base.turns = [] ∧
    (failing base).Idle ∧ (failing base).Names (.inst 3) 3 (rbOf 3) ∧
    (failing base).turns = .fail true :: [.preempt] ∧ (rbOf 3).cfg.resetEffect = .keep :=
  ⟨⟨rfl, rfl⟩, ⟨rfl, rfl⟩, rfl, ⟨rfl, rfl⟩, rfl, rfl, rfl, ⟨rfl, rfl⟩, ⟨rfl, rfl⟩, rfl, rfl⟩

theorem test_meets_ReleaseHandle :
    holding.Idle ∧ holding.handles[0]? = some ⟨3, false⟩ ∧ holding.rbs[3]? = some { rbOf 3 with refs := 1 } ∧
    holding.handles[1]? = some ⟨3, true⟩ := ⟨⟨rfl, rfl⟩, rfl, rfl, rfl⟩

/-! ### Wired devices -/

/-- The NCO of instance 1 is wired with any cells that keep its resource and its free lock. -/
theorem test_wired_nco (f : Nco → Nco) (hr : (f (ncoOf 1)).res = some ⟨.inst 1, 0⟩) (hk : (f (ncoOf 1)).removed = false)
    (hl : (f (ncoOf 1)).lock = none) (hs : (f (ncoOf 1)).spin = true) :
    NcoWired (withNco 1 f) 0 (f (ncoOf 1)) ⟨.inst 1, 0⟩ 1 (rbOf 1) := by
  have e : ∀ rs a, (withNco 1 f).ncoTarget rs 1 a = (wired 1 .rgmii).ncoTarget rs 1 a := by
    intro rs a
    show ([f (ncoOf 1)].zipIdx.reverse.findSome? _) = ([ncoOf 1].zipIdx.reverse.findSome? _)
    simp only [List.zipIdx_cons, List.zipIdx_nil, List.reverse_singleton, List.findSome?_cons, List.findSome?_nil, hr]
    rfl
  have er : ∀ a, (withNco 1 f).readTarget 1 a = (wired 1 .rgmii).readTarget 1 a := by
    intro a; simp only [State.readTarget, e]; rfl
  have ew : ∀ a, (withNco 1 f).writeTarget 1 a = (wired 1 .rgmii).writeTarget 1 a := by
    intro a; simp only [State.writeTarget, e]; rfl
  have hc : board.CmdBits := by unfold Board.CmdBits; decide
  have h1 : ∀ r ∈ NcoReg.readable, r ≠ .subnsec ∨ board.readSubnsec = true →
      (rbOf 1).reaches32 (rbOf 1).hasRead32 (0 + board.ncoMap.off r) = true ∧
        (wired 1 .rgmii).ShowsNco 1 0 r (0 + board.ncoMap.off r) := by unfold State.ShowsNco; decide +kernel
  have h2 : ∀ r ∈ NcoReg.writable, (rbOf 1).reaches32 (rbOf 1).hasWrite32 (0 + board.ncoMap.off r) = true ∧
      (wired 1 .rgmii).TakesNco 1 0 r (0 + board.ncoMap.off r) := by unfold State.TakesNco; decide +kernel
  exact {
    device := rfl
    resource := hr
    names := ⟨rfl, rfl⟩
    use := ⟨rfl, rfl⟩
    kept := hk
    free := hl
    lockKind := hs
    commands := hc
    reads := fun r hr' hs' => ⟨(h1 r hr' hs').1, (er _).trans (h1 r hr' hs').2.1, (er _).trans (h1 r hr' hs').2.2⟩
    writes := fun r hr' => ⟨(h2 r hr').1, (ew _).trans (h2 r hr').2.1, (ew _).trans (h2 r hr').2.2⟩ }

theorem test_wired_nco_native : NcoWired (wired 1 .rgmii) 0 (ncoOf 1) ⟨.inst 1, 0⟩ 1 (rbOf 1) :=
  test_wired_nco id rfl rfl rfl rfl

theorem test_wired_nco_slave : NcoWired (wired 3 .rgmii) 0 (ncoOf 3) ⟨.inst 3, 0⟩ 3 (rbOf 3) where
  device := rfl
  resource := rfl
  names := ⟨rfl, rfl⟩
  use := ⟨rfl, rfl⟩
  kept := rfl
  free := rfl
  lockKind := rfl
  commands := by unfold Board.CmdBits; decide
  reads := by unfold State.ShowsNco; decide +kernel
  writes := by unfold State.TakesNco; decide +kernel

theorem test_wired_nco_i2c : NcoWired (wired 2 .rgmii) 0 (ncoOf 2) ⟨.inst 2, 0⟩ 2 (rbOf 2) where
  device := rfl
  resource := rfl
  names := ⟨rfl, rfl⟩
  use := ⟨rfl, rfl⟩
  kept := rfl
  free := rfl
  lockKind := rfl
  commands := by unfold Board.CmdBits; decide
  reads := by unfold State.ShowsNco; decide +kernel
  writes := by unfold State.TakesNco; decide +kernel

/-- Being wired does not depend on the turns. -/
theorem test_wired_with_turns {s : State} {d i : Nat} {n : Nco} {res : Resource} {rb : Rb} (w : NcoWired s d n res i rb)
    (l : List Turn) : NcoWired { s with turns := l } d n res i rb where
  device := w.device
  resource := w.resource
  names := w.names
  use := w.use
  kept := w.kept
  free := w.free
  lockKind := w.lockKind
  commands := w.commands
  reads := w.reads
  writes := w.writes

/-- The NCO of instance `i` with these turns. -/
def scripted (i : Nat) (l : List Beat) : State :=
  { wired i .rgmii with turns := (rbOf i).script 0 (rbOf i).aa1Cache l }

/-- The first transfer on the NCO of the I2C instance fails and does not land. -/
def ncoFailing : State := { wired 2 .rgmii with turns := [.fail false, .preempt] }

/-- What the error cases of the four operations on an NCO ask for: a free lock and an agent with nothing to do, an operation
that returns, no completion of the command, a failing transfer. -/
theorem test_nco_errors :
    (wired 1 .rgmii).me.op = none ∧ (wired 1 .rgmii).ncos[0]? = some (ncoOf 1) ∧ (ncoOf 1).lock = none ∧
    (∀ i ∈ [Instr.readTime 0, .adjustTime 0 1 5 7, .adjustFrequency 0 256, .initRegisters 0],
      ran i { wired 1 .rgmii with tape := List.replicate 200 0 } (fun t => (t.me.op, t.me.stopped, errorIn t)) =
        some (none, none, some .timeout)) ∧
    NcoWired (wired 1 .rgmii) 0 (ncoOf 1) ⟨.inst 1, 0⟩ 1 (rbOf 1) ∧ (wired 1 .rgmii).Idle ∧ (wired 1 .rgmii).turns = [] ∧
    NcoWired ncoFailing 0 (ncoOf 2) ⟨.inst 2, 0⟩ 2 (rbOf 2) ∧ ncoFailing.Idle ∧ (ncoOf 2).initialised = true ∧
    (rbOf 2).backend = .i2c ∧ (rbOf 2).hasWrite32 = false ∧ ncoFailing.turns = .fail false :: [.preempt] :=
  ⟨rfl, rfl, rfl, by decide +kernel, test_wired_nco_native, ⟨rfl, rfl⟩, rfl,
    test_wired_with_turns test_wired_nco_i2c _, ⟨rfl, rfl⟩, rfl, rfl, rfl, rfl⟩

theorem test_meets_ReadTime :
    NcoWired (scripted 3 (readTimeBeats board 0 100)) 0 (ncoOf 3) ⟨.inst 3, 0⟩ 3 (rbOf 3) ∧
    (scripted 3 (readTimeBeats board 0 100)).Idle ∧ (ncoOf 3).initialised = true ∧
    (scripted 3 (readTimeBeats board 0 100)).turns = (rbOf 3).script 0 (rbOf 3).aa1Cache (readTimeBeats board 0 100) ∧
    board.readSubnsec = false := ⟨test_wired_with_turns test_wired_nco_slave _, ⟨rfl, rfl⟩, rfl, rfl, rfl⟩

theorem test_meets_AdjustTime :
    NcoWired (scripted 1 (adjustTimeBeats board 0 100)) 0 (ncoOf 1) ⟨.inst 1, 0⟩ 1 (rbOf 1) ∧
    (scripted 1 (adjustTimeBeats board 0 100)).Idle ∧ (ncoOf 1).initialised = true ∧
    (0x7FFFFFFF : U32).toNat < 2 ^ 31 ∧ 2 ^ 31 ≤ (0x80000000 : U32).toNat ∧ (ncoOf 1).removed = false ∧
    board.adjReplacesStep = true :=
  ⟨test_wired_with_turns test_wired_nco_native _, ⟨rfl, rfl⟩, rfl, by decide, by decide, rfl, rfl⟩

theorem test_meets_AdjustFrequency :
    NcoWired (scripted 1 (adjustFrequencyBeats board 0 100)) 0 (ncoOf 1) ⟨.inst 1, 0⟩ 1 (rbOf 1) ∧
    (scripted 1 (adjustFrequencyBeats board 0 100)).Idle ∧ (ncoOf 1).initialised = true ∧
    (let v (ppb : U32) : Int := (ncoOf 1).nominal48.toNat + ppbDelta board.ppb (ncoOf 1).scale ppb
     v 0xC4653600 = 0 ∧ 0 ≤ v 0x7FFFFFFF ∧ v 0x7FFFFFFF < 64 * 2 ^ 32 ∧ v 0x80000000 < 0) ∧
    (ncoOf 1).removed = false ∧ (ncoOf 1).lock = none ∧ (ncoOf 1).spin = true ∧
    (ncoOf 3).spin = false ∧ (wired 3 .rgmii).atomic = false ∧
    64 * 2 ^ 32 ≤ (0x3FFFFFFFFF : Int) + ppbDelta .reference 0x3FFFFFFFFF 1 :=
  ⟨test_wired_with_turns test_wired_nco_native _, ⟨rfl, rfl⟩, rfl, by decide +kernel, rfl, rfl, rfl, rfl, rfl,
    by decide +kernel⟩

/-- An NCO of instance 1 that is not initialised. -/
def uninitialised (n : Nco) : Nco := { n with initialised := false }

theorem test_meets_InitRegisters :
    NcoWired (scripted 1 (initBeats board 0 fun _ => 100)) 0 (ncoOf 1) ⟨.inst 1, 0⟩ 1 (rbOf 1) ∧
    (scripted 1 (initBeats board 0 fun _ => 100)).Idle ∧
    NcoWired { withNco 1 uninitialised with turns := (rbOf 1).script 0 none (initBeats board 0 fun _ => 100) } 0
      (uninitialised (ncoOf 1)) ⟨.inst 1, 0⟩ 1 (rbOf 1) ∧ board.adjReplacesStep = true :=
  ⟨test_wired_with_turns test_wired_nco_native _, ⟨rfl, rfl⟩,
    test_wired_with_turns (test_wired_nco uninitialised rfl rfl rfl rfl) _, rfl⟩

theorem test_meets_NcoProbe :
    base.Idle ∧ (∃ n, base.ncos[0]? = some n ∧ n.removed = false) ∧ (∀ n, base.ncos[9]? = some n → n.removed = false) ∧ 63 < (64 : U32).toNat ∧
    (63 : U32).toNat ≤ 63 ∧ base.Names (.inst 2) 2 (rbOf 2) ∧ base.ncos.length ≤ 1 ∧ base.ncos.length ≤ 9 ∧
    (∃ n, (withNco 1 fun n => { n with removed := true }).ncos[0]? = some n ∧ n.removed = true) :=
  ⟨⟨rfl, rfl⟩, ⟨_, rfl, rfl⟩, fun _ h => (by cases h), by decide, by decide, ⟨rfl, rfl⟩, by decide, by decide, ⟨_, rfl, rfl⟩⟩

/-- An NCO with a pending `READ`. -/
def pendingRead (n : Nco) : Nco := { n with hw := { n.hw with pendRead := true } }

theorem test_wired_reading (l : List Turn) :
    NcoWired { withNco 1 pendingRead with turns := l } 0 (pendingRead (ncoOf 1)) ⟨.inst 1, 0⟩ 1 (rbOf 1) :=
  test_wired_with_turns (test_wired_nco pendingRead rfl rfl rfl rfl) l

theorem test_meets_CmdPollCompletes :
    (wired 1 .rgmii).Idle ∧ (ncoOf 1).hw.pending .read = false ∧ (wired 1 .rgmii).turns = [] ∧
    NcoWired (wired 1 .rgmii) 0 (ncoOf 1) ⟨.inst 1, 0⟩ 1 (rbOf 1) ∧
    NcoWired { wired 3 .rgmii with turns := (rbOf 3).script 0 (rbOf 3).aa1Cache [.readAt (0 + board.ncoMap.cmd)] ++ [.preempt] } 0
      (ncoOf 3) ⟨.inst 3, 0⟩ 3 (rbOf 3) ∧ (ncoOf 3).hw.pending .read = false ∧
    (pendingRead (ncoOf 1)).hw.pending .read = true ∧
    NcoWired { withNco 1 pendingRead with turns := (rbOf 1).script 0 none (pollBeats board 0 100 .read) ++ [.preempt] } 0
      (pendingRead (ncoOf 1)) ⟨.inst 1, 0⟩ 1 (rbOf 1) :=
  ⟨⟨rfl, rfl⟩, rfl, rfl, test_wired_nco_native, test_wired_with_turns test_wired_nco_slave _, rfl, rfl, test_wired_reading _⟩

theorem test_meets_CmdPollTimesOut :
    NcoWired { withNco 1 pendingRead with turns := List.replicate 101 .go ++ [.preempt] } 0 (pendingRead (ncoOf 1))
      ⟨.inst 1, 0⟩ 1 (rbOf 1) ∧ NcoWired { withNco 1 pendingRead with turns := [] } 0 (pendingRead (ncoOf 1))
      ⟨.inst 1, 0⟩ 1 (rbOf 1) ∧ (pendingRead (ncoOf 1)).hw.pending .read = true ∧ (rbOf 1).hasRead32 = true ∧
    (withNco 1 pendingRead).Idle := ⟨test_wired_reading _, test_wired_reading _, rfl, rfl, rfl, rfl⟩

theorem test_meets_NcoTick :
    (wired 1 .rgmii).Idle ∧ (wired 1 .rgmii).ncos[0]? = some (ncoOf 1) ∧ (ncoOf 1).hw.pendAdjClock = false ∧
    (ncoHw 0 999999999).nsec.toNat < 1000000000 ∧ ({ ncoHw 0 0 with pendAdjClock := true } : NcoHw).pendAdjClock = true :=
  ⟨⟨rfl, rfl⟩, rfl, rfl, by decide, rfl⟩

theorem test_meets_NcoCmdComplete :
    (withNco 1 fun n => { n with hw := { n.hw with pendAdjClock := true } }).Idle ∧
    ((withNco 1 fun n => { n with hw := { n.hw with pendAdjClock := true } }).ncos[0]?.map fun n =>
      (n.hw.pending .adjClock, n.hw.pending .read)) = some (true, false) := ⟨⟨rfl, rfl⟩, rfl⟩

theorem test_meets_NcoGuards :
    (wired 1 .rgmii).Idle ∧ (withNco 1 fun n => { n with removed := true }).ncos[0]? = some { ncoOf 1 with removed := true } ∧
    (withNco 1 uninitialised).ncos[0]? = some (uninitialised (ncoOf 1)) ∧ (uninitialised (ncoOf 1)).removed = false ∧
    (uninitialised (ncoOf 1)).initialised = false ∧
    NcoWired { withNco 1 uninitialised with turns := (rbOf 1).script 0 none (initBeats board 0 fun _ => 0) } 0
      (uninitialised (ncoOf 1)) ⟨.inst 1, 0⟩ 1 (rbOf 1) ∧
    (withNco 3 fun n => { n with lock := some 4 }).Idle ∧
    (withNco 3 fun n => { n with lock := some 4 }).ncos[0]? = some { ncoOf 3 with lock := some 4 } ∧
    (ncoOf 3).removed = false ∧ (ncoOf 3).spin = false ∧ (withNco 3 fun n => { n with lock := some 4 }).atomic = false ∧
    (ncoOf 3).initialised = true ∧ (0x7FFFFFFF : U32).toNat < 2 ^ 31 :=
  ⟨⟨rfl, rfl⟩, rfl, rfl, rfl, rfl, test_wired_with_turns (test_wired_nco uninitialised rfl rfl rfl rfl) _, ⟨rfl, rfl⟩, rfl,
    rfl, rfl, rfl, rfl, by decide⟩

/-! ### Ports -/

theorem test_wired_port (v : Variant) : PortWired (wired 2 v) 0 (portOf 2 v) ⟨.inst 2, 0⟩ 2 (rbOf 2) where
  device := rfl
  resource := rfl
  names := ⟨rfl, rfl⟩
  use := ⟨rfl, rfl⟩
  kept := rfl

theorem test_meets_AdpDetect :
    (wired 2 .rgmii).Idle ∧ PortWired (wired 2 .rgmii) 0 (portOf 2 .rgmii) ⟨.inst 2, 0⟩ 2 (rbOf 2) ∧
    (wired 2 .rgmii).ShowsAdp 2 0 (rbOf 2) 0 .id .rgmii ∧ (wired 2 .rgmii).turns = [] ∧ (rbOf 2).backend = .i2c ∧
    (failing (wired 2 .rgmii)).turns = .fail true :: [.preempt] :=
  ⟨⟨rfl, rfl⟩, test_wired_port .rgmii, ⟨0x80, rfl, by decide, by decide +kernel⟩, rfl, rfl, rfl⟩

/-- The devices on instance 2 and no port. -/
def portless : State := { wired 2 .rgmii with ports := [] }

theorem test_meets_AdpProbe :
    (wired 2 .rgmii).Ready ∧ (wired 2 .rgmii).portAt 0 = some (portOf 2 .rgmii) ∧ (portOf 2 .rgmii).removed = false ∧
    (wired 2 .rgmii).Names (.inst 2) 2 (rbOf 2) ∧ (wired 2 .rgmii).MayUse (rbOf 2) ∧
    (rbOf 2).reaches (0 + board.adpMap.id) = true ∧
    State.readTarget ((wired 2 .rgmii).modPort 0 fun x => { x with res := some ⟨.inst 2, 0⟩, variant := .none }) 2
      (evenAddr (0 + board.adpMap.id)) = some (.adp 0 .id) ∧
    portless.Ready ∧ portless.Names (.inst 2) 2 (rbOf 2) ∧ portless.MayUse (rbOf 2) ∧ portless.portAt 9 = none ∧
    (∀ q, portless.portAt 9 = some q → q.removed = false) ∧
    (∀ q : Port, q.port = 9 → q.res = some ⟨.inst 2, 0⟩ → q.variant = .none →
      State.readTarget { portless with ports := portless.ports ++ [q] } 2 (evenAddr (0 + board.adpMap.id)) =
        some (.adp 9 .id)) := by
  refine ⟨⟨⟨rfl, rfl⟩, rfl⟩, rfl, rfl, ⟨rfl, rfl⟩, ⟨rfl, rfl⟩, by decide, by decide +kernel, ⟨⟨rfl, rfl⟩, rfl⟩, ⟨rfl, rfl⟩,
    ⟨rfl, rfl⟩, rfl, fun _ h => (by cases h), fun q hp hr hv => ?_⟩
  have h1 : portless.ncoTarget NcoReg.readable 2 (evenAddr (0 + board.adpMap.id)) = none := by decide +kernel
  have h2 : portless.tsTarget TsReg.readable 2 (evenAddr (0 + board.adpMap.id)) = none := by decide +kernel
  have e1 : State.ncoTarget { portless with ports := portless.ports ++ [q] } NcoReg.readable 2
    (evenAddr (0 + board.adpMap.id)) = none := h1
  have e2 : State.tsTarget { portless with ports := portless.ports ++ [q] } TsReg.readable 2
    (evenAddr (0 + board.adpMap.id)) = none := h2
  rw [State.readTarget, e1, e2]
  show ([q].reverse.findSome? _) = some (Target.adp 9 .id)
  simp only [List.reverse_singleton, List.findSome?_cons, List.findSome?_nil, hp, hr, hv, State.baseOn, State.instOf]
  decide +kernel

theorem test_meets_CheckLink :
    (wired 2 .rgmii).Ready ∧ (wired 2 .rgmii).portAt 0 = some (portOf 2 .rgmii) ∧ (portOf 2 .rgmii).removed = false ∧
    (portOf 2 .rgmii).linkCheckEnabled = true ∧
    ({ portOf 2 .rgmii with linkCheckEnabled := false } : Port).linkCheckEnabled = false ∧
    (portOf 2 .mii).variant ∈ [Variant.none, .mii, .rmii] ∧
    PortWired (wired 2 .rgmii) 0 (portOf 2 .rgmii) ⟨.inst 2, 0⟩ 2 (rbOf 2) ∧
    (wired 2 .rgmii).ShowsAdp 2 0 (rbOf 2) 0 .status .rgmii ∧
    (wired 2 .sgmiiOr1000BaseX).ShowsAdp 2 0 (rbOf 2) 0 .status .sgmiiOr1000BaseX ∧
    (wired 2 .sgmiiOr1000BaseX).ShowsAdp 2 0 (rbOf 2) 0 .pcsStatus .sgmiiOr1000BaseX ∧
    (wired 2 .only1000BaseX).ShowsAdp 2 0 (rbOf 2) 0 .status .only1000BaseX ∧
    (wired 2 .only100BaseFX).ShowsAdp 2 0 (rbOf 2) 0 .status .only100BaseFX :=
  ⟨⟨⟨rfl, rfl⟩, rfl⟩, rfl, rfl, rfl, rfl, by decide, test_wired_port .rgmii, ⟨0x8C, rfl, by decide, by decide +kernel⟩,
    ⟨0x84, rfl, by decide, by decide +kernel⟩, ⟨0x8E, rfl, by decide, by decide +kernel⟩,
    ⟨0x88, rfl, by decide, by decide +kernel⟩, ⟨0x8A, rfl, by decide, by decide +kernel⟩⟩

theorem test_meets_CheckLinkLegal :
    (wired 2 .mii).me.op = none ∧ ∃ t, exec (.checkLink 0) (wired 2 .mii) = .next t ∧ t.me.op = none ∧ t.me.stopped = none :=
  ⟨rfl, _, rfl, rfl, rfl⟩

theorem test_meets_AdpSetup :
    (wired 2 .rgmii).Idle ∧ (wired 2 .rgmii).portAt 0 = some (portOf 2 .rgmii) ∧ linkBit .full10 &&& 0x0004 = 0 ∧
    setupWrites board.setup .mii .none true .down = [] ∧
    setupWrites board.setup .rgmii .none true .down = [(0x92, 1), (0x94, 2)] ∧
    PortWired (wired 2 .rgmii) 0 (portOf 2 .rgmii) ⟨.inst 2, 0⟩ 2 (rbOf 2) ∧ (rbOf 2).reaches 0x92 = true ∧
    (rbOf 2).reaches 0x94 = true ∧ (rbOf 2).backend = .i2c ∧
    ({ wired 2 .rgmii with turns := [.fail false] } : State).turns = .fail false :: [] :=
  ⟨⟨rfl, rfl⟩, rfl, by decide, by decide, by decide, test_wired_port .rgmii, by decide, by decide, rfl, rfl⟩

theorem test_meets_InitAdapter :
    (wired 2 .rgmii).Idle ∧ (wired 2 .rgmii).portAt 0 = some (portOf 2 .rgmii) ∧ (portOf 2 .rgmii).removed = false :=
  ⟨⟨rfl, rfl⟩, rfl, rfl⟩

/-! ### Timestampers -/

/-- The timestamper of instance 1, which does not sleep, or of the I2C instance 2, wired with any cells that keep its
resource. -/
theorem test_wired_ts (i : Nat) (hi : i = 1 ∨ i = 2) (f : Ts → Ts) (hr : (f (tsOf i)).res = some ⟨.inst i, 0⟩)
    (hk : (f (tsOf i)).removed = false) : TsWired (withTs i f) 0 (f (tsOf i)) ⟨.inst i, 0⟩ i (rbOf i) := by
  have e : ∀ rs a, (withTs i f).tsTarget rs i a = (wired i .rgmii).tsTarget rs i a := by
    intro rs a
    show ([f (tsOf i)].zipIdx.reverse.findSome? _) = ([tsOf i].zipIdx.reverse.findSome? _)
    simp only [List.zipIdx_cons, List.zipIdx_nil, List.reverse_singleton, List.findSome?_cons, List.findSome?_nil, hr]
    rfl
  have er : ∀ a, (withTs i f).readTarget i a = (wired i .rgmii).readTarget i a := by
    intro a; simp only [State.readTarget, e]; rfl
  have ew : ∀ a, (withTs i f).writeTarget i a = (wired i .rgmii).writeTarget i a := by
    intro a; simp only [State.writeTarget, e]; rfl
  have h1 : ∀ r ∈ TsReg.readable, (rbOf i).reaches32 (rbOf i).hasRead32 (0 + board.tsMap.off r) = true ∧
      (wired i .rgmii).ShowsTs i 0 r (0 + board.tsMap.off r) := by
    rcases hi with rfl | rfl <;> (unfold State.ShowsTs; decide +kernel)
  have h2 : ∀ r ∈ TsReg.writable, (rbOf i).reaches32 (rbOf i).hasWrite32 (0 + board.tsMap.off r) = true ∧
      (wired i .rgmii).TakesTs i 0 r (0 + board.tsMap.off r) := by
    rcases hi with rfl | rfl <;> (unfold State.TakesTs; decide +kernel)
  exact {
    device := rfl
    resource := hr
    names := ⟨by rcases hi with rfl | rfl <;> rfl, rfl⟩
    use := ⟨by rcases hi with rfl | rfl <;> rfl, by rcases hi with rfl | rfl <;> rfl⟩
    kept := hk
    reads := fun r hr' => ⟨(h1 r hr').1, (er _).trans (h1 r hr').2.1, (er _).trans (h1 r hr').2.2⟩
    writes := fun r hr' => ⟨(h2 r hr').1, (ew _).trans (h2 r hr').2.1, (ew _).trans (h2 r hr').2.2⟩ }

/-- The same of instance 1. -/
theorem test_wired_ts_native (f : Ts → Ts) (hr : (f (tsOf 1)).res = some ⟨.inst 1, 0⟩) (hk : (f (tsOf 1)).removed = false) :
    TsWired (withTs 1 f) 0 (f (tsOf 1)) ⟨.inst 1, 0⟩ 1 (rbOf 1) := test_wired_ts 1 (.inl rfl) f hr hk

/-- Being wired does not depend on the turns. -/
theorem test_wired_ts_with_turns {s : State} {d i : Nat} {t : Ts} {res : Resource} {rb : Rb} (w : TsWired s d t res i rb)
    (l : List Turn) : TsWired { s with turns := l } d t res i rb where
  device := w.device
  resource := w.resource
  names := w.names
  use := w.use
  kept := w.kept
  reads := w.reads
  writes := w.writes

/-- The timestamper of the I2C instance after an update of its cells, where transfer `k` fails. -/
def tsFailing (f : Ts → Ts) (k : Nat) : State := { withTs 2 f with turns := List.replicate k .go ++ .fail true :: [.preempt] }

theorem test_wired_ts_failing (f : Ts → Ts) (k : Nat) (hr : (f (tsOf 2)).res = some ⟨.inst 2, 0⟩)
    (hk : (f (tsOf 2)).removed = false) : TsWired (tsFailing f k) 0 (f (tsOf 2)) ⟨.inst 2, 0⟩ 2 (rbOf 2) :=
  test_wired_ts_with_turns (test_wired_ts 2 (.inr rfl) f hr hk) _

theorem test_i2c_instance : (rbOf 2).backend = .i2c ∧ (rbOf 2).hasRead32 = false ∧ (rbOf 2).hasWrite32 = false := ⟨rfl, rfl, rfl⟩

/-- Agent 3 holds the configuration lock. -/
def configuring (t : Ts) : Ts := { t with cfgLock := some 3 }

/-- The agent holds the spinlock of an MMIO NCO; another NCO and the timestamper are on the I2C instance. -/
def sleepy : State := { wired 2 .rgmii with ncos := [ncoOf 2, { ncoOf 1 with lock := some 0 }] }

/-- A timestamper that checks in its interrupt handler although its instance sleeps, its interrupt asserted. -/
def sleepyIrq (t : Ts) : Ts := { t with deferred := false, irqHooked := true, hw := tsHwEvent }

theorem test_meets_AtomicSleepFaults :
    sleepy.Idle ∧ sleepy.atomic = true ∧ sleepy.Names (.inst 4) 4 (rbOf 4) ∧ (rbOf 4).sleeps = true ∧
    sleepy.Names (.inst 0) 0 (rbOf 0) ∧ (rbOf 0).sleeps = false ∧ (rbOf 0).hasReset = false ∧
    sleepy.ncos[0]? = some (ncoOf 2) ∧ (ncoOf 2).removed = false ∧ (ncoOf 2).initialised = true ∧ (ncoOf 2).spin = false ∧
    (0x7FFFFFFF : U32).toNat < 2 ^ 31 ∧ sleepy.tss[0]? = some (tsOf 2) ∧ (tsOf 2).removed = false ∧
    (999999999 : U32).toNat < 1000000000 ∧ (tsOf 2).handles[0]? = some (.held 0) ∧ 16 ≤ (16 : U32).toNat ∧
    (withTs 2 sleepyIrq).Idle ∧ TsWired (withTs 2 sleepyIrq) 0 (sleepyIrq (tsOf 2)) ⟨.inst 2, 0⟩ 2 (rbOf 2) ∧
    (rbOf 2).sleeps = true ∧ (sleepyIrq (tsOf 2)).deferred = false ∧ (sleepyIrq (tsOf 2)).irqReady = true ∧
    (sleepyIrq (tsOf 2)).indexLock = none ∧ (sleepyIrq (tsOf 2)).stuck = false :=
  ⟨⟨rfl, rfl⟩, by decide +kernel, ⟨rfl, rfl⟩, rfl, ⟨rfl, rfl⟩, rfl, rfl, rfl, rfl, rfl, rfl, by decide, rfl, rfl, by decide, rfl,
    by decide, ⟨rfl, rfl⟩, test_wired_ts 2 (.inr rfl) sleepyIrq rfl rfl, rfl, rfl, by decide, rfl, by decide⟩

theorem test_meets_TsOpen :
    (wired 1 .rgmii).Ready ∧ (withTs 1 fun t => { t with useCount := 0 }).Ready ∧ (wired 1 .rgmii).atomic = false ∧
    (tsOf 1).cfgLock = none ∧
    TsWired (withTs 1 fun t => { t with useCount := 0 }) 0 { tsOf 1 with useCount := 0 } ⟨.inst 1, 0⟩ 1 (rbOf 1) ∧
    TsWired (withTs 1 id) 0 (tsOf 1) ⟨.inst 1, 0⟩ 1 (rbOf 1) ∧ (tsOf 1).useCount = 1 ∧
    (withTs 1 configuring).Idle ∧ (withTs 1 configuring).tss[0]? = some (configuring (tsOf 1)) ∧
    (withTs 1 configuring).atomic = false ∧ (configuring (tsOf 1)).cfgLock ≠ none ∧
    TsWired (tsFailing (fun t => { t with useCount := 0 }) 3) 0 { tsOf 2 with useCount := 0 } ⟨.inst 2, 0⟩ 2 (rbOf 2) ∧
    (tsFailing (fun t => { t with useCount := 0 }) 3).Idle ∧ (tsFailing (fun t => { t with useCount := 0 }) 3).atomic = false ∧
    (tsOf 2).cfgLock = none ∧ 3 < (if (tsOf 2).mode = .interrupt then 4 else 2) ∧
    1 < (if ({ tsOf 2 with mode := .poll } : Ts).mode = .interrupt then 4 else 2) :=
  ⟨⟨⟨rfl, rfl⟩, rfl⟩, ⟨⟨rfl, rfl⟩, rfl⟩, rfl, rfl, test_wired_ts_native (fun t => { t with useCount := 0 }) rfl rfl,
    test_wired_ts_native id rfl rfl, rfl, ⟨rfl, rfl⟩, rfl, rfl, by decide,
    test_wired_ts_failing (fun t => { t with useCount := 0 }) 3 rfl rfl, ⟨rfl, rfl⟩, rfl, rfl, by decide, by decide⟩

theorem test_meets_TsClose :
    (wired 1 .rgmii).Ready ∧ (wired 1 .rgmii).tss[0]? = some (tsOf 1) ∧ (tsOf 1).handles[0]? = some (.held 0) ∧
    ({ tsOf 1 with handles := [.held 1] } : Ts).handles[0]? = some (.held (0 + 1)) ∧
    (withTs 1 configuring).tss[0]? = some (configuring (tsOf 1)) ∧ (configuring (tsOf 1)).cfgLock ≠ none ∧
    (withTs 1 configuring).atomic = false ∧ (configuring (tsOf 1)).handles[0]? = some (.held 0) ∧
    (tsOf 1).isOpen 1 = false ∧ (tsOf 1).removed = false ∧ (tsOf 1).triggersDone = true ∧ (tsOf 1).useCount ≤ 1 ∧
    (wired 1 .rgmii).atomic = false ∧ (tsOf 1).cfgLock = none ∧
    TsWired (withTs 1 id) 0 (tsOf 1) ⟨.inst 1, 0⟩ 1 (rbOf 1) ∧
    TsWired (withTs 1 fun t => { t with useCount := 2 }) 0 { tsOf 1 with useCount := 2 } ⟨.inst 1, 0⟩ 1 (rbOf 1) :=
  ⟨⟨⟨rfl, rfl⟩, rfl⟩, rfl, rfl, rfl, rfl, by decide, rfl, rfl, rfl, rfl, rfl, by decide, rfl, rfl,
    test_wired_ts_native id rfl rfl, test_wired_ts_native (fun t => { t with useCount := 2 }) rfl rfl⟩

/-- A full buffer of unread events, then a reader. -/
def unread : State := withTs 1 (ring 16 16)

theorem test_meets_TsReadDelivers :
    unread.Ready ∧ (∃ t, unread.tss[0]? = some t ∧ t.removed = false ∧ t.isOpen 0 = true ∧ t.readerLock = none ∧
      t.indexLock = none ∧ t.readCount < t.bufCount ∧ ∀ k, k < min (t.bufCount - t.readCount) ((16 : U32).toNat / 16) →
        t.slot (t.readCount + k) ≠ none) ∧ unread.atomic = false ∧ unread.me.signal = false ∧
      16 ≤ (16 : U32).toNat ∧ 16 * min (16 - 0) ((16 : U32).toNat / 16) ≤ unread.me.bufferSize :=
  ⟨⟨⟨rfl, rfl⟩, rfl⟩, ⟨_, rfl, rfl, rfl, rfl, rfl, by decide +kernel, by decide +kernel⟩, rfl, rfl, by decide,
    by decide +kernel⟩

/-- What a reader with a buffer of 16 bytes leaves when it blocks, as far as a resumed reader needs it. -/
def leftBlocked (s : State) (w : WaitKind) : Bool :=
  match exec (.tsRead 0 0 16 false) s with
  | .next t => decide (t.me.op = some (.tsRead 0 0 16 false) ∧ t.me.blocked = some w ∧ t.cut = none ∧ t.atomic = false ∧
      (t.tss[0]?.map (·.handles)) = some [.held 1])
  | _ => false

theorem test_meets_TsReadOtherwise :
    unread.Ready ∧ (wired 1 .rgmii).Ready ∧ (wired 1 .rgmii).tss[0]? = some (tsOf 1) ∧ (tsOf 1).removed = false ∧
    (tsOf 1).isOpen 1 = false ∧ (tsOf 1).isOpen 0 = true ∧ (tsOf 1).handles[0]? = some (.held 0) ∧
    ({ tsOf 1 with handles := [.closing 0], useCount := 2 } : Ts).handles[0]? = some (.closing 0) ∧
    ({ tsOf 1 with handles := [.closing 1] } : Ts).handles[0]? = some (.closing (0 + 1)) ∧ (tsOf 1).cfgLock = none ∧
    2 ≤ ({ tsOf 1 with handles := [.closing 0], useCount := 2 } : Ts).useCount ∧ (15 : U32).toNat < 16 ∧ 16 ≤ (16 : U32).toNat ∧
    unread.atomic = false ∧ unread.me.signal = false ∧
    ({ unread with me := { unread.me with signal := true } } : State).me.signal = true ∧
    (withTs 1 fun t => { t with readerLock := some 1 }).tss[0]? = some { tsOf 1 with readerLock := some 1 } ∧
    leftBlocked (withTs 1 fun t => { t with readerLock := some 1 }) .readerLock = true ∧
    leftBlocked (wired 1 .rgmii) .waitq = true ∧
    (tsOf 1).readerLock = none ∧ (tsOf 1).indexLock = none ∧
    (ring 4 0 (tsOf 1)).bufCount ≤ (ring 4 0 (tsOf 1)).readCount ∧ (tsOf 1).mode ≠ .direct ∧
    ({ tsOf 1 with mode := .direct } : Ts).mode = .direct ∧
    (tsOf 1).waiters.contains unread.me.id = false ∧ (ring 4 4 (tsOf 1)).readCount < (ring 4 4 (tsOf 1)).bufCount ∧
    ({ unread with me := { unread.me with bufferSize := 15 } } : State).me.bufferSize < 16 * min (4 - 0) ((16 : U32).toNat / 16) :=
  ⟨⟨⟨rfl, rfl⟩, rfl⟩, ⟨⟨rfl, rfl⟩, rfl⟩, rfl, rfl, rfl, rfl, rfl, rfl, rfl, rfl, by decide, by decide, by decide, rfl, rfl, rfl, rfl, by decide +kernel,
    by decide +kernel, rfl, rfl, by decide, by decide, rfl, rfl, by decide, by decide +kernel⟩

theorem test_meets_ChangeSettings :
    (wired 1 .rgmii).Ready ∧ (wired 1 .rgmii).tss[0]? = some (tsOf 1) ∧ (tsOf 1).removed = false ∧ (3 : U32) ≠ 0 ∧ (3 : U32) ≠ 1 ∧ (3 : U32) ≠ 2 ∧
    ({ tsOf 1 with irqLine := false } : Ts).irqLine = false ∧ 1000000000 ≤ (1000000000 : U32).toNat ∧
    (999999999 : U32).toNat < 1000000000 ∧ (tsOf 1).life = .idle ∧ (tsOf 1).irqLine = true ∧ (tsOf 1).triggersDone = true ∧
    TsWired (withTs 1 fun t => { t with life := .active }) 0 { tsOf 1 with life := .active } ⟨.inst 1, 0⟩ 1 (rbOf 1) ∧
    (wired 1 .rgmii).atomic = false ∧ (tsOf 1).cfgLock = none ∧ (tsOf 1).readerLock = none ∧
    (withTs 1 configuring).Ready ∧ (withTs 1 configuring).tss[0]? = some (configuring (tsOf 1)) ∧
    (withTs 1 configuring).atomic = false ∧ (configuring (tsOf 1)).cfgLock ≠ none :=
  ⟨⟨⟨rfl, rfl⟩, rfl⟩, rfl, rfl, by decide, by decide, by decide, rfl, by decide, by decide, rfl, rfl, rfl,
    test_wired_ts_native (fun t => { t with life := .active }) rfl rfl, rfl, rfl, rfl, ⟨⟨rfl, rfl⟩, rfl⟩, rfl, rfl, by decide⟩

/-- A ring of 16 slots, all of them filled and `unread` of them unread, and an event pending. -/
def fullRing (unread : Nat) (t : Ts) : Ts := { ring 16 unread t with hw := tsHwEvent }

theorem test_meets_EventCheck :
    TsWired (withTs 1 (ring 16 16)) 0 (ring 16 16 (tsOf 1)) ⟨.inst 1, 0⟩ 1 (rbOf 1) ∧ (withTs 1 (ring 16 16)).Ready ∧
    (ring 16 16 (tsOf 1)).indexLock = none ∧ (withTs 1 (ring 16 16)).board.bitNew < 32 ∧
    (ring 16 16 (tsOf 1)).workerBusy = false ∧ (ring 16 16 (tsOf 1)).irqRun ≠ .checking ∧
    TsWired (withTs 1 fun t => { t with workerBusy := true }) 0 { tsOf 1 with workerBusy := true } ⟨.inst 1, 0⟩ 1 (rbOf 1) ∧
    0 < (ring 16 16 (tsOf 1)).capacity ∧ (ring 16 16 (tsOf 1)).bufCount ≤ (ring 16 16 (tsOf 1)).capacity ∧
    (ring 16 16 (tsOf 1)).ringOk :=
  ⟨test_wired_ts_native (ring 16 16) rfl rfl, ⟨⟨rfl, rfl⟩, rfl⟩, rfl, by decide, rfl, by decide,
    test_wired_ts_native (fun t => { t with workerBusy := true }) rfl rfl, by decide, by decide, by unfold Ts.ringOk; decide⟩

/-- An event pending: the ring full and not drained, full and drained, and, on the I2C instance, with a failing transfer. -/
theorem test_meets_EventCheck_pending :
    TsWired (withTs 1 (fullRing 16)) 0 (fullRing 16 (tsOf 1)) ⟨.inst 1, 0⟩ 1 (rbOf 1) ∧
    TsWired (withTs 1 (fullRing 0)) 0 (fullRing 0 (tsOf 1)) ⟨.inst 1, 0⟩ 1 (rbOf 1) ∧
    (fullRing 16 (tsOf 1)).hw.pending = true ∧ (fullRing 16 (tsOf 1)).bufCount = (fullRing 16 (tsOf 1)).capacity ∧
    (fullRing 16 (tsOf 1)).readCount ≠ (fullRing 16 (tsOf 1)).bufCount ∧
    (fullRing 0 (tsOf 1)).readCount = (fullRing 0 (tsOf 1)).bufCount ∧ (withTs 1 (fullRing 16)).Ready ∧
    (withTs 1 (fullRing 16)).board.fullPolicy = .readAndDrop ∧ (rbOf 1).hasRead32 = true ∧ (rbOf 1).hasWrite32 = true ∧
    TsWired (tsFailing (fullRing 0) 13) 0 (fullRing 0 (tsOf 2)) ⟨.inst 2, 0⟩ 2 (rbOf 2) ∧ (tsFailing (fullRing 0) 13).Idle ∧
    (fullRing 0 (tsOf 2)).indexLock = none ∧ (fullRing 0 (tsOf 2)).workerBusy = false ∧ (fullRing 0 (tsOf 2)).deferred = true ∧
    (tsFailing (fullRing 0) 13).turns = List.replicate 13 .go ++ .fail true :: [.preempt] :=
  ⟨test_wired_ts_native (fullRing 16) rfl rfl, test_wired_ts_native (fullRing 0) rfl rfl, rfl, rfl, by decide, rfl,
    ⟨⟨rfl, rfl⟩, rfl⟩, rfl, rfl, rfl, test_wired_ts_failing (fullRing 0) 13 rfl rfl, ⟨rfl, rfl⟩, rfl, rfl, rfl, rfl⟩

theorem test_meets_EnableDisableMode :
    TsWired (withTs 1 id) 0 (tsOf 1) ⟨.inst 1, 0⟩ 1 (rbOf 1) ∧ (withTs 1 id).board.irqOn ≠ (withTs 1 id).board.irqOff ∧
    (withTs 1 id).Ready ∧ (withTs 1 id).atomic = false ∧ (tsOf 1).triggersDone = true ∧
    TsWired (withTs 1 fun t => { t with workPending := true }) 0 { tsOf 1 with workPending := true } ⟨.inst 1, 0⟩ 1 (rbOf 1) ∧
    (withTs 1 fun t => { t with workPending := true }).Ready ∧ ({ tsOf 1 with workPending := true } : Ts).triggersDone = false ∧
    TsWired (tsFailing id 3) 0 (tsOf 2) ⟨.inst 2, 0⟩ 2 (rbOf 2) ∧ (tsFailing id 3).Idle ∧
    TsWired (tsFailing id 1) 0 (tsOf 2) ⟨.inst 2, 0⟩ 2 (rbOf 2) ∧ (tsFailing id 1).Idle ∧ (tsFailing id 1).atomic = false ∧
    (tsOf 2).triggersDone = true ∧ (tsFailing id 1).turns = List.replicate 1 .go ++ .fail true :: [.preempt] :=
  ⟨test_wired_ts_native id rfl rfl, by decide, ⟨⟨rfl, rfl⟩, rfl⟩, rfl, rfl,
    test_wired_ts_native (fun t => { t with workPending := true }) rfl rfl, ⟨⟨rfl, rfl⟩, rfl⟩, rfl,
    test_wired_ts_failing id 3 rfl rfl, ⟨rfl, rfl⟩, test_wired_ts_failing id 1 rfl rfl, ⟨rfl, rfl⟩, rfl, rfl, rfl⟩

theorem test_meets_TsProbe :
    base.Idle ∧ (∃ t, base.tss[0]? = some t ∧ t.removed = false) ∧ (∀ t, base.tss[9]? = some t → t.removed = false) ∧
    base.Names (.inst 4) 4 (rbOf 4) ∧ base.tss.length ≤ 1 ∧ base.tss.length ≤ 9 ∧
    (∃ t, (withTs 1 fun t => { t with removed := true }).tss[0]? = some t ∧ t.removed = true) :=
  ⟨⟨rfl, rfl⟩, ⟨_, rfl, rfl⟩, fun _ h => (by cases h), ⟨rfl, rfl⟩, by decide, by decide, ⟨_, rfl, rfl⟩⟩

theorem test_meets_TsPulse :
    (wired 1 .rgmii).Idle ∧ (wired 1 .rgmii).tss[0]? = some (tsOf 1) ∧ (tsOf 1).hw.armed = true ∧
    tsHwEvent.armed = false := ⟨⟨rfl, rfl⟩, rfl, rfl, rfl⟩

/-- A timestamper whose interrupt is asserted and hooked. -/
def asserted (t : Ts) : Ts := { t with irqHooked := true, hw := tsHwEvent }

theorem test_meets_TsIrq :
    (withTs 1 asserted).Ready ∧ TsWired (withTs 1 asserted) 0 (asserted (tsOf 1)) ⟨.inst 1, 0⟩ 1 (rbOf 1) ∧
    (asserted (tsOf 1)).irqHooked = true ∧ (asserted (tsOf 1)).hw.pending = true ∧ (asserted (tsOf 1)).hw.irqEn = true ∧
    (asserted (tsOf 1)).irqDepth ≤ 0 ∧ (asserted (tsOf 1)).irqBusy = false ∧ (asserted (tsOf 1)).workerBusy = false ∧
    (asserted (tsOf 1)).deferred = false ∧ (asserted (tsOf 2)).deferred = true ∧
    (withTs 2 asserted).tss[0]? = some (asserted (tsOf 2)) ∧ (rbOf 1).sleeps = false ∧
    (asserted (tsOf 1)).indexLock = none ∧ board.bitNew < 32 ∧ (tsOf 1).irqHooked = false ∧
    0 < (asserted (tsOf 1)).capacity ∧ (asserted (tsOf 1)).bufCount ≤ (asserted (tsOf 1)).capacity ∧
    ran (.tsIrq 0) { withTs 1 asserted with tape := List.replicate 9 0 } (fun u => (u.me.op, u.me.stopped)) = some (none, none) ∧
    ran (.tsIrq 0) (withTs 2 asserted) (fun u => (u.me.op, u.me.stopped)) = some (none, none) :=
  ⟨⟨⟨rfl, rfl⟩, rfl⟩, test_wired_ts_native asserted rfl rfl, rfl, rfl, rfl, by decide, rfl, rfl, rfl, rfl, rfl, rfl, rfl,
    by decide, rfl, by decide, by decide, by decide +kernel, by decide +kernel⟩

/-- A timestamper with a check that the interrupt queued. -/
def queued (t : Ts) : Ts := { t with workPending := true, workIrq := true, irqDepth := 1 }

/-- A timestamper with a check that the interrupt queued although it masked nothing. -/
def unmasked (t : Ts) : Ts := { t with workPending := true, workIrq := true }

theorem test_meets_WorkerRun :
    TsWired (withTs 1 queued) 0 (queued (tsOf 1)) ⟨.inst 1, 0⟩ 1 (rbOf 1) ∧ (withTs 1 queued).Ready ∧
    (queued (tsOf 1)).workPending = true ∧ (queued (tsOf 1)).workerBusy = false ∧ (queued (tsOf 1)).irqRun ≠ .checking ∧
    (queued (tsOf 1)).indexLock = none ∧ board.bitNew < 32 ∧ 0 < (queued (tsOf 1)).irqDepth ∧
    TsWired (withTs 1 unmasked) 0 (unmasked (tsOf 1)) ⟨.inst 1, 0⟩ 1 (rbOf 1) ∧ (withTs 1 unmasked).Ready ∧
    (unmasked (tsOf 1)).workIrq = true ∧ (unmasked (tsOf 1)).irqDepth ≤ 0 ∧ (tsOf 1).workPending = false ∧
    0 < (queued (tsOf 1)).capacity ∧ (queued (tsOf 1)).bufCount ≤ (queued (tsOf 1)).capacity ∧
    ran (.workerRun 0) { tsFailing queued 5 with tape := List.replicate 9 0 } (fun u => (u.me.op, u.me.stopped)) = some (none, none) :=
  ⟨test_wired_ts_native queued rfl rfl, ⟨⟨rfl, rfl⟩, rfl⟩, rfl, rfl, by decide, rfl, by decide, by decide,
    test_wired_ts_native unmasked rfl rfl, ⟨⟨rfl, rfl⟩, rfl⟩, rfl, by decide, rfl, by decide, by decide, by decide +kernel⟩

theorem test_meets_PollFire :
    (wired 1 .rgmii).Idle ∧ (wired 1 .rgmii).tss[0]? = some (tsOf 1) ∧ (tsOf 1).removed = false ∧ (tsOf 1).timerOn = false ∧
    (tsOf 1).timerBusy = false ∧ ({ tsOf 1 with timerOn := true, timerDeadline := 0 } : Ts).timerDeadline ≤ (wired 1 .rgmii).hostTicks :=
  ⟨⟨rfl, rfl⟩, rfl, rfl, rfl, rfl, by decide⟩

/-- Agent 1 is blocked in a `ts_read`. -/
def blockedReader : Agent := { Agent.idle 1 .caller with op := some (.tsRead 0 0 32 false), blocked := some .waitq }

/-- Agent 1 is among the waiters, or was already woken, or waits for the reader lock. -/
def readers (w : WaitKind) (waiters : List Nat) (lock : Option Nat) : State :=
  { (withTs 1 fun t => { t with waiters := waiters, readerLock := lock }) with
    others := [{ blockedReader with blocked := some w }] }

theorem test_meets_HostSteps :
    base.Idle ∧ base.me.id ≠ 1 ∧ (∀ a ∈ base.me :: base.others, a.id ≠ 9) ∧
    (base.others.zipIdx.find? fun e => decide (e.1.id = 1)) = some (Agent.idle 1 .caller, 0) ∧
    (Agent.idle 1 .caller).op = none ∧
    ((readers .waitq [1] none).others.zipIdx.find? fun e => decide (e.1.id = 1)) = some (blockedReader, 0) ∧
    (readers .waitq [1] none).Idle ∧ blockedReader.op = some (.tsRead 0 0 32 false) ∧
    blockedReader.blocked = some .waitq ∧
    ((readers .waitq [1] none).tss[0]?.map fun t => t.waiters) = some [1] ∧
    ((readers .readerLock [] (some 2)).tss[0]?.map fun t => t.readerLock) = some (some 2) ∧
    ((readers .readerLock [] (some 2)).others.map (·.blocked)) = [some .readerLock] ∧
    ((readers .waitq [] none).tss[0]?.map fun t => t.waiters) = some [] :=
  ⟨⟨rfl, rfl⟩, by decide, by decide, rfl, rfl, rfl, ⟨rfl, rfl⟩, rfl, rfl, rfl, rfl, rfl, rfl⟩

theorem test_meets_RemovedUnitsRefuse :
    ({ portOf 1 .rgmii with removed := true } : Port).removed = true ∧ ({ tsOf 1 with removed := true } : Ts).removed = true ∧
    (withTs 1 fun t => { t with removed := true }).tss[0]? = some { tsOf 1 with removed := true } ∧
    ({ wired 1 .rgmii with ports := [{ portOf 1 .rgmii with removed := true }] } : State).portAt 0 =
      some { portOf 1 .rgmii with removed := true } ∧ (wired 1 .rgmii).Idle := ⟨rfl, rfl, rfl, rfl, rfl, rfl⟩

theorem test_meets_DecodedBytesAreEncoding : decode [0x65, 0x30] = .ok (.hostTick, [0x30]) := by decide

theorem test_meets_LookupBinds :
    base.Idle ∧ base.topo.find? (fun e => decide (e.1 = 3)) = some (3, 3) ∧
    base.topo.find? (fun e => decide (e.1 = 9)) = none := ⟨⟨rfl, rfl⟩, rfl, rfl⟩

theorem test_meets_BestLinkMode :
    (wired 1 .rgmii).Idle ∧ (wired 1 .rgmii).portAt 0 = some (portOf 1 .rgmii) ∧ (portOf 1 .rgmii).removed = false ∧
    ({ wired 1 .rgmii with ports := [{ portOf 1 .rgmii with removed := true }] } : State).portAt 0 =
      some { portOf 1 .rgmii with removed := true } := ⟨⟨rfl, rfl⟩, rfl, rfl, rfl⟩

theorem test_meets_PollPeriod : 1 ≤ 1 ∧ pollTicks 2 0 500000000 ≤ 1 := ⟨by decide, by decide⟩

end Sys2Proof.Tests
end

section
/-!
How a step of the machine comes to run: what each move of the schedule and each state of the running agent give
(spec/10_state.md rule R41, log entries 3 and 30).
-/

namespace Sys2Proof.Machine

open Sys2Proof

section

variable {s : State}

/-! ### The running agent's step -/

theorem State.go_stopped {f : Fault} (h : s.me.stopped = some f) : s.go = .fault f := by
  simp [State.go, h]

theorem State.go_resumes {i : Instr} (h : s.me.stopped = none) (ho : s.me.op = some i) : s.go = exec i s := by
  simp [State.go, h, ho]

theorem State.go_idles (h : s.me.stopped = none) (ho : s.me.op = none) (hp : s.me.prog = []) :
    s.go = .next { s with cut := none } := by
  simp [State.go, h, ho, hp]

theorem State.go_fetches {b : Byte} {l : List Byte} (h : s.me.stopped = none) (ho : s.me.op = none)
    (hp : s.me.prog = b :: l) : s.go = s.fetch (b :: l) := by
  simp [State.go, h, ho, hp]

/-! ### Which agent runs -/

theorem State.switchTo_self {k : Nat} (h : s.me.id = k) : s.switchTo k = some s := if_pos h

theorem State.switchTo_other {k : Nat} {a : Agent} (h : k ≠ s.me.id)
    (ha : s.others.find? (fun x => decide (x.id = k)) = some a) :
    s.switchTo k = some { s with me := a, others := s.me :: s.others.erase a } := by
  simp [State.switchTo, h.symm, ha]

theorem State.switchTo_nobody {k : Nat} (h : k ≠ s.me.id) (ha : s.others.find? (fun x => decide (x.id = k)) = none) :
    s.switchTo k = none := by
  simp only [State.switchTo, if_neg h.symm, ha]

/-- The agent that a move names is the running one, or one of the others takes its place. -/
theorem State.switchTo_cases {k : Nat} {t : State} (h : s.switchTo k = some t) :
    t = s ∨ ∃ a ∈ s.others, t = { s with me := a, others := s.me :: s.others.erase a } := by
  simp only [State.switchTo] at h
  split at h
  · exact .inl (Option.some.inj h).symm
  · split at h
    · rename_i a ha
      exact .inr ⟨a, List.mem_of_find?_eq_some ha, (Option.some.inj h).symm⟩
    · cases h

/-! ### The next move -/

/-- The move of an agent that the schedule names, with the bound it gives on the agent's steps. -/
def State.turnTo (s : State) (k : Nat) (c : Option Nat) : Outcome :=
  match State.switchTo { s with cut := c } k with
  | some t => t.go
  | none => .next { s with cut := none }

theorem step_unscheduled (h : s.sched = []) : step s = s.go := by
  simp [step, State.move, h]

theorem step_env {e : Env} {r : List Move} (h : s.sched = .env e :: r) :
    step s = .next (State.env { s with sched := r } e) := by
  simp [step, State.move, h]

theorem step_agent {k : Nat} {r : List Move} (h : s.sched = .agent k :: r) :
    step s = State.turnTo { s with sched := r } k none := by
  simp only [step, State.move, h]; rfl

theorem step_part {k n : Nat} {r : List Move} (h : s.sched = .part k n :: r) :
    step s = State.turnTo { s with sched := r } k (some n) := by
  simp only [step, State.move, h]; rfl

theorem State.turnTo_self (c : Option Nat) : s.turnTo s.me.id c = State.go { s with cut := c } := by
  simp [State.turnTo, State.switchTo_self]

theorem State.turnTo_other {k : Nat} {a : Agent} (h : k ≠ s.me.id)
    (ha : s.others.find? (fun x => decide (x.id = k)) = some a) (c : Option Nat) :
    s.turnTo k c = State.go { s with cut := c, me := a, others := s.me :: s.others.erase a } := by
  unfold State.turnTo
  rw [State.switchTo_other (s := { s with cut := c }) h ha]

theorem State.turnTo_nobody {k : Nat} (h : k ≠ s.me.id) (ha : s.others.find? (fun x => decide (x.id = k)) = none)
    (c : Option Nat) : s.turnTo k c = .next { s with cut := none } := by
  unfold State.turnTo
  rw [State.switchTo_nobody (s := { s with cut := c }) h ha]

/-- A move that asks a stopped agent for a step reports its fault (rule R610, log entry 30). -/
theorem step_stopped {f : Fault} (h : s.me.stopped = some f)
    (hs : s.sched = [] ∨ (∃ r, s.sched = .agent s.me.id :: r) ∨ ∃ n r, s.sched = .part s.me.id n :: r) :
    step s = .fault f := by
  rcases hs with hs | ⟨r, hs⟩ | ⟨n, r, hs⟩
  · rw [step_unscheduled hs, State.go_stopped h]
  · rw [step_agent hs]
    exact (State.turnTo_self (s := { s with sched := r }) none).trans (State.go_stopped h)
  · rw [step_part hs]
    exact (State.turnTo_self (s := { s with sched := r }) (some n)).trans (State.go_stopped h)

/-- Where the schedule names an agent that there is not, no agent steps (log entry 3). -/
theorem step_nobody {k n : Nat} {r : List Move} (hs : s.sched = .agent k :: r ∨ s.sched = .part k n :: r)
    (h : k ≠ s.me.id) (ha : s.others.find? (fun x => decide (x.id = k)) = none) :
    step s = .next { s with sched := r, cut := none } := by
  rcases hs with hs | hs
  · rw [step_agent hs]
    exact State.turnTo_nobody (s := { s with sched := r }) h ha none
  · rw [step_part hs]
    exact State.turnTo_nobody (s := { s with sched := r }) h ha (some n)

end

/-- Settles O6: each clause is the lemma about that move. -/
theorem stepMoves : Obligations.StepMoves := by
  unfold Obligations.StepMoves
  refine ⟨fun s hs h ho hp => ?idle, fun s i hs h ho => ?resume, fun s f h hs => step_stopped h hs,
    fun s e r hs => step_env hs, fun s r hs => ?agent, fun s n r hs => ?part, fun s r a hs h ha => ?other,
    fun s n r a hs h ha => ?otherPart, fun s k n r hs h ha => step_nobody hs h ha⟩
  case idle => rw [step_unscheduled hs, State.go_idles h ho hp]
  case resume => rw [step_unscheduled hs, State.go_resumes h ho]
  case agent => exact (step_agent hs).trans (State.turnTo_self (s := { s with sched := r }) none)
  case part => exact (step_part hs).trans (State.turnTo_self (s := { s with sched := r }) (some n))
  case other => exact (step_agent hs).trans (State.turnTo_other (s := { s with sched := r }) h ha none)
  case otherPart => exact (step_part hs).trans (State.turnTo_other (s := { s with sched := r }) h ha (some n))

end Sys2Proof.Machine
end

section
/-!
What a step can do to the machine, said once: the changes that an atomic step, a transaction or a step of the outside
makes (`Change`), that every operation makes these and no others (`Op.Does`), and that a property which each of them
keeps is kept by every step (`Invariant.step`).
-/

namespace Sys2Proof.Machine

open Sys2Proof

/-! ### The changes -/

/-- An update of a timestamper from `t` to `u` keeps the device's own invariant, and a disable depth that is not below 0
stays so (rules R58, R59, R511, R518). -/
def Ts.Keeps (t u : Ts) : Prop := (t.sound = true → u.sound = true) ∧ (0 ≤ t.irqDepth → 0 ≤ u.irqDepth)

/-- A change that an atomic step, a transaction, or a step of the outside makes to the machine. None but the probes and
`attach` changes how many units there are, none changes the board, and none stops an agent. -/
inductive Change : State → State → Prop
  /-- the environment's choices, the draws, the wire record and the host's clock -/
  | book (s : State) (ticks : Nat) (sched : List Move) (cut : Option Nat) (turns : List Turn) (tape : List Nat)
      (draws : Nat) (wire : List Xfer) :
      Change s { s with
        hostTicks := ticks, sched := sched, cut := cut, turns := turns, tape := tape, draws := draws, wire := wire }
  /-- the control state of the running agent (rule R41) -/
  | control (s : State) (prog : List Byte) (op : Option Instr) (hist : List Nat) (blocked : Option WaitKind)
      (signal : Bool) (result : Option (Except Err Res)) :
      Change s { s with
        me := { s.me with
          prog := prog, op := op, hist := hist, blocked := blocked, signal := signal, result := result } }
  /-- the running caller's buffer (rule R104) -/
  | buffer (s : State) (x : Nat) (l : List Byte) : Change s (s.toBuffer x l)
  /-- a host signal reaches another agent (rule R514) -/
  | signal (s : State) (k : Nat) :
      Change s { s with others := s.others.modify k fun a => { a with signal := true } }
  /-- the AA1 cache of a RegisterBus (rule R211) -/
  | cache (s : State) (i : Nat) (c : Option U16) : Change s (s.modRb i fun rb => { rb with aa1Cache := c })
  /-- the mark of an unfinished access of a RegisterBus (rule R111) -/
  | busy (s : State) (i : Nat) (b : Option Nat) : Change s (s.modRb i fun rb => { rb with busy := b })
  /-- the bytes that a far end keeps (rule R44) -/
  | far (s : State) (i : Nat) (f : FarEnd → FarEnd) (hk : ∀ e, (f e).keeps = e.keeps)
      (hw : ∀ e : FarEnd, e.sound = true → (f e).sound = true) : Change s (s.modFar i f)
  /-- `lookup` counts a new handle of the RegisterBus bound to a key (rule R218) -/
  | lookup (s : State) (t i : Nat) (h : s.bound t = some i) :
      Change s { (s.modRb i fun rb => { rb with refs := rb.refs + 1 }) with handles := s.handles ++ [⟨i, false⟩] }
  /-- `release` of a handle that is held (rule R219) -/
  | release (s : State) (h : Nat) (x : Handle) (rb : Rb) (hx : s.handles[h]? = some x)
      (hrb : s.rbs[x.inst]? = some rb) (held : ¬(x.released = true ∨ rb.refs = 0)) :
      Change s { (s.modRb x.inst fun r => { r with refs := r.refs - 1 }) with
        handles := s.handles.modify h fun y => { y with released := true } }
  /-- a backend creates a RegisterBus (rules R42, R701) -/
  | attach (s : State) (t : Nat) (name : String) (id : Nat) (b : Backend) (native32 hasReset keeps : Bool) (cfg : RbCfg) :
      Change s (s.attach t name id b native32 hasReset keeps cfg)
  /-- the driver cells of an NCO (rule R45) -/
  | nco (s : State) (d : Nat) (f : Nco → Nco) (h : ∀ n, (f n).hw = n.hw) : Change s (s.modNco d f)
  /-- a register write of an NCO (rule R50) -/
  | ncoStore (s : State) (d : Nat) (r : NcoReg) (p : Part) : Change s (s.modNcoHw d fun h => h.store s.board r p)
  /-- a tick of an NCO (rule R301) -/
  | ncoTick (s : State) (d : Nat) (apply : Bool) : Change s (s.ncoTick d apply)
  /-- the completion of an NCO command (rule R302) -/
  | ncoComplete (s : State) (d : Nat) (c : Cmd) : Change s (s.ncoComplete d c)
  /-- `nco_probe` (rule R311) -/
  | probeNco (s : State) (d : Nat) (res : Resource) (spin : Bool) (step : StepReq) : Change s (s.probeNco d res spin step)
  /-- the cells of a port, which keeps its index and its invariant (rules R52, R53) -/
  | port (s : State) (p : Nat) (f : Port → Port) (hp : ∀ q, (f q).port = q.port)
      (hs : ∀ q, s.portAt p = some q → q.sound = true → (f q).sound = true) : Change s (s.modPort p f)
  /-- `adp_probe` (rule R404) -/
  | probePort (s : State) (p : Nat) (res : Resource) : Change s (s.probePort p res)
  /-- the cells of a timestamper, which keeps its invariant (rules R57, R58, R511) -/
  | ts (s : State) (d : Nat) (f : Ts → Ts) (h : ∀ t, s.tss[d]? = some t → t.Keeps (f t)) : Change s (s.modTs d f)
  /-- `ts_probe` (rule R501) -/
  | probeTs (s : State) (d : Nat) (res : Resource) (irqLine deferred : Bool) :
      Change s (s.probeTs d res irqLine deferred)

/-- Any number of changes, one after another. -/
abbrev Changes : State → State → Prop := Relation.ReflTransGen Change

/-- No change stops an agent. -/
theorem Change.stopped {s t : State} (h : Change s t) : t.me.stopped = s.me.stopped := by
  cases h with
  | probeNco d res spin step => unfold State.probeNco; split <;> simp [afterDraws_eq]
  | probePort p res => unfold State.probePort; split <;> simp [afterDraws_eq]
  | probeTs d res irqLine deferred => unfold State.probeTs; split <;> simp [afterDraws_eq]
  | _ => rfl

theorem Changes.stopped {s t : State} (h : Changes s t) : t.me.stopped = s.me.stopped := by
  induction h with
  | refl => rfl
  | tail _ hc ih => exact hc.stopped.trans ih

/-! ### What the updates of the state change -/

section

variable (s : State)

theorem changes_log (i : Nat) (w : Wire) (ok : Bool) : Changes s (s.log i w ok) :=
  .single (.book s _ _ _ _ _ _ _)

theorem changes_afterDraw : Changes s s.afterDraw := .single (.book s _ _ _ _ _ _ _)

theorem changes_afterDraws (n : Nat) : Changes s (s.afterDraws n) := by
  rw [afterDraws_eq]; exact .single (.book s _ _ _ _ _ _ _)

theorem changes_farRead16 (i : Nat) (a : U32) : Changes s (s.farRead16 i a).2 := by
  obtain ⟨n, h⟩ := farRead16_snd s i a
  rw [h]; exact changes_afterDraws s n

theorem changes_farRead32 (i : Nat) (a : U32) : Changes s (s.farRead32 i a).2 := by
  obtain ⟨n, h⟩ := farRead32_snd s i a
  rw [h]; exact changes_afterDraws s n

theorem changes_modTs (d : Nat) (f : Ts → Ts) (h : ∀ t : Ts, t.Keeps (f t)) : Changes s (s.modTs d f) :=
  .single (.ts s d f fun t _ => h t)

/-- The capture hardware is no part of the device's invariant. -/
theorem changes_modTsHw (d : Nat) (f : TsHw → TsHw) : Changes s (s.modTsHw d f) :=
  changes_modTs s d _ fun _ => ⟨id, id⟩

theorem changes_storeWord (t : Target) (p : Part) : Changes s (s.storeWord t p) := by
  cases t with
  | nco d r _ => exact .single (.ncoStore s d r p)
  | ts d r _ => exact changes_modTsHw s d fun h => h.store s.board r p
  | adp q r => exact .refl

theorem changes_farWrite16 (i : Nat) (a : U32) (v : U16) : Changes s (s.farWrite16 i a v) := by
  unfold State.farWrite16
  split
  · exact changes_storeWord s _ _
  · exact .single (.far s i _ (fun e => FarEnd.store_keeps e _ _ _) fun e he => FarEnd.store_wf e _ _ _ he)

theorem changes_farWrite32 (i : Nat) (a v : U32) : Changes s (s.farWrite32 i a v) := by
  unfold State.farWrite32
  split
  · exact changes_storeWord s _ _
  · exact changes_storeWord s _ _
  · exact (changes_farWrite16 s i a _).trans (changes_farWrite16 _ i _ _)

theorem changes_landWrite16 (i : Nat) (a : U32) (v : U16) : Changes s (s.landWrite16 i a v) := by
  unfold State.landWrite16
  split
  · split
    · exact .refl
    · exact changes_farWrite16 s i a v
  · exact changes_farWrite16 s i a v

theorem changes_resetFar (i : Nat) : Changes s (s.resetFar i) := by
  unfold State.resetFar
  split
  · exact .single (.far s i _ (fun e => FarEnd.reset_keeps e _ _) fun e he => FarEnd.reset_wf e _ _ he)
  · exact .refl

theorem changes_drawBytes (n : Nat) : Changes s (State.drawBytes n s).2 := by
  induction n generalizing s with
  | zero => exact .refl
  | succ n ih => exact (changes_afterDraw s).trans (ih s.afterDraw)

theorem changes_toBuffer (x : Nat) (l : List Byte) : Changes s (s.toBuffer x l) := .single (.buffer s x l)

theorem changes_copyRecords (d left k i : Nat) : Changes s (copyRecords d left k i s) := by
  induction left generalizing k i s with
  | zero => exact .refl
  | succ left ih =>
    unfold copyRecords
    split
    · exact (changes_toBuffer s _ _).trans (ih _ _ _)
    · exact (changes_drawBytes s _).trans ((changes_toBuffer _ _ _).trans (ih _ _ _))

theorem changes_takeSignal : Changes s s.takeSignal := .single (.control s _ _ _ _ _ _)

theorem changes_signalOther (k : Nat) (a : Agent) : Changes s (s.signalOther k a) := by
  unfold State.signalOther
  split
  · exact .refl
  · rename_i d _
    exact (changes_modTs s d (fun t => { t with waiters := t.waiters.filter (· ≠ a.id) }) fun _ => ⟨id, id⟩).trans
      (.single (.signal _ k))

theorem changes_tsPulse (d : Nat) : Changes s (s.tsPulse d) := by
  unfold State.tsPulse
  split
  · exact .refl
  · split
    · exact (changes_modTsHw s d _).trans (changes_afterDraws _ 2)
    · exact changes_modTsHw s d _

theorem changes_hostTick : Changes s s.hostTick := .single (.book s _ _ _ _ _ _ _)

/-- A step of the outside. -/
theorem changes_env (e : Env) : Changes s (s.env e) := by
  cases e with
  | ncoTick d apply => exact .single (.ncoTick s d apply)
  | ncoComplete d c => exact .single (.ncoComplete s d c)
  | tsPulse d => exact changes_tsPulse s d
  | hostTick => exact changes_hostTick s
  | adapterHw p id status pcs => exact .single (.port s p _ (fun _ => rfl) fun _ _ h => h)
  | portInputs p inputs => exact .single (.port s p _ (fun _ => rfl) fun _ _ h => h)
  | removeNco d => exact .single (.nco s d _ fun _ => rfl)
  | removePort p => exact .single (.port s p _ (fun _ => rfl) fun _ _ h => h)
  | removeTs d => exact changes_modTs s d _ fun _ => ⟨id, id⟩
  | attach t name id b native32 hasReset keeps cfg => exact .single (.attach s t name id b native32 hasReset keeps cfg)

end

/-! ### What an operation does -/

/-- The disable depth after an unmasking (rule R511). -/
def Ts.unmasked (t : Ts) : Ts := { t with irqDepth := t.irqDepth - 1 }

/-- The answer of a step from state `s` makes changes alone; only the fault of an unbalanced interrupt comes with a
disable depth that may be below 0 (rule R511). -/
def Ans.Does (s : State) : Ans → Prop
  | .go _ t => Changes s t
  | .block t => Changes s t
  | .fault f t => Changes s t ∨ f = .irqUnbalanced ∧ ∃ d, t = s.modTs d Ts.unmasked
  | .refuse _ => True

/-- Every step and every transaction of an operation makes changes alone. -/
def Op.Does {α : Type} : Op α → Prop
  | .ret _ => True
  | .again _ => True
  | .act f k => (∀ s, (f s).Does s) ∧ ∀ n, (k n).Does
  | .txn f k => (∀ v s, (f v s).Does s) ∧ ∀ n, (k n).Does

section

variable {s t : State}

theorem Ans.Does.stay (n : Nat) : (Ans.go n s).Does s := Relation.ReflTransGen.refl

theorem Ans.Does.fault (f : Fault) : (Ans.fault f s).Does s := .inl .refl

theorem Ans.Does.refuse (r : Refusal) : (Ans.refuse r).Does s := trivial

theorem Ans.Does.blockOn (h : Changes s t) (w : WaitKind) : (t.blockOn w).Does s :=
  h.trans (.single (.control t _ _ _ _ _ _))

theorem Ans.Does.ite {c : Prop} [Decidable c] {a b : Ans} (ha : c → a.Does s) (hb : ¬c → b.Does s) :
    (if c then a else b).Does s := by
  split
  · exact ha ‹_›
  · exact hb ‹_›

theorem Ans.Does.onRb {i : Nat} {f : Rb → Ans} (h : ∀ rb, s.rbs[i]? = some rb → (f rb).Does s) :
    (s.onRb i f).Does s := by
  unfold State.onRb
  split
  · exact h _ ‹_›
  · trivial

theorem Ans.Does.onNco {d : Nat} {f : Nco → Ans} (h : ∀ n, s.ncos[d]? = some n → (f n).Does s) :
    (s.onNco d f).Does s := by
  unfold State.onNco
  split
  · exact h _ ‹_›
  · trivial

theorem Ans.Does.onPort {p : Nat} {f : Port → Ans} (h : ∀ q, s.portAt p = some q → (f q).Does s) :
    (s.onPort p f).Does s := by
  unfold State.onPort
  split
  · exact h _ ‹_›
  · trivial

theorem Ans.Does.onTs {d : Nat} {f : Ts → Ans} (h : ∀ t, s.tss[d]? = some t → (f t).Does s) :
    (s.onTs d f).Does s := by
  unfold State.onTs
  split
  · exact h _ ‹_›
  · trivial

theorem Ans.Does.resolve (b : BusRef) : (s.resolve b).Does s := by
  unfold State.resolve
  split
  · exact .ite (fun _ => .stay _) fun _ => .refuse _
  · split
    · exact .fault _
    · exact .ite (fun _ => .fault _) fun _ => .stay _

theorem Ans.Does.resourceBus (r : Option Resource) : (s.resourceBus r).Does s := by
  cases r with
  | none => trivial
  | some x => exact .resolve x.bus

end

section

variable {α β : Type}

theorem Op.Does.ret (a : α) : (Op.ret a).Does := trivial

theorem Op.Does.again (n : Nat) : (Op.again n : Op α).Does := trivial

theorem Op.Does.bind {o : Op α} {g : α → Op β} (h : o.Does) (hg : ∀ a, (g a).Does) : (o.bind g).Does := by
  induction o with
  | ret a => exact hg a
  | act f k ih => exact ⟨h.1, fun n => ih n (h.2 n)⟩
  | txn f k ih => exact ⟨h.1, fun n => ih n (h.2 n)⟩
  | again n => trivial

theorem Op.Does.q {x : Op (Except Err α)} {g : α → Op (Except Err β)} (h : x.Does) (hg : ∀ a, (g a).Does) :
    (x.q g).Does :=
  h.bind fun
    | .error _ => trivial
    | .ok a => hg a

theorem Op.Does.ite {c : Prop} [Decidable c] {x y : Op α} (hx : x.Does) (hy : y.Does) : (if c then x else y).Does := by
  split
  · exact hx
  · exact hy

theorem Op.Does.fault (f : Fault) : (Op.fault f : Op α).Does := ⟨fun _ => .fault f, fun _ => trivial⟩

theorem Op.Does.step {f : State → Ans} (h : ∀ s, (f s).Does s) : (Op.step f).Does := ⟨h, fun _ => trivial⟩

theorem Op.Does.xfer {f : Verdict → State → Ans} (h : ∀ v s, (f v s).Does s) : (Op.xfer f).Does :=
  ⟨h, fun _ => trivial⟩

theorem Op.Does.tryXfer {f : Verdict → State → Ans} (h : ∀ v s, (f v s).Does s) : (Op.tryXfer f).Does :=
  ⟨h, fun _ => trivial⟩

theorem Op.Does.get (f : State → Nat) : (Op.get f).Does := ⟨fun s => .stay (f s), fun _ => trivial⟩

theorem Op.Does.test (f : State → Bool) : (Op.test f).Does := ⟨fun s => .stay (f s).toNat, fun _ => trivial⟩

theorem Op.Does.set {f : State → State} (h : ∀ s, Changes s (f s)) : (Op.set f).Does := ⟨h, fun _ => trivial⟩

end

/-! ### Invariants of every step -/

/-- A property of the machine that every change keeps, that a fault which stops the running agent keeps (the one of an
unbalanced interrupt too), and that does not depend on which agent runs. -/
structure Invariant (P : State → Prop) : Prop where
  change : ∀ {s t}, Change s t → P s → P t
  halt : ∀ {s} (f : Fault), P s → P (s.halt f)
  unbalanced : ∀ {s} (d : Nat), s.me.stopped = none → P s → P ((s.modTs d Ts.unmasked).halt .irqUnbalanced)
  switch : ∀ {s a}, a ∈ s.others → P s → P { s with me := a, others := s.me :: s.others.erase a }

section

variable {P : State → Prop}

theorem Invariant.changes (hP : Invariant P) {s t : State} (h : Changes s t) (hs : P s) : P t := by
  induction h with
  | refl => exact hs
  | tail _ hc ih => exact hP.change hc ih

/-- The property while the running agent is not stopped. -/
def Running (P : State → Prop) (s : State) : Prop := s.me.stopped = none ∧ P s

theorem Invariant.running (hP : Invariant P) {s t : State} (h : Changes s t) (hs : Running P s) : Running P t :=
  ⟨h.stopped.trans hs.1, hP.changes h hs.2⟩

theorem Invariant.steady (hP : Invariant P) : Steady (Running P) P where
  turns s l h := hP.running (.single (.book s _ _ _ l _ _ _)) h
  env s e h := hP.running (changes_env s e) h
  control s c op l b r h :=
    hP.running (.tail (.single (.book s _ _ c _ _ _ _)) (.control _ _ op l b _ r)) h
  weaken _ h := h.2

theorem Ans.Does.keeps (hP : Invariant P) {s : State} {a : Ans} (h : a.Does s) (hs : Running P s) :
    a.Keeps (Running P) P := by
  cases a with
  | go n t => exact hP.running h hs
  | block t => exact hP.running h hs
  | fault f t =>
    rcases h with h | ⟨rfl, d, rfl⟩
    · exact hP.halt f (hP.changes h hs.2)
    · exact hP.unbalanced d hs.1 hs.2
  | refuse r => trivial

theorem Op.Does.keeps {α : Type} (hP : Invariant P) {o : Op α} (h : o.Does) : o.Keeps (Running P) P := by
  induction o with
  | ret a => trivial
  | again n => trivial
  | act f k ih => exact ⟨fun s hs => (h.1 s).keeps hP hs, fun n => ih n (h.2 n)⟩
  | txn f k ih => exact ⟨fun v s hs => (h.1 v s).keeps hP hs, fun n => ih n (h.2 n)⟩

theorem Invariant.perform (hP : Invariant P) {i : Instr} {o : Op (Except Err Res)} (h : o.Does) {s t : State}
    (hs : Running P s) (hr : s.perform i o = .next t) : P t :=
  State.perform_keeps hP.steady (h.keeps hP) hs hr

end

end Sys2Proof.Machine
end

section
/-!
The operations make changes of the machine alone: one lemma per operation and per part of one, in the order of the model.
-/

namespace Sys2Proof.Machine

open Sys2Proof

/-! ### RegisterBus -/

theorem resolveBus_does (b : BusRef) : (resolveBus b).Does := .step fun _ => .resolve b

theorem contextCheck_does (i : Nat) : (contextCheck i).Does :=
  .step fun _ => .onRb fun _ _ => .ite (fun _ => .fault _) fun _ => .stay 0

theorem evenOnly_does {α : Type} (a : U32) {x : Op α} (h : x.Does) : (evenOnly a x).Does := .ite (.fault _) h

theorem alignedOnly_does {α : Type} (a : U32) {x : Op α} (h : x.Does) : (alignedOnly a x).Does := .ite h (.fault _)

theorem asVal16_does {x : Op (Except Err Nat)} (h : x.Does) : (asVal16 x).Does := h.q fun _ => .ret _

theorem asVal32_does {x : Op (Except Err Nat)} (h : x.Does) : (asVal32 x).Does := h.q fun _ => .ret _

theorem asUnit_does {x : Op (Except Err Nat)} (h : x.Does) : (asUnit x).Does := h.q fun _ => .ret _

theorem mmioXfer_does {i : Nat} {f : Rb → State → Ans} (h : ∀ rb s, (f rb s).Does s) : (mmioXfer i f).Does :=
  .bind (.xfer fun _ s => .onRb fun rb _ => h rb s) fun _ => .ret _

theorem mmioRead16On_does (i : Nat) (a : U32) : (mmioRead16On i a).Does :=
  evenOnly_does a (mmioXfer_does fun _ s => (changes_farRead16 s i a).trans (changes_log _ _ _ _))

theorem mmioWrite16On_does (i : Nat) (a : U32) (v : U16) : (mmioWrite16On i a v).Does :=
  evenOnly_does a (mmioXfer_does fun _ s => (changes_farWrite16 s i a v).trans (changes_log _ _ _ _))

theorem nativeRead32On_does (i : Nat) (a : U32) : (nativeRead32On i a).Does :=
  alignedOnly_does a (mmioXfer_does fun _ s => (changes_farRead32 s i a).trans (changes_log _ _ _ _))

theorem nativeWrite32On_does (i : Nat) (a v : U32) : (nativeWrite32On i a v).Does :=
  alignedOnly_does a (mmioXfer_does fun _ s => (changes_farWrite32 s i a v).trans (changes_log _ _ _ _))

theorem i2cRead16On_does (i : Nat) (a : U32) : (i2cRead16On i a).Does :=
  .tryXfer fun
    | .fail _, s => .onRb fun _ _ => changes_log s _ _ _
    | .ok, s => .onRb fun _ _ => (changes_farRead16 s i a).trans (changes_log _ _ _ _)

/-- A failed write may have landed (rule R202). -/
theorem changes_landed (s : State) (i : Nat) (a : U32) (v : U16) (landed : Bool) :
    Changes s (if landed then s.landWrite16 i a v else s) := by
  cases landed
  · exact .refl
  · exact changes_landWrite16 s i a v

theorem i2cWrite16On_does (i : Nat) (a : U32) (v : U16) : (i2cWrite16On i a v).Does :=
  .tryXfer fun
    | .fail l, s => .onRb fun _ _ => (changes_landed s i a v l).trans (changes_log _ _ _ _)
    | .ok, s => .onRb fun _ _ => (changes_farWrite16 s i a v).trans (changes_log _ _ _ _)

theorem mdioBegin_does (i : Nat) : (mdioBegin i).Does :=
  .step fun s => .onRb fun _ _ => .ite (fun _ => .single (.busy s i _)) fun _ => .fault _

theorem mdioAccess_does (i : Nat) {x : Op (Except Err Nat)} (h : x.Does) : (mdioAccess i x).Does :=
  (mdioBegin_does i).bind fun _ => h.bind fun _ =>
    .bind (.set fun s => .single (.busy s i none)) fun _ => .ret _

theorem mdioXfer_does {i : Nat} {f : Rb → Verdict → State → Ans} (h : ∀ rb v s, (f rb v s).Does s) :
    (mdioXfer i f).Does :=
  .tryXfer fun v s => .onRb fun rb _ => h rb v s

theorem changes_farDone (s : State) (i : Nat) (far : Option (U32 × U16)) : Changes s (s.farDone i far) := by
  cases far with
  | none => exact .refl
  | some x => exact changes_farWrite16 s i x.1 x.2

theorem changes_farLanded (s : State) (i : Nat) (landed : Bool) (far : Option (U32 × U16)) :
    Changes s (s.farLanded i landed far) := by
  cases far with
  | none => exact .refl
  | some x => exact changes_landed s i x.1 x.2 landed

theorem mdioWriteOn_does (i : Nat) (phy reg : RbCfg → U5) (w : U16) (far : Option (U32 × U16)) :
    (mdioWriteOn i phy reg w far).Does :=
  mdioXfer_does fun
    | _, .fail l, s => (changes_farLanded s i l far).trans (changes_log _ _ _ _)
    | _, .ok, s => (changes_farDone s i far).trans (changes_log _ _ _ _)

theorem mdioReadOn_does (i : Nat) (phy reg : RbCfg → U5) (a : U32) : (mdioReadOn i phy reg a).Does :=
  mdioXfer_does fun
    | _, .fail _, s => changes_log s _ _ _
    | _, .ok, s => (changes_farRead16 s i a).trans (changes_log _ _ _ _)

theorem setAa1_does (i : Nat) (c : Option U16) : (setAa1 i c).Does := .set fun s => .single (.cache s i c)

theorem slaveSelectHigh_does (i : Nat) (a : U32) : (slaveSelectHigh i a).Does :=
  .bind (.step fun _ => .onRb fun _ _ => .stay _) fun _ =>
    .ite (.ret _) <| (mdioWriteOn_does i _ _ _ none).bind fun
      | .error _ => (setAa1_does i none).bind fun _ => .ret _
      | .ok _ => (setAa1_does i _).bind fun _ => .ret _

theorem slaveRead16On_does (i : Nat) (a : U32) : (slaveRead16On i a).Does :=
  evenOnly_does a <| mdioAccess_does i <| (slaveSelectHigh_does i a).q fun _ =>
    (mdioWriteOn_does i _ _ _ _).q fun _ => mdioReadOn_does i _ _ a

theorem writeOrderIs_does (i : Nat) (sel : RbCfg → WriteOrder) : (writeOrderIs i sel).Does :=
  .step fun _ => .onRb fun _ _ => .stay _

theorem slaveWrite16On_does (i : Nat) (a : U32) (v : U16) : (slaveWrite16On i a v).Does :=
  evenOnly_does a <| mdioAccess_does i <| (slaveSelectHigh_does i a).q fun _ =>
    (writeOrderIs_does i _).bind fun _ =>
      .ite ((mdioWriteOn_does i _ _ _ _).q fun _ => mdioWriteOn_does i _ _ _ _)
        ((mdioWriteOn_does i _ _ _ _).q fun _ => mdioWriteOn_does i _ _ _ _)

theorem bridgeRange_does (i : Nat) (a : U32) : (bridgeRange i a).Does :=
  .step fun _ => .onRb fun _ _ => .ite (fun _ => .fault _) fun _ => .stay 0

theorem bridgeAddrOn_does (i : Nat) (a : U32) (rw : U16) (far : Option (U32 × U16)) : (bridgeAddrOn i a rw far).Does :=
  mdioXfer_does fun
    | _, .fail l, s => (changes_farLanded s i l far).trans (changes_log _ _ _ _)
    | _, .ok, s => (changes_farDone s i far).trans (changes_log _ _ _ _)

theorem bridgeRead16On_does (i : Nat) (a : U32) : (bridgeRead16On i a).Does :=
  evenOnly_does a <| (bridgeRange_does i a).bind fun _ => mdioAccess_does i <|
    (bridgeAddrOn_does i a _ none).q fun _ => mdioReadOn_does i _ _ a

theorem bridgeWrite16On_does (i : Nat) (a : U32) (v : U16) : (bridgeWrite16On i a v).Does :=
  evenOnly_does a <| (bridgeRange_does i a).bind fun _ => mdioAccess_does i <|
    (writeOrderIs_does i _).bind fun _ =>
      .ite ((mdioWriteOn_does i _ _ _ _).q fun _ => bridgeAddrOn_does i a _ _)
        ((bridgeAddrOn_does i a _ _).q fun _ => mdioWriteOn_does i _ _ _ _)

theorem backendOf_does (i : Nat) : (backendOf i).Does := .step fun _ => .onRb fun _ _ => .stay _

theorem read16On_does (i : Nat) (a : U32) : (read16On i a).Does :=
  (contextCheck_does i).bind fun _ => (backendOf_does i).bind fun
    | 0 => mmioRead16On_does i a
    | 1 => i2cRead16On_does i a
    | 2 => slaveRead16On_does i a
    | _ + 3 => bridgeRead16On_does i a

theorem write16On_does (i : Nat) (a : U32) (v : U16) : (write16On i a v).Does :=
  (contextCheck_does i).bind fun _ => (backendOf_does i).bind fun
    | 0 => mmioWrite16On_does i a v
    | 1 => i2cWrite16On_does i a v
    | 2 => slaveWrite16On_does i a v
    | _ + 3 => bridgeWrite16On_does i a v

theorem capability_does (i : Nat) (f : Rb → Bool) : (capability i f).Does := .step fun _ => .onRb fun _ _ => .stay _

theorem read32On_does (i : Nat) (a : U32) : (read32On i a).Does :=
  (contextCheck_does i).bind fun _ => (capability_does i _).bind fun _ =>
    .ite (nativeRead32On_does i a) <| (read16On_does i a).q fun _ => (read16On_does i _).q fun _ => .ret _

theorem write32On_does (i : Nat) (a v : U32) : (write32On i a v).Does :=
  (contextCheck_does i).bind fun _ => (capability_does i _).bind fun _ =>
    .ite (nativeWrite32On_does i a v) <| (write16On_does i a _).q fun _ => write16On_does i _ _

theorem backendReset_does (i : Nat) : (backendReset i).Does :=
  .tryXfer fun
    | .fail true, s => (changes_resetFar s i).trans (changes_log _ _ _ _)
    | .fail false, s => changes_log s _ _ _
    | .ok, s => (changes_resetFar s i).trans (changes_log _ _ _ _)

theorem resetOn_does (i : Nat) : (resetOn i).Does :=
  (contextCheck_does i).bind fun _ => (capability_does i _).bind fun _ =>
    .ite ((backendOf_does i).bind fun _ =>
      .ite ((setAa1_does i none).bind fun _ => backendReset_does i) (backendReset_does i)) (.ret _)

theorem lookupKey_does (t : Nat) : (lookupKey t).Does := by
  refine .bind (.step fun s => ?_) fun
    | 0 => .ret _
    | _ + 1 => .ret _
  cases h : s.bound t with
  | none => exact .stay 0
  | some i => exact .single (.lookup s t i h)

theorem releaseHandle_does (h : Nat) : (releaseHandle h).Does := by
  refine .bind (.step fun s => ?_) fun _ => .ret _
  cases hx : s.handles[h]? with
  | none => exact .fault _
  | some x =>
    cases hrb : s.rbs[x.inst]? with
    | none => simp only [hrb]; exact .fault _
    | some rb =>
      simp only [hrb]
      exact .ite (fun _ => .fault _) fun held => .single (.release s h x rb hx hrb held)

theorem onBus_does (b : BusRef) {x : Nat → Op (Except Err Res)} (h : ∀ i, (x i).Does) : (onBus b x).Does :=
  (resolveBus_does b).bind h

theorem backendOp_does (b : BusRef) {x : Nat → Op (Except Err Res)} (h : ∀ i, (x i).Does) : (backendOp b x).Does :=
  onBus_does b fun i => (contextCheck_does i).bind fun _ => h i

/-! ### NCO -/

theorem ncoEnter_does (d : Nat) (needsInit : Bool) : (ncoEnter d needsInit).Does :=
  .step fun _ => .onNco fun _ _ => .ite (fun _ => .refuse _) fun _ => .ite (fun _ => .fault _) fun _ => .stay 0

/-- A write of an NCO's driver cells. -/
theorem ncoSet_does (d : Nat) {f : Nco → Nco} (h : ∀ n, (f n).hw = n.hw) : (Op.set fun s => s.modNco d f).Does :=
  .set fun s => .single (.nco s d f h)

theorem ncoLocked_does {α : Type} (d : Nat) {x : Op (Except Err α)} (h : x.Does) : (ncoLocked d x).Does := by
  refine .bind (.step fun s => .onNco fun _ _ => ?_) fun _ => h.bind fun _ =>
    .bind (ncoSet_does d fun _ => rfl) fun _ => .ret _
  exact .ite (fun _ => .fault _) fun _ =>
    .ite (fun _ => .single (.nco s d _ fun _ => rfl)) fun _ => .blockOn .refl _

theorem ncoReg_does (d : Nat) (r : NcoReg) {x : Nat → U32 → Op (Except Err Nat)} (h : ∀ i a, (x i a).Does) :
    (ncoReg d r x).Does :=
  .bind (.step fun _ => .onNco fun _ _ => .resourceBus _) fun i => .bind (.get _) fun _ => h i _

theorem ncoRead_does (d : Nat) (r : NcoReg) : (ncoRead d r).Does := ncoReg_does d r read32On_does

theorem ncoWrite_does (d : Nat) (r : NcoReg) (v : U32) : (ncoWrite d r v).Does :=
  ncoReg_does d r fun i a => write32On_does i a v

theorem ncoCommand_does (d : Nat) (c : Cmd) : (ncoCommand d c).Does := .bind (.get _) fun _ => ncoWrite_does d .cmd _

theorem ncoGet_does (d : Nat) (f : Nco → Nat) : (ncoGet d f).Does := .step fun _ => .onNco fun _ _ => .stay _

theorem hostNow_does : hostNow.Does :=
  .bind (.step changes_afterDraw) fun _ => .bind (.step changes_afterDraw) fun _ => .ret _

theorem cmdPollFrom_does (d : Nat) (c : Cmd) (budget : Nat) : (cmdPollFrom d c budget).Does := by
  induction budget with
  | zero => exact (ncoRead_does d .cmd).q fun _ => .bind (.get _) fun _ => .ite (.ret _) (.ret _)
  | succ budget ih => exact (ncoRead_does d .cmd).q fun _ => .bind (.get _) fun _ => .ite (.ret _) ih

theorem cmdPollOn_does (d : Nat) (c : Cmd) : (cmdPollOn d c).Does := cmdPollFrom_does d c _

theorem ncoSubnsec_does (d : Nat) : (ncoSubnsec d).Does := .bind (.get _) fun _ => .ite (ncoRead_does d _) (.ret _)

theorem readTimeOn_does (d : Nat) : (readTimeOn d).Does :=
  ncoLocked_does d <| (ncoCommand_does d _).q fun _ => (cmdPollOn_does d _).q fun _ =>
    (ncoRead_does d _).q fun _ => (ncoRead_does d _).q fun _ => (ncoRead_does d _).q fun _ =>
    (ncoRead_does d _).q fun _ => (ncoRead_does d _).q fun _ => (ncoSubnsec_does d).q fun _ =>
    hostNow_does.bind fun _ => .ret _

theorem adjustTimeOn_does (d : Nat) (sign : U32) (sec : U64) (nsec : U32) : (adjustTimeOn d sign sec nsec).Does :=
  .ite (.ret _) <| ncoLocked_does d <| (ncoGet_does d _).bind fun _ =>
    (ncoWrite_does d _ _).q fun _ => (ncoWrite_does d _ _).q fun _ => (ncoWrite_does d _ _).q fun _ =>
    (ncoCommand_does d _).q fun _ => cmdPollOn_does d _

theorem adjustFrequencyOn_does (d : Nat) (ppb : U32) : (adjustFrequencyOn d ppb).Does :=
  ncoLocked_does d <| .bind (.step fun _ => .onNco fun _ _ => .stay _) fun
    | 0 => .ret _
    | _ + 1 =>
      (ncoWrite_does d _ _).q fun _ => (ncoWrite_does d _ _).q fun _ => (ncoCommand_does d _).q fun _ =>
      (cmdPollOn_does d _).q fun _ => .bind (ncoSet_does d fun _ => rfl) fun _ => .ret _

theorem initStage_does (d : Nat) : (initStage d).Does :=
  ncoLocked_does d <| (ncoGet_does d _).bind fun _ => (ncoWrite_does d _ _).q fun _ =>
    (ncoGet_does d _).bind fun _ => ncoWrite_does d _ _

theorem initCommit_does (d : Nat) : (initCommit d).Does :=
  ncoLocked_does d <| (ncoCommand_does d _).q fun _ => (cmdPollOn_does d _).q fun _ =>
    .bind (ncoSet_does d fun _ => rfl) fun _ => .ret _

theorem initVerify_does (d : Nat) (t2 : TimeResult) (host : U64 × U32) : (initVerify d t2 host).Does :=
  .bind (.test _) fun _ => .ite (.bind (ncoSet_does d fun _ => rfl) fun _ => .ret _) (.ret _)

theorem initRegistersOn_does (d : Nat) : (initRegistersOn d).Does :=
  (initStage_does d).q fun _ => (readTimeOn_does d).q fun _ => hostNow_does.bind fun _ =>
    (adjustTimeOn_does d _ _ _).q fun _ => (adjustTimeOn_does d _ _ _).q fun _ => (initCommit_does d).q fun _ =>
    (readTimeOn_does d).q fun _ => initVerify_does d _ _

theorem probeEnter_does (removed : State → Bool) (why : Refusal) : (probeEnter removed why).Does :=
  .step fun _ => .ite (fun _ => .refuse _) fun _ => .stay 0

theorem ncoProbeOn_does (d : Nat) (res : Option Resource) (step : StepReq) : (ncoProbeOn d res step).Does :=
  (probeEnter_does _ _).bind fun _ =>
    match res with
    | none => .ret _
    | some r => .ite (.ret _) <| .bind (.step fun _ => .resolve r.bus) fun i =>
        .bind (.set fun s => .single (.probeNco s d r (!s.sleepsOn i) step)) fun _ => .ret _

theorem ncoTickOn_does (d : Nat) : (ncoTickOn d).Does :=
  .bind (.step fun s => .onNco fun _ _ =>
    .ite (fun _ => .tail (changes_afterDraw s) (.ncoTick s.afterDraw d _)) fun _ => .single (.ncoTick s d false)) fun _ =>
  .ret _

theorem ncoCompleteOn_does (d : Nat) (c : Cmd) : (ncoCompleteOn d c).Does :=
  .bind (.step fun s => .onNco fun _ _ =>
    .ite (fun _ => .single (.ncoComplete s d c)) fun _ => .blockOn .refl _) fun _ => .ret _

/-! ### Adapter -/

theorem adpEnter_does (p : Nat) : (adpEnter p).Does :=
  .step fun _ => .onPort fun _ _ => .ite (fun _ => .refuse _) fun _ => .stay 0

theorem portGet_does (p : Nat) (f : Port → Nat) : (portGet p f).Does := .step fun _ => .onPort fun _ _ => .stay _

/-- A write of a port's cells. -/
theorem portSet_does (p : Nat) {f : State → Port → Port} (hp : ∀ s q, (f s q).port = q.port)
    (hs : ∀ s q, q.sound = true → (f s q).sound = true) : (Op.set fun s => s.modPort p (f s)).Does :=
  .set fun s => .single (.port s p (f s) (hp s) fun q _ => hs s q)

theorem adpBus_does (p : Nat) : (adpBus p).Does := .step fun _ => .onPort fun _ _ => .resourceBus _

theorem adpRead_does (p : Nat) (r : AdpReg) (v : Variant) : (adpRead p r v).Does :=
  (adpBus_does p).bind fun i => .bind (.get _) fun _ => read16On_does i _

theorem adpWrite_does (p : Nat) (off : U32) (v : U16) : (adpWrite p off v).Does :=
  (adpBus_does p).bind fun i => .bind (.get _) fun _ => write16On_does i _ v

theorem adpDetectOn_does (p : Nat) : (adpDetectOn p).Does :=
  (adpRead_does p _ _).bind fun
    | .error _ => .ret _
    | .ok _ => .bind (.get _) fun _ => .ret _

theorem linkAllowed_reportedMode (m : U16) (l : LinkMode) : linkAllowed m (reportedMode m l) = true := by
  unfold reportedMode
  split
  · assumption
  · rfl

theorem Port.sound_iff (q : Port) : q.sound = true ↔
    (q.forced && decide (q.desired ≠ .down) && q.anEnabled) = false ∧ linkAllowed q.supported q.linkMode = true := by
  rw [Port.sound, Bool.and_eq_true, Bool.not_eq_true']

/-- A port keeps its invariant when its supported modes change (rule R53, log entry 45). -/
theorem Port.support_sound {q : Port} (m : U16) (h : q.sound = true) : (q.support m).sound = true :=
  (Port.sound_iff _).mpr ⟨((Port.sound_iff q).mp h).1, linkAllowed_reportedMode m q.linkMode⟩

/-- A setup turns autonegotiation off exactly for a forced mode other than `DOWN` (rule R408). -/
theorem setupAn_forced (desired : LinkMode) (forced : Bool) :
    (forced && decide (desired ≠ .down) && setupAn desired forced) = false := by
  unfold setupAn
  cases forced && decide (desired ≠ .down) <;> rfl

theorem adpProbeOn_does (p : Nat) (res : Option Resource) : (adpProbeOn p res).Does :=
  (probeEnter_does _ _).bind fun _ =>
    match res with
    | none => .ret _
    | some r => .bind (.set fun s => .single (.probePort s p r)) fun _ => (adpDetectOn_does p).bind fun _ =>
        .bind (portSet_does p (fun _ _ => rfl) fun _ _ h => Port.support_sound _ h) fun _ => .ret _

theorem fromStatus_does (p : Nat) (v : Variant) {f : U16 → Op LinkMode} (h : ∀ s, (f s).Does) :
    (fromStatus p v f).Does :=
  (adpRead_does p _ v).bind fun
    | .error _ => .ret _
    | .ok s => h (BitVec.ofNat 16 s)

theorem whenLinkOk_does (p : Nat) (s : U16) {x : Op LinkMode} (h : x.Does) : (whenLinkOk p s x).Does :=
  .bind (.step fun _ => .onPort fun _ _ => .stay _) fun _ => .ite h (.ret _)

theorem fixedSpeed_does (s : U16) (m : LinkMode) : (fixedSpeed s m).Does := .bind (.test _) fun _ => .ret _

theorem speedOf_does (pos : Board → Nat) (s : U16) : (speedOf pos s).Does := .bind (.get _) fun _ => .ret _

theorem decodePcs_does (p : Nat) (v : Variant) : (decodePcs p v).Does := by
  refine (portGet_does p _).bind fun c => ?_
  cases PcsMode.ofCode c with
  | sgmii =>
    exact (adpRead_does p _ v).bind fun
      | .error _ => .ret _
      | .ok w => speedOf_does _ _
  | x1000 => exact .ret _
  | fx100 => exact .ret _
  | none => exact .ret _

theorem decodeLink_does (p : Nat) (v : Variant) : (decodeLink p v).Does :=
  match v with
  | .none => .ret _
  | .mii => .ret _
  | .rmii => .ret _
  | .rgmii => fromStatus_does p _ fun s => whenLinkOk_does p s (speedOf_does _ s)
  | .alteraTse => fromStatus_does p _ fun s => whenLinkOk_does p s (speedOf_does _ s)
  | .sgmiiOr1000BaseX => fromStatus_does p _ fun s => whenLinkOk_does p s (decodePcs_does p _)
  | .sgmiiOr1000BaseXOr100BaseFX => fromStatus_does p _ fun s => whenLinkOk_does p s (decodePcs_does p _)
  | .only1000BaseX => fromStatus_does p _ fun s => fixedSpeed_does s _
  | .only100BaseFX => fromStatus_does p _ fun s => fixedSpeed_does s _

theorem reportLink_does (p : Nat) (m : LinkMode) : (reportLink p m).Does := by
  refine .bind (.step fun s => .onPort fun q hq => .single (.port s p _ (fun _ => rfl) fun t ht h => ?_)) fun _ => .ret _
  obtain rfl : q = t := Option.some.inj (hq.symm.trans ht)
  exact (Port.sound_iff _).mpr ⟨((Port.sound_iff q).mp h).1, linkAllowed_reportedMode _ m⟩

theorem checkLinkOn_does (p : Nat) : (checkLinkOn p).Does :=
  (portGet_does p _).bind fun _ =>
    .ite ((portGet_does p _).bind fun _ => (decodeLink_does p _).bind fun m => reportLink_does p m) (reportLink_does p _)

theorem setupLoop_does (p : Nat) (l : State → List (U32 × U16)) (left j : Nat) : (setupLoop p l left j).Does := by
  induction left generalizing j with
  | zero => exact .ret _
  | succ left ih => exact .bind (.get _) fun _ => .bind (.get _) fun _ => (adpWrite_does p _ _).q fun _ => ih (j + 1)

theorem adpSetupOn_does (p : Nat) (desired : LinkMode) (forced : Bool) : (adpSetupOn p desired forced).Does :=
  (portGet_does p _).bind fun _ => .ite (.ret _) <| (portGet_does p _).bind fun _ => (portGet_does p _).bind fun _ =>
    .bind (.get _) fun _ => (setupLoop_does p _ _ 0).bind fun
      | .error _ =>
        .bind (portSet_does p (fun _ _ => rfl) fun _ q h =>
          (Port.sound_iff _).mpr ⟨((Port.sound_iff q).mp h).1, rfl⟩) fun _ => .ret _
      | .ok _ =>
        .bind (portSet_does p (fun _ _ => rfl) fun _ q h =>
          (Port.sound_iff _).mpr ⟨setupAn_forced desired forced, ((Port.sound_iff q).mp h).2⟩) fun _ => .ret _

theorem initAdapterOn_does (p : Nat) : (initAdapterOn p).Does :=
  .bind (portSet_does p (fun _ _ => rfl) fun _ _ h => Port.support_sound _ h) fun _ => .ret _

theorem maskOf_does (m : MaskArg) (f : Port → U16) : (maskOf m f).Does :=
  match m with
  | .mask _ => .ret _
  | .port p => (adpEnter_does p).bind fun _ => portGet_does p _

theorem bestLinkModeOf_does (a s : MaskArg) : (bestLinkModeOf a s).Does :=
  (maskOf_does a _).bind fun _ => (maskOf_does s _).bind fun _ => .ret _

end Sys2Proof.Machine
end

section
/-!
The timestamper's operations, and the steps of the machine: every step makes changes alone.
-/

namespace Sys2Proof.Machine

open Sys2Proof

/-! ### The timestamper's own invariant -/

theorem Ts.sound_iff (t : Ts) : t.sound = true ↔
    (∀ e ∈ t.buf, slotSound e = true) ∧ slotSound t.lastEvent = true ∧
      (t.readCount ≤ t.bufCount ∧ t.bufCount ≤ t.capacity ∧ 0 < t.capacity) ∧ t.oneCheck = true := by
  simp [Ts.sound, Ts.countsSound, and_assoc]

/-- An update that touches neither the ring, the last event, what runs the event-check nor the disable depth. -/
theorem Ts.Keeps.same {t u : Ts} (hs : u.sound = t.sound) (hd : u.irqDepth = t.irqDepth) : t.Keeps u :=
  ⟨fun h => hs.trans h, fun h => hd ▸ h⟩

/-- An update of a sound device to a sound one, with the disable depth as it is. -/
theorem Ts.Keeps.of_sound {t u : Ts} (hs : t.sound = true → u.sound = true) (hd : u.irqDepth = t.irqDepth) : t.Keeps u :=
  ⟨hs, fun h => hd ▸ h⟩

/-- An update of what runs the event-check that leaves one such run at most (rule R518). -/
theorem Ts.Keeps.check {t u : Ts} (ho : u.oneCheck = true) (hd : u.irqDepth = t.irqDepth)
    (hs : ({ u with workerBusy := t.workerBusy, irqRun := t.irqRun } : Ts).sound = t.sound) : t.Keeps u :=
  .of_sound (fun h => by
    obtain ⟨hb, hl, hc, -⟩ := (Ts.sound_iff _).mp (hs.trans h)
    exact (Ts.sound_iff u).mpr ⟨hb, hl, hc, ho⟩) hd

section

variable (t : Ts)

theorem Ts.keeps_endWork : t.Keeps { t with workerBusy := false } := .check rfl rfl rfl

theorem Ts.keeps_endIrq : t.Keeps t.endIrq := .check t.endIrq_oneCheck rfl rfl

theorem Ts.keeps_beginIrq (h : t.irqReady = true) : t.Keeps t.beginIrq := .check (Ts.beginIrq_oneCheck h) rfl rfl

theorem Ts.keeps_takeJob (h : t.checkFree = true) : t.Keeps t.takeJob := .check (Ts.takeJob_oneCheck h) rfl rfl

theorem Ts.keeps_beginWork (h : t.checkFree = true) : t.Keeps { t with workerBusy := true } :=
  .check (Ts.takeJob_oneCheck h) rfl rfl

theorem Ts.keeps_maskIrq : t.Keeps t.maskIrq := ⟨id, fun h => Int.add_nonneg h (by decide)⟩

/-- The ring with other contents and counts. -/
theorem Ts.keeps_ring {l : List (Option Event)} {n k : Nat} (hl : t.sound = true → ∀ e ∈ l, slotSound e = true)
    (hk : t.sound = true → k ≤ n ∧ n ≤ t.capacity) :
    t.Keeps { t with buf := l, bufCount := n, readCount := k } :=
  .of_sound (fun hs => by
    obtain ⟨-, he, ⟨-, -, hc⟩, ho⟩ := (Ts.sound_iff t).mp hs
    exact (Ts.sound_iff _).mpr ⟨hl hs, he, ⟨(hk hs).1, (hk hs).2, hc⟩, ho⟩) rfl

theorem Ts.buf_sound {t : Ts} (h : t.sound = true) : ∀ e ∈ t.buf, slotSound e = true := ((Ts.sound_iff t).mp h).1

theorem Ts.counts_sound {t : Ts} (h : t.sound = true) : t.readCount ≤ t.bufCount ∧ t.bufCount ≤ t.capacity :=
  have ⟨hr, hb, _⟩ := ((Ts.sound_iff t).mp h).2.2.1
  ⟨hr, hb⟩

theorem Ts.keeps_reclaim : t.Keeps t.reclaim :=
  t.keeps_ring Ts.buf_sound fun _ => ⟨Nat.zero_le _, Nat.zero_le _⟩

theorem Ts.keeps_allocate : t.Keeps t.allocate :=
  t.keeps_ring (fun _ _ he => List.eq_of_mem_replicate he ▸ rfl) fun _ => ⟨Nat.zero_le _, Nat.zero_le _⟩

theorem Ts.keeps_freed : t.Keeps { t with buf := [] } :=
  t.keeps_ring (fun _ _ he => absurd he List.not_mem_nil) Ts.counts_sound

theorem Ts.keeps_shut : t.Keeps t.shut :=
  t.keeps_ring (fun _ _ he => absurd he List.not_mem_nil) fun _ => ⟨Nat.zero_le _, Nat.zero_le _⟩

theorem Ts.keeps_deadline (n : Nat) : t.Keeps { t with timerDeadline := n } := .same rfl rfl

theorem Ts.keeps_advance (n : Nat) : t.Keeps (t.advance n) :=
  t.keeps_ring Ts.buf_sound fun h => ⟨Nat.min_le_right _ _, (Ts.counts_sound h).2⟩

theorem Ts.keeps_append {ev : Event} (h : ev.sound = true) : t.Keeps (t.append ev) := by
  refine t.keeps_ring (fun hs e he => ?_) fun hs => ⟨?_, Nat.min_le_right _ _⟩
  · rcases List.mem_or_eq_of_mem_set he with he | rfl
    · exact Ts.buf_sound hs e he
    · exact h
  · have := Ts.counts_sound hs
    omega

theorem Ts.keeps_lastEvent {ev : Event} (h : ev.sound = true) : t.Keeps { t with lastEvent := some ev } :=
  .of_sound (fun hs => by
    obtain ⟨hb, -, hc⟩ := (Ts.sound_iff t).mp hs
    exact (Ts.sound_iff _).mpr ⟨hb, h, hc⟩) rfl

end

/-- An event-check normalizes the event it reads (rules R59, R508). -/
theorem eventOf_sound (sLo sHi n c : Nat) : (eventOf sLo sHi n c).sound = true := by
  have h : ∀ k : Nat, (BitVec.ofNat 32 (k % Config.giga)).toNat < Config.giga := fun k =>
    Nat.lt_of_le_of_lt (Nat.mod_le _ _) (Nat.mod_lt k (by decide))
  exact decide_eq_true (h _)

/-! ### Cells and locks -/

theorem tsEnter_does (d : Nat) : (tsEnter d).Does :=
  .step fun _ => .onTs fun _ _ => .ite (fun _ => .refuse _) fun _ => .stay 0

theorem tsGet_does (d : Nat) (f : Ts → Nat) : (tsGet d f).Does := .step fun _ => .onTs fun _ _ => .stay _

theorem tsSet_does (d : Nat) {f : Ts → Ts} (h : ∀ t : Ts, t.Keeps (f t)) : (tsSet d f).Does :=
  .set fun s => changes_modTs s d f h

theorem tsReg_does (d : Nat) (r : TsReg) {x : Nat → U32 → Op (Except Err Nat)} (h : ∀ i a, (x i a).Does) :
    (tsReg d r x).Does :=
  .bind (.step fun _ => .onTs fun _ _ => .resourceBus _) fun i => .bind (.get _) fun _ => h i _

theorem tsRegRead_does (d : Nat) (r : TsReg) : (tsRegRead d r).Does := tsReg_does d r read32On_does

theorem tsRegWrite_does (d : Nat) (r : TsReg) (v : Board → U32) : (tsRegWrite d r v).Does :=
  .bind (.get _) fun _ => tsReg_does d r fun i a => write32On_does i a _

theorem acquireCfg_does (d : Nat) : (acquireCfg d).Does :=
  .step fun s => .onTs fun _ _ => .ite (fun _ => .fault _) fun _ =>
    .ite (fun _ => changes_modTs s d _ fun _ => .same rfl rfl) fun _ => .blockOn .refl _

theorem releaseCfg_does (d : Nat) : (releaseCfg d).Does := tsSet_does d fun _ => .same rfl rfl

theorem acquireReader_does (d : Nat) : (acquireReader d).Does :=
  .step fun s => .onTs fun _ _ => .ite (fun _ => .fault _) fun _ =>
    .ite (fun _ => changes_modTs s d _ fun _ => .same rfl rfl) fun _ => .blockOn .refl _

theorem releaseReader_does (d : Nat) : (releaseReader d).Does := tsSet_does d fun _ => .same rfl rfl

theorem acquireReaderInt_does (d : Nat) : (acquireReaderInt d).Does :=
  .step fun s => .onTs fun _ _ => .ite (fun _ => .fault _) fun _ => .ite (fun _ => changes_takeSignal s) fun _ =>
    .ite (fun _ => changes_modTs s d _ fun _ => .same rfl rfl) fun _ => .blockOn .refl _

theorem acquireIndex_does (d : Nat) : (acquireIndex d).Does :=
  .step fun s => .onTs fun _ _ =>
    .ite (fun _ => changes_modTs s d _ fun _ => .same rfl rfl) fun _ => .blockOn .refl _

theorem releaseIndex_does (d : Nat) : (releaseIndex d).Does := tsSet_does d fun _ => .same rfl rfl

theorem underIndex_does {α : Type} (d : Nat) {x : Op α} (h : x.Does) : (underIndex d x).Does :=
  (acquireIndex_does d).bind fun _ => h.bind fun _ => (releaseIndex_does d).bind fun _ => .ret _

theorem wakeAll_does (d : Nat) : (wakeAll d).Does := tsSet_does d fun _ => .same rfl rfl

theorem tsProbeOn_does (d : Nat) (res : Option Resource) (irqLine : Bool) : (tsProbeOn d res irqLine).Does :=
  (probeEnter_does _ _).bind fun _ =>
    match res with
    | none => .ret _
    | some r => .bind (.step fun _ => .resolve r.bus) fun _ =>
        .bind (.set fun s => .single (.probeTs s d r irqLine _)) fun _ => .ret _

/-! ### Delivery modes, open and close -/

theorem setDeadlineOn_does (d : Nat) : (setDeadlineOn d).Does :=
  .set fun s => changes_modTs s d _ fun t => t.keeps_deadline _

theorem enableModeOn_does (d : Nat) (m : DMode) : (enableModeOn d m).Does :=
  (tsRegWrite_does d _ _).q fun _ =>
    match m with
    | .interrupt =>
      .bind (tsSet_does d fun _ => .same rfl rfl) fun _ => (tsRegWrite_does d _ _).bind fun
        | .error _ => .bind (tsSet_does d fun _ => .same rfl rfl) fun _ => .ret _
        | .ok _ => .ret _
    | .poll => .bind (tsSet_does d fun _ => .same rfl rfl) fun _ => (setDeadlineOn_does d).bind fun _ => .ret _
    | .direct => .ret _

theorem awaitTriggers_does (d : Nat) : (awaitTriggers d).Does :=
  .step fun _ => .onTs fun _ _ => .ite (fun _ => .fault _) fun _ => .ite (fun _ => .stay 0) fun _ => .blockOn .refl _

theorem disableModeOn_does (d : Nat) (m : DMode) : (disableModeOn d m).Does :=
  match m with
  | .interrupt =>
    .bind (tsSet_does d fun _ => .same rfl rfl) fun _ => (tsRegWrite_does d _ _).bind fun _ =>
      (awaitTriggers_does d).bind fun _ => .ret _
  | .poll => .bind (tsSet_does d fun _ => .same rfl rfl) fun _ => (awaitTriggers_does d).bind fun _ => .ret _
  | .direct => (awaitTriggers_does d).bind fun _ => .ret _

theorem currentMode_does (d : Nat) : (currentMode d).Does := (tsGet_does d _).bind fun _ => .ret _

theorem openDone_does (d : Nat) : (openDone d).Does :=
  (tsGet_does d _).bind fun _ => .bind (tsSet_does d fun _ => .same rfl rfl) fun _ =>
    (releaseCfg_does d).bind fun _ => .ret _

theorem tsOpenOn_does (d : Nat) : (tsOpenOn d).Does :=
  (acquireCfg_does d).bind fun _ => (tsGet_does d _).bind fun _ => .ite
    (.bind (tsSet_does d Ts.keeps_allocate) fun _ => (currentMode_does d).bind fun m =>
      (enableModeOn_does d m).bind fun
        | .error _ => .bind (tsSet_does d Ts.keeps_freed) fun _ => (releaseCfg_does d).bind fun _ => .ret _
        | .ok _ => .bind (tsSet_does d fun _ => .same rfl rfl) fun _ => openDone_does d)
    (openDone_does d)

theorem closeHandle_does (d h : Nat) : (closeHandle d h).Does := by
  refine .step fun s => .onTs fun t _ => ?_
  cases t.handle h with
  | held n => cases n <;> exact changes_modTs s d _ fun _ => .same rfl rfl
  | closing _ => exact .fault _
  | closed => exact .fault _

theorem endUse_does (d : Nat) : (endUse d).Does :=
  (acquireCfg_does d).bind fun _ => .bind (tsSet_does d fun _ => .same rfl rfl) fun _ => (tsGet_does d _).bind fun _ =>
    .ite ((currentMode_does d).bind fun m => (disableModeOn_does d m).bind fun _ =>
      .bind (tsSet_does d Ts.keeps_shut) fun _ => (releaseCfg_does d).bind fun _ => .ret _)
    ((releaseCfg_does d).bind fun _ => .ret _)

theorem tsCloseOn_does (d h : Nat) : (tsCloseOn d h).Does :=
  (closeHandle_does d h).bind fun _ => .ite (endUse_does d) (.ret _)

/-! ### The event-check and its triggers -/

theorem checkFull_does (d : Nat) : (checkFull d).Does :=
  underIndex_does d <| .step fun s => .onTs fun _ _ => .ite
    (fun _ => .ite (fun _ => changes_modTs s d _ Ts.keeps_reclaim) fun _ => .stay 1) fun _ => .stay 0

theorem deliver_does (d full : Nat) {ev : Event} (h : ev.sound = true) : (deliver d full ev).Does :=
  .bind (tsSet_does d fun t => t.keeps_lastEvent h) fun _ => (tsRegWrite_does d _ _).q fun _ =>
    (tsRegWrite_does d _ _).q fun _ => .ite (.ret _) <|
      (underIndex_does d (tsSet_does d fun t => t.keeps_append h)).bind fun _ => (wakeAll_does d).bind fun _ => .ret _

theorem eventCheckOn_does (d : Nat) : (eventCheckOn d).Does :=
  (checkFull_does d).bind fun _ => .bind (.get _) fun _ => .ite (.ret _) <| (tsRegRead_does d _).q fun _ =>
    .bind (.get _) fun _ => .ite (.ret _) <| (tsRegRead_does d _).q fun _ => (tsRegRead_does d _).q fun _ =>
    (tsRegRead_does d _).q fun _ => (tsRegRead_does d _).q fun _ => deliver_does d _ (eventOf_sound _ _ _ _)

theorem whenReady_does (d : Nat) {ready : State → Ts → Bool} {f : State → Ts → Ts}
    (h : ∀ s t, ready s t = true → t.Keeps (f s t)) : (whenReady d ready f).Does := by
  refine .step fun s => .onTs fun t ht => .ite (fun hr => .single (.ts s d _ fun u hu => ?_)) fun _ => .blockOn .refl _
  obtain rfl : t = u := Option.some.inj (ht.symm.trans hu)
  exact h s t hr

theorem takeIrq_does (d : Nat) : (takeIrq d).Does := by
  refine .step fun s => .onTs fun t ht => .ite (fun hr => .single (.ts s d _ fun u hu => ?_)) fun _ => .blockOn .refl _
  obtain rfl : t = u := Option.some.inj (ht.symm.trans hu)
  exact t.keeps_beginIrq hr

theorem tsIrqOn_does (d : Nat) : (tsIrqOn d).Does :=
  (takeIrq_does d).bind fun _ => .ite
    (.bind (tsSet_does d Ts.keeps_maskIrq) fun _ => .bind (tsSet_does d fun _ => .same rfl rfl) fun _ =>
      .bind (tsSet_does d Ts.keeps_endIrq) fun _ => .ret _)
    ((eventCheckOn_does d).bind fun _ => .bind (tsSet_does d Ts.keeps_endIrq) fun _ => .ret _)

/-- An unmasking that leaves a disable depth below 0 faults, and only then is the depth below 0 (rule R511). -/
theorem unmask_does (d : Nat) : (unmask d).Does := by
  refine .step fun s => .onTs fun t ht => .ite (fun _ => .inr ⟨rfl, d, rfl⟩) fun hd => .single (.ts s d _ fun u hu => ?_)
  obtain rfl : t = u := Option.some.inj (ht.symm.trans hu)
  exact ⟨id, fun _ => Int.not_lt.mp hd⟩

theorem takeIrqMark_does (d : Nat) : (takeIrqMark d).Does :=
  .step fun s => .onTs fun _ _ => changes_modTs s d _ fun _ => .same rfl rfl

theorem workerRunOn_does (d : Nat) : (workerRunOn d).Does :=
  (whenReady_does d fun _ t h => t.keeps_takeJob (Bool.and_eq_true_iff.mp h).2).bind fun _ =>
    (takeIrqMark_does d).bind fun _ => (eventCheckOn_does d).bind fun _ => .ite
      ((unmask_does d).bind fun _ => .bind (tsSet_does d Ts.keeps_endWork) fun _ => .ret _)
      (.bind (tsSet_does d Ts.keeps_endWork) fun _ => .ret _)

theorem pollFireOn_does (d : Nat) : (pollFireOn d).Does :=
  .bind (whenReady_does d fun _ _ _ => .same rfl rfl) fun _ => .bind (tsSet_does d fun _ => .same rfl rfl) fun _ =>
    (setDeadlineOn_does d).bind fun _ => .bind (tsSet_does d fun _ => .same rfl rfl) fun _ => .ret _

theorem eventCheckAlone_does (d : Nat) : (eventCheckAlone d).Does :=
  .bind (whenReady_does d fun _ t h => t.keeps_beginWork h) fun _ =>
    (eventCheckOn_does d).bind fun _ => .bind (tsSet_does d Ts.keeps_endWork) fun _ => .ret _

/-! ### Readers -/

theorem copyOut_does (d start n : Nat) : (copyOut d start n).Does :=
  .step fun s => .ite (fun _ => changes_copyRecords s d n start 0) fun _ =>
    (changes_drawBytes s _).trans (changes_toBuffer _ _ _)

theorem pausePoint_does : pausePoint.Does := .xfer fun _ _ => .stay 0

theorem needOpen_does (d h max : Nat) : (needOpen d h max).Does := by
  refine .step fun s => .onTs fun t _ => ?_
  cases t.handle h with
  | held n =>
    show Changes s (if max = 0 then s else _)
    split
    · exact .refl
    · exact changes_modTs s d _ fun _ => .same rfl rfl
  | closing _ => exact .fault _
  | closed => exact .fault _

theorem leaveHandle_does (d h : Nat) : (leaveHandle d h).Does :=
  .step fun s => .onTs fun _ _ => changes_modTs s d _ fun _ => .same rfl rfl

theorem awaitReadable_does (d : Nat) : (awaitReadable d).Does :=
  .step fun s => .onTs fun _ _ => .ite (fun _ => .fault _) fun _ =>
    .ite (fun _ => (changes_takeSignal s).trans (changes_modTs _ d _ fun _ => .same rfl rfl)) fun _ =>
    .ite (fun _ => .blockOn .refl _) fun _ => .ite (fun _ => .stay 0) fun _ =>
    .blockOn (changes_modTs s d (fun x => { x with waiters := x.waiters ++ [s.me.id] }) fun _ => .same rfl rfl) _

theorem takeRecords_does (d start n : Nat) : (takeRecords d start n).Does :=
  pausePoint_does.bind fun _ => (copyOut_does d start n).bind fun _ =>
    .ite ((releaseReader_does d).bind fun _ => .ret _) <| pausePoint_does.bind fun _ =>
      (underIndex_does d (tsSet_does d fun t => t.keeps_advance n)).bind fun _ =>
        (releaseReader_does d).bind fun _ => .ret _

theorem directMode_does (d : Nat) : (directMode d).Does := tsGet_does d _

theorem nothingToRead_does (d : Nat) (nonblock : Bool) : (nothingToRead d nonblock).Does :=
  (directMode_does d).bind fun _ => .bind (.ite (tsSet_does d fun _ => .same rfl rfl) (.ret _)) fun _ =>
    (releaseReader_does d).bind fun _ => (directMode_does d).bind fun _ => .ite (.ret _) (.again _)

theorem readSlice_does (d max : Nat) (nonblock : Bool) : (readSlice d max nonblock).Does :=
  (acquireIndex_does d).bind fun _ => (tsGet_does d _).bind fun _ => (tsGet_does d _).bind fun _ =>
    (releaseIndex_does d).bind fun _ => .ite (nothingToRead_does d nonblock) (takeRecords_does d _ _)

theorem readRecords_does (d max : Nat) (nonblock : Bool) : (readRecords d max nonblock).Does :=
  (acquireReaderInt_does d).bind fun _ => .ite (.ret _) <| (underIndex_does d (tsGet_does d _)).bind fun _ =>
    .ite (readSlice_does d max nonblock) <| (releaseReader_does d).bind fun _ => (awaitReadable_does d).bind fun _ =>
      .ite (.ret _) (.again _)

theorem tsReadOn_does (d h : Nat) (len : U32) (nonblock : Bool) : (tsReadOn d h len nonblock).Does :=
  (needOpen_does d h _).bind fun _ => .ite (.ret _) <| (readRecords_does d _ nonblock).bind fun _ =>
    (leaveHandle_does d h).bind fun _ => .ite ((endUse_does d).bind fun _ => .ret _) (.ret _)

/-! ### Settings and host events -/

theorem settingsDone_does (d : Nat) (m : DMode) (r : Except Err Nat) : (settingsDone d m r).Does :=
  .ite ((releaseCfg_does d).bind fun _ => .ret _) ((wakeAll_does d).bind fun _ => (releaseCfg_does d).bind fun _ => .ret _)

theorem applySettings_does (d : Nat) (m : DMode) (sec : U64) (nsec : U32) : (applySettings d m sec nsec).Does :=
  (acquireCfg_does d).bind fun _ => (tsGet_does d _).bind fun _ => .ite
    ((currentMode_does d).bind fun _ => (disableModeOn_does d _).bind fun _ => (acquireReader_does d).bind fun _ =>
      .bind (tsSet_does d fun _ => .same rfl rfl) fun _ => (releaseReader_does d).bind fun _ =>
      (enableModeOn_does d m).bind fun r => settingsDone_does d m r)
    ((acquireReader_does d).bind fun _ => .bind (tsSet_does d fun _ => .same rfl rfl) fun _ =>
      (releaseReader_does d).bind fun _ => settingsDone_does d m _)

theorem changeSettingsOn_does (d : Nat) (mode : U32) (sec : U64) (nsec : U32) :
    (changeSettingsOn d mode sec nsec).Does := by
  unfold changeSettingsOn
  split
  · exact .ret _
  · exact (tsGet_does d _).bind fun _ => .ite (.ret _) <| .ite (.ret _) (applySettings_does d _ sec nsec)

theorem tsPulseOn_does (d : Nat) :
    ((Op.step fun s => s.onTs d fun _ => .go 0 (s.tsPulse d)).bind fun _ => Op.ok (α := Nat) 0).Does :=
  .bind (.step fun s => .onTs fun _ _ => changes_tsPulse s d) fun _ => .ret _

theorem hostSignalOn_does (c : Nat) : (hostSignalOn c).Does := by
  refine .bind (.step fun s => .ite (fun _ => .stay 0) fun _ => ?_) fun _ => .ret _
  cases s.others.zipIdx.find? (fun e => decide (e.1.id = c)) with
  | none => exact .stay 0
  | some e => exact changes_signalOther s e.2 e.1

/-! ### Every operation -/

theorem afterTsEnter_does (d : Nat) {x : Op (Except Err Res)} (h : x.Does) : ((tsEnter d).bind fun _ => x).Does :=
  (tsEnter_does d).bind fun _ => h

/-- The meaning of every operation is to perform one that makes changes alone. -/
theorem exec_performs (i : Instr) : ∃ o : Op (Except Err Res), o.Does ∧ ∀ s, exec i s = s.perform i o := by
  cases i with
  | read16 b a => exact ⟨_, onBus_does b fun i => asVal16_does (read16On_does i a), fun _ => rfl⟩
  | write16 b a v => exact ⟨_, onBus_does b fun i => asUnit_does (write16On_does i a v), fun _ => rfl⟩
  | read32 b a => exact ⟨_, onBus_does b fun i => asVal32_does (read32On_does i a), fun _ => rfl⟩
  | write32 b a v => exact ⟨_, onBus_does b fun i => asUnit_does (write32On_does i a v), fun _ => rfl⟩
  | reset b => exact ⟨_, onBus_does b fun i => asUnit_does (resetOn_does i), fun _ => rfl⟩
  | lookup t => exact ⟨_, lookupKey_does t, fun _ => rfl⟩
  | release h => exact ⟨_, releaseHandle_does h, fun _ => rfl⟩
  | mmioRead16 b a => exact ⟨_, backendOp_does b fun i => asVal16_does (mmioRead16On_does i a), fun _ => rfl⟩
  | mmioWrite16 b a v => exact ⟨_, backendOp_does b fun i => asUnit_does (mmioWrite16On_does i a v), fun _ => rfl⟩
  | nativeRead32 b a => exact ⟨_, backendOp_does b fun i => asVal32_does (nativeRead32On_does i a), fun _ => rfl⟩
  | nativeWrite32 b a v => exact ⟨_, backendOp_does b fun i => asUnit_does (nativeWrite32On_does i a v), fun _ => rfl⟩
  | i2cRead16 b a => exact ⟨_, backendOp_does b fun i => asVal16_does (i2cRead16On_does i a), fun _ => rfl⟩
  | i2cWrite16 b a v => exact ⟨_, backendOp_does b fun i => asUnit_does (i2cWrite16On_does i a v), fun _ => rfl⟩
  | slaveRead16 b a => exact ⟨_, backendOp_does b fun i => asVal16_does (slaveRead16On_does i a), fun _ => rfl⟩
  | slaveWrite16 b a v => exact ⟨_, backendOp_does b fun i => asUnit_does (slaveWrite16On_does i a v), fun _ => rfl⟩
  | bridgeRead16 b a => exact ⟨_, backendOp_does b fun i => asVal16_does (bridgeRead16On_does i a), fun _ => rfl⟩
  | bridgeWrite16 b a v => exact ⟨_, backendOp_does b fun i => asUnit_does (bridgeWrite16On_does i a v), fun _ => rfl⟩
  | readTime d => exact ⟨_, (ncoEnter_does d true).bind fun _ => (readTimeOn_does d).q fun _ => .ret _, fun _ => rfl⟩
  | adjustTime d sign sec nsec =>
    exact ⟨_, (ncoEnter_does d true).bind fun _ => asUnit_does (adjustTimeOn_does d sign sec nsec), fun _ => rfl⟩
  | adjustFrequency d ppb =>
    exact ⟨_, (ncoEnter_does d true).bind fun _ => asUnit_does (adjustFrequencyOn_does d ppb), fun _ => rfl⟩
  | initRegisters d =>
    exact ⟨_, (ncoEnter_does d false).bind fun _ => asUnit_does (initRegistersOn_does d), fun _ => rfl⟩
  | ncoProbe d res param prop => exact ⟨_, asUnit_does (ncoProbeOn_does d res _), fun _ => rfl⟩
  | cmdPoll d c => exact ⟨_, (ncoEnter_does d false).bind fun _ => asUnit_does (cmdPollOn_does d c), fun _ => rfl⟩
  | ncoTick d => exact ⟨_, asUnit_does (ncoTickOn_does d), fun _ => rfl⟩
  | ncoCmdComplete d c => exact ⟨_, asUnit_does (ncoCompleteOn_does d c), fun _ => rfl⟩
  | adpDetect p =>
    exact ⟨_, (adpEnter_does p).bind fun _ => (adpDetectOn_does p).bind fun _ => .ret _, fun _ => rfl⟩
  | adpSetup p desired forced =>
    exact ⟨_, (adpEnter_does p).bind fun _ => asUnit_does (adpSetupOn_does p desired forced), fun _ => rfl⟩
  | checkLink p => exact ⟨_, (adpEnter_does p).bind fun _ => (checkLinkOn_does p).bind fun _ => .ret _, fun _ => rfl⟩
  | initAdapter p => exact ⟨_, (adpEnter_does p).bind fun _ => asUnit_does (initAdapterOn_does p), fun _ => rfl⟩
  | bestAdapterLinkMode a m => exact ⟨_, (bestLinkModeOf_does a m).bind fun _ => .ret _, fun _ => rfl⟩
  | adpProbe p res => exact ⟨_, asUnit_does (adpProbeOn_does p res), fun _ => rfl⟩
  | tsOpen d => exact ⟨_, afterTsEnter_does d ((tsOpenOn_does d).q fun _ => .ret _), fun _ => rfl⟩
  | tsClose d h => exact ⟨_, afterTsEnter_does d (asUnit_does (tsCloseOn_does d h)), fun _ => rfl⟩
  | tsRead d h len nonblock =>
    exact ⟨_, afterTsEnter_does d ((tsReadOn_does d h len nonblock).q fun _ => .ret _), fun _ => rfl⟩
  | changeSettings d mode sec nsec =>
    exact ⟨_, afterTsEnter_does d (asUnit_does (changeSettingsOn_does d mode sec nsec)), fun _ => rfl⟩
  | eventCheck d => exact ⟨_, afterTsEnter_does d (asUnit_does (eventCheckAlone_does d)), fun _ => rfl⟩
  | enableMode d m => exact ⟨_, afterTsEnter_does d (asUnit_does (enableModeOn_does d m)), fun _ => rfl⟩
  | disableMode d m => exact ⟨_, afterTsEnter_does d (asUnit_does (disableModeOn_does d m)), fun _ => rfl⟩
  | tsProbe d res irqLine => exact ⟨_, asUnit_does (tsProbeOn_does d res irqLine), fun _ => rfl⟩
  | tsPulse d =>
    exact ⟨_, asUnit_does (tsPulseOn_does d), fun _ => rfl⟩
  | tsIrq d => exact ⟨_, afterTsEnter_does d (asUnit_does (tsIrqOn_does d)), fun _ => rfl⟩
  | workerRun d => exact ⟨_, afterTsEnter_does d (asUnit_does (workerRunOn_does d)), fun _ => rfl⟩
  | pollFire d => exact ⟨_, afterTsEnter_does d (asUnit_does (pollFireOn_does d)), fun _ => rfl⟩
  | hostSignal c => exact ⟨_, asUnit_does (hostSignalOn_does c), fun _ => rfl⟩
  | hostTick => exact ⟨_, asUnit_does (.bind (.set changes_hostTick) fun _ => .ret _), fun _ => rfl⟩

/-! ### Every step -/

section

variable {P : State → Prop} {s t : State}

theorem Invariant.exec (hP : Invariant P) {i : Instr} (hs : Running P s) (h : exec i s = .next t) : P t := by
  obtain ⟨o, ho, he⟩ := exec_performs i
  exact hP.perform ho hs (he s ▸ h)

theorem Invariant.fetch (hP : Invariant P) {l : List Byte} (hs : Running P s) (h : s.fetch l = .next t) : P t := by
  unfold State.fetch at h
  split at h
  · exact hP.exec (hP.running (.single (.control s _ _ _ _ _ _)) hs) h
  · cases h

theorem Invariant.go (hP : Invariant P) (hs : P s) (h : s.go = .next t) : P t := by
  cases hst : s.me.stopped with
  | some f => rw [State.go_stopped hst] at h; cases h
  | none =>
    cases ho : s.me.op with
    | some i => rw [State.go_resumes hst ho] at h; exact hP.exec ⟨hst, hs⟩ h
    | none =>
      cases hp : s.me.prog with
      | nil =>
        rw [State.go_idles hst ho hp] at h
        cases h
        exact hP.change (.book s _ _ _ _ _ _ _) hs
      | cons b l => rw [State.go_fetches hst ho hp] at h; exact hP.fetch ⟨hst, hs⟩ h

theorem Invariant.switchTo (hP : Invariant P) {k : Nat} (hs : P s) (h : s.switchTo k = some t) : P t := by
  rcases State.switchTo_cases h with rfl | ⟨a, ha, rfl⟩
  · exact hs
  · exact hP.switch ha hs

theorem Invariant.turnTo (hP : Invariant P) {k : Nat} {c : Option Nat} (hs : P s) (h : s.turnTo k c = .next t) :
    P t := by
  unfold State.turnTo at h
  split at h
  · rename_i u hu
    exact hP.go (hP.switchTo (hP.change (.book s _ _ _ _ _ _ _) hs) hu) h
  · cases h
    exact hP.change (.book s _ _ _ _ _ _ _) hs

/-- What every change keeps, every step keeps. -/
theorem Invariant.step (hP : Invariant P) (hs : P s) (h : step s = .next t) : P t := by
  have unscheduled : ∀ r, P { s with sched := r } := fun r => hP.change (.book s _ _ _ _ _ _ _) hs
  cases hm : s.sched with
  | nil => rw [step_unscheduled hm] at h; exact hP.go hs h
  | cons m r =>
    cases m with
    | env e =>
      rw [step_env hm] at h
      cases h
      exact hP.changes (changes_env _ e) (unscheduled r)
    | agent k => rw [step_agent hm] at h; exact hP.turnTo (unscheduled r) h
    | part k n => rw [step_part hm] at h; exact hP.turnTo (unscheduled r) h

end

end Sys2Proof.Machine
end

section
/-!
Sound states: the conditions by name, and that every step keeps them.
-/

namespace Sys2Proof.Machine

open Sys2Proof

/-! ### The conditions of a sound state -/

/-- An agent is stopped by the fault of an unbalanced interrupt (rule R511). -/
def State.Unbalanced (s : State) : Prop :=
  s.me.stopped = some .irqUnbalanced ∨ ∃ a ∈ s.others, a.stopped = some .irqUnbalanced

/-- The conditions of a sound state, by name (`State.sound_iff`). -/
structure State.Sound (s : State) : Prop where
  board : s.board.ok = true
  rbs : ∀ rb ∈ s.rbs, rb.sound = true
  fars : ∀ e ∈ s.fars, e.sound = true
  tss : ∀ t ∈ s.tss, t.sound = true
  ports : ∀ q ∈ s.ports, q.sound = true
  me : s.me.sound = true
  others : ∀ a ∈ s.others, a.sound = true
  depths : (∀ t ∈ s.tss, 0 ≤ t.irqDepth) ∨ s.Unbalanced
  distinct : s.portsDistinct = true

theorem State.depthsSound_iff (s : State) :
    s.depthsSound = true ↔ (∀ t ∈ s.tss, 0 ≤ t.irqDepth) ∨ s.Unbalanced := by
  simp [State.depthsSound, State.Unbalanced, Agent.unbalanced]

theorem State.sound_iff (s : State) : s.sound = true ↔ s.Sound := by
  simp only [State.sound, Bool.and_eq_true, List.all_eq_true, State.depthsSound_iff]
  constructor
  · rintro ⟨⟨⟨⟨⟨⟨⟨⟨hb, hr⟩, hf⟩, ht⟩, hp⟩, hm⟩, ho⟩, hd⟩, hn⟩
    exact ⟨hb, hr, hf, ht, hp, hm, ho, hd, hn⟩
  · rintro ⟨hb, hr, hf, ht, hp, hm, ho, hd, hn⟩
    exact ⟨⟨⟨⟨⟨⟨⟨⟨hb, hr⟩, hf⟩, ht⟩, hp⟩, hm⟩, ho⟩, hd⟩, hn⟩

/-! ### Lists of units -/

/-- A unit of a list in which one is updated is a unit of the list, or the updated one. -/
theorem mem_modify_cases {α : Type} {l : List α} {i : Nat} {f : α → α} {x : α} (h : x ∈ l.modify i f) :
    x ∈ l ∨ ∃ y, l[i]? = some y ∧ x = f y := by
  obtain ⟨n, hn⟩ := List.mem_iff_getElem?.mp h
  rw [List.getElem?_modify] at hn
  obtain ⟨y, hy, rfl⟩ := Option.map_eq_some_iff.mp hn
  split
  · rename_i hi
    exact .inr ⟨y, hi ▸ hy, rfl⟩
  · exact .inl (List.mem_of_getElem? hy)

/-- What holds of every unit holds after one of them is updated. -/
theorem forall_mem_modify {α : Type} {p : α → Prop} {l : List α} {i : Nat} {f : α → α} (h : ∀ x ∈ l, p x)
    (hf : ∀ x, l[i]? = some x → p x → p (f x)) : ∀ x ∈ l.modify i f, p x := by
  intro x hx
  rcases mem_modify_cases hx with hx | ⟨y, hy, rfl⟩
  · exact h x hx
  · exact hf y hy (h y (List.mem_of_getElem? hy))

/-- What holds of some unit holds of some unit after one of them is updated. -/
theorem exists_mem_modify {α : Type} {p : α → Prop} {l : List α} {i : Nat} {f : α → α} (hf : ∀ x, p x → p (f x))
    (h : ∃ x ∈ l, p x) : ∃ x ∈ l.modify i f, p x := by
  obtain ⟨x, hx, hp⟩ := h
  obtain ⟨n, hl⟩ := List.mem_iff_getElem?.mp hx
  have hm : (l.modify i f)[n]? = some (if i = n then f x else x) := by
    rw [List.getElem?_modify, hl]; rfl
  refine ⟨_, List.mem_of_getElem? hm, ?_⟩
  split
  · exact hf x hp
  · exact hp

/-- What holds of every unit and of a new one holds of all. -/
theorem forall_mem_snoc {α : Type} {p : α → Prop} {l : List α} {x : α} (h : ∀ y ∈ l, p y) (hx : p x) :
    ∀ y ∈ l ++ [x], p y :=
  List.forall_mem_append.mpr ⟨h, List.forall_mem_singleton.mpr hx⟩

/-! ### New units -/

/-- A new RegisterBus sleeps unless it is MMIO, and has native accesses only where it is (rules R42, R222). -/
theorem Rb.create_sound (id : Nat) (name : String) (b : Backend) (native32 hasReset : Bool) (cfg : RbCfg) :
    (Rb.create id name b native32 hasReset cfg).sound = true := by
  cases b <;> simp [Rb.create, Rb.sound]

/-- A port that a probe has set is not forced and shows no link. -/
theorem Port.probed_sound (q : Port) (p : Nat) (res : Resource) (an : Bool) : (q.probed p res an).sound = true := rfl

theorem Ts.create_sound (res : Option Resource) (irqLine deferred : Bool) (hw : TsHw) :
    (Ts.create res irqLine deferred hw).sound = true := rfl

/-- A probe of a device in use empties its ring and leaves what runs on it (log entry 49). -/
theorem Ts.probed_keeps (t : Ts) (res : Resource) (irqLine deferred : Bool) : t.Keeps (t.probed res irqLine deferred) :=
  .of_sound (fun h => by
    obtain ⟨-, -, -, ho⟩ := (Ts.sound_iff t).mp h
    obtain ⟨hb, hl, hc, -⟩ := (Ts.sound_iff _).mp (Ts.create_sound (some res) irqLine deferred t.hw)
    exact (Ts.sound_iff _).mpr ⟨hb, hl, hc, ho⟩) rfl

/-! ### Every change keeps a state sound -/

section

variable {s : State}

theorem State.Sound.modRb (h : s.Sound) (i : Nat) {f : Rb → Rb} (hf : ∀ rb, (f rb).sound = rb.sound) :
    (s.modRb i f).Sound :=
  { h with rbs := forall_mem_modify h.rbs fun rb _ hrb => (hf rb).trans hrb }

theorem State.Sound.modPort (h : s.Sound) {p : Nat} {f : Port → Port} (hp : ∀ q, (f q).port = q.port)
    (hs : ∀ q, s.portAt p = some q → q.sound = true → (f q).sound = true) : (s.modPort p f).Sound :=
  { h with
    ports := forall_mem_modify h.ports hs
    distinct := State.modPort_distinct hp h.distinct }

theorem State.Sound.modTs (h : s.Sound) {d : Nat} {f : Ts → Ts} (hf : ∀ t, s.tss[d]? = some t → t.Keeps (f t)) :
    (s.modTs d f).Sound :=
  { h with
    tss := forall_mem_modify h.tss fun t ht => (hf t ht).1
    depths := h.depths.imp_left fun hd => forall_mem_modify hd fun t ht => (hf t ht).2 }

theorem State.Sound.probeNco (h : s.Sound) (d : Nat) (res : Resource) (spin : Bool) (step : StepReq) :
    (s.probeNco d res spin step).Sound := by
  unfold State.probeNco
  rw [afterDraws_eq]
  split
  · exact { h with }
  · exact { h with }

theorem State.Sound.probePort (h : s.Sound) (p : Nat) (res : Resource) : (s.probePort p res).Sound := by
  have hd := State.probePort_distinct p res h.distinct
  revert hd
  unfold State.probePort
  rw [afterDraws_eq]
  split
  · exact fun hd =>
      { h with ports := forall_mem_modify h.ports fun q _ _ => q.probed_sound _ _ _, distinct := hd }
  · exact fun hd => { h with ports := forall_mem_snoc h.ports (Port.probed_sound _ _ _ _), distinct := hd }

theorem State.Sound.probeTs (h : s.Sound) (d : Nat) (res : Resource) (irqLine deferred : Bool) :
    (s.probeTs d res irqLine deferred).Sound := by
  unfold State.probeTs
  rw [afterDraws_eq]
  split
  · exact h.modTs fun t _ => t.probed_keeps res irqLine deferred
  · exact { h with
      tss := forall_mem_snoc h.tss (Ts.create_sound _ _ _ _)
      depths := h.depths.imp_left fun hd => forall_mem_snoc hd (Int.le_refl 0) }

/-- Each condition is about the units that a change names. -/
theorem Change.keeps_sound {s t : State} (hc : Change s t) (h : s.Sound) : t.Sound := by
  cases hc with
  | book => exact { h with }
  | control => exact { h with }
  | buffer x l => exact { h with me := Memory.writeBytes_wf l _ x h.me }
  | signal k =>
    exact { h with
      others := forall_mem_modify h.others fun _ _ ha => ha
      depths := h.depths.imp_right fun hu => hu.imp_right (exists_mem_modify fun _ ha => ha) }
  | cache i c => exact h.modRb i fun _ => rfl
  | busy i b => exact h.modRb i fun _ => rfl
  | far i f _ hw => exact { h with fars := forall_mem_modify h.fars fun e _ => hw e }
  | lookup t i _ => exact { h.modRb i (f := fun rb => { rb with refs := rb.refs + 1 }) fun _ => rfl with }
  | release k x rb _ _ _ => exact { h.modRb x.inst (f := fun r => { r with refs := r.refs - 1 }) fun _ => rfl with }
  | attach t name id b native32 hasReset keeps cfg =>
    exact { h with
      rbs := forall_mem_snoc h.rbs (Rb.create_sound id name b native32 hasReset cfg)
      fars := forall_mem_snoc h.fars rfl }
  | nco d f _ => exact { h with }
  | ncoStore d r p => exact { h with }
  | ncoTick d apply => exact { h with }
  | ncoComplete d c => exact { h with }
  | probeNco d res spin step => exact h.probeNco d res spin step
  | port p f hp hs => exact h.modPort hp hs
  | probePort p res => exact h.probePort p res
  | ts d f hf => exact h.modTs hf
  | probeTs d res irqLine deferred => exact h.probeTs d res irqLine deferred

/-- A fault stops the agent and changes nothing else that soundness looks at. -/
theorem State.Sound.halt (h : s.Sound) (f : Fault) : (s.halt f).Sound :=
  { h with depths := h.depths.imp_right fun hu => hu.imp_left fun hm => by simp [State.halt, hm] }

/-- The fault that a disable depth below 0 raises says so (rule R511). -/
theorem State.Sound.unbalanced (h : s.Sound) (d : Nat) (hs : s.me.stopped = none) :
    ((s.modTs d Ts.unmasked).halt .irqUnbalanced).Sound :=
  { h with
    tss := forall_mem_modify h.tss fun _ _ ht => ht
    depths := .inr (.inl (by simp [State.halt, hs])) }

/-- Soundness does not ask which agent runs. -/
theorem State.Sound.switch (h : s.Sound) {a : Agent} (ha : a ∈ s.others) :
    State.Sound { s with me := a, others := s.me :: s.others.erase a } :=
  { h with
    me := h.others a ha
    others := List.forall_mem_cons.mpr ⟨h.me, fun b hb => h.others b (List.mem_of_mem_erase hb)⟩
    depths := h.depths.imp_right fun
      | .inl hm => .inr ⟨s.me, List.mem_cons_self, hm⟩
      | .inr ⟨b, hb, hst⟩ => by
        by_cases hab : b = a
        · exact .inl (hab ▸ hst)
        · exact .inr ⟨b, List.mem_cons_of_mem _ ((List.mem_erase_of_ne hab).mpr hb), hst⟩ }

end

theorem sound_invariant : Invariant State.Sound where
  change hc h := hc.keeps_sound h
  halt f h := h.halt f
  unbalanced d hs h := h.unbalanced d hs
  switch ha h := h.switch ha

/-- Settles O7: soundness is an invariant of every change that a step can make. -/
theorem stepKeepsSound : Obligations.StepKeepsSound := by
  unfold Obligations.StepKeepsSound
  intro s t hs h
  exact (State.sound_iff t).mpr (sound_invariant.step ((State.sound_iff s).mp hs) h)

end Sys2Proof.Machine
end

section
/-!
The cells of a new RegisterBus and of the devices at reset, and the running nanoseconds of an NCO, which nothing that its
hardware does lets reach one second.
-/

namespace Sys2Proof.Machine

open Sys2Proof

/-! ### Creation and reset (rules R42, R44, R45, R51, R57) -/

/-- Settles O12: each cell is the one that the function creating the unit gives it. -/
theorem cellsAtCreation : Obligations.CellsAtCreation := by
  unfold Obligations.CellsAtCreation
  refine ⟨fun k name b n32 r cfg => ?created, fun b cfg e he => ?farEnd, fun b cfg => ?device⟩
  case created => cases b <;> exact ⟨rfl, rfl, rfl, rfl, rfl, rfl, rfl, rfl, rfl, rfl⟩
  case farEnd =>
    obtain rfl : e = ⟨false, []⟩ := List.eq_of_mem_replicate (n := 5) he
    exact ⟨rfl, rfl⟩
  case device =>
    exact ⟨Nco.ofCells Config.powerOn b, Ts.create none b.irqLine false (TsHw.ofCells Config.powerOn),
      by simp [State.resetOn, Nco.ofCells, NcoHw.ofCells, Ts.create, Ts.irqBusy, initialMode, nominal48Of,
        Config.defaultPollSec, Config.defaultPollNsec, Config.tsCapacity]⟩

/-! ### The running nanoseconds (rules R46, R301) -/

/-- The running nanoseconds are below one second. -/
def NcoHw.Below (h : NcoHw) : Prop := h.nsec.toNat < Config.giga

section

variable {h : NcoHw}

/-- A step is below 64 ns and carries at most one more out of the fraction, so that one carried second is enough. -/
theorem NcoHw.addStep_below {n : Nat} (s : Int) (hn : n < Config.giga) : (h.addStep n s).1 < Config.giga := by
  have hstep := h.stepNsec.isLt
  have hcarry : (h.frac.toNat + h.stepSubnsec.toNat) / 2 ^ 32 ≤ 1 := by
    have := h.frac.isLt
    have := h.stepSubnsec.isLt
    omega
  have hgiga : Config.giga = 1000000000 := rfl
  unfold NcoHw.addStep
  dsimp only
  split <;> dsimp only <;> omega

theorem NcoHw.tickNormal_below (hb : h.Below) : h.tickNormal.Below :=
  Nat.lt_of_le_of_lt (Nat.mod_le _ _) (NcoHw.addStep_below _ hb)

/-- The tick that applies an adjustment normalizes whatever is staged (rule R301). -/
theorem NcoHw.tickAdjust_below (replaces : Bool) : (h.tickAdjust replaces).Below :=
  Nat.lt_of_le_of_lt (Nat.mod_le _ _) (Nat.mod_lt _ (by decide))

theorem NcoHw.tick_below (replaces apply : Bool) (hb : h.Below) : (h.tick replaces apply).Below := by
  unfold NcoHw.tick
  split
  · exact NcoHw.tickAdjust_below replaces
  · exact NcoHw.tickNormal_below hb

/-- Of the commands only `ADJ_CLOCK` moves the time, and that by a tick (rule R302). -/
theorem NcoHw.complete_below (replaces : Bool) (c : Cmd) (hb : h.Below) : (h.complete replaces c).Below :=
  match c with
  | .read => hb
  | .adjClock => NcoHw.tick_below replaces true hb
  | .adjStep => hb

/-- A register write stages a value or adds a command; the running time is no register (rule R50). -/
theorem NcoHw.store_nsec (b : Board) (r : NcoReg) (p : Part) : (h.store b r p).nsec = h.nsec := by
  cases r <;> rfl

end

section

variable {s t : State} {d : Nat}

theorem State.ncoBelow_modNco (k : Nat) {f : Nco → Nco} (hf : ∀ n, n.hw.Below → (f n).hw.Below)
    (h : s.ncoBelow d) : (s.modNco k f).ncoBelow d := by
  intro n hn
  rw [State.modNco_ncos, List.getElem?_modify] at hn
  obtain ⟨m, hm, rfl⟩ := Option.map_eq_some_iff.mp hn
  split
  · exact hf m (h m hm)
  · exact h m hm

/-- A probe of another number leaves the device's cells, and one of its own its running time (rules R311, R702). -/
theorem State.ncoBelow_probeNco (k : Nat) (res : Resource) (spin : Bool) (step : StepReq) (hd : d < s.ncos.length)
    (h : s.ncoBelow d) : (s.probeNco k res spin step).ncoBelow d := by
  unfold State.probeNco
  split
  · exact State.ncoBelow_modNco k (fun _ hn => hn) h
  · intro n hn
    exact h n ((List.getElem?_append_left hd).symm.trans hn)

theorem State.ncos_length_probeNco (k : Nat) (res : Resource) (spin : Bool) (step : StepReq) :
    s.ncos.length ≤ (s.probeNco k res spin step).ncos.length := by
  unfold State.probeNco
  split
  · exact (List.length_modify ..).ge
  · simp

end

end Sys2Proof.Machine
end

section
/-!
What no change takes away: the parameters of the board, every RegisterBus as its backend made it, the places of the
devices, and that an NCO's running nanoseconds are below one second.
-/

namespace Sys2Proof.Machine

open Sys2Proof

/-! ### Lists whose units keep their places -/

/-- Every unit of `l` has its place in `l'`, where a unit stands that `R` relates it to. -/
def KeepsPlaces {α : Type} (R : α → α → Prop) (l l' : List α) : Prop :=
  ∀ (i : Nat) (x : α), l[i]? = some x → ∃ x', l'[i]? = some x' ∧ R x x'

section

variable {α : Type} {R : α → α → Prop} {l l' l'' : List α}

theorem KeepsPlaces.refl (hR : ∀ x, R x x) (l : List α) : KeepsPlaces R l l := fun _ x h => ⟨x, h, hR x⟩

theorem KeepsPlaces.trans (hR : ∀ {x y z}, R x y → R y z → R x z) (h : KeepsPlaces R l l')
    (h' : KeepsPlaces R l' l'') : KeepsPlaces R l l'' := by
  intro i x hx
  obtain ⟨y, hy, hxy⟩ := h i x hx
  obtain ⟨z, hz, hyz⟩ := h' i y hy
  exact ⟨z, hz, hR hxy hyz⟩

theorem KeepsPlaces.modify (hR : ∀ x, R x x) (i : Nat) {f : α → α} (hf : ∀ x, R x (f x)) :
    KeepsPlaces R l (l.modify i f) := by
  intro j x hx
  refine ⟨if i = j then f x else x, by rw [List.getElem?_modify, hx]; rfl, ?_⟩
  split
  · exact hf x
  · exact hR x

theorem KeepsPlaces.snoc (hR : ∀ x, R x x) (y : α) : KeepsPlaces R l (l ++ [y]) := fun _ x hx =>
  ⟨x, (List.getElem?_append_left (List.getElem?_eq_some_iff.mp hx).1).trans hx, hR x⟩

end

/-! ### RegisterBuses, far ends and ports -/

/-- Two states of one RegisterBus: what its backend set when it was created is the same (rules R42, R43). -/
structure Rb.SameUnit (x y : Rb) : Prop where
  name : y.name = x.name
  id : y.id = x.id
  backend : y.backend = x.backend
  hasRead32 : y.hasRead32 = x.hasRead32
  hasWrite32 : y.hasWrite32 = x.hasWrite32
  hasReset : y.hasReset = x.hasReset
  sleeps : y.sleeps = x.sleeps
  cfg : y.cfg = x.cfg

theorem Rb.SameUnit.refl (x : Rb) : x.SameUnit x := ⟨rfl, rfl, rfl, rfl, rfl, rfl, rfl, rfl⟩

theorem Rb.SameUnit.trans {x y z : Rb} (h : x.SameUnit y) (h' : y.SameUnit z) : x.SameUnit z where
  name := h'.name.trans h.name
  id := h'.id.trans h.id
  backend := h'.backend.trans h.backend
  hasRead32 := h'.hasRead32.trans h.hasRead32
  hasWrite32 := h'.hasWrite32.trans h.hasWrite32
  hasReset := h'.hasReset.trans h.hasReset
  sleeps := h'.sleeps.trans h.sleeps
  cfg := h'.cfg.trans h.cfg

/-- Two states of one far end: it goes on keeping what is written, or not (log entry 11). -/
def FarEnd.SameUnit (x y : FarEnd) : Prop := y.keeps = x.keeps

theorem FarEnd.SameUnit.refl (x : FarEnd) : x.SameUnit x := rfl

theorem FarEnd.SameUnit.trans {x y z : FarEnd} (h : x.SameUnit y) (h' : y.SameUnit z) : x.SameUnit z :=
  Eq.trans h' h

/-- The indices of the ports, in their order. -/
def State.portIndices (s : State) : List Nat := s.ports.map (·.port)

theorem State.portIndices_modPort (s : State) (p : Nat) {f : Port → Port} (hf : ∀ q, (f q).port = q.port) :
    s.portIndices <+: (s.modPort p f).portIndices := by
  rw [State.portIndices, State.portIndices, State.modPort_indices s p f hf]

/-- A probe gives the port of its index its cells, or adds a port of that index (rule R404, log entry 26). -/
theorem State.portIndices_probePort (s : State) (p : Nat) (res : Resource) :
    s.portIndices <+: (s.probePort p res).portIndices := by
  unfold State.probePort
  split
  · rename_i q hq
    have keepsIndex : s.afterDraw.modPort p (fun q => q.probed p res (s.drawn.testBit 0)) =
        s.afterDraw.modPort p fun x => { x.probed p res (s.drawn.testBit 0) with port := x.port } :=
      State.modPort_congr (x := q) hq (by rw [State.portAt_port hq]; rfl)
    rw [keepsIndex]
    exact s.afterDraw.portIndices_modPort p (fun _ => rfl)
  · simp [State.portIndices]

/-- A port of an index stays one (rule R52). -/
theorem State.portAt_of_indices {s t : State} (h : s.portIndices <+: t.portIndices) {p : Nat} {q : Port}
    (hq : s.portAt p = some q) : ∃ q', t.portAt p = some q' := by
  refine Option.ne_none_iff_exists'.mp fun hn => State.portAt_none.mp hn (h.subset ?_)
  exact Classical.not_not.mp fun hp => by
    rw [State.portAt_none.mpr hp] at hq
    cases hq

/-! ### What every change keeps -/

/-- State `t` has the board of `s`, and every unit of `s` in its place. -/
structure State.Extends (s t : State) : Prop where
  board : t.board = s.board
  ncos : s.ncos.length ≤ t.ncos.length
  ports : s.portIndices <+: t.portIndices
  tss : s.tss.length ≤ t.tss.length
  fars : KeepsPlaces FarEnd.SameUnit s.fars t.fars
  rbs : KeepsPlaces Rb.SameUnit s.rbs t.rbs

theorem State.Extends.refl (s : State) : s.Extends s where
  board := rfl
  ncos := Nat.le_refl _
  ports := List.prefix_refl _
  tss := Nat.le_refl _
  fars := .refl .refl _
  rbs := .refl .refl _

theorem State.Extends.trans {s t u : State} (h : s.Extends t) (h' : t.Extends u) : s.Extends u where
  board := h'.board.trans h.board
  ncos := h.ncos.trans h'.ncos
  ports := h.ports.trans h'.ports
  tss := h.tss.trans h'.tss
  fars := h.fars.trans .trans h'.fars
  rbs := h.rbs.trans .trans h'.rbs

section

variable (s : State)

theorem State.extends_modRb (i : Nat) {f : Rb → Rb} (hf : ∀ x : Rb, x.SameUnit (f x)) : s.Extends (s.modRb i f) :=
  { State.Extends.refl s with rbs := .modify .refl i hf }

theorem State.extends_modNco (d : Nat) (f : Nco → Nco) : s.Extends (s.modNco d f) :=
  { State.Extends.refl s with ncos := (List.length_modify ..).ge }

theorem State.extends_modTs (d : Nat) (f : Ts → Ts) : s.Extends (s.modTs d f) :=
  { State.Extends.refl s with tss := (List.length_modify ..).ge }

theorem State.extends_modPort (p : Nat) {f : Port → Port} (hf : ∀ q, (f q).port = q.port) :
    s.Extends (s.modPort p f) :=
  { State.Extends.refl s with ports := s.portIndices_modPort p hf }

theorem State.extends_probeNco (d : Nat) (res : Resource) (spin : Bool) (step : StepReq) :
    s.Extends (s.probeNco d res spin step) := by
  have grown := State.ncos_length_probeNco (s := s) d res spin step
  revert grown
  unfold State.probeNco
  rw [afterDraws_eq]
  split
  · exact fun _ => s.extends_modNco d _
  · exact fun grown => { State.Extends.refl s with ncos := grown }

theorem State.extends_probePort (p : Nat) (res : Resource) : s.Extends (s.probePort p res) := by
  have grown := s.portIndices_probePort p res
  revert grown
  unfold State.probePort
  rw [afterDraws_eq]
  split
  · exact fun grown => { State.Extends.refl s with ports := grown }
  · exact fun grown => { State.Extends.refl s with ports := grown }

theorem State.extends_probeTs (d : Nat) (res : Resource) (irqLine deferred : Bool) :
    s.Extends (s.probeTs d res irqLine deferred) := by
  unfold State.probeTs
  rw [afterDraws_eq]
  split
  · exact s.extends_modTs d _
  · exact { State.Extends.refl s with tss := by simp }

end

/-- A change adds units or updates one of them in its place. -/
theorem Change.keepsUnits {s t : State} (hc : Change s t) : s.Extends t := by
  cases hc with
  | book => exact { State.Extends.refl s with }
  | control => exact { State.Extends.refl s with }
  | buffer x l => exact { State.Extends.refl s with }
  | signal k => exact { State.Extends.refl s with }
  | cache i c => exact s.extends_modRb i fun x => { Rb.SameUnit.refl x with }
  | busy i b => exact s.extends_modRb i fun x => { Rb.SameUnit.refl x with }
  | far i f hk _ => exact { State.Extends.refl s with fars := .modify .refl i hk }
  | lookup _ i _ =>
    exact { s.extends_modRb i (f := fun x => { x with refs := x.refs + 1 }) fun x => { Rb.SameUnit.refl x with } with }
  | release _ x _ _ _ _ =>
    exact { s.extends_modRb x.inst (f := fun x => { x with refs := x.refs - 1 }) fun x =>
      { Rb.SameUnit.refl x with } with }
  | attach => exact { State.Extends.refl s with rbs := .snoc .refl _, fars := .snoc .refl _ }
  | nco d f _ => exact s.extends_modNco d f
  | ncoStore d r p => exact s.extends_modNco d _
  | ncoTick d apply => exact s.extends_modNco d _
  | ncoComplete d c => exact s.extends_modNco d _
  | probeNco d res spin step => exact s.extends_probeNco d res spin step
  | port p f hp _ => exact s.extends_modPort p hp
  | probePort p res => exact s.extends_probePort p res
  | ts d f _ => exact s.extends_modTs d f
  | probeTs d res irqLine deferred => exact s.extends_probeTs d res irqLine deferred

theorem extends_invariant (s : State) : Invariant s.Extends where
  change hc h := h.trans hc.keepsUnits
  halt _ h := { h with }
  unbalanced d _ h := { h.trans (State.extends_modTs _ d Ts.unmasked) with }
  switch _ h := { h with }

/-- Settles O11: every state extends itself, and every change extends further. -/
theorem stepKeepsInstances : Obligations.StepKeepsInstances := by
  unfold Obligations.StepKeepsInstances
  intro s t h
  obtain ⟨hboard, hncos, hports, htss, hfars, hrbs⟩ := (extends_invariant s).step (State.Extends.refl s) h
  refine ⟨hboard, hncos, by simpa [State.portIndices] using hports.length_le, htss,
    fun _ _ => State.portAt_of_indices hports, hfars, fun i rb hrb => ?_⟩
  obtain ⟨rb', hrb', kept⟩ := hrbs i rb hrb
  exact ⟨rb', hrb', kept.name, kept.id, kept.backend, kept.hasRead32, kept.hasWrite32, kept.hasReset, kept.sleeps,
    kept.cfg⟩

/-! ### Every change keeps an NCO's running nanoseconds below one second -/

/-- NCO `d` is there and its running nanoseconds are below one second. -/
def State.RunsBelow (d : Nat) (s : State) : Prop := d < s.ncos.length ∧ s.ncoBelow d

theorem Change.keeps_runsBelow {s t : State} {d : Nat} (hc : Change s t) (hs : s.RunsBelow d) : t.RunsBelow d := by
  obtain ⟨hd, hb⟩ := hs
  refine ⟨Nat.lt_of_lt_of_le hd hc.keepsUnits.ncos, ?_⟩
  cases hc with
  | nco k f hw => exact State.ncoBelow_modNco k (fun n hn => by rwa [NcoHw.Below, hw n]) hb
  | ncoStore k r p => exact State.ncoBelow_modNco k (fun n hn => by rwa [NcoHw.Below, NcoHw.store_nsec]) hb
  | ncoTick k apply => exact State.ncoBelow_modNco k (fun _ => NcoHw.tick_below _ apply) hb
  | ncoComplete k c =>
    refine State.ncoBelow_modNco k (fun n hn => ?_) hb
    show NcoHw.Below (if n.hw.pending c then _ else n.hw)
    split
    · exact NcoHw.complete_below _ c hn
    · exact hn
  | probeNco k res spin step => exact State.ncoBelow_probeNco k res spin step hd hb
  | probePort p res =>
    unfold State.probePort
    rw [afterDraws_eq]
    split <;> exact hb
  | probeTs k res irqLine deferred =>
    unfold State.probeTs
    rw [afterDraws_eq]
    split <;> exact hb
  | _ => exact hb

theorem runsBelow_invariant (d : Nat) : Invariant (State.RunsBelow d) where
  change hc h := hc.keeps_runsBelow h
  halt _ h := h
  unbalanced _ _ h := h
  switch _ h := h

/-- Settles O10: only ticks move the running time, and they carry every full second. -/
theorem stepKeepsNcoBelow : Obligations.StepKeepsNcoBelow := by
  unfold Obligations.StepKeepsNcoBelow
  intro s t d hd hb h
  obtain ⟨-, below⟩ := (runsBelow_invariant d).step ⟨hd, hb⟩ h
  exact below

end Sys2Proof.Machine
end

section
/-!
What a 16-bit far-end write changes: one half of a device register, or two stored bytes.
-/

namespace Sys2Proof.Machine

open Sys2Proof

section

variable {s : State} {i : Nat} {a : U32}

/-! ### The three cases of a write -/

theorem ncoTarget_some {regs : List NcoReg} {t : Target} (h : s.ncoTarget regs i a = some t) :
    ∃ d r high, t = .nco d r high := by
  obtain ⟨e, -, he⟩ := List.exists_of_findSome?_eq_some h
  split at he
  · cases he
  · split at he
    · cases he
      exact ⟨_, _, _, rfl⟩
    · cases he

theorem tsTarget_some {regs : List TsReg} {t : Target} (h : s.tsTarget regs i a = some t) :
    ∃ d r high, t = .ts d r high := by
  obtain ⟨e, -, he⟩ := List.exists_of_findSome?_eq_some h
  split at he
  · cases he
  · split at he
    · cases he
      exact ⟨_, _, _, rfl⟩
    · cases he

/-- Adapter registers take no writes (rule R56), so a write reaches an NCO, a timestamper or no device. -/
theorem writeTarget_cases (s : State) (i : Nat) (a : U32) :
    s.writeTarget i a = none ∨ (∃ d r high, s.writeTarget i a = some (.nco d r high)) ∨
      ∃ d r high, s.writeTarget i a = some (.ts d r high) := by
  unfold State.writeTarget
  split
  · rename_i t ht
    obtain ⟨d, r, high, rfl⟩ := ncoTarget_some ht
    exact .inr (.inl ⟨d, r, high, rfl⟩)
  · cases ht : s.tsTarget TsReg.writable i a with
    | none => exact .inl rfl
    | some t =>
      obtain ⟨d, r, high, rfl⟩ := tsTarget_some ht
      exact .inr (.inr ⟨d, r, high, rfl⟩)

theorem farWrite16_nco {d : Nat} {r : NcoReg} {high : Bool} (v : U16)
    (h : s.writeTarget i (evenAddr a) = some (.nco d r high)) :
    s.farWrite16 i a v = s.modNcoHw d fun x => x.store s.board r (.half high v) := by
  simp only [State.farWrite16, h]; rfl

theorem farWrite16_ts {d : Nat} {r : TsReg} {high : Bool} (v : U16)
    (h : s.writeTarget i (evenAddr a) = some (.ts d r high)) :
    s.farWrite16 i a v = s.modTsHw d fun x => x.store s.board r (.half high v) := by
  simp only [State.farWrite16, h]; rfl

theorem farWrite16_none (v : U16) (h : s.writeTarget i (evenAddr a) = none) :
    s.farWrite16 i a v = s.modFar i fun e => e.store (s.farOrder i) (evenAddr a) v := by
  simp only [State.farWrite16, h]

/-! ### Stored bytes -/

/-- A far end that keeps nothing is as before a store (rule R44). -/
theorem FarEnd.store_of_not_keeps {e : FarEnd} (h : e.keeps = false) (o : Endian) (v : U16) : e.store o a v = e := by
  cases e
  simp_all [FarEnd.store]

theorem sameBytesBut_of_fars_eq {t : State} (n k : Nat) (hf : t.fars = s.fars) (hm : t.me = s.me) :
    s.SameBytesBut t i n k :=
  ⟨fun j x _ => by rw [State.farByte, hf, State.farByte], fun x => by rw [State.bufByte, hm, State.bufByte]⟩

/-- A store leaves the other far ends alone, and every byte of its own but the two it writes. -/
theorem sameBytesBut_store (s : State) (i : Nat) (a : U32) (o : Endian) (v : U16) :
    s.SameBytesBut (s.modFar i fun e => e.store o a v) i a.toNat 2 := by
  refine ⟨fun j x h => ?_, fun x => rfl⟩
  simp only [State.farByte, State.modFar_fars, List.getElem?_modify]
  cases s.fars[j]? with
  | none => rfl
  | some e =>
    by_cases hij : i = j
    · simpa [hij] using FarEnd.read_store_other e o a v x (h.resolve_left fun hj => hj hij.symm)
    · simp [hij]

/-- Where the far end keeps what is written, the register at the address shows the value written. -/
theorem storedAt_store {e : FarEnd} (v : U16) (he : s.fars[i]? = some e) (hk : e.keeps = true) :
    State.storedAt (s.modFar i fun e => e.store (s.farOrder i) a v) i a = some v := by
  simp only [State.storedAt, State.modFar_fars, List.getElem?_modify_eq, he]
  exact FarEnd.stored_store e _ a v hk

theorem modFar_store_of_not_keeps {e : FarEnd} (o : Endian) (v : U16) (he : s.fars[i]? = some e)
    (hk : e.keeps = false) : (s.modFar i fun e => e.store o a v) = s := by
  have same : ∀ x, s.fars[i]? = some x → x.store o a v = x := fun x hx => by
    obtain rfl : e = x := Option.some.inj (he.symm.trans hx)
    exact FarEnd.store_of_not_keeps hk o v
  rw [State.modFar, modify_self _ _ _ same]

/-- Where nothing is kept, a read of an address that reaches no register draws (rule R44). -/
theorem farRead16_draws (hr : s.readTarget i (evenAddr a) = none)
    (hk : ∀ e, s.fars[i]? = some e → e.keeps = false) :
    s.farRead16 i a = (BitVec.ofNat 16 s.drawn, s.afterDraw) := by
  have unknown : s.storedAt i (evenAddr a) = none := by
    unfold State.storedAt
    split
    · rename_i e he; simp [FarEnd.stored, hk e he]
    · rfl
  simp only [State.farRead16, hr, unknown]

end

/-- Settles O13: by the three cases of what lies at the address. -/
theorem farWriteFrame : Obligations.FarWriteFrame := by
  unfold Obligations.FarWriteFrame
  intro s i a v
  rcases writeTarget_cases s i (evenAddr a) with hw | ⟨d, r, high, hw⟩ | ⟨d, r, high, hw⟩
  · simp only [hw, farWrite16_none v hw]
    refine ⟨rfl, sameBytesBut_store s i _ _ v, fun h => absurd rfl h, fun _ => ⟨rfl, rfl, fun j hj => ?others,
      fun e he => ⟨storedAt_store v he, modFar_store_of_not_keeps _ v he⟩⟩, farRead16_draws, nofun, nofun⟩
    case others => rw [State.modFar_fars, List.getElem?_modify_ne _ _ hj.symm]
  · simp only [hw, farWrite16_nco v hw]
    refine ⟨rfl, sameBytesBut_of_fars_eq _ _ rfl rfl, fun _ => rfl, nofun, farRead16_draws,
      fun _ _ _ h => ?ncoHalf, nofun⟩
    case ncoHalf => cases h; exact ⟨rfl, rfl⟩
  · simp only [hw, farWrite16_ts v hw]
    refine ⟨rfl, sameBytesBut_of_fars_eq _ _ rfl rfl, fun _ => rfl, nofun, farRead16_draws, nofun,
      fun _ _ _ h => ?tsHalf⟩
    case tsHalf => cases h; exact ⟨rfl, rfl⟩

end Sys2Proof.Machine
end

section
/-!
What holds throughout an operation that only reads its bus: a property which such accesses and the steps of the outside
do not touch (`ReadSteady`) is kept by every part of a 16-bit read and of the link decoders, and a run either stops
before its last part or comes to it with that property (`Op.run_bind`).
-/

namespace Sys2Proof.Machine

open Sys2Proof

/-! ### Running an operation up to its last part -/

/-- A property `P` that neither the steps of the outside nor the bookkeeping, the AA1 caches and the busy marks of bus
reads touch, and that gives `Q` where the operation is put aside or stopped by a fault. -/
structure ReadSteady (P Q : State → Prop) : Prop where
  env : ∀ {s} (e : Env), P s → P (s.env e)
  book : ∀ {s} (turns : List Turn) (tape : List Nat) (draws : Nat) (wire : List Xfer), P s →
    P { s with turns := turns, tape := tape, draws := draws, wire := wire }
  cache : ∀ {s} (i : Nat) (c : Option U16), P s → P (s.modRb i fun rb => { rb with aa1Cache := c })
  busy : ∀ {s} (i : Nat) (b : Option Nat), P s → P (s.modRb i fun rb => { rb with busy := b })
  suspend : ∀ {s} (l : List Nat), P s → Q (s.suspend l)
  halt : ∀ {s} (f : Fault), P s → Q (s.halt f)

section

variable {P Q : State → Prop} {α β : Type} {s : State}

theorem ReadSteady.takeTurns (hP : ReadSteady P Q) (l : List Turn) (hs : P s) :
    match takeTurns l s with
    | .go _ t => P t
    | .stop t => P t := by
  induction l generalizing s with
  | nil => exact hP.book [] _ _ _ hs
  | cons x r ih =>
    cases x with
    | env e => exact ih (hP.env e hs)
    | _ => exact hP.book r _ _ _ hs

/-- A run of one operation and then another stops before the second, or comes to it with the property kept. -/
theorem Op.run_bind (hP : ReadSteady P Q) {o : Op α} (h : o.Keeps P Q) (g : α → Op (Except Err Res)) :
    ∀ (c : Option Nat) (seen : List Nat) (s t : State), P s → (o.bind g).run c [] seen s = .next t →
      Q t ∨ ∃ a c' seen' u, P u ∧ (g a).run c' [] seen' u = .next t := by
  induction o with
  | ret a => exact fun c seen s t hs hr => .inr ⟨a, c, seen, s, hs, hr⟩
  | again n =>
    intro c seen s t hs hr
    cases hr
    exact .inl (hP.suspend _ hs)
  | act f k ih =>
    intro c seen s t hs hr
    have hf := h.1 s hs
    simp only [Op.bind, Op.run] at hr
    split at hr
    · cases hr
      exact .inl (hP.suspend _ hs)
    · split at hr
      case h_1 n u hu => rw [hu] at hf; exact ih n (h.2 n) _ _ _ _ hf hr
      case h_2 u hu => rw [hu] at hf; cases hr; exact .inl (hP.suspend _ hf)
      case h_3 x u hu => rw [hu] at hf; cases hr; exact .inl hf
      case h_4 => cases hr
  | txn f k ih =>
    intro c seen s t hs hr
    have ht := hP.takeTurns s.turns hs
    simp only [Op.bind, Op.run] at hr
    split at hr
    · cases hr
      exact .inl (hP.suspend _ hs)
    · split at hr
      case h_1 u hu => rw [hu] at ht; cases hr; exact .inl (hP.suspend _ ht)
      case h_2 v w hw =>
        rw [hw] at ht
        have hf := h.1 v w ht
        split at hr
        case h_1 n u hu => rw [hu] at hf; exact ih n (h.2 n) _ _ _ _ hf hr
        case h_2 u hu => rw [hu] at hf; cases hr; exact .inl (hP.suspend _ hf)
        case h_3 x u hu => rw [hu] at hf; cases hr; exact .inl hf
        case h_4 => cases hr

/-! ### Steps -/

theorem Op.Keeps.ite {c : Prop} [Decidable c] {x y : Op α} (hx : x.Keeps P Q) (hy : y.Keeps P Q) :
    (if c then x else y).Keeps P Q := by
  split
  · exact hx
  · exact hy

theorem Op.Keeps.step {f : State → Ans} (h : ∀ s, P s → (f s).Keeps P Q) : (Op.step f).Keeps P Q :=
  ⟨h, fun _ => trivial⟩

theorem Op.Keeps.tryXfer {f : Verdict → State → Ans} (h : ∀ v s, P s → (f v s).Keeps P Q) :
    (Op.tryXfer f).Keeps P Q :=
  ⟨h, fun _ => trivial⟩

theorem Op.Keeps.get (f : State → Nat) : (Op.get f).Keeps P Q := ⟨fun _ hs => hs, fun _ => trivial⟩

theorem Op.Keeps.test (f : State → Bool) : (Op.test f).Keeps P Q := ⟨fun _ hs => hs, fun _ => trivial⟩

theorem Op.Keeps.set {f : State → State} (h : ∀ s, P s → P (f s)) : (Op.set f).Keeps P Q :=
  ⟨h, fun _ => trivial⟩

theorem ReadSteady.fault (hP : ReadSteady P Q) (f : Fault) : (Op.fault f : Op α).Keeps P Q :=
  ⟨fun _ hs => hP.halt f hs, fun _ => trivial⟩

theorem Ans.Keeps.ite {c : Prop} [Decidable c] {x y : Ans} (hx : x.Keeps P Q) (hy : y.Keeps P Q) :
    (if c then x else y).Keeps P Q := by
  split
  · exact hx
  · exact hy

theorem Ans.Keeps.onRb {i : Nat} {f : Rb → Ans} (h : ∀ rb, (f rb).Keeps P Q) : (s.onRb i f).Keeps P Q := by
  unfold State.onRb
  split
  · exact h _
  · trivial

theorem Ans.Keeps.onPort {p : Nat} {f : Port → Ans} (h : ∀ q, (f q).Keeps P Q) : (s.onPort p f).Keeps P Q := by
  unfold State.onPort
  split
  · exact h _
  · trivial

theorem portGet_keeps (p : Nat) (f : Port → Nat) : (portGet p f).Keeps P Q := .step fun _ hs => .onPort fun _ => hs

theorem adpEnter_keeps (p : Nat) : (adpEnter p).Keeps P Q := .step fun _ hs => .onPort fun _ => .ite trivial hs

theorem speedOf_keeps (pos : Board → Nat) (w : U16) : (speedOf pos w).Keeps P Q := .bind (.get _) fun _ => trivial

theorem whenLinkOk_keeps (p : Nat) (w : U16) {x : Op LinkMode} (h : x.Keeps P Q) : (whenLinkOk p w x).Keeps P Q :=
  .bind (.step fun _ hs => .onPort fun _ => hs) fun _ => .ite h trivial

theorem ReadSteady.resolve (hP : ReadSteady P Q) (b : BusRef) (hs : P s) : (s.resolve b).Keeps P Q := by
  unfold State.resolve
  split
  · exact .ite hs trivial
  · split
    · exact hP.halt _ hs
    · exact .ite (hP.halt _ hs) hs

theorem ReadSteady.resourceBus (hP : ReadSteady P Q) (r : Option Resource) (hs : P s) : (s.resourceBus r).Keeps P Q :=
  match r with
  | none => trivial
  | some x => hP.resolve x.bus hs

theorem ReadSteady.log (hP : ReadSteady P Q) (i : Nat) (w : Wire) (ok : Bool) (hs : P s) : P (s.log i w ok) :=
  hP.book _ _ _ _ hs

theorem ReadSteady.farRead16 (hP : ReadSteady P Q) (i : Nat) (a : U32) (hs : P s) : P (s.farRead16 i a).2 := by
  obtain ⟨n, hn⟩ := farRead16_snd s i a
  rw [hn, afterDraws_eq]
  exact hP.book _ _ _ _ hs

/-! ### A 16-bit read (rules R201, R205, R209, R211, R213, R215) -/

variable (hP : ReadSteady P Q)
include hP

theorem ReadSteady.contextCheck (i : Nat) : (contextCheck i).Keeps P Q :=
  .step fun _ hs => .onRb fun _ => .ite (hP.halt _ hs) hs

theorem ReadSteady.evenOnly (a : U32) {x : Op α} (h : x.Keeps P Q) : (evenOnly a x).Keeps P Q := .ite (hP.fault _) h

theorem ReadSteady.mmioRead16On (i : Nat) (a : U32) : (mmioRead16On i a).Keeps P Q :=
  hP.evenOnly a <|
    .bind ⟨fun _ _ hs => .onRb fun _ => hP.log _ _ _ (hP.farRead16 i a hs), fun _ => trivial⟩ fun _ => trivial

theorem ReadSteady.i2cRead16On (i : Nat) (a : U32) : (i2cRead16On i a).Keeps P Q :=
  .tryXfer fun
    | .fail _, _, hs => .onRb fun _ => hP.log _ _ _ hs
    | .ok, _, hs => .onRb fun _ => hP.log _ _ _ (hP.farRead16 i a hs)

theorem ReadSteady.mdioAccess (i : Nat) {x : Op (Except Err Nat)} (h : x.Keeps P Q) : (mdioAccess i x).Keeps P Q := by
  have begins : (mdioBegin i).Keeps P Q := .step fun _ hs => .onRb fun _ => .ite (hP.busy i _ hs) (hP.halt _ hs)
  exact begins.bind fun _ => h.bind fun _ => .bind (.set fun _ => hP.busy i none) fun _ => trivial

/-- A write that only addresses the bridge or the slave reaches no register of the far end (log entry 12). -/
theorem ReadSteady.mdioWriteOn (i : Nat) (phy reg : RbCfg → U5) (w : U16) :
    (mdioWriteOn i phy reg w none).Keeps P Q :=
  .tryXfer fun
    | .fail _, _, hs => .onRb fun _ => hP.log _ _ _ hs
    | .ok, _, hs => .onRb fun _ => hP.log _ _ _ hs

theorem ReadSteady.bridgeAddrOn (i : Nat) (a : U32) (rw : U16) : (bridgeAddrOn i a rw none).Keeps P Q :=
  .tryXfer fun
    | .fail _, _, hs => .onRb fun _ => hP.log _ _ _ hs
    | .ok, _, hs => .onRb fun _ => hP.log _ _ _ hs

theorem ReadSteady.mdioReadOn (i : Nat) (phy reg : RbCfg → U5) (a : U32) : (mdioReadOn i phy reg a).Keeps P Q :=
  .tryXfer fun
    | .fail _, _, hs => .onRb fun _ => hP.log _ _ _ hs
    | .ok, _, hs => .onRb fun _ => hP.log _ _ _ (hP.farRead16 i a hs)

theorem ReadSteady.setAa1 (i : Nat) (c : Option U16) : (setAa1 i c).Keeps P Q := .set fun _ => hP.cache i c

theorem ReadSteady.slaveSelectHigh (i : Nat) (a : U32) : (slaveSelectHigh i a).Keeps P Q :=
  .bind (.step fun _ hs => .onRb fun _ => hs) fun _ => .ite trivial <| (hP.mdioWriteOn i _ _ _).bind fun
    | .error _ => (hP.setAa1 i _).bind fun _ => trivial
    | .ok _ => (hP.setAa1 i _).bind fun _ => trivial

theorem ReadSteady.slaveRead16On (i : Nat) (a : U32) : (slaveRead16On i a).Keeps P Q :=
  hP.evenOnly a <| hP.mdioAccess i <| (hP.slaveSelectHigh i a).q fun _ => (hP.mdioWriteOn i _ _ _).q fun _ =>
    hP.mdioReadOn i _ _ a

theorem ReadSteady.bridgeRead16On (i : Nat) (a : U32) : (bridgeRead16On i a).Keeps P Q := by
  have range : (bridgeRange i a).Keeps P Q := .step fun _ hs => .onRb fun _ => .ite (hP.halt _ hs) hs
  exact hP.evenOnly a <| range.bind fun _ => hP.mdioAccess i <| (hP.bridgeAddrOn i a _).q fun _ => hP.mdioReadOn i _ _ a

theorem ReadSteady.read16On (i : Nat) (a : U32) : (read16On i a).Keeps P Q :=
  (hP.contextCheck i).bind fun _ => .bind (.step fun _ hs => .onRb fun _ => hs) fun
    | 0 => hP.mmioRead16On i a
    | 1 => hP.i2cRead16On i a
    | 2 => hP.slaveRead16On i a
    | _ + 3 => hP.bridgeRead16On i a

/-! ### The link decoders (rules R406, R407) -/

theorem ReadSteady.adpRead (p : Nat) (r : AdpReg) (v : Variant) : (adpRead p r v).Keeps P Q :=
  .bind (.step fun _ hs => .onPort fun q => hP.resourceBus q.res hs) fun i => .bind (.get _) fun _ => hP.read16On i _

theorem ReadSteady.fromStatus (p : Nat) (v : Variant) {f : U16 → Op LinkMode} (h : ∀ w, (f w).Keeps P Q) :
    (fromStatus p v f).Keeps P Q :=
  (hP.adpRead p _ v).bind fun
    | .error _ => trivial
    | .ok n => h (BitVec.ofNat 16 n)

theorem ReadSteady.decodePcs (p : Nat) (v : Variant) : (decodePcs p v).Keeps P Q := by
  refine (portGet_keeps p _).bind fun c => ?_
  cases PcsMode.ofCode c with
  | sgmii =>
    exact (hP.adpRead p _ v).bind fun
      | .error _ => trivial
      | .ok _ => speedOf_keeps _ _
  | _ => trivial

theorem ReadSteady.decodeLink (p : Nat) (v : Variant) : (decodeLink p v).Keeps P Q := by
  have speed : ∀ w, (whenLinkOk p w (speedOf (·.fldSpeed) w)).Keeps P Q := fun w =>
    whenLinkOk_keeps p w (speedOf_keeps _ w)
  have pcs : ∀ w, (whenLinkOk p w (Machine.decodePcs p v)).Keeps P Q := fun w =>
    whenLinkOk_keeps p w (hP.decodePcs p v)
  have fixed : ∀ m w, (fixedSpeed w m).Keeps P Q := fun _ _ => .bind (.test _) fun _ => trivial
  cases v with
  | rgmii => exact hP.fromStatus p _ speed
  | alteraTse => exact hP.fromStatus p _ speed
  | sgmiiOr1000BaseX => exact hP.fromStatus p _ pcs
  | sgmiiOr1000BaseXOr100BaseFX => exact hP.fromStatus p _ pcs
  | only1000BaseX => exact hP.fromStatus p _ (fixed _)
  | only100BaseFX => exact hP.fromStatus p _ (fixed _)
  | _ => trivial

end

/-! ### `check_link` (rule R406) -/

/-- The part of `check_link` that finds the mode to report. -/
def linkToReport (p : Nat) : Op LinkMode :=
  (portGet p fun q => q.linkCheckEnabled.toNat).bind fun on =>
  if on = 1 then (portGet p fun q => q.variant.code).bind fun c => decodeLink p (Variant.ofCode c) else .ret .down

/-- `check_link` finds a mode and reports it. -/
theorem checkLinkOn_eq (p : Nat) : checkLinkOn p = (linkToReport p).bind (reportLink p) := by
  simp only [checkLinkOn, linkToReport, Op.bind_assoc]
  congr 1
  funext on
  split
  · rw [Op.bind_assoc]
  · rfl

/-- A `check_link` is a part that only reads, and the report. -/
theorem exec_checkLink (p : Nat) (s : State) : exec (.checkLink p) s = s.perform (.checkLink p)
    (((adpEnter p).bind fun _ => linkToReport p).bind fun m => (reportLink p m).bind fun m => .ok (.linkMode m)) := by
  show s.perform _ ((adpEnter p).bind fun _ => (checkLinkOn p).bind fun m => .ok (.linkMode m)) = _
  simp only [checkLinkOn_eq, Op.bind_assoc]

theorem ReadSteady.linkToReport {P Q : State → Prop} (hP : ReadSteady P Q) (p : Nat) : (linkToReport p).Keeps P Q :=
  (portGet_keeps p _).bind fun _ => .ite ((portGet_keeps p _).bind fun _ => hP.decodeLink p _) trivial

/-- The running agent is in an operation. -/
def State.InOperation (s : State) : Prop := s.me.op ≠ none

/-- The running agent has not returned from its operation: it is in it, or a fault has stopped it. -/
def State.Unreturned (s : State) : Prop := s.me.op ≠ none ∨ s.me.stopped ≠ none

/-- A step of the outside leaves the running agent alone (log entry 3). -/
theorem State.env_me (s : State) (e : Env) : (s.env e).me = s.me := by
  cases e with
  | tsPulse d =>
    show (s.tsPulse d).me = s.me
    unfold State.tsPulse
    split
    · rfl
    · split
      · rw [afterDraws_eq]; rfl
      · rfl
  | _ => rfl

/-- An operation that only reads its bus is in progress until it returns or a fault stops the agent. -/
theorem inOperation_readSteady : ReadSteady State.InOperation State.Unreturned where
  env {s} e h := by rwa [State.InOperation, s.env_me e]
  book _ _ _ _ h := h
  cache _ _ h := h
  busy _ _ h := h
  suspend _ h := .inl h
  halt _ _ := .inr (Option.some_ne_none _)

theorem LinkMode.ofCode_code (m : LinkMode) : LinkMode.ofCode m.code = m := by cases m <;> rfl

theorem linkAllowed_iff (supported : U16) (m : LinkMode) :
    linkAllowed supported m = true ↔ m = .down ∨ linkBit m &&& supported ≠ 0 := by
  simp [linkAllowed]

/-- The last part of `check_link` returns the mode that it writes to the port's cell, which is one the port allows
(rules R53, R406). -/
theorem reportLink_returns {p : Nat} {m : LinkMode} {c : Option Nat} {seen : List Nat} {s t : State}
    (hs : s.InOperation) (h : ((reportLink p m).bind fun m => .ok (.linkMode m)).run c [] seen s = .next t) :
    t.Unreturned ∨ ∃ q, t.portAt p = some q ∧ t.me.result = some (.ok (.linkMode q.linkMode)) ∧
      linkAllowed q.supported q.linkMode = true := by
  simp only [reportLink, Op.step, Op.bind, Op.ok, Op.run] at h
  split at h
  · cases h
    exact .inl (.inl hs)
  · cases hq : s.portAt p with
    | none => simp [State.onPort, hq] at h
    | some q =>
      simp only [State.onPort_some hq, LinkMode.ofCode_code] at h
      cases h
      refine .inr ⟨{ q with linkMode := reportedMode q.supported m }, ?_, rfl, linkAllowed_reportedMode _ m⟩
      show (s.modPort p fun x => { x with linkMode := reportedMode q.supported m }).portAt p = _
      rw [State.portAt_modPort, if_pos rfl, hq]
      · rfl
      · exact fun _ => rfl

/-- Settles O42: a `check_link` that has returned has come to its last part, which reports what it writes. -/
theorem checkLinkLegal : Obligations.CheckLinkLegal := by
  unfold Obligations.CheckLinkLegal
  intro s t p hop h hret hrun
  have returned : ¬ t.Unreturned := fun hu => hu.elim (· hret) (· hrun)
  have started : (s.start (.checkLink p)).InOperation := Option.some_ne_none _
  have reads : ((adpEnter p).bind fun _ => linkToReport p).Keeps State.InOperation State.Unreturned :=
    (adpEnter_keeps p).bind fun _ => inOperation_readSteady.linkToReport p
  rw [exec_checkLink, State.perform, if_neg (by simp [hop])] at h
  obtain hu | ⟨m, c, seen, u, hu, h⟩ := Op.run_bind inOperation_readSteady reads _ _ _ _ _ started h
  · exact absurd hu returned
  · obtain hu | ⟨q, hq, hres, hlegal⟩ := reportLink_returns hu h
    · exact absurd hu returned
    · exact ⟨q, hq, hres, (linkAllowed_iff _ _).mp hlegal⟩

end Sys2Proof.Machine
end

section
/-!
Where a 16-bit bus access faults before its first transaction (spec/20_memory.md rules R111 and R115,
spec/60_exceptions.md rule R603): after the context check, at an odd address and while another agent's MDIO access on
the RegisterBus is unfinished.
-/

namespace Sys2Proof.Machine

open Sys2Proof

section

variable {s : State} {b : BusRef} {i k : Nat} {rb : Rb} {a : U32} {v : U16} {op : Instr} {f : Fault}

/-! ### An operation that has just begun -/

theorem State.Names.start (h : s.Names b i rb) (op : Instr) : (s.start op).Names b i rb := h

/-- Beginning an operation that is none of rule R620's keeps the context the agent is in. -/
theorem State.start_atomic (h : s.Idle) (hop : atomicOp (some op) = false) : (s.start op).atomic = s.atomic := by
  simp only [State.atomic, State.start_me, State.start_ncos, h.1, hop]
  rfl

/-- What faults on the RegisterBus it names, having changed nothing, stops the agent and nothing else changes. -/
theorem State.perform_onBus_faults {x : Nat → Op (Except Err Res)} (h : s.Idle) (hn : s.Names b i rb)
    (hx : (x i).Faults (s.start op) f (s.start op)) : s.perform op (onBus b x) = .next (s.halt f) := by
  rw [← State.start_halt (i := op) h]
  exact State.perform_faults h (.after (resolveBus_yields (hn.start op)) hx)

/-- The same for a backend operation issued by itself, which checks the context first. -/
theorem State.perform_backendOp_faults {x : Nat → Op (Except Err Res)} (h : s.Idle) (hn : s.Names b i rb)
    (hop : atomicOp (some op) = false) (hu : (rb.sleeps && s.atomic) = false)
    (hx : (x i).Faults (s.start op) f (s.start op)) : s.perform op (backendOp b x) = .next (s.halt f) := by
  refine State.perform_onBus_faults h hn (.after (contextCheck_yields hn.1 ?_) hx)
  rwa [State.start_atomic h hop]

theorem asVal16_faults {t : State} {x : Op (Except Err Nat)} (h : x.Faults s f t) : (asVal16 x).Faults s f t := h.bind

theorem asUnit_faults {t : State} {x : Op (Except Err Nat)} (h : x.Faults s f t) : (asUnit x).Faults s f t := h.bind

/-! ### Another agent's access is unfinished (rule R111) -/

/-- A slave access at an even address, a read or a write. -/
theorem evenOnly_mdioAccess_faults (h : s.rbs[i]? = some rb) (hb : rb.busy = some k) (hk : k ≠ s.me.id)
    (ha : isOdd a = false) (x : Op (Except Err Nat)) : (evenOnly a (mdioAccess i x)).Faults s .busOverlap s := by
  rw [evenOnly_even ha]
  exact mdioAccess_faults h hb hk x

/-- A bridge access at an even address in range, a read or a write. -/
theorem evenOnly_bridgeRange_faults (h : s.rbs[i]? = some rb) (hb : rb.busy = some k) (hk : k ≠ s.me.id)
    (ha : isOdd a = false) (hr : bridgePhy rb.cfg.bridgeBits a ≤ 31) (x : Op (Except Err Nat)) :
    (evenOnly a ((bridgeRange i a).bind fun _ => mdioAccess i x)).Faults s .busOverlap s := by
  rw [evenOnly_even ha]
  exact .after (bridgeRange_yields h hr) (mdioAccess_faults h hb hk x)

/-! ### An odd address (rule R115) -/

theorem read16On_misaligned (h : s.rbs[i]? = some rb) (hu : (rb.sleeps && s.atomic) = false)
    (hb : rb.backend = .mmio ∨ rb.backend = .mdioSlave ∨ rb.backend = .mdioBridge) (ha : isOdd a = true) :
    (read16On i a).Faults s .misaligned s := by
  refine .after (contextCheck_yields h hu) (.after (backendOf_yields h) ?_)
  rcases hb with hb | hb | hb <;> rw [hb] <;> exact evenOnly_faults ha _ s

theorem write16On_misaligned (h : s.rbs[i]? = some rb) (hu : (rb.sleeps && s.atomic) = false)
    (hb : rb.backend = .mmio ∨ rb.backend = .mdioSlave ∨ rb.backend = .mdioBridge) (ha : isOdd a = true) :
    (write16On i a v).Faults s .misaligned s := by
  refine .after (contextCheck_yields h hu) (.after (backendOf_yields h) ?_)
  rcases hb with hb | hb | hb <;> rw [hb] <;> exact evenOnly_faults ha _ s

end

/-- Settles O19: each access passes its checks and faults where it begins, before a turn is taken. -/
theorem busOverlapFaults : Obligations.BusOverlapFaults := by
  unfold Obligations.BusOverlapFaults
  intro s b i rb a v k hi hn hu hb hk ha
  have named (op : Instr) : (s.start op).rbs[i]? = some rb := hn.1
  have overlaps {op : Instr} {x : Nat → Op (Except Err Res)} (hop : atomicOp (some op) = false)
      (hx : (x i).Faults (s.start op) .busOverlap (s.start op)) :
      s.perform op (backendOp b x) = .next (s.halt .busOverlap) :=
    State.perform_backendOp_faults hi hn hop hu hx
  refine ⟨?slaveRead, ?slaveWrite, fun hr => ⟨?bridgeRead, ?bridgeWrite⟩⟩
  case slaveRead => exact overlaps rfl (asVal16_faults (evenOnly_mdioAccess_faults (named _) hb hk ha _))
  case slaveWrite => exact overlaps rfl (asUnit_faults (evenOnly_mdioAccess_faults (named _) hb hk ha _))
  case bridgeRead => exact overlaps rfl (asVal16_faults (evenOnly_bridgeRange_faults (named _) hb hk ha hr _))
  case bridgeWrite => exact overlaps rfl (asUnit_faults (evenOnly_bridgeRange_faults (named _) hb hk ha hr _))

/-- Settles O21: the context check passes, and the backend checks the address first. -/
theorem misalignedFaults : Obligations.MisalignedFaults := by
  unfold Obligations.MisalignedFaults
  intro s b i rb a v hi hn hu hb ha
  have named (op : Instr) : (s.start op).rbs[i]? = some rb := hn.1
  have context {op : Instr} (hop : atomicOp (some op) = false) : (rb.sleeps && (s.start op).atomic) = false := by
    rwa [State.start_atomic hi hop]
  exact ⟨State.perform_onBus_faults hi hn (asVal16_faults (read16On_misaligned (named _) (context rfl) hb ha)),
    State.perform_onBus_faults hi hn (asUnit_faults (write16On_misaligned (named _) (context rfl) hb ha))⟩

end Sys2Proof.Machine
end

section
/-!
The encoding and the decoder are inverse to each other (spec/30_encoding.md rules R141 and R170, log entry 1): a reader
and a writer of one operand agree in both directions (`Codec`), so do the decoder's arm for an operation and the
operation's bytes (`Arm`), and a word with no arm is refused.
-/

namespace Sys2Proof

/-- The reader `p` takes back what `put` writes of an operand that is `ok`, and takes nothing else. -/
structure Codec {α : Type} (p : Take α) (ok : α → Prop) (put : α → List Byte) : Prop where
  reads : ∀ {a : α}, ok a → ∀ r, p (put a ++ r) = .ok (a, r)
  only : ∀ {l : List Byte} {a : α} {r : List Byte}, p l = .ok (a, r) → ok a ∧ l = put a ++ r

/-! ### Words as bytes -/

theorem byteOf_append_zero {n : Nat} (hi : BitVec n) (lo : Byte) : byteOf (hi ++ lo) 0 = lo := by
  apply BitVec.eq_of_getLsbD_eq; intro k hk
  simp [byteOf, BitVec.getLsbD_append, hk]

theorem byteOf_append_succ {n : Nat} (hi : BitVec n) (lo : Byte) (k : Nat) :
    byteOf (hi ++ lo) (k + 1) = byteOf hi k := by
  apply BitVec.eq_of_getLsbD_eq; intro j hj
  rw [byteOf, byteOf, BitVec.getLsbD_extractLsb', BitVec.getLsbD_extractLsb', BitVec.getLsbD_append,
    if_neg (by omega), show 8 * (k + 1) + j - 8 = 8 * k + j by omega]

theorem byteOf_zero (b : Byte) : byteOf b 0 = b := by
  apply BitVec.eq_of_getLsbD_eq; intro k hk
  simp [byteOf, hk]

theorem put16_append (b1 b0 : Byte) : put16 (b1 ++ b0) = [b0, b1] := by
  simp only [put16, byteOf_append_zero, byteOf_append_succ, byteOf_zero]

theorem put32_append (b3 b2 b1 b0 : Byte) : put32 (b3 ++ b2 ++ b1 ++ b0) = [b0, b1, b2, b3] := by
  simp only [put32, byteOf_append_zero, byteOf_append_succ, byteOf_zero]

theorem put64_append (b7 b6 b5 b4 b3 b2 b1 b0 : Byte) :
    put64 (b7 ++ b6 ++ b5 ++ b4 ++ b3 ++ b2 ++ b1 ++ b0) = [b0, b1, b2, b3, b4, b5, b6, b7] := by
  simp only [put64, byteOf_append_zero, byteOf_append_succ, byteOf_zero]

theorem codec16 : Codec take16 (fun _ => True) put16 where
  reads _ r := take16_put16 _ r
  only {l a r} h := by
    match l, h with
    | b0 :: b1 :: _, rfl => exact ⟨trivial, by rw [put16_append]; rfl⟩

theorem codec32 : Codec take32 (fun _ => True) put32 where
  reads _ r := take32_put32 _ r
  only {l a r} h := by
    match l, h with
    | b0 :: b1 :: b2 :: b3 :: _, rfl => exact ⟨trivial, by rw [put32_append]; rfl⟩

theorem codec64 : Codec take64 (fun _ => True) put64 where
  reads _ r := take64_put64 _ r
  only {l a r} h := by
    match l, h with
    | b0 :: b1 :: b2 :: b3 :: b4 :: b5 :: b6 :: b7 :: _, rfl => exact ⟨trivial, by rw [put64_append]; rfl⟩

/-! ### Operand types -/

theorem putIndex_toNat (v : U16) : putIndex v.toNat = put16 v := by
  rw [putIndex, BitVec.ofNat_toNat, BitVec.setWidth_eq]

theorem putKey_toNat (v : U32) : putKey v.toNat = put32 v := by
  rw [putKey, BitVec.ofNat_toNat, BitVec.setWidth_eq]

theorem takeIndex_ok {l r : List Byte} {n : Nat} (h : takeIndex l = .ok (n, r)) :
    ∃ v, take16 l = .ok (v, r) ∧ v.toNat = n := by
  simp only [takeIndex] at h
  split at h
  · cases h; exact ⟨_, ‹_›, rfl⟩
  · cases h

theorem takeKey_ok {l r : List Byte} {n : Nat} (h : takeKey l = .ok (n, r)) :
    ∃ v, take32 l = .ok (v, r) ∧ v.toNat = n := by
  simp only [takeKey] at h
  split at h
  · cases h; exact ⟨_, ‹_›, rfl⟩
  · cases h

theorem codecIndex : Codec takeIndex (fun n => indexOk n = true) putIndex where
  reads h r := takeIndex_putIndex _ h r
  only h := by
    obtain ⟨v, hv, rfl⟩ := takeIndex_ok h
    exact ⟨decide_eq_true v.isLt, by rw [putIndex_toNat]; exact (codec16.only hv).2⟩

theorem codecKey : Codec takeKey (fun n => keyOk n = true) putKey where
  reads h r := takeKey_putKey _ h r
  only h := by
    obtain ⟨v, hv, rfl⟩ := takeKey_ok h
    exact ⟨decide_eq_true v.isLt, by rw [putKey_toNat]; exact (codec32.only hv).2⟩

/-- A reader that looks at a first byte: what it takes is known where there is one. -/
theorem Codec.ofTag {α : Type} {p : Take α} {ok : α → Prop} {put : α → List Byte}
    (reads : ∀ {a}, ok a → ∀ r, p (put a ++ r) = .ok (a, r)) (empty : p [] = .error .truncated)
    (only : ∀ {t l a r}, p (t :: l) = .ok (a, r) → ok a ∧ t :: l = put a ++ r) : Codec p ok put where
  reads := reads
  only {l a r} h := by
    cases l with
    | nil => rw [empty] at h; cases h
    | cons t l => exact only h

theorem codecBool : Codec takeBool (fun _ => True) putBool :=
  .ofTag (fun _ => takeBool_putBool _) rfl fun h => by
    simp only [takeBool] at h
    split_ifs at h <;> cases h <;> subst_vars <;> exact ⟨trivial, rfl⟩

theorem codecCmd : Codec takeCmd (fun _ => True) putCmd :=
  .ofTag (fun _ => takeCmd_putCmd _) rfl fun h => by
    simp only [takeCmd] at h
    split_ifs at h <;> cases h <;> subst_vars <;> exact ⟨trivial, rfl⟩

theorem codecLinkMode : Codec takeLinkMode (fun _ => True) putLinkMode :=
  .ofTag (fun _ => takeLinkMode_putLinkMode _) rfl fun h => by
    simp only [takeLinkMode] at h
    split_ifs at h <;> cases h <;> subst_vars <;> exact ⟨trivial, rfl⟩

theorem codecDMode : Codec takeDMode (fun _ => True) putDMode :=
  .ofTag (fun _ => takeDMode_putDMode _) rfl fun h => by
    simp only [takeDMode] at h
    split_ifs at h <;> cases h <;> subst_vars <;> exact ⟨trivial, rfl⟩

theorem codecBus : Codec takeBus (fun b => b.wellFormed = true) putBus :=
  .ofTag (fun h => takeBus_putBus _ h) rfl fun h => by
    simp only [takeBus] at h
    split at h
    · obtain ⟨hn, hl⟩ := codecIndex.only ‹_›
      split_ifs at h <;> cases h <;> subst_vars <;> exact ⟨hn, rfl⟩
    · cases h

theorem codecResource : Codec takeResource (fun x => resourceOk x = true) putResource :=
  .ofTag (fun h => takeResource_putResource _ h) rfl fun h => by
    simp only [takeResource] at h
    split at h
    case isTrue => cases h; subst_vars; exact ⟨rfl, rfl⟩
    case isFalse =>
      split at h
      · cases h
      split at h
      · cases h
      obtain ⟨hn, hl⟩ := codecIndex.only ‹_›
      obtain ⟨-, hr⟩ := codec32.only ‹_›
      split_ifs at h <;> cases h <;> subst_vars <;> exact ⟨hn, by simp [putResource]⟩

theorem codecStep : Codec takeStep (fun _ => True) putStep :=
  .ofTag (fun _ => takeStep_putStep _) rfl fun h => by
    simp only [takeStep] at h
    split_ifs at h
    case pos => cases h; subst_vars; exact ⟨trivial, rfl⟩
    case pos =>
      split at h
      · cases h
      rename_i hn
      split at h
      · cases h
      obtain ⟨-, hl⟩ := codec32.only hn
      obtain ⟨-, hr⟩ := codec32.only ‹_›
      cases h; subst_vars; exact ⟨trivial, by simp [putStep]⟩

theorem codecMask : Codec takeMask (fun m => m.wellFormed = true) putMask :=
  .ofTag (fun h => takeMask_putMask _ h) rfl fun h => by
    simp only [takeMask] at h
    split_ifs at h
    · split at h
      · cases h
      · cases h; subst_vars; exact ⟨rfl, congrArg _ (codec16.only ‹_›).2⟩
    · split at h
      · cases h
      · obtain ⟨hn, hl⟩ := codecIndex.only ‹_›
        cases h; subst_vars; exact ⟨hn, rfl⟩

/-! ### The arm of an operation -/

section

variable {α β γ δ : Type} {pa : Take α} {pb : Take β} {pc : Take γ} {pd : Take δ} {i : Instr} {l r : List Byte}

theorem with1_eq {f : α → Instr} {a : α} (h : pa l = .ok (a, r)) : with1 f pa l = .ok (f a, r) := by
  simp [with1, h]

theorem with2_eq {f : α → β → Instr} {a : α} (h : pa l = .ok (a, r)) : with2 f pa pb l = with1 (f a) pb r := by
  simp [with2, h]

theorem with3_eq {f : α → β → γ → Instr} {a : α} (h : pa l = .ok (a, r)) :
    with3 f pa pb pc l = with2 (f a) pb pc r := by
  simp [with3, h]

theorem with4_eq {f : α → β → γ → δ → Instr} {a : α} (h : pa l = .ok (a, r)) :
    with4 f pa pb pc pd l = with3 (f a) pb pc pd r := by
  simp [with4, h]

theorem with1_ok {f : α → Instr} (h : with1 f pa l = .ok (i, r)) : ∃ a, pa l = .ok (a, r) ∧ i = f a := by
  simp only [with1] at h
  split at h
  · cases h
  · cases h; exact ⟨_, ‹_›, rfl⟩

theorem with2_ok {f : α → β → Instr} (h : with2 f pa pb l = .ok (i, r)) :
    ∃ a m, pa l = .ok (a, m) ∧ with1 (f a) pb m = .ok (i, r) := by
  simp only [with2] at h
  split at h
  · cases h
  · exact ⟨_, _, ‹_›, h⟩

theorem with3_ok {f : α → β → γ → Instr} (h : with3 f pa pb pc l = .ok (i, r)) :
    ∃ a m, pa l = .ok (a, m) ∧ with2 (f a) pb pc m = .ok (i, r) := by
  simp only [with3] at h
  split at h
  · cases h
  · exact ⟨_, _, ‹_›, h⟩

theorem with4_ok {f : α → β → γ → δ → Instr} (h : with4 f pa pb pc pd l = .ok (i, r)) :
    ∃ a m, pa l = .ok (a, m) ∧ with3 (f a) pb pc pd m = .ok (i, r) := by
  simp only [with4] at h
  split at h
  · cases h
  · exact ⟨_, _, ‹_›, h⟩

/-- The decoder's arm `p` of word `w` takes back the operand bytes of operation `i`, and takes no bytes but those of a
well-formed operation of that word. -/
structure Arm (w : Byte) (p : Take Instr) (i : Instr) : Prop where
  reads : i.wellFormed = true → ∀ r, p (i.operandBytes ++ r) = .ok (i, r)
  only : ∀ {l : List Byte} {j : Instr} {r : List Byte},
    p l = .ok (j, r) → j.word = w ∧ j.wellFormed = true ∧ l = j.operandBytes ++ r

/-- An operation of word `w` is well formed when `ok` holds of its operands, and its operand bytes are `l`. -/
structure Instr.Spelled (i : Instr) (w : Byte) (ok : Prop) (l : List Byte) : Prop where
  word : i.word = w
  wf : i.wellFormed = true ↔ ok
  bytes : i.operandBytes = l

variable {okA : α → Prop} {okB : β → Prop} {okC : γ → Prop} {okD : δ → Prop} {putA : α → List Byte}
  {putB : β → List Byte} {putC : γ → List Byte} {putD : δ → List Byte} {w : Byte}

theorem Arm.with1 {f : α → Instr} (ca : Codec pa okA putA) (hf : ∀ a, (f a).Spelled w (okA a) (putA a)) {a : α} :
    Arm w (with1 f pa) (f a) where
  reads h r := by rw [(hf a).bytes, with1_eq (ca.reads ((hf a).wf.mp h) r)]
  only h := by
    obtain ⟨x, hx, rfl⟩ := with1_ok h
    obtain ⟨ox, rfl⟩ := ca.only hx
    exact ⟨(hf x).word, (hf x).wf.mpr ox, by rw [(hf x).bytes]⟩

theorem Arm.with2 {f : α → β → Instr} (ca : Codec pa okA putA) (cb : Codec pb okB putB)
    (hf : ∀ a b, (f a b).Spelled w (okA a ∧ okB b) (putA a ++ putB b)) {a : α} {b : β} :
    Arm w (with2 f pa pb) (f a b) where
  reads h r := by
    obtain ⟨oa, ob⟩ := (hf a b).wf.mp h
    rw [(hf a b).bytes, List.append_assoc, with2_eq (ca.reads oa _), with1_eq (cb.reads ob r)]
  only h := by
    obtain ⟨x, m, hx, h⟩ := with2_ok h
    obtain ⟨y, hy, rfl⟩ := with1_ok h
    obtain ⟨ox, rfl⟩ := ca.only hx
    obtain ⟨oy, rfl⟩ := cb.only hy
    exact ⟨(hf x y).word, (hf x y).wf.mpr ⟨ox, oy⟩, by simp [(hf x y).bytes]⟩

theorem Arm.with3 {f : α → β → γ → Instr} (ca : Codec pa okA putA) (cb : Codec pb okB putB) (cc : Codec pc okC putC)
    (hf : ∀ a b c, (f a b c).Spelled w (okA a ∧ okB b ∧ okC c) (putA a ++ (putB b ++ putC c)))
    {a : α} {b : β} {c : γ} : Arm w (with3 f pa pb pc) (f a b c) where
  reads h r := by
    obtain ⟨oa, ob, oc⟩ := (hf a b c).wf.mp h
    simp only [(hf a b c).bytes, List.append_assoc]
    rw [with3_eq (ca.reads oa _), with2_eq (cb.reads ob _), with1_eq (cc.reads oc r)]
  only h := by
    obtain ⟨x, m, hx, h⟩ := with3_ok h
    obtain ⟨y, n, hy, h⟩ := with2_ok h
    obtain ⟨z, hz, rfl⟩ := with1_ok h
    obtain ⟨ox, rfl⟩ := ca.only hx
    obtain ⟨oy, rfl⟩ := cb.only hy
    obtain ⟨oz, rfl⟩ := cc.only hz
    exact ⟨(hf x y z).word, (hf x y z).wf.mpr ⟨ox, oy, oz⟩, by simp [(hf x y z).bytes]⟩

theorem Arm.with4 {f : α → β → γ → δ → Instr} (ca : Codec pa okA putA) (cb : Codec pb okB putB)
    (cc : Codec pc okC putC) (cd : Codec pd okD putD)
    (hf : ∀ a b c d, (f a b c d).Spelled w (okA a ∧ okB b ∧ okC c ∧ okD d) (putA a ++ (putB b ++ (putC c ++ putD d))))
    {a : α} {b : β} {c : γ} {d : δ} : Arm w (with4 f pa pb pc pd) (f a b c d) where
  reads h r := by
    obtain ⟨oa, ob, oc, od⟩ := (hf a b c d).wf.mp h
    simp only [(hf a b c d).bytes, List.append_assoc]
    rw [with4_eq (ca.reads oa _), with3_eq (cb.reads ob _), with2_eq (cc.reads oc _), with1_eq (cd.reads od r)]
  only h := by
    obtain ⟨x, m, hx, h⟩ := with4_ok h
    obtain ⟨y, n, hy, h⟩ := with3_ok h
    obtain ⟨z, o, hz, h⟩ := with2_ok h
    obtain ⟨u, hu, rfl⟩ := with1_ok h
    obtain ⟨ox, rfl⟩ := ca.only hx
    obtain ⟨oy, rfl⟩ := cb.only hy
    obtain ⟨oz, rfl⟩ := cc.only hz
    obtain ⟨ou, rfl⟩ := cd.only hu
    exact ⟨(hf x y z u).word, (hf x y z u).wf.mpr ⟨ox, oy, oz, ou⟩, by simp [(hf x y z u).bytes]⟩

end

/-- The arm that the decoder takes for an operation's word is the operation's. -/
theorem decodeOperands_arm (i : Instr) : Arm i.word (decodeOperands i.word) i := by
  cases i with
  | read16 b a | read32 b a | mmioRead16 b a | nativeRead32 b a | i2cRead16 b a | slaveRead16 b a | bridgeRead16 b a =>
    refine .with2 codecBus codec32 fun _ _ => ?_
    exact ⟨rfl, by simp [Instr.wellFormed], rfl⟩
  | write16 b a v | mmioWrite16 b a v | i2cWrite16 b a v | slaveWrite16 b a v | bridgeWrite16 b a v =>
    refine .with3 codecBus codec32 codec16 fun _ _ _ => ?_
    exact ⟨rfl, by simp [Instr.wellFormed], rfl⟩
  | write32 b a v | nativeWrite32 b a v =>
    refine .with3 codecBus codec32 codec32 fun _ _ _ => ?_
    exact ⟨rfl, by simp [Instr.wellFormed], rfl⟩
  | reset b =>
    refine .with1 codecBus fun _ => ?_
    exact ⟨rfl, .rfl, rfl⟩
  | lookup t =>
    refine .with1 codecKey fun _ => ?_
    exact ⟨rfl, .rfl, rfl⟩
  | release d | readTime d | initRegisters d | ncoTick d | adpDetect d | checkLink d | initAdapter d | tsOpen d
  | eventCheck d | tsPulse d | tsIrq d | workerRun d | pollFire d | hostSignal d =>
    refine .with1 codecIndex fun _ => ?_
    exact ⟨rfl, .rfl, rfl⟩
  | adjustFrequency d p =>
    refine .with2 codecIndex codec32 fun _ _ => ?_
    exact ⟨rfl, by simp [Instr.wellFormed], rfl⟩
  | cmdPoll d c | ncoCmdComplete d c =>
    refine .with2 codecIndex codecCmd fun _ _ => ?_
    exact ⟨rfl, by simp [Instr.wellFormed], rfl⟩
  | enableMode d m | disableMode d m =>
    refine .with2 codecIndex codecDMode fun _ _ => ?_
    exact ⟨rfl, by simp [Instr.wellFormed], rfl⟩
  | adpProbe p x =>
    refine .with2 codecIndex codecResource fun _ _ => ?_
    exact ⟨rfl, by simp [Instr.wellFormed], rfl⟩
  | tsClose d h =>
    refine .with2 codecIndex codecIndex fun _ _ => ?_
    exact ⟨rfl, by simp [Instr.wellFormed], rfl⟩
  | bestAdapterLinkMode a s =>
    refine .with2 codecMask codecMask fun _ _ => ?_
    exact ⟨rfl, by simp [Instr.wellFormed], rfl⟩
  | adpSetup p m f =>
    refine .with3 codecIndex codecLinkMode codecBool fun _ _ _ => ?_
    exact ⟨rfl, by simp [Instr.wellFormed], rfl⟩
  | tsProbe d x l =>
    refine .with3 codecIndex codecResource codecBool fun _ _ _ => ?_
    exact ⟨rfl, by simp [Instr.wellFormed], rfl⟩
  | adjustTime d m s n | changeSettings d m s n =>
    refine .with4 codecIndex codec32 codec64 codec32 fun _ _ _ _ => ?_
    exact ⟨rfl, by simp [Instr.wellFormed], rfl⟩
  | ncoProbe d x p q =>
    refine .with4 codecIndex codecResource codecStep codecStep fun _ _ _ _ => ?_
    exact ⟨rfl, by simp [Instr.wellFormed], rfl⟩
  | tsRead d h n b =>
    refine .with4 codecIndex codecIndex codec32 codecBool fun _ _ _ _ => ?_
    exact ⟨rfl, by simp [Instr.wellFormed], rfl⟩
  | hostTick => exact ⟨fun _ _ => rfl, fun h => by cases h; exact ⟨rfl, rfl, rfl⟩⟩

/-! ### Words without an operation (rule R170) -/

/-- Operand bytes that every arm of the decoder takes: as many zeros as the longest operation has operand bytes
(`operandBytes_length`), for zero is a value of every tag. -/
def zeroOperands : List Byte := List.replicate 27 0

/-- An arm that takes an operation of word `n` from the zeros is never that of a word without an operation. -/
theorem arm_refuses_of_unassigned {n : Nat} {p : Take Instr} {l : List Byte} {e : DecodeError}
    (h : ∀ i : Instr, i.word.toNat ≠ n) (hp : (p zeroOperands).map (fun x => x.1.word.toNat) = .ok n) :
    p l = .error e := by
  cases hz : p zeroOperands with
  | error e => rw [hz] at hp; cases hp
  | ok x => rw [hz] at hp; exact absurd (Except.ok.inj hp) (h x.1)

theorem decodeOperands_unassigned {w : Byte} (h : ∀ i : Instr, i.word ≠ w) (l : List Byte) :
    decodeOperands w l = .error (.illegalOp w) := by
  have hn : ∀ i : Instr, i.word.toNat ≠ w.toNat := fun i e => h i (BitVec.eq_of_toNat_eq e)
  unfold decodeOperands
  generalize w.toNat = n at hn
  split
  case h_45 => exact absurd rfl (hn .hostTick)
  case h_46 => rfl
  all_goals exact arm_refuses_of_unassigned hn rfl

/-! ### Operations as bytes (rule R141) -/

theorem decode_encode {i : Instr} (h : i.wellFormed = true) (r : List Byte) : decode (encode i ++ r) = .ok (i, r) :=
  (decodeOperands_arm i).reads h r

theorem decode_ok {l r : List Byte} {i : Instr} (h : decode l = .ok (i, r)) : i.wellFormed = true ∧ l = encode i ++ r := by
  cases l with
  | nil => cases h
  | cons w l =>
    by_cases hw : ∃ j : Instr, j.word = w
    · obtain ⟨j, rfl⟩ := hw
      obtain ⟨hword, hwf, hl⟩ := (decodeOperands_arm j).only h
      exact ⟨hwf, by rw [encode, hword, hl]; rfl⟩
    · have herr := decodeOperands_unassigned (fun j e => hw ⟨j, e⟩) l
      rw [decode, herr] at h
      cases h

/-- Settles O1: the arm of the operation's word takes its operand bytes back. -/
theorem decodeEncode : Obligations.DecodeEncode := by
  unfold Obligations.DecodeEncode
  exact fun _ r h => decode_encode h r

/-- Settles O2: a word that decodes is the word of an operation, and its arm takes no other bytes. -/
theorem decodedBytesAreEncoding : Obligations.DecodedBytesAreEncoding := by
  unfold Obligations.DecodedBytesAreEncoding
  exact fun _ _ _ h => decode_ok h

/-- Settles O3: the bytes are the encodings of the operations. -/
theorem operationWordsDecode : Obligations.OperationWordsDecode := by
  unfold Obligations.OperationWordsDecode
  exact ⟨decode_encode (i := .read16 (.inst 2) 0x1234) rfl [],
    decode_encode (i := .slaveWrite16 (.handle 0) 0x00020010 0x00AB) rfl [],
    decode_encode (i := .adjustTime 0 0xFFFFFFFF 5 7) rfl [],
    decode_encode (i := .ncoCmdComplete 0 .adjClock) rfl [],
    decode_encode (i := .adpSetup 0 .full1000 true) rfl [],
    decode_encode (i := .tsRead 0 1 32 true) rfl [],
    decode_encode (i := .hostTick) rfl []⟩

end Sys2Proof
end

section
/-!
How a step takes the next operation from the running agent's program (spec/30_encoding.md rule R173, log entries 2
and 3): what its bytes decode to runs, and an unassigned word is refused (rules R170 and R611).
-/

namespace Sys2Proof.Machine

open Sys2Proof

section

variable {s : State} {l r : List Byte}

theorem State.fetch_ok {i : Instr} (h : decode l = .ok (i, r)) : s.fetch l = exec i (s.setProg r) := by
  simp [State.fetch, h]

theorem State.fetch_error {e : DecodeError} (h : decode l = .error e) : s.fetch l = .refused (refusalOf e) := by
  simp [State.fetch, h]

theorem step_fetches {b : Byte} (hs : s.sched = []) (ho : s.me.op = none) (h : s.me.stopped = none)
    (hp : s.me.prog = b :: l) : step s = s.fetch (b :: l) :=
  (step_unscheduled hs).trans (State.go_fetches h ho hp)

/-- A step of an agent in no operation runs what its program's bytes decode to. -/
theorem step_decoded {i : Instr} (hs : s.sched = []) (ho : s.me.op = none) (h : s.me.stopped = none)
    (hd : decode s.me.prog = .ok (i, r)) : step s = exec i (s.setProg r) := by
  cases hp : s.me.prog with
  | nil => rw [hp] at hd; cases hd
  | cons b l => rw [step_fetches hs ho h hp, State.fetch_ok (hp ▸ hd)]

end

/-- Settles O4: no arm of the decoder is the word's, and the refusal is the decoder's error. -/
theorem unassignedWordRefused : Obligations.UnassignedWordRefused := by
  unfold Obligations.UnassignedWordRefused
  intro w l s hw hs ho h hp
  have hd : decode (w :: l) = .error (.illegalOp w) := decodeOperands_unassigned hw l
  rw [step_fetches hs ho h hp, State.fetch_error hd, refusalOf]

/-- Settles O5: the second clause is the first one at the state with the word placed. -/
theorem stepRunsDecoded : Obligations.StepRunsDecoded := by
  unfold Obligations.StepRunsDecoded
  refine ⟨fun s i r hs ho h hd => ?program, fun s nbits w i r hd => ?placed⟩
  case program => exact step_decoded hs ho h hd
  case placed => exact step_decoded (s := s.withFetchWord nbits w) rfl rfl rfl hd

end Sys2Proof.Machine
end

section
/-!
The reference counts of the RegisterBuses and the handles that software holds (spec/40_register_bus.md rules R218 and
R219): `lookup` and `release` move both by one, and nothing else touches either.
-/

namespace Sys2Proof.Machine

open Sys2Proof

/-! ### Counting a list in which one entry changes -/

/-- An entry that no longer counts is counted no more. -/
theorem countP_modify_leaves {α : Type} {p : α → Bool} {f : α → α} {l : List α} {n : Nat} {x : α}
    (hx : l[n]? = some x) (hp : p x = true) (hf : p (f x) = false) :
    (l.modify n f).countP p = l.countP p - 1 := by
  induction l generalizing n with
  | nil => cases hx
  | cons y l ih =>
    cases n with
    | zero =>
      obtain rfl : y = x := Option.some.inj hx
      simp [hp, hf]
    | succ n =>
      have counted : 0 < l.countP p := List.countP_pos_iff.mpr ⟨x, List.mem_of_getElem? hx, hp⟩
      have rest : (l.modify n f).countP p = l.countP p - 1 := ih hx
      rw [List.modify_succ_cons, List.countP_cons, List.countP_cons, rest]
      omega

/-- An entry that counts neither before nor after does not change the count. -/
theorem countP_modify_same {α : Type} {p : α → Bool} {f : α → α} {l : List α} {n : Nat} {x : α}
    (hx : l[n]? = some x) (hp : p (f x) = p x) : (l.modify n f).countP p = l.countP p := by
  have agree : l.modify n f = l.modify n fun y => if p (f y) = p y then f y else y :=
    modify_agree l n _ _ x hx (if_pos hp).symm
  have counts : ∀ m : List α, m.countP p = (m.map p).countP id := fun m => by simp [List.countP_map]
  rw [agree, counts, map_modify_same, ← counts]
  intro y
  split
  · assumption
  · rfl

/-! ### Handles held -/

section

variable {s t : State}

theorem State.held_eq (s : State) (i : Nat) :
    s.held i = s.handles.countP fun h => !h.released && decide (h.inst = i) :=
  List.countP_eq_length_filter.symm

/-- An update of a RegisterBus that leaves its count keeps the balance. -/
theorem State.balanced_modRb (i : Nat) {f : Rb → Rb} (hf : ∀ rb, (f rb).refs = rb.refs) (h : s.balanced) :
    (s.modRb i f).balanced := by
  obtain ⟨bound, named, counted⟩ := h
  have size : (s.modRb i f).rbs.length = s.rbs.length := List.length_modify ..
  refine ⟨fun e he => size ▸ bound e he, fun x hx => size ▸ named x hx,
    fun j rb hj => ?_⟩
  rw [State.modRb_rbs, List.getElem?_modify] at hj
  obtain ⟨rb', hj', rfl⟩ := Option.map_eq_some_iff.mp hj
  split
  · exact (hf rb').trans (counted j rb' hj')
  · exact counted j rb' hj'

/-- A key is bound to a RegisterBus that exists. -/
theorem State.balanced.bound_lt {k i : Nat} (h : s.balanced) (hb : s.bound k = some i) : i < s.rbs.length := by
  unfold State.bound at hb
  split at hb
  · rename_i e he
    exact Option.some.inj hb ▸ h.1 e (List.mem_of_find?_eq_some he)
  · cases hb

/-- `lookup` counts the handle that it returns (rule R218). -/
theorem State.balanced_lookup {k i : Nat} (h : s.balanced) (hb : s.bound k = some i) :
    State.balanced { (s.modRb i fun rb => { rb with refs := rb.refs + 1 }) with
      handles := s.handles ++ [⟨i, false⟩] } := by
  have exists_i := h.bound_lt hb
  obtain ⟨bound, named, counted⟩ := h
  have size : (s.modRb i fun rb => { rb with refs := rb.refs + 1 }).rbs.length = s.rbs.length := List.length_modify ..
  refine ⟨fun e he => size ▸ bound e he, fun x hx => size ▸ forall_mem_snoc named exists_i x hx,
    fun j rb hj => ?_⟩
  rw [State.modRb_rbs, List.getElem?_modify] at hj
  obtain ⟨rb', hj', rfl⟩ := Option.map_eq_some_iff.mp hj
  have old := counted j rb' hj'
  rw [State.held_eq] at old ⊢
  rw [List.countP_append, ← old]
  by_cases hij : i = j <;> simp [hij]

/-- `release` takes the count of the handle that it marks (rule R219). -/
theorem State.balanced_release {k : Nat} {x : Handle} {rb : Rb} (h : s.balanced) (hx : s.handles[k]? = some x)
    (held : ¬(x.released = true ∨ rb.refs = 0)) :
    State.balanced { (s.modRb x.inst fun r => { r with refs := r.refs - 1 }) with
      handles := s.handles.modify k fun y => { y with released := true } } := by
  obtain ⟨bound, named, counted⟩ := h
  have size : (s.modRb x.inst fun r => { r with refs := r.refs - 1 }).rbs.length = s.rbs.length := List.length_modify ..
  refine ⟨fun e he => size ▸ bound e he,
    fun y hy => size ▸ forall_mem_modify (f := fun y => { y with released := true }) named (fun _ _ hz => hz) y hy,
    fun j rb hj => ?_⟩
  rw [State.modRb_rbs, List.getElem?_modify] at hj
  obtain ⟨rb', hj', rfl⟩ := Option.map_eq_some_iff.mp hj
  have old := counted j rb' hj'
  rw [State.held_eq] at old ⊢
  by_cases hij : x.inst = j
  · rw [countP_modify_leaves hx (by simpa [hij] using held.imp .inl) (by simp), ← old]
    simp [hij]
  · rw [countP_modify_same hx (by simp [hij]), ← old]
    simp [hij]

/-- A new RegisterBus is held by no handle (rule R42). -/
theorem State.balanced_attach (h : s.balanced) (k : Nat) (name : String) (id : Nat) (b : Backend)
    (native32 hasReset keeps : Bool) (cfg : RbCfg) : (s.attach k name id b native32 hasReset keeps cfg).balanced := by
  obtain ⟨bound, named, counted⟩ := h
  have size : (s.attach k name id b native32 hasReset keeps cfg).rbs.length = s.rbs.length + 1 := by simp [State.attach]
  have grown {n : Nat} (hn : n < s.rbs.length) : n < (s.attach k name id b native32 hasReset keeps cfg).rbs.length :=
    size ▸ Nat.lt_succ_of_lt hn
  refine ⟨List.forall_mem_cons.mpr ⟨size ▸ Nat.lt_succ_self _, fun e he => grown (bound e he)⟩,
    fun x hx => grown (named x hx), fun i rb hi => ?_⟩
  show rb.refs = s.held i
  rcases Nat.lt_or_ge i s.rbs.length with hlt | hge
  · exact counted i rb ((List.getElem?_append_left hlt).symm.trans hi)
  · have unheld : s.held i = 0 := by
      rw [State.held_eq, List.countP_eq_zero]
      intro x hx
      have := named x hx
      simp only [Bool.and_eq_true, decide_eq_true_eq]
      omega
    obtain rfl : rb = Rb.create id name b native32 hasReset cfg := by
      have := (List.getElem?_append_right hge).symm.trans hi
      exact List.mem_singleton.mp (List.mem_of_getElem? this)
    rw [unheld]
    rfl

/-- Of the changes only `lookup`, `release` and `attach` touch the counts, the handles or the bindings. -/
theorem Change.keeps_balanced (hc : Change s t) (h : s.balanced) : t.balanced := by
  cases hc with
  | cache i c => exact State.balanced_modRb i (fun _ => rfl) h
  | busy i b => exact State.balanced_modRb i (fun _ => rfl) h
  | lookup k i hb => exact State.balanced_lookup h hb
  | release k x rb hx _ held => exact State.balanced_release h hx held
  | attach k name id b native32 hasReset keeps cfg =>
    exact State.balanced_attach h k name id b native32 hasReset keeps cfg
  | probeNco d res spin step =>
    unfold State.probeNco
    rw [afterDraws_eq]
    split <;> exact h
  | probePort p res =>
    unfold State.probePort
    rw [afterDraws_eq]
    split <;> exact h
  | probeTs d res irqLine deferred =>
    unfold State.probeTs
    rw [afterDraws_eq]
    split <;> exact h
  | _ => exact h

end

theorem balanced_invariant : Invariant State.balanced where
  change hc h := hc.keeps_balanced h
  halt _ h := h
  unbalanced _ _ h := h
  switch _ h := h

/-- Settles O8: balance is an invariant of every change that a step can make. -/
theorem stepKeepsBalanced : Obligations.StepKeepsBalanced := by
  unfold Obligations.StepKeepsBalanced
  intro s t hs h
  exact balanced_invariant.step hs h

end Sys2Proof.Machine
end

section
/-!
A bus access as part of an operation: what it answers does not depend on the operation that the agent is in, so an
operation that makes one ends in what the access leaves (spec/40_register_bus.md rules R200 to R204).
-/

namespace Sys2Proof.Machine

open Sys2Proof

section

variable {s t : State} {b : BusRef} {i : Nat} {rb : Rb} {a : U32} {v : U16} {op : Instr} {r : Except Err Res}
  {x : Op (Except Err Nat)} {e : Err} {f : Fault}

/-! ### The operation that the agent is in -/

/-- The running agent is in operation `op`, which has had no answers. -/
def State.doing (s : State) (op : Instr) : State :=
  s.setMe fun a => { a with op := some op, hist := [], blocked := none }

theorem State.start_eq_doing (h : s.Idle) (op : Instr) : s.start op = s.doing op := by
  simp only [State.start, State.doing, State.setMe, ← h.2]

theorem farRead16_doing (s : State) (op : Instr) (i : Nat) (a : U32) :
    (s.doing op).farRead16 i a = ((s.farRead16 i a).1, (s.farRead16 i a).2.doing op) := farRead16_setMe s _ i a

theorem farWrite16_doing (s : State) (op : Instr) (i : Nat) (a : U32) (v : U16) :
    (s.doing op).farWrite16 i a v = (s.farWrite16 i a v).doing op := farWrite16_setMe s _ i a v

theorem readWord_doing (s : State) (op : Instr) (t : Target) :
    (s.doing op).readWord t = ((s.readWord t).1, (s.readWord t).2.doing op) := by
  cases t with
  | nco d r h =>
    show State.readWord (s.setMe _) _ = _
    simp only [State.readWord, State.setMe_ncos, State.setMe_board]
    cases s.ncos[d]? with
    | none => rfl
    | some n => simp only; split <;> rfl
  | ts d r h =>
    show State.readWord (s.setMe _) _ = _
    simp only [State.readWord, State.setMe_tss, State.setMe_board]
    cases s.tss[d]? with
    | none => rfl
    | some n => simp only; split <;> rfl
  | adp p r =>
    simp only [State.readWord, show (s.doing op).portAt p = s.portAt p from rfl]
    cases s.portAt p <;> rfl

theorem farRead32_doing (s : State) (op : Instr) (i : Nat) (a : U32) :
    (s.doing op).farRead32 i a = ((s.farRead32 i a).1, (s.farRead32 i a).2.doing op) := by
  simp only [State.farRead32, show (s.doing op).readTarget i a = s.readTarget i a from
    readTarget_congr (SameMap.setMe s _) i a, readWord_doing, farRead16_doing]
  split <;> rfl

theorem farWrite32_doing (s : State) (op : Instr) (i : Nat) (a w : U32) :
    (s.doing op).farWrite32 i a w = (s.farWrite32 i a w).doing op := by
  simp only [State.farWrite32, show (s.doing op).writeTarget i a = s.writeTarget i a from
    writeTarget_congr (SameMap.setMe s _) i a, farWrite16_doing]
  split
  · exact storeWord_setMe s _ _ _
  · exact storeWord_setMe s _ _ _
  · rfl

theorem State.doing_atomic (ho : s.me.op = none) (hop : atomicOp (some op) = false) :
    (s.doing op).atomic = s.atomic := by
  simp only [State.atomic, State.doing, State.setMe_me, State.setMe_ncos, ho, hop]
  rfl

/-! ### Operations on a RegisterBus -/

/-- An operation ends in what its steps on the RegisterBus leave. -/
theorem State.perform_onBus_ends {x : Nat → Op (Except Err Res)} (h : s.Idle) (hn : s.Names b i rb)
    (hx : (x i).Yields (s.doing op) r t) : s.perform op (onBus b x) = .next (t.finish r) := by
  have named : (s.start op).Names b i rb := hn
  rw [← State.start_eq_doing h] at hx
  exact State.perform_next h (.bind (resolveBus_yields named) hx) rfl

/-- The same where they leave what they would leave outside of an operation. -/
theorem State.perform_onBus_yields {x : Nat → Op (Except Err Res)} (h : s.Idle) (hn : s.Names b i rb)
    (hx : (x i).Yields (s.doing op) r (t.doing op)) : s.perform op (onBus b x) = .next (t.finish r) :=
  State.perform_onBus_ends (t := t.doing op) h hn hx

/-- The same for a backend operation issued by itself, which checks the context first. -/
theorem State.perform_backendOp_yields {x : Nat → Op (Except Err Res)} (h : s.Idle) (hn : s.Names b i rb)
    (hop : atomicOp (some op) = false) (hu : (rb.sleeps && s.atomic) = false)
    (hx : (x i).Yields (s.doing op) r (t.doing op)) : s.perform op (backendOp b x) = .next (t.finish r) := by
  refine State.perform_onBus_yields h hn (.bind (contextCheck_yields hn.1 ?_) hx)
  rwa [State.doing_atomic h.1 hop]

theorem asVal16_yields (h : x.Yields s (.ok v.toNat) t) : (asVal16 x).Yields s (.ok (.val16 v)) t := by
  refine h.q ?_
  rw [BitVec.ofNat_toNat, BitVec.setWidth_eq]
  exact .ok _

theorem asVal32_yields {w : U32} (h : x.Yields s (.ok w.toNat) t) : (asVal32 x).Yields s (.ok (.val32 w)) t := by
  refine h.q ?_
  rw [BitVec.ofNat_toNat, BitVec.setWidth_eq]
  exact .ok _

theorem asUnit_yields {n : Nat} (h : x.Yields s (.ok n) t) : (asUnit x).Yields s (.ok .unit) t := h.q (.ok _)

theorem asVal16_error (h : x.Yields s (.error e) t) : (asVal16 x).Yields s (.error e) t := h.qError

theorem asVal32_error (h : x.Yields s (.error e) t) : (asVal32 x).Yields s (.error e) t := h.qError

theorem asUnit_error (h : x.Yields s (.error e) t) : (asUnit x).Yields s (.error e) t := h.qError

theorem asVal32_faults (h : x.Faults s f t) : (asVal32 x).Faults s f t := h.bind

/-! ### The backend of a RegisterBus -/

/-- From `s` the operation `o` goes on as `o'` does. -/
def Op.LeadsTo {α : Type} (o o' : Op α) (s : State) : Prop :=
  ∀ (k : α → Op (Except Err Res)) (seen : List Nat),
    ∃ seen', (o.bind k).run none [] seen s = (o'.bind k).run none [] seen' s

theorem Op.LeadsTo.refl {α : Type} (o : Op α) : o.LeadsTo o s := fun _ seen => ⟨seen, rfl⟩

theorem Op.LeadsTo.trans {α : Type} {o o' o'' : Op α} (h : o.LeadsTo o' s) (h' : o'.LeadsTo o'' s) :
    o.LeadsTo o'' s := by
  intro k seen
  obtain ⟨seen', e⟩ := h k seen
  obtain ⟨seen'', e'⟩ := h' k seen'
  exact ⟨seen'', e.trans e'⟩

theorem Op.LeadsTo.yields {α : Type} {o o' : Op α} {a : α} (h : o.LeadsTo o' s) (hy : o'.Yields s a t) :
    o.Yields s a t := by
  intro k seen
  obtain ⟨seen', e⟩ := h k seen
  obtain ⟨seen'', e'⟩ := hy k seen'
  exact ⟨seen'', e.trans e'⟩

theorem Op.LeadsTo.faults {α : Type} {o o' : Op α} (h : o.LeadsTo o' s) (hf : o'.Faults s f t) :
    o.Faults s f t := by
  intro k seen
  obtain ⟨seen', e⟩ := h k seen
  exact e.trans (hf k seen')

/-- What only reads the state leads to what comes after it. -/
theorem Op.Yields.leadsTo {α β : Type} {o : Op α} {g : α → Op β} {a : α} (h : o.Yields s a s) :
    (o.bind g).LeadsTo (g a) s := by
  intro k seen
  rw [Op.bind_assoc]
  exact h (fun a => (g a).bind k) seen

/-- The 16-bit read that a backend makes (rules R205, R209, R212, R215). -/
def backendRead16 (i : Nat) (a : U32) : Backend → Op (Except Err Nat)
  | .mmio => mmioRead16On i a
  | .i2c => i2cRead16On i a
  | .mdioSlave => slaveRead16On i a
  | .mdioBridge => bridgeRead16On i a

/-- The 16-bit write that a backend makes (rules R206, R210, R213, R216). -/
def backendWrite16 (i : Nat) (a : U32) (v : U16) : Backend → Op (Except Err Nat)
  | .mmio => mmioWrite16On i a v
  | .i2c => i2cWrite16On i a v
  | .mdioSlave => slaveWrite16On i a v
  | .mdioBridge => bridgeWrite16On i a v

/-- `read16` is its backend's read (rule R201). -/
theorem read16On_leads {k : Backend} (h : s.rbs[i]? = some rb) (hu : (rb.sleeps && s.atomic) = false)
    (hk : rb.backend = k) : (read16On i a).LeadsTo (backendRead16 i a k) s := by
  refine (contextCheck_yields h hu).leadsTo.trans ((backendOf_yields h).leadsTo.trans ?_)
  subst hk
  cases rb.backend <;> exact .refl _

/-- `write16` is its backend's write (rule R202). -/
theorem write16On_leads {k : Backend} (h : s.rbs[i]? = some rb) (hu : (rb.sleeps && s.atomic) = false)
    (hk : rb.backend = k) : (write16On i a v).LeadsTo (backendWrite16 i a v k) s := by
  refine (contextCheck_yields h hu).leadsTo.trans ((backendOf_yields h).leadsTo.trans ?_)
  subst hk
  cases rb.backend <;> exact .refl _

/-- `read32` of a RegisterBus with the native read is that (rule R203). -/
theorem read32On_native (h : s.rbs[i]? = some rb) (hu : (rb.sleeps && s.atomic) = false) (hn : rb.hasRead32 = true) :
    (read32On i a).LeadsTo (nativeRead32On i a) s := by
  refine (contextCheck_yields h hu).leadsTo.trans ((capability_yields h _).leadsTo.trans ?_)
  simp only [hn, if_true]
  exact .refl _

/-- `read32` of a RegisterBus without it is the two halves, the low one first (rule R203). -/
theorem read32On_halves (h : s.rbs[i]? = some rb) (hu : (rb.sleeps && s.atomic) = false) (hn : rb.hasRead32 = false) :
    (read32On i a).LeadsTo ((read16On i a).q fun low => (read16On i (highAddr a)).q fun high =>
      .ok (joinHalves (BitVec.ofNat 16 high) (BitVec.ofNat 16 low)).toNat) s := by
  refine (contextCheck_yields h hu).leadsTo.trans ((capability_yields h _).leadsTo.trans ?_)
  simp only [hn, Bool.false_eq_true, if_false, Nat.zero_ne_one]
  exact .refl _

/-- `write32` of a RegisterBus with the native write is that (rule R204). -/
theorem write32On_native {w : U32} (h : s.rbs[i]? = some rb) (hu : (rb.sleeps && s.atomic) = false)
    (hn : rb.hasWrite32 = true) : (write32On i a w).LeadsTo (nativeWrite32On i a w) s := by
  refine (contextCheck_yields h hu).leadsTo.trans ((capability_yields h _).leadsTo.trans ?_)
  simp only [hn, if_true]
  exact .refl _

/-- `write32` of a RegisterBus without it is the two halves, the low one first (rule R204). -/
theorem write32On_halves {w : U32} (h : s.rbs[i]? = some rb) (hu : (rb.sleeps && s.atomic) = false)
    (hn : rb.hasWrite32 = false) :
    (write32On i a w).LeadsTo ((write16On i a (lowHalf w)).q fun _ => write16On i (highAddr a) (highHalf w)) s := by
  refine (contextCheck_yields h hu).leadsTo.trans ((capability_yields h _).leadsTo.trans ?_)
  simp only [hn, Bool.false_eq_true, if_false, Nat.zero_ne_one]
  exact .refl _

/-! ### What far-end accesses leave -/

theorem farRead16_turns (s : State) (i : Nat) (a : U32) : (s.farRead16 i a).2.turns = s.turns := by
  obtain ⟨n, h⟩ := farRead16_snd s i a
  simp [h, afterDraws_eq]

theorem farRead16_me (s : State) (i : Nat) (a : U32) : (s.farRead16 i a).2.me = s.me := by
  obtain ⟨n, h⟩ := farRead16_snd s i a
  simp [h, afterDraws_eq]

theorem farRead16_atomic (s : State) (i : Nat) (a : U32) : (s.farRead16 i a).2.atomic = s.atomic := by
  obtain ⟨n, h⟩ := farRead16_snd s i a
  simp [h, afterDraws_eq, State.atomic]

/-- A far-end write takes no lock and begins no operation. -/
theorem farWrite16_atomic (s : State) (i : Nat) (a : U32) (v : U16) : (s.farWrite16 i a v).atomic = s.atomic := by
  rcases writeTarget_cases s i (evenAddr a) with h | ⟨d, r, high, h⟩ | ⟨d, r, high, h⟩
  · rw [farWrite16_none v h]; rfl
  · rw [farWrite16_nco v h]; exact State.modNcoHw_atomic s d _
  · rw [farWrite16_ts v h]; rfl

theorem farWrite16_sameBytesBut (s : State) (i : Nat) (a : U32) (v : U16) :
    s.SameBytesBut (s.farWrite16 i a v) i (evenAddr a).toNat 2 := by
  obtain ⟨-, h, -⟩ := farWriteFrame s i a v
  exact h

end

end Sys2Proof.Machine
end

section
/-!
MMIO loads and stores (spec/40_register_bus.md rules R205 to R208), which return no error, and the bytes that they leave
alone (spec/20_memory.md rules R115 to R117).
-/

namespace Sys2Proof.Machine

open Sys2Proof

section

variable {s t u : State} {b : BusRef} {i : Nat} {rb : Rb} {a : U32} {v : U16} {w : U32} {op : Instr}

/-! ### Completion -/

theorem dropTurns_of_nil (h : s.turns = []) (n : Nat) : s.dropTurns n = s := by
  rw [State.dropTurns, h, List.drop_nil, ← h]

/-- A load or store completes with what it does. -/
theorem mmioXfer_completes {f : Rb → State → Ans} {n : Nat} (h : s.rbs[i]? = some rb) (ht : s.turns = [])
    (hf : f rb s = .go n t) : (mmioXfer i f).Yields s (.ok n) t :=
  mmioXfer_yields h (s.clear_of_nil ht 1) ((dropTurns_of_nil ht 1).symm ▸ hf)

theorem mmioRead16On_completes (h : s.rbs[i]? = some rb) (ht : s.turns = []) (ha : isOdd a = false) :
    (mmioRead16On i a).Yields s (.ok (s.farRead16 i a).1.toNat) ((s.farRead16 i a).2.log i
      (.ioLoad (rb.cfg.mmioBase + a.toNat) 2 ((s.farRead16 i a).1.setWidth 32)) true) := by
  rw [mmioRead16On, evenOnly_even ha]
  exact mmioXfer_completes h ht rfl

theorem mmioWrite16On_completes (h : s.rbs[i]? = some rb) (ht : s.turns = []) (ha : isOdd a = false) :
    (mmioWrite16On i a v).Yields s (.ok 0) ((s.farWrite16 i a v).log i
      (.ioStore (rb.cfg.mmioBase + a.toNat) 2 (v.setWidth 32)) true) := by
  rw [mmioWrite16On, evenOnly_even ha]
  exact mmioXfer_completes h ht rfl

theorem nativeRead32On_completes (h : s.rbs[i]? = some rb) (ht : s.turns = []) (ha : isAligned4 a = true) :
    (nativeRead32On i a).Yields s (.ok (s.farRead32 i a).1.toNat) ((s.farRead32 i a).2.log i
      (.ioLoad (rb.cfg.mmioBase + a.toNat) 4 (s.farRead32 i a).1) true) := by
  rw [nativeRead32On, alignedOnly_aligned ha]
  exact mmioXfer_completes h ht rfl

theorem nativeWrite32On_completes (h : s.rbs[i]? = some rb) (ht : s.turns = []) (ha : isAligned4 a = true) :
    (nativeWrite32On i a w).Yields s (.ok 0) ((s.farWrite32 i a w).log i
      (.ioStore (rb.cfg.mmioBase + a.toNat) 4 w) true) := by
  rw [nativeWrite32On, alignedOnly_aligned ha]
  exact mmioXfer_completes h ht rfl

/-- An even address is enough for a decomposed 32-bit read, whose halves are two 16-bit loads (rule R116). -/
theorem read32On_mmio_completes (h : s.rbs[i]? = some rb) (ht : s.turns = []) (hu : (rb.sleeps && s.atomic) = false)
    (hk : rb.backend = .mmio) (hn : rb.hasRead32 = false) (ha : isOdd a = false) :
    ∃ (v : U32) (t : State), t.me = s.me ∧ (read32On i a).Yields s (.ok v.toNat) t := by
  have loads {u : State} {c : U32} (hr : u.rbs[i]? = some rb) (hut : u.turns = [])
      (huc : (rb.sleeps && u.atomic) = false) (hc : isOdd c = false) :=
    (read16On_leads hr huc hk).yields (mmioRead16On_completes hr hut hc)
  have low := loads h ht hu ha
  have high := loads (c := highAddr a) (u := (s.farRead16 i a).2.log i
      (.ioLoad (rb.cfg.mmioBase + a.toNat) 2 ((s.farRead16 i a).1.setWidth 32)) true)
    (by rw [State.log_rbs, farRead16_rbs]; exact h) (by rw [State.log_turns, farRead16_turns]; exact ht)
    (by show (rb.sleeps && (s.farRead16 i a).2.atomic) = false; rw [farRead16_atomic]; exact hu)
    (by rw [highAddr, isOdd_add_two]; exact ha)
  refine ⟨_, _, ?_, (read32On_halves h hu hn).yields (low.q (high.q (.ok _)))⟩
  rw [State.log_me, farRead16_me, State.log_me, farRead16_me]

/-! ### Bytes left alone -/

theorem State.SameBytesBut.trans {k m n : Nat} (h : s.SameBytesBut t i k n) (h' : t.SameBytesBut u i (k + n) m) :
    s.SameBytesBut u i k (n + m) :=
  ⟨fun j x hx => (h'.1 j x (by omega)).trans (h.1 j x (by omega)), fun x => (h'.2 x).trans (h.2 x)⟩

theorem isAligned4_iff (a : U32) : isAligned4 a = true ↔ a &&& 3 = 0 := decide_eq_true_iff

/-- Both halves of a register at a multiple of 4 lie at even addresses, and nothing wraps around between them. -/
theorem evenAddr_aligned4 (h : a &&& 3 = 0) :
    evenAddr a = a ∧ (evenAddr (highAddr a)).toNat = a.toNat + 2 := by
  have low : a.toNat % 4 = 0 := by
    have := congrArg BitVec.toNat h
    rwa [BitVec.toNat_and, show (3 : U32).toNat = 2 ^ 2 - 1 from rfl, Nat.and_two_pow_sub_one_eq_mod] at this
  have even : isOdd a = false := by rw [isOdd_eq, decide_eq_false_iff_not]; omega
  refine ⟨evenAddr_eq_self even, ?_⟩
  have two : (2 : U32).toNat = 2 := rfl
  rw [highAddr, evenAddr_eq_self (by rw [isOdd_add_two]; exact even), BitVec.toNat_add, two]
  omega

theorem storeWord_sameBytesBut (s : State) (c : Target) (p : Part) (i k n : Nat) :
    s.SameBytesBut (s.storeWord c p) i k n := by
  cases c <;> exact sameBytesBut_of_fars_eq _ _ rfl rfl

/-- A native 32-bit write leaves every byte alone but the four of its word. -/
theorem farWrite32_sameBytesBut (ha : a &&& 3 = 0) (w : U32) : s.SameBytesBut (s.farWrite32 i a w) i a.toNat 4 := by
  obtain ⟨low, high⟩ := evenAddr_aligned4 ha
  unfold State.farWrite32
  split
  · exact storeWord_sameBytesBut s _ _ _ _ _
  · exact storeWord_sameBytesBut s _ _ _ _ _
  · have first := farWrite16_sameBytesBut s i a (lowHalf w)
    have second := farWrite16_sameBytesBut (s.farWrite16 i a (lowHalf w)) i (highAddr a) (highHalf w)
    rw [low] at first
    rw [high] at second
    exact first.trans second

end

/-- Settles O14: an access at a legal address completes, and one at any other is stopped by its alignment check. -/
theorem mmioAccess : Obligations.MmioAccess := by
  unfold Obligations.MmioAccess
  intro s b i rb a v w ⟨hi, ht⟩ hn hu hk
  have named (op : Instr) : (s.doing op).rbs[i]? = some rb := hn.1
  have done {op : Instr} {x : Nat → Op (Except Err Res)} {t : State} {r : Except Err Res}
      (hop : atomicOp (some op) = false) (hx : (x i).Yields (s.doing op) r (t.doing op)) :
      s.perform op (backendOp b x) = .next (t.finish r) := State.perform_backendOp_yields hi hn hop hu hx
  have stopped {op : Instr} {x : Nat → Op (Except Err Res)} (hop : atomicOp (some op) = false)
      (hx : ∀ u, (x i).Faults u .misaligned u) : s.perform op (backendOp b x) = .next (s.halt .misaligned) :=
    State.perform_backendOp_faults hi hn hop hu (hx _)
  refine ⟨?read16, ?write16, ?read32, ?write32, farRead16_snd s i a, farRead32_snd s i a,
    farWrite16_sameBytesBut s i a v, fun ha => farWrite32_sameBytesBut ha w, fun hr ha => ?halves⟩
  case read16 =>
    split
    · exact stopped rfl fun u => asVal16_faults (evenOnly_faults ‹_› _ u)
    · refine done rfl (asVal16_yields ?_)
      have := mmioRead16On_completes (named (.mmioRead16 b a)) ht (Bool.eq_false_iff.mpr ‹_›)
      rwa [farRead16_doing] at this
  case write16 =>
    split
    · exact stopped rfl fun u => asUnit_faults (evenOnly_faults ‹_› _ u)
    · refine done rfl (asUnit_yields (n := 0) ?_)
      have := mmioWrite16On_completes (v := v) (named (.mmioWrite16 b a v)) ht (Bool.eq_false_iff.mpr ‹_›)
      rwa [farWrite16_doing] at this
  case read32 =>
    split
    · exact stopped rfl fun u => asVal32_faults (alignedOnly_faults (decide_eq_false ‹_›) _ u)
    · refine done rfl (asVal32_yields ?_)
      have := nativeRead32On_completes (named (.nativeRead32 b a)) ht ((isAligned4_iff a).mpr (not_not.mp ‹_›))
      rwa [farRead32_doing] at this
  case write32 =>
    split
    · exact stopped rfl fun u => asUnit_faults (alignedOnly_faults (decide_eq_false ‹_›) _ u)
    · refine done rfl (asUnit_yields (n := 0) ?_)
      have := nativeWrite32On_completes (w := w) (named (.nativeWrite32 b a w)) ht
        ((isAligned4_iff a).mpr (not_not.mp ‹_›))
      rwa [farWrite32_doing] at this
  case halves =>
    have hu' : (rb.sleeps && (s.doing (.read32 b a)).atomic) = false := by rwa [State.doing_atomic hi.1 rfl]
    obtain ⟨v, t, hm, hy⟩ := read32On_mmio_completes (named (.read32 b a)) ht hu' hk hr ha
    exact ⟨t.finish (.ok (.val32 v)), v, State.perform_onBus_ends hi hn (asVal32_yields hy),
      by rw [State.finish_me, hm]; rfl, rfl⟩

end Sys2Proof.Machine
end

section
/-!
I2C accesses (spec/40_register_bus.md rules R209 and R210), one transfer each, which the turns let succeed or fail
(rules R202 and R220, log entry 8), and decomposed 32-bit accesses that end at the half that fails (rules R203, R204).
-/

namespace Sys2Proof.Machine

open Sys2Proof

section

variable {s t : State} {i : Nat} {rb : Rb} {a : U32} {v : U16} {w : U32} {l : Bool} {r : List Turn}

/-! ### A transaction that the turns let fail -/

/-- The state with these turns still to come. -/
def State.withTurns (s : State) (r : List Turn) : State := { s with turns := r }

theorem State.doing_withTurns (s : State) (op : Instr) (r : List Turn) :
    (s.doing op).withTurns r = (s.withTurns r).doing op := rfl

theorem takeTurns_fail (ht : s.turns = .fail l :: r) : takeTurns s.turns s = .go (.fail l) (s.withTurns r) := by
  rw [ht]; rfl

theorem Op.Yields.tryXfer_fails {f : Verdict → State → Ans} (ht : s.turns = .fail l :: r)
    (hf : f (.fail l) (s.withTurns r) = .go 0 t) : (Op.tryXfer f).Yields s (.error .io) t := by
  intro k seen
  refine ⟨seen ++ [0], ?_⟩
  simp only [Op.tryXfer, Op.bind, Op.run, spend, takeTurns_fail ht, hf]
  rfl

theorem clear_of_go (ht : s.turns = .go :: r) : s.Clear 1 := by
  simp [State.Clear, ht]

theorem dropTurns_of_cons {x : Turn} (ht : s.turns = x :: r) : s.dropTurns 1 = s.withTurns r := by
  rw [State.dropTurns, ht]; rfl

/-- Outside an event-check a failed write that lands is the write (rule R202). -/
theorem landWrite16_eq (h : checkOp s.me.op = false) (i : Nat) (a : U32) (v : U16) :
    s.landWrite16 i a v = s.farWrite16 i a v := by
  unfold State.landWrite16
  split <;> simp [h]

/-! ### Transfers -/

theorem i2cRead16On_completes (h : s.rbs[i]? = some rb) (hc : s.Clear 1) :
    (i2cRead16On i a).Yields s (.ok ((s.dropTurns 1).farRead16 i a).1.toNat)
      (((s.dropTurns 1).farRead16 i a).2.log i
        (.i2c rb.cfg.i2cSlave (i2cReadFrame a) (i2cDataFrame ((s.dropTurns 1).farRead16 i a).1)) true) :=
  .tryXfer hc (by rw [State.onRb_some (s := s.dropTurns 1) h])

theorem i2cWrite16On_completes (h : s.rbs[i]? = some rb) (hc : s.Clear 1) :
    (i2cWrite16On i a v).Yields s (.ok 0)
      (((s.dropTurns 1).farWrite16 i a v).log i (.i2c rb.cfg.i2cSlave (i2cWriteFrame a v) []) true) :=
  .tryXfer hc (by rw [State.onRb_some (s := s.dropTurns 1) h])

theorem i2cRead16On_fails (h : s.rbs[i]? = some rb) (ht : s.turns = .fail l :: r) :
    (i2cRead16On i a).Yields s (.error .io)
      ((s.withTurns r).log i (.i2c rb.cfg.i2cSlave (i2cReadFrame a) []) false) :=
  .tryXfer_fails ht (by rw [State.onRb_some (s := s.withTurns r) h])

theorem i2cWrite16On_fails (h : s.rbs[i]? = some rb) (ht : s.turns = .fail l :: r) (hk : checkOp s.me.op = false) :
    (i2cWrite16On i a v).Yields s (.error .io)
      ((if l then (s.withTurns r).farWrite16 i a v else s.withTurns r).log i
        (.i2c rb.cfg.i2cSlave (i2cWriteFrame a v) []) false) :=
  .tryXfer_fails ht (by
    rw [State.onRb_some (s := s.withTurns r) h]
    simp only [landWrite16_eq (s := s.withTurns r) hk])

/-! ### Bit 0 of an address (rules R100, R114) -/

theorem evenAddr_or_one (a : U32) : evenAddr (a ||| 1) = evenAddr a := by
  rw [evenAddr, BitVec.and_comm, BitVec.and_or_distrib_left, BitVec.and_comm 0xFFFFFFFE a]
  simp [evenAddr]

theorem farRead16_or_one (s : State) (i : Nat) (a : U32) : s.farRead16 i (a ||| 1) = s.farRead16 i a := by
  simp only [State.farRead16, evenAddr_or_one]

theorem farWrite16_or_one (s : State) (i : Nat) (a : U32) (v : U16) :
    s.farWrite16 i (a ||| 1) v = s.farWrite16 i a v := by
  simp only [State.farWrite16, evenAddr_or_one]

/-! ### A far-end write and the turns -/

theorem farWrite16_withTurns (s : State) (r : List Turn) (i : Nat) (a : U32) (v : U16) :
    (s.withTurns r).farWrite16 i a v = (s.farWrite16 i a v).withTurns r := by
  have same : (s.withTurns r).writeTarget i (evenAddr a) = s.writeTarget i (evenAddr a) := rfl
  simp only [State.farWrite16, same]
  split
  · rename_i c _; cases c <;> rfl
  · rfl

/-- A write that may have landed does not depend on the operation that makes it. -/
theorem landed_doing (s : State) (op : Instr) (l : Bool) (i : Nat) (a : U32) (v : U16) :
    (if l then (s.doing op).farWrite16 i a v else s.doing op) = (if l then s.farWrite16 i a v else s).doing op := by
  cases l
  · rfl
  · exact farWrite16_doing s op i a v

/-! ### Decomposed accesses over I2C (rules R203, R204) -/

section

variable (h : s.rbs[i]? = some rb) (hu : (rb.sleeps && s.atomic) = false) (hk : rb.backend = .i2c)
include h hu hk

/-- The low half that fails ends the read. -/
theorem read32On_i2c_fails (hn : rb.hasRead32 = false) (ht : s.turns = .fail l :: r) :
    (read32On i a).Yields s (.error .io)
      ((s.withTurns r).log i (.i2c rb.cfg.i2cSlave (i2cReadFrame a) []) false) :=
  (read32On_halves h hu hn).yields ((read16On_leads h hu hk).yields (i2cRead16On_fails h ht)).qError

/-- The low half that fails ends the write. -/
theorem write32On_i2c_fails_low (hn : rb.hasWrite32 = false) (ht : s.turns = .fail l :: r)
    (hc : checkOp s.me.op = false) : (write32On i a w).Yields s (.error .io)
      ((if l then (s.withTurns r).farWrite16 i a (lowHalf w) else s.withTurns r).log i
        (.i2c rb.cfg.i2cSlave (i2cWriteFrame a (lowHalf w)) []) false) :=
  (write32On_halves h hu hn).yields ((write16On_leads h hu hk).yields (i2cWrite16On_fails h ht hc)).qError

/-- The low half stays written when the high half fails. -/
theorem write32On_i2c_fails_high (hn : rb.hasWrite32 = false) (ht : s.turns = .go :: .fail l :: r)
    (hc : checkOp s.me.op = false) {m : State}
    (hm : m = ((s.withTurns r).farWrite16 i a (lowHalf w)).log i
      (.i2c rb.cfg.i2cSlave (i2cWriteFrame a (lowHalf w)) []) true) :
    (write32On i a w).Yields s (.error .io) ((if l then m.farWrite16 i (highAddr a) (highHalf w) else m).log i
      (.i2c rb.cfg.i2cSlave (i2cWriteFrame (highAddr a) (highHalf w)) []) false) := by
  have low := (write16On_leads h hu hk).yields (i2cWrite16On_completes (a := a) (v := lowHalf w) h (clear_of_go ht))
  have middle : (((s.dropTurns 1).farWrite16 i a (lowHalf w)).log i
      (.i2c rb.cfg.i2cSlave (i2cWriteFrame a (lowHalf w)) []) true) = m.withTurns (.fail l :: r) := by
    rw [hm, dropTurns_of_cons ht, farWrite16_withTurns, farWrite16_withTurns]
    rfl
  rw [middle] at low
  have rbs : m.rbs[i]? = some rb := by rw [hm, State.log_rbs, farWrite16_rbs]; exact h
  have atomic : m.atomic = s.atomic := by
    rw [hm]; exact farWrite16_atomic (s.withTurns r) i a (lowHalf w)
  have op : m.me = s.me := by rw [hm, State.log_me, farWrite16_me]; rfl
  have high := (write16On_leads (s := m.withTurns (.fail l :: r)) (a := highAddr a) (v := highHalf w) rbs
    (by rw [← atomic] at hu; exact hu) hk).yields (i2cWrite16On_fails rbs rfl (by rw [← op] at hc; exact hc))
  have turns : (m.withTurns (.fail l :: r)).withTurns r = m := by
    have : m.turns = r := by rw [hm, State.log_turns, farWrite16_turns]; rfl
    rw [← this]
    rfl
  rw [turns] at high
  exact (write32On_halves h hu hn).yields (low.q high)

end

end

/-- Settles O15: one transfer, which the next turn lets succeed or fail. -/
theorem i2cAccess : Obligations.I2cAccess := by
  unfold Obligations.I2cAccess
  intro s b i rb a v hi hn hu hk
  have named (op : Instr) : (s.doing op).rbs[i]? = some rb := hn.1
  have done {op : Instr} {x : Nat → Op (Except Err Res)} {t : State} {r : Except Err Res}
      (hop : atomicOp (some op) = false) (hx : (x i).Yields (s.doing op) r (t.doing op)) :
      s.perform op (backendOp b x) = .next (t.finish r) := State.perform_backendOp_yields hi hn hop hu hx
  refine ⟨fun ht => ⟨?read, ?write⟩, fun l r ht => ⟨?readFails, ?writeFails⟩, (farRead16_or_one s i a).symm,
    (farWrite16_or_one s i a v).symm, farRead16_snd s i a, farWrite16_sameBytesBut s i a v⟩
  case read =>
    have := i2cRead16On_completes (a := a) (named (.i2cRead16 b a)) (State.clear_of_nil _ ht 1)
    rw [dropTurns_of_nil (s := s.doing _) ht, farRead16_doing] at this
    exact done rfl (asVal16_yields this)
  case write =>
    have := i2cWrite16On_completes (a := a) (v := v) (named (.i2cWrite16 b a v)) (State.clear_of_nil _ ht 1)
    rw [dropTurns_of_nil (s := s.doing _) ht, farWrite16_doing] at this
    exact done rfl (asUnit_yields this)
  case readFails => exact done rfl (asVal16_error (i2cRead16On_fails (named _) ht))
  case writeFails =>
    have := i2cWrite16On_fails (a := a) (v := v) (named (.i2cWrite16 b a v)) ht rfl
    rw [State.doing_withTurns, landed_doing] at this
    exact done rfl (asUnit_error this)

/-- Settles O24: the half that fails ends the access, and what the low half has written stays. -/
theorem failFast32 : Obligations.FailFast32 := by
  unfold Obligations.FailFast32
  intro s b i rb a v l r hi hn hu hk hr hw
  have named (op : Instr) : (s.doing op).rbs[i]? = some rb := hn.1
  have context {op : Instr} (hop : atomicOp (some op) = false) : (rb.sleeps && (s.doing op).atomic) = false := by
    rwa [State.doing_atomic hi.1 hop]
  refine ⟨fun ht => ⟨?read, ?writeLow⟩, fun ht => ?writeHigh⟩
  case read =>
    exact State.perform_onBus_yields hi hn (asVal32_error (read32On_i2c_fails (named _) (context rfl) hk hr ht))
  case writeLow =>
    have := write32On_i2c_fails_low (a := a) (w := v) (named (.write32 b a v)) (context rfl) hk hw ht rfl
    rw [State.doing_withTurns, landed_doing] at this
    exact State.perform_onBus_yields hi hn (asUnit_error this)
  case writeHigh =>
    have written (op : Instr) : ((((s.withTurns r).farWrite16 i a (lowHalf v)).log i
        (.i2c rb.cfg.i2cSlave (i2cWriteFrame a (lowHalf v)) []) true).doing op) =
        (((s.doing op).withTurns r).farWrite16 i a (lowHalf v)).log i
          (.i2c rb.cfg.i2cSlave (i2cWriteFrame a (lowHalf v)) []) true := by
      rw [State.doing_withTurns, farWrite16_doing]
      rfl
    have := write32On_i2c_fails_high (a := a) (w := v) (named (.write32 b a v)) (context rfl) hk hw ht rfl (written _)
    rw [landed_doing] at this
    exact State.perform_onBus_yields hi hn (asUnit_error this)

end Sys2Proof.Machine
end

section
/-!
MDIO accesses (spec/40_register_bus.md rules R211 to R216): the transactions of one, in the order of the write order
parameters, and where a transaction fails (rules R202 and R220, log entries 8 and 12).
-/

namespace Sys2Proof.Machine

open Sys2Proof

section

variable {s t u : State} {i k n : Nat} {rb : Rb} {a : U32} {v : U16} {l : Bool} {r : List Turn} {c : Option U16}
  {b : Option Nat} {w : List Xfer} {e : Except Err Nat}

/-! ### The bookkeeping of an access that has ended -/

/-- An access that has ended leaves the turns after it, the AA1 cache and the wire record. -/
theorem moved_idle (h : s.rbs[i]? = some rb) (hb : rb.busy = none) (ht : s.turns.drop k = r) (c : Option U16)
    (w : List Xfer) :
    s.moved i k c none w = { s.modRb i fun x => { x with aa1Cache := c } with turns := r, wire := w } := by
  have mark : s.modRb i (fun x => { x with aa1Cache := c, busy := none }) =
      s.modRb i fun x => { x with aa1Cache := c } := State.modRb_congr h (by rw [hb])
  rw [State.moved, mark, ht]

/-- The same where the cache is as it was. -/
theorem moved_kept (h : s.rbs[i]? = some rb) (hb : rb.busy = none) (ht : s.turns.drop k = r) (w : List Xfer) :
    s.moved i k rb.aa1Cache none w = { s with turns := r, wire := w } := by
  have same : s.modRb i (fun x => { x with aa1Cache := rb.aa1Cache, busy := none }) = s := by
    rw [State.modRb, modify_self]
    intro x hx
    rw [h] at hx
    cases hx
    rw [← hb]
  rw [State.moved, same, ht]

theorem landed_moved (s : State) (l : Bool) (i k : Nat) (c : Option U16) (b : Option Nat) (w : List Xfer) (a : U32)
    (v : U16) : (if l then (s.moved i k c b w).farWrite16 i a v else s.moved i k c b w) =
      (if l then s.farWrite16 i a v else s).moved i k c b w := by
  cases l
  · rfl
  · exact farWrite16_moved s i k c b w i a v

/-! ### One transaction -/

/-- An MDIO write on the wire, whose word may depend on the RegisterBus, with the far-end write that it completes, if it
completes one (log entry 12). -/
def mdioPost (i : Nat) (word : RbCfg → Wire) (far : Option (U32 × U16)) : Op (Except Err Nat) :=
  mdioXfer i fun rb v s =>
    match v with
    | .fail landed => .go 0 ((s.farLanded i landed far).log i (word rb.cfg) false)
    | .ok => .go 1 ((s.farDone i far).log i (word rb.cfg) true)

theorem mdioWriteOn_eq (i : Nat) (phy reg : RbCfg → U5) (w : U16) (far : Option (U32 × U16)) :
    mdioWriteOn i phy reg w far = mdioPost i (fun c => .mdioWrite (phy c) (reg c) w) far := rfl

theorem bridgeAddrOn_eq (i : Nat) (a : U32) (rw : U16) (far : Option (U32 × U16)) : bridgeAddrOn i a rw far =
    mdioPost i (fun c => .mdioWrite (bridgePhyOf a c) c.regBAA (bridgeAA c.bridgeBits a rw)) far := rfl

theorem mdioXfer_fails {f : Rb → Verdict → State → Ans} (h : s.rbs[i]? = some rb) (ht : s.turns = .fail l :: r)
    (hf : f rb (.fail l) (s.moved i 1 rb.aa1Cache rb.busy s.wire) = .go 0 t) :
    (mdioXfer i f).Yields s (.error .io) t := by
  refine .tryXfer_fails ht ?_
  rw [State.onRb_some (s := s.withTurns r) h, ← dropTurns_of_cons ht, dropTurns_moved h, hf]

/-- A transaction that only addresses, and succeeds. -/
theorem mdioPost_goes {word : RbCfg → Wire} (h : s.rbs[i]? = some rb) (ht : s.turns = .go :: r) :
    (mdioPost i word none).Yields s (.ok 0)
      (s.moved i 1 rb.aa1Cache rb.busy (⟨i, word rb.cfg, true⟩ :: s.wire)) :=
  mdioXfer_yields h (clear_of_go ht) rfl

/-- A transaction that only addresses, and fails. -/
theorem mdioPost_fails {word : RbCfg → Wire} (h : s.rbs[i]? = some rb) (ht : s.turns = .fail l :: r) :
    (mdioPost i word none).Yields s (.error .io)
      (s.moved i 1 rb.aa1Cache rb.busy (⟨i, word rb.cfg, false⟩ :: s.wire)) :=
  mdioXfer_fails h ht rfl

/-- The transaction that completes a far-end write fails, and may have made the write (rule R202). -/
theorem mdioPost_far_fails {word : RbCfg → Wire} (h : s.rbs[i]? = some rb) (ht : s.turns = .fail l :: r)
    (hk : checkOp s.me.op = false) : (mdioPost i word (some (a, v))).Yields s (.error .io)
      ((if l then s.farWrite16 i a v else s).moved i 1 rb.aa1Cache rb.busy
        (⟨i, word rb.cfg, false⟩ :: s.wire)) := by
  refine mdioXfer_fails h ht ?_
  simp only [State.farLanded, landWrite16_eq (s := s.moved i 1 rb.aa1Cache rb.busy s.wire) hk, landed_moved]
  rfl

theorem mdioReadOn_fails {phy reg : RbCfg → U5} (h : s.rbs[i]? = some rb) (ht : s.turns = .fail l :: r) :
    (mdioReadOn i phy reg a).Yields s (.error .io)
      (s.moved i 1 rb.aa1Cache rb.busy (⟨i, .mdioRead (phy rb.cfg) (reg rb.cfg) 0, false⟩ :: s.wire)) :=
  mdioXfer_fails h ht rfl

/-! ### The two transactions of an access -/

/-- The address word and the data read of an MDIO read (rules R212, R215). -/
def mdioFetch (i : Nat) (addr : RbCfg → Wire) (phy reg : RbCfg → U5) (a : U32) : Op (Except Err Nat) :=
  (mdioPost i addr none).q fun _ => mdioReadOn i phy reg a

/-- The data and address words of an MDIO write in the order of a write order parameter (rules R213, R216). -/
def mdioStore (i : Nat) (order : RbCfg → WriteOrder) (data addr : RbCfg → Wire) (a : U32) (v : U16) :
    Op (Except Err Nat) :=
  (writeOrderIs i order).bind fun dataFirst =>
    if dataFirst = 1 then (mdioPost i data none).q fun _ => mdioPost i addr (some (a, v))
    else (mdioPost i addr none).q fun _ => mdioPost i data (some (a, v))

section

variable {addr data : RbCfg → Wire} {phy reg : RbCfg → U5} {order : RbCfg → WriteOrder}

theorem mdioFetch_fails_first (h : s.rbs[i]? = some rb) (ht : s.turns = .fail l :: r) :
    (mdioFetch i addr phy reg a).Yields s (.error .io)
      (s.moved i 1 rb.aa1Cache rb.busy (⟨i, addr rb.cfg, false⟩ :: s.wire)) :=
  (mdioPost_fails h ht).qError

theorem mdioFetch_fails_second (h : s.rbs[i]? = some rb) (ht : s.turns = .go :: .fail l :: r) :
    (mdioFetch i addr phy reg a).Yields s (.error .io)
      (s.moved i 2 rb.aa1Cache rb.busy
        (⟨i, .mdioRead (phy rb.cfg) (reg rb.cfg) 0, false⟩ :: ⟨i, addr rb.cfg, true⟩ :: s.wire)) := by
  have second := mdioReadOn_fails (phy := phy) (reg := reg) (a := a) (l := l) (r := r)
    (moved_rb h 1 rb.aa1Cache rb.busy (⟨i, addr rb.cfg, true⟩ :: s.wire)) (by rw [State.moved, ht]; rfl)
  rw [State.moved_moved] at second
  exact (mdioPost_goes h ht).q second

/-- The write whose first transaction fails has not reached the far end. -/
theorem mdioStore_fails_first (h : s.rbs[i]? = some rb) (ht : s.turns = .fail l :: r) :
    (mdioStore i order data addr a v).Yields s (.error .io) (s.moved i 1 rb.aa1Cache rb.busy
      (match order rb.cfg with
        | .dataFirst => ⟨i, data rb.cfg, false⟩ :: s.wire
        | .addrFirst => ⟨i, addr rb.cfg, false⟩ :: s.wire)) := by
  refine Op.Yields.bind (writeOrderIs_yields h order) ?_
  cases order rb.cfg with
  | dataFirst => exact (mdioPost_fails h ht).qError
  | addrFirst => exact (mdioPost_fails h ht).qError

/-- The write whose second transaction fails may have reached the far end. -/
theorem mdioStore_fails_second (h : s.rbs[i]? = some rb) (ht : s.turns = .go :: .fail l :: r)
    (hk : checkOp s.me.op = false) :
    (mdioStore i order data addr a v).Yields s (.error .io)
      ((if l then s.farWrite16 i a v else s).moved i 2 rb.aa1Cache rb.busy
        (match order rb.cfg with
          | .dataFirst => ⟨i, addr rb.cfg, false⟩ :: ⟨i, data rb.cfg, true⟩ :: s.wire
          | .addrFirst => ⟨i, data rb.cfg, false⟩ :: ⟨i, addr rb.cfg, true⟩ :: s.wire)) := by
  have both (x y : RbCfg → Wire) : ((mdioPost i x none).q fun _ => mdioPost i y (some (a, v))).Yields s (.error .io)
      ((if l then s.farWrite16 i a v else s).moved i 2 rb.aa1Cache rb.busy
        (⟨i, y rb.cfg, false⟩ :: ⟨i, x rb.cfg, true⟩ :: s.wire)) := by
    have second := mdioPost_far_fails (word := y) (a := a) (v := v) (l := l) (r := r)
      (moved_rb h 1 rb.aa1Cache rb.busy (⟨i, x rb.cfg, true⟩ :: s.wire)) (by rw [State.moved, ht]; rfl) hk
    rw [landed_moved, State.moved_moved] at second
    exact (mdioPost_goes h ht).q second
  refine Op.Yields.bind (writeOrderIs_yields h order) ?_
  cases order rb.cfg with
  | dataFirst => exact both data addr
  | addrFirst => exact both addr data

end

/-! ### The words of an access (rules R146 to R149) -/

/-- The address word of a slave access. -/
def slaveAddr (a : U32) (rw : U16) (c : RbCfg) : Wire := .mdioWrite c.phy c.regAA0 (aa0Word a rw)

/-- The data word of a slave write. -/
def slaveData (v : U16) (c : RbCfg) : Wire := .mdioWrite c.phy c.regAD v

/-- The word that selects the high half of a slave's address. -/
def slaveSelect (a : U32) (c : RbCfg) : Wire := .mdioWrite c.phy c.regAA1 (aa1Word a)

/-- The address word of a bridge access. -/
def bridgeAddr (a : U32) (rw : U16) (c : RbCfg) : Wire :=
  .mdioWrite (bridgePhyOf a c) c.regBAA (bridgeAA c.bridgeBits a rw)

/-- The data word of a bridge write. -/
def bridgeData (a : U32) (v : U16) (c : RbCfg) : Wire := .mdioWrite (bridgePhyOf a c) c.regBAD v

/-! ### Accesses of a slave (rules R211 to R213) -/

theorem slaveRead16On_eq (i : Nat) (a : U32) : slaveRead16On i a = evenOnly a (mdioAccess i
    ((slaveSelectHigh i a).q fun _ => mdioFetch i
      (slaveAddr a Config.mdioRwRead) (·.phy) (·.regAD) a)) := rfl

theorem slaveWrite16On_eq (i : Nat) (a : U32) (v : U16) : slaveWrite16On i a v = evenOnly a (mdioAccess i
    ((slaveSelectHigh i a).q fun _ => mdioStore i (·.mdioOrder) (slaveData v)
      (slaveAddr a Config.mdioRwWrite) a v)) := rfl

/-- An access that fails to select the high half makes no further transaction and empties the cache (rule R211). -/
theorem slaveAccess_unselected {x : Nat → Op (Except Err Nat)} (h : s.rbs[i]? = some rb) (hb : rb.busy = none)
    (hc : rb.aa1Cache ≠ some (aa1Word a)) (ht : s.turns = .fail l :: r) :
    (mdioAccess i ((slaveSelectHigh i a).q x)).Yields s (.error .io) (s.moved i 1 none none
      (⟨i, slaveSelect a rb.cfg, false⟩ :: s.wire)) := by
  have selects : (slaveSelectHigh i a).Yields (s.begun i rb) (.error .io) (s.moved i 1 none (some s.me.id)
      (⟨i, slaveSelect a rb.cfg, false⟩ :: s.wire)) := by
    refine .bind (.step (n := 0) (t := s.begun i rb) (by rw [State.onRb_some (begun_rb h)]; simp [hc])) ?_
    have fails := mdioPost_fails (l := l) (r := r)
      (word := slaveSelect a) (begun_rb h) ht
    rw [begun_moved] at fails
    refine .bind fails (.bind (.set _) ?_)
    rw [moved_cache]
    exact .raise _
  exact mdioAccess_yields h hb selects.qError

/-- An access that has selected the high half goes on with its two transactions. -/
theorem slaveAccess_selected {x : Nat → Op (Except Err Nat)} (h : s.rbs[i]? = some rb) (hb : rb.busy = none)
    (hc : s.Clear (aa1Turns rb a)) (hx : (x 0).Yields
      (s.moved i (aa1Turns rb a) (some (aa1Word a)) (some s.me.id) (aa1Wire i rb a s.wire)) e (u.moved i k c b w)) :
    (mdioAccess i ((slaveSelectHigh i a).q x)).Yields s e (u.moved i k c none w) := by
  have selects := slaveSelectHigh_yields (a := a) (begun_rb h) (begun_clear hc i rb)
  rw [begun_moved] at selects
  exact mdioAccess_yields h hb (selects.q hx)

/-- The turns that let the selection of the high half succeed. -/
theorem aa1Turns_pre (rb : Rb) (a : U32) :
    (if rb.aa1Cache = some (aa1Word a) then [] else [.go]) = List.replicate (aa1Turns rb a) Turn.go := by
  unfold aa1Turns
  split <;> rfl

theorem drop_replicate_append (n : Nat) (x : Turn) (m : List Turn) : (List.replicate n x ++ m).drop n = m :=
  List.drop_left' List.length_replicate

/-- The state in which the high half is selected has the turns after that still to come. -/
theorem selected_turns {m : List Turn} (ht : s.turns = List.replicate (aa1Turns rb a) .go ++ m) :
    (s.moved i (aa1Turns rb a) (some (aa1Word a)) b w).turns = m := by
  rw [State.moved, ht, drop_replicate_append]

section

variable (h : s.rbs[i]? = some rb) (hb : rb.busy = none) (ha : isOdd a = false)
include h hb ha

theorem slaveRead16On_unselected (hc : rb.aa1Cache ≠ some (aa1Word a)) (ht : s.turns = .fail l :: r) :
    (slaveRead16On i a).Yields s (.error .io) (s.moved i 1 none none
      (⟨i, slaveSelect a rb.cfg, false⟩ :: s.wire)) := by
  rw [slaveRead16On_eq, evenOnly_even ha]
  exact slaveAccess_unselected h hb hc ht

theorem slaveWrite16On_unselected (hc : rb.aa1Cache ≠ some (aa1Word a)) (ht : s.turns = .fail l :: r) :
    (slaveWrite16On i a v).Yields s (.error .io) (s.moved i 1 none none
      (⟨i, slaveSelect a rb.cfg, false⟩ :: s.wire)) := by
  rw [slaveWrite16On_eq, evenOnly_even ha]
  exact slaveAccess_unselected h hb hc ht

theorem slaveRead16On_fails_first (ht : s.turns = List.replicate (aa1Turns rb a) .go ++ .fail l :: r) :
    (slaveRead16On i a).Yields s (.error .io) (s.moved i (aa1Turns rb a + 1) (some (aa1Word a)) none
      (⟨i, slaveAddr a Config.mdioRwRead rb.cfg, false⟩ :: aa1Wire i rb a s.wire)) := by
  rw [slaveRead16On_eq, evenOnly_even ha]
  have fails := mdioFetch_fails_first (a := a) (addr := slaveAddr a Config.mdioRwRead)
    (phy := (·.phy)) (reg := (·.regAD))
    (moved_rb h (aa1Turns rb a) (some (aa1Word a)) (some s.me.id) (aa1Wire i rb a s.wire)) (selected_turns ht)
  rw [State.moved_moved] at fails
  exact slaveAccess_selected h hb (State.clear_replicate _ _ _ ht) fails

theorem slaveRead16On_fails_second (ht : s.turns = List.replicate (aa1Turns rb a) .go ++ .go :: .fail l :: r) :
    (slaveRead16On i a).Yields s (.error .io) (s.moved i (aa1Turns rb a + 2) (some (aa1Word a)) none
      (⟨i, .mdioRead rb.cfg.phy rb.cfg.regAD 0, false⟩ ::
        ⟨i, slaveAddr a Config.mdioRwRead rb.cfg, true⟩ :: aa1Wire i rb a s.wire)) := by
  rw [slaveRead16On_eq, evenOnly_even ha]
  have fails := mdioFetch_fails_second (a := a)
    (addr := slaveAddr a Config.mdioRwRead) (phy := (·.phy)) (reg := (·.regAD))
    (moved_rb h (aa1Turns rb a) (some (aa1Word a)) (some s.me.id) (aa1Wire i rb a s.wire)) (selected_turns ht)
  rw [State.moved_moved] at fails
  exact slaveAccess_selected h hb (State.clear_replicate _ _ _ ht) fails

theorem slaveWrite16On_fails_first (ht : s.turns = List.replicate (aa1Turns rb a) .go ++ .fail l :: r) :
    (slaveWrite16On i a v).Yields s (.error .io) (s.moved i (aa1Turns rb a + 1) (some (aa1Word a)) none
      (match rb.cfg.mdioOrder with
        | .dataFirst => ⟨i, slaveData v rb.cfg, false⟩ :: aa1Wire i rb a s.wire
        | .addrFirst => ⟨i, slaveAddr a Config.mdioRwWrite rb.cfg, false⟩ :: aa1Wire i rb a s.wire)) := by
  rw [slaveWrite16On_eq, evenOnly_even ha]
  have fails := mdioStore_fails_first (a := a) (v := v) (order := (·.mdioOrder))
    (data := slaveData v) (addr := slaveAddr a Config.mdioRwWrite)
    (moved_rb h (aa1Turns rb a) (some (aa1Word a)) (some s.me.id) (aa1Wire i rb a s.wire)) (selected_turns ht)
  rw [State.moved_moved] at fails
  exact slaveAccess_selected h hb (State.clear_replicate _ _ _ ht) fails

theorem slaveWrite16On_fails_second (ht : s.turns = List.replicate (aa1Turns rb a) .go ++ .go :: .fail l :: r)
    (hk : checkOp s.me.op = false) :
    (slaveWrite16On i a v).Yields s (.error .io)
      ((if l then s.farWrite16 i a v else s).moved i (aa1Turns rb a + 2) (some (aa1Word a)) none
        (match rb.cfg.mdioOrder with
          | .dataFirst => ⟨i, slaveAddr a Config.mdioRwWrite rb.cfg, false⟩ ::
              ⟨i, slaveData v rb.cfg, true⟩ :: aa1Wire i rb a s.wire
          | .addrFirst => ⟨i, slaveData v rb.cfg, false⟩ ::
              ⟨i, slaveAddr a Config.mdioRwWrite rb.cfg, true⟩ :: aa1Wire i rb a s.wire)) := by
  rw [slaveWrite16On_eq, evenOnly_even ha]
  have fails := mdioStore_fails_second (a := a) (v := v) (order := (·.mdioOrder))
    (data := slaveData v) (addr := slaveAddr a Config.mdioRwWrite)
    (moved_rb h (aa1Turns rb a) (some (aa1Word a)) (some s.me.id) (aa1Wire i rb a s.wire)) (selected_turns ht) hk
  rw [landed_moved, State.moved_moved] at fails
  exact slaveAccess_selected h hb (State.clear_replicate _ _ _ ht) fails

end

/-! ### Accesses of a bridge (rules R214 to R216) -/

theorem bridgeRead16On_eq (i : Nat) (a : U32) : bridgeRead16On i a = evenOnly a ((bridgeRange i a).bind fun _ =>
    mdioAccess i (mdioFetch i (bridgeAddr a Config.mdioRwRead) (bridgePhyOf a) (·.regBAD) a)) := rfl

theorem bridgeWrite16On_eq (i : Nat) (a : U32) (v : U16) : bridgeWrite16On i a v =
    evenOnly a ((bridgeRange i a).bind fun _ => mdioAccess i (mdioStore i (·.bridgeOrder)
      (bridgeData a v) (bridgeAddr a Config.mdioRwWrite) a v)) := rfl

/-- An access in range goes on with its two transactions. -/
theorem bridgeAccess_ends {x : Op (Except Err Nat)} (h : s.rbs[i]? = some rb) (hb : rb.busy = none)
    (ha : isOdd a = false) (hr : bridgePhy rb.cfg.bridgeBits a ≤ 31)
    (hx : x.Yields (s.begun i rb) e (u.moved i k c b w)) :
    (evenOnly a ((bridgeRange i a).bind fun _ => mdioAccess i x)).Yields s e (u.moved i k c none w) := by
  rw [evenOnly_even ha]
  exact .bind (bridgeRange_yields h hr) (mdioAccess_yields h hb hx)

/-- An access out of range faults before its first transaction. -/
theorem bridgeAccess_outOfRange {x : Op (Except Err Nat)} (h : s.rbs[i]? = some rb) (ha : isOdd a = false)
    (hr : 31 < bridgePhy rb.cfg.bridgeBits a) :
    (evenOnly a ((bridgeRange i a).bind fun _ => mdioAccess i x)).Faults s .bridgeRange s := by
  rw [evenOnly_even ha]
  exact .bind (bridgeRange_faults h hr)

section

variable (h : s.rbs[i]? = some rb) (hb : rb.busy = none) (ha : isOdd a = false)
  (hr : bridgePhy rb.cfg.bridgeBits a ≤ 31)
include h hb ha hr

theorem bridgeRead16On_fails_first (ht : s.turns = .fail l :: r) :
    (bridgeRead16On i a).Yields s (.error .io) (s.moved i 1 rb.aa1Cache none
      (⟨i, bridgeAddr a Config.mdioRwRead rb.cfg, false⟩ :: s.wire)) := by
  have fails := mdioFetch_fails_first (a := a) (phy := bridgePhyOf a) (reg := (·.regBAD)) (l := l) (r := r)
    (addr := bridgeAddr a Config.mdioRwRead) (begun_rb h) ht
  rw [begun_moved] at fails
  exact bridgeAccess_ends h hb ha hr fails

theorem bridgeRead16On_fails_second (ht : s.turns = .go :: .fail l :: r) :
    (bridgeRead16On i a).Yields s (.error .io) (s.moved i 2 rb.aa1Cache none
      (⟨i, .mdioRead (bridgePhyOf a rb.cfg) rb.cfg.regBAD 0, false⟩ ::
        ⟨i, bridgeAddr a Config.mdioRwRead rb.cfg, true⟩ :: s.wire)) := by
  have fails := mdioFetch_fails_second (a := a) (phy := bridgePhyOf a) (reg := (·.regBAD)) (l := l) (r := r)
    (addr := bridgeAddr a Config.mdioRwRead) (begun_rb h) ht
  rw [begun_moved] at fails
  exact bridgeAccess_ends h hb ha hr fails

theorem bridgeWrite16On_fails_first (ht : s.turns = .fail l :: r) :
    (bridgeWrite16On i a v).Yields s (.error .io) (s.moved i 1 rb.aa1Cache none
      (match rb.cfg.bridgeOrder with
        | .dataFirst => ⟨i, bridgeData a v rb.cfg, false⟩ :: s.wire
        | .addrFirst => ⟨i, bridgeAddr a Config.mdioRwWrite rb.cfg, false⟩ :: s.wire)) := by
  have fails := mdioStore_fails_first (a := a) (v := v) (order := (·.bridgeOrder)) (l := l) (r := r)
    (data := bridgeData a v) (addr := bridgeAddr a Config.mdioRwWrite) (begun_rb h) ht
  rw [begun_moved] at fails
  exact bridgeAccess_ends h hb ha hr fails

theorem bridgeWrite16On_fails_second (ht : s.turns = .go :: .fail l :: r) (hk : checkOp s.me.op = false) :
    (bridgeWrite16On i a v).Yields s (.error .io)
      ((if l then s.farWrite16 i a v else s).moved i 2 rb.aa1Cache none
        (match rb.cfg.bridgeOrder with
          | .dataFirst => ⟨i, bridgeAddr a Config.mdioRwWrite rb.cfg, false⟩ ::
              ⟨i, bridgeData a v rb.cfg, true⟩ :: s.wire
          | .addrFirst => ⟨i, bridgeData a v rb.cfg, false⟩ ::
              ⟨i, bridgeAddr a Config.mdioRwWrite rb.cfg, true⟩ :: s.wire)) := by
  have fails := mdioStore_fails_second (a := a) (v := v) (order := (·.bridgeOrder)) (l := l) (r := r)
    (data := bridgeData a v) (addr := bridgeAddr a Config.mdioRwWrite) (begun_rb h) ht hk
  rw [State.begun, landed_moved, State.moved_moved, Nat.zero_add] at fails
  exact bridgeAccess_ends h hb ha hr fails

end

end

end Sys2Proof.Machine
end

section
/-!
What the operations on MDIO RegisterBuses end in (spec/40_register_bus.md rules R211 to R216).
-/

namespace Sys2Proof.Machine

open Sys2Proof

section

variable {s : State} {i k : Nat} {rb : Rb} {a : U32} {v : U16} {l : Bool} {r : List Turn}

theorem moved_doing (s : State) (op : Instr) (i k : Nat) (c : Option U16) (b : Option Nat) (w : List Xfer) :
    (s.doing op).moved i k c b w = (s.moved i k c b w).doing op := rfl

/-- A write that may have landed leaves every RegisterBus and the turns. -/
theorem landed_rbs (s : State) (l : Bool) (i : Nat) (a : U32) (v : U16) :
    (if l then s.farWrite16 i a v else s).rbs = s.rbs := by
  cases l
  · rfl
  · exact farWrite16_rbs s i a v

theorem landed_turns (s : State) (l : Bool) (i : Nat) (a : U32) (v : U16) :
    (if l then s.farWrite16 i a v else s).turns = s.turns := by
  cases l
  · rfl
  · exact farWrite16_turns s i a v

/-- Where no turns are given, an access that has ended leaves none. -/
theorem moved_ready (h : s.rbs[i]? = some rb) (hb : rb.busy = none) (ht : s.turns = []) (k : Nat) (c : Option U16)
    (w : List Xfer) : s.moved i k c none w = { s.modRb i fun x => { x with aa1Cache := c } with wire := w } := by
  rw [moved_idle (k := k) (r := s.turns) h hb (by rw [ht, List.drop_nil])]
  rfl

theorem moved_ready_kept (h : s.rbs[i]? = some rb) (hb : rb.busy = none) (ht : s.turns = []) (k : Nat)
    (w : List Xfer) : s.moved i k rb.aa1Cache none w = { s with wire := w } :=
  moved_kept (k := k) (r := s.turns) h hb (by rw [ht, List.drop_nil]) w

end

/-- Settles O16: the selection, then the two transactions in their order, all of which succeed. -/
theorem slaveAccess : Obligations.SlaveAccess := by
  unfold Obligations.SlaveAccess
  intro s b i rb a v ⟨hi, ht⟩ hn ⟨hu, hb⟩ hk
  have named (op : Instr) : (s.doing op).rbs[i]? = some rb := hn.1
  have clear (op : Instr) : (s.doing op).Clear (aa1Turns rb a + 2) := State.clear_of_nil _ ht _
  have done {op : Instr} {x : Nat → Op (Except Err Res)} {t : State} {r : Except Err Res}
      (hop : atomicOp (some op) = false) (hx : (x i).Yields (s.doing op) r (t.doing op)) :
      s.perform op (backendOp b x) = .next (t.finish r) := State.perform_backendOp_yields hi hn hop hu hx
  have stopped {op : Instr} {x : Nat → Op (Except Err Res)} (hop : atomicOp (some op) = false)
      (hx : ∀ u, (x i).Faults u .misaligned u) : s.perform op (backendOp b x) = .next (s.halt .misaligned) :=
    State.perform_backendOp_faults hi hn hop hu (hx _)
  refine ⟨?read, ?write, farRead16_snd s i a, farWrite16_sameBytesBut s i a v⟩
  case read =>
    split
    · exact stopped rfl fun u => asVal16_faults (evenOnly_faults ‹_› _ u)
    · have reads := slaveRead16On_yields (named (.slaveRead16 b a)) hb (Bool.eq_false_iff.mpr ‹_›) (clear _)
      simp only [farRead16_doing, moved_doing] at reads
      have ends := moved_ready (s := (s.farRead16 i a).2) (by rw [farRead16_rbs]; exact hn.1) hb
        (by rw [farRead16_turns]; exact ht)
      exact (done rfl (asVal16_yields reads)).trans (by rw [ends]; rfl)
  case write =>
    split
    · exact stopped rfl fun u => asUnit_faults (evenOnly_faults ‹_› _ u)
    · have writes := slaveWrite16On_yields (v := v) (named (.slaveWrite16 b a v)) hb (Bool.eq_false_iff.mpr ‹_›)
        (clear _)
      rw [farWrite16_doing, moved_doing] at writes
      have ends := moved_ready (s := s.farWrite16 i a v) (by rw [farWrite16_rbs]; exact hn.1) hb
        (by rw [farWrite16_turns]; exact ht)
      exact (done rfl (asUnit_yields writes)).trans (by rw [ends]; rfl)

/-- Settles O17: the access ends at the transaction that the turns let fail. -/
theorem slaveAccessFails : Obligations.SlaveAccessFails := by
  unfold Obligations.SlaveAccessFails
  intro s b i rb a v l r hi hn ⟨hu, hb⟩ hk ha
  have named (op : Instr) : (s.doing op).rbs[i]? = some rb := hn.1
  have done {op : Instr} {x : Nat → Op (Except Err Res)} {t : State} {r : Except Err Res}
      (hop : atomicOp (some op) = false) (hx : (x i).Yields (s.doing op) r (t.doing op)) :
      s.perform op (backendOp b x) = .next (t.finish r) := State.perform_backendOp_yields hi hn hop hu hx
  have pre : (if rb.aa1Cache = some (a.extractLsb' 16 16) then [] else [.go]) =
    List.replicate (aa1Turns rb a) Turn.go := aa1Turns_pre rb a
  simp only [pre]
  refine ⟨fun hc ht => ?unselected, fun ht => ?first, fun ht => ?second⟩
  case unselected =>
    have ends := moved_idle (k := 1) (r := r) hn.1 hb (by rw [ht]; rfl)
    have reads := slaveRead16On_unselected (named (.slaveRead16 b a)) hb ha hc ht
    rw [moved_doing] at reads
    have writes := slaveWrite16On_unselected (v := v) (named (.slaveWrite16 b a v)) hb ha hc ht
    rw [moved_doing] at writes
    exact ⟨(done rfl (asVal16_error reads)).trans (by rw [ends]; rfl),
      (done rfl (asUnit_error writes)).trans (by rw [ends]; rfl)⟩
  case first =>
    have ends := moved_idle (k := aa1Turns rb a + 1) (r := r) hn.1 hb (by
      rw [← List.drop_drop, ht, drop_replicate_append, List.drop_one, List.tail_cons])
    have reads := slaveRead16On_fails_first (named (.slaveRead16 b a)) hb ha ht
    rw [moved_doing] at reads
    have writes := slaveWrite16On_fails_first (v := v) (named (.slaveWrite16 b a v)) hb ha ht
    rw [moved_doing] at writes
    exact ⟨(done rfl (asVal16_error reads)).trans (by rw [ends]; rfl),
      (done rfl (asUnit_error writes)).trans (by rw [ends]; rfl)⟩
  case second =>
    have rest : s.turns.drop (aa1Turns rb a + 2) = r := by rw [← List.drop_drop, ht, drop_replicate_append]; rfl
    have reads := slaveRead16On_fails_second (named (.slaveRead16 b a)) hb ha ht
    rw [moved_doing] at reads
    have writes := slaveWrite16On_fails_second (v := v) (named (.slaveWrite16 b a v)) hb ha ht rfl
    rw [landed_doing, moved_doing] at writes
    have landed := moved_idle (s := if l then s.farWrite16 i a v else s) (by rw [landed_rbs]; exact hn.1) hb
      ((congrArg _ (landed_turns s l i a v)).trans rest)
    exact ⟨(done rfl (asVal16_error reads)).trans (by rw [moved_idle hn.1 hb rest]; rfl),
      (done rfl (asUnit_error writes)).trans (by rw [landed]; rfl)⟩

/-- Settles O18: the checks of the address, then the two transactions in their order. -/
theorem bridgeAccess : Obligations.BridgeAccess := by
  unfold Obligations.BridgeAccess
  intro s b i rb a v hi hn ⟨hu, hb⟩ hk
  have named (op : Instr) : (s.doing op).rbs[i]? = some rb := hn.1
  have done {op : Instr} {x : Nat → Op (Except Err Res)} {t : State} {r : Except Err Res}
      (hop : atomicOp (some op) = false) (hx : (x i).Yields (s.doing op) r (t.doing op)) :
      s.perform op (backendOp b x) = .next (t.finish r) := State.perform_backendOp_yields hi hn hop hu hx
  have stopped {op : Instr} {x : Nat → Op (Except Err Res)} {f : Fault} (hop : atomicOp (some op) = false)
      (hx : (x i).Faults (s.start op) f (s.start op)) : s.perform op (backendOp b x) = .next (s.halt f) :=
    State.perform_backendOp_faults hi hn hop hu hx
  refine ⟨fun ha => ⟨?readOdd, ?writeOdd⟩, fun ha hr => ⟨?readOut, ?writeOut⟩,
    fun ha hr => ⟨fun ht => ⟨?read, ?write⟩, fun l r => ⟨fun ht => ⟨?readFirst, ?writeFirst⟩,
      fun ht => ⟨?readSecond, ?writeSecond⟩⟩⟩, farRead16_snd s i a, farWrite16_sameBytesBut s i a v⟩
  case readOdd => exact stopped rfl (asVal16_faults (evenOnly_faults ha _ _))
  case writeOdd => exact stopped rfl (asUnit_faults (evenOnly_faults ha _ _))
  case readOut => exact stopped rfl (asVal16_faults (bridgeAccess_outOfRange hn.1 ha hr))
  case writeOut => exact stopped rfl (asUnit_faults (bridgeAccess_outOfRange hn.1 ha hr))
  case read =>
    have reads := bridgeRead16On_yields (named (.bridgeRead16 b a)) hb ha hr (State.clear_of_nil _ ht 2)
    simp only [farRead16_doing, moved_doing] at reads
    have ends := moved_ready_kept (s := (s.farRead16 i a).2) (by rw [farRead16_rbs]; exact hn.1) hb
      (by rw [farRead16_turns]; exact ht)
    exact (done rfl (asVal16_yields reads)).trans (by rw [ends]; rfl)
  case write =>
    have writes := bridgeWrite16On_yields (v := v) (named (.bridgeWrite16 b a v)) hb ha hr (State.clear_of_nil _ ht 2)
    rw [farWrite16_doing, moved_doing] at writes
    have ends := moved_ready_kept (s := s.farWrite16 i a v) (by rw [farWrite16_rbs]; exact hn.1) hb
      (by rw [farWrite16_turns]; exact ht)
    exact (done rfl (asUnit_yields writes)).trans (by rw [ends]; rfl)
  case readFirst =>
    have reads := bridgeRead16On_fails_first (named (.bridgeRead16 b a)) hb ha hr ht
    rw [moved_doing] at reads
    exact (done rfl (asVal16_error reads)).trans (by rw [moved_kept (r := r) hn.1 hb (by rw [ht]; rfl)]; rfl)
  case writeFirst =>
    have writes := bridgeWrite16On_fails_first (v := v) (named (.bridgeWrite16 b a v)) hb ha hr ht
    rw [moved_doing] at writes
    exact (done rfl (asUnit_error writes)).trans (by rw [moved_kept (r := r) hn.1 hb (by rw [ht]; rfl)]; rfl)
  case readSecond =>
    have reads := bridgeRead16On_fails_second (named (.bridgeRead16 b a)) hb ha hr ht
    rw [moved_doing] at reads
    exact (done rfl (asVal16_error reads)).trans (by rw [moved_kept (r := r) hn.1 hb (by rw [ht]; rfl)]; rfl)
  case writeSecond =>
    have writes := bridgeWrite16On_fails_second (v := v) (named (.bridgeWrite16 b a v)) hb ha hr ht rfl
    rw [landed_doing, moved_doing] at writes
    have landed := moved_kept (s := if l then s.farWrite16 i a v else s) (k := 2) (r := r)
      (by rw [landed_rbs]; exact hn.1) hb (by rw [landed_turns, ht]; rfl)
    exact (done rfl (asUnit_error writes)).trans (by rw [landed]; rfl)

end Sys2Proof.Machine
end

section
/-!
`lookup`, `release` and `reset` (spec/40_register_bus.md rules R217 to R219), and the use of a handle that is released.
-/

namespace Sys2Proof.Machine

open Sys2Proof

section

variable {s t : State} {b : BusRef} {i h : Nat} {rb : Rb} {x : Handle} {op : Instr} {r : Except Err Res} {l : Bool}
  {m : List Turn}

/-! ### Operations on no RegisterBus -/

theorem State.perform_plain_yields {o : Op (Except Err Res)} (h : s.Idle) (ho : o.Yields (s.doing op) r (t.doing op)) :
    s.perform op o = .next (t.finish r) := by
  rw [← State.start_eq_doing h] at ho
  exact State.perform_next h ho rfl

theorem State.perform_plain_faults {o : Op (Except Err Res)} {f : Fault} (h : s.Idle)
    (ho : o.Faults (s.doing op) f (s.doing op)) : s.perform op o = .next (s.halt f) := by
  rw [← State.start_eq_doing h] at ho
  rw [← State.start_halt (i := op) h]
  exact State.perform_faults h ho

/-! ### `lookup` (rule R218) -/

theorem lookupKey_unbound {k : Nat} (h : s.bound k = none) : (lookupKey k).Yields s (.error .notFound) s :=
  .bind (.step (n := 0) (by simp only [h])) (.raise _)

theorem lookupKey_binds {k : Nat} (h : s.bound k = some i) :
    (lookupKey k).Yields s (.ok (.handle s.handles.length))
      { (s.modRb i fun rb => { rb with refs := rb.refs + 1 }) with handles := s.handles ++ [⟨i, false⟩] } :=
  .bind (.step (n := s.handles.length + 1) (by simp only [h])) (.ok _)

/-! ### `release` (rule R219) -/

theorem releaseHandle_faults (hx : s.handles[h]? = some x) (hr : s.rbs[x.inst]? = some rb)
    (hf : x.released = true ∨ rb.refs = 0) : (releaseHandle h).Faults s .doubleRelease s :=
  .bind (.step (by simp only [hx, hr, if_pos hf]))

/-- A handle that is released already faults, whatever RegisterBus it names. -/
theorem releaseHandle_released (hx : s.handles[h]? = some x) (hf : x.released = true) :
    (releaseHandle h).Faults s .doubleRelease s := by
  cases hr : s.rbs[x.inst]? with
  | none => exact .bind (.step (by simp only [hx, hr]))
  | some rb => exact releaseHandle_faults hx hr (.inl hf)

theorem releaseHandle_yields (hx : s.handles[h]? = some x) (hr : s.rbs[x.inst]? = some rb)
    (hf : ¬(x.released = true ∨ rb.refs = 0)) : (releaseHandle h).Yields s (.ok .unit)
      { (s.modRb x.inst fun r => { r with refs := r.refs - 1 }) with
        handles := s.handles.modify h fun y => { y with released := true } } :=
  .bind (.step (n := 0) (by simp only [hx, hr, if_neg hf])) (.ok _)

/-- A use of a released handle faults before anything else (log entry 51). -/
theorem onBus_released {y : Nat → Op (Except Err Res)} (hx : s.handles[h]? = some x) (hf : x.released = true) :
    (onBus (.handle h) y).Faults s .doubleRelease s :=
  .bind (.step (by simp only [State.resolve, hx, hf, if_true]))

/-! ### `reset` (rule R217) -/

theorem setAa1_yields (c : Option U16) :
    (setAa1 i c).Yields s () (s.modRb i fun rb => { rb with aa1Cache := c }) := .set _

/-- The state after the part of `reset` that drops the AA1 cache of a slave. -/
def State.dropped (s : State) (i : Nat) (rb : Rb) : State :=
  s.modRb i fun x => { x with aa1Cache := if rb.backend = .mdioSlave then none else x.aa1Cache }

theorem resetOn_unsupported (h : s.rbs[i]? = some rb) (hu : (rb.sleeps && s.atomic) = false)
    (hn : rb.hasReset = false) : (resetOn i).Yields s (.error .unsupported) s := by
  refine .bind (contextCheck_yields h hu) (.bind (capability_yields h _) ?_)
  simp only [hn, Bool.false_eq_true, if_false, Nat.zero_ne_one]
  exact .raise _

/-- A supported reset drops the AA1 cache and goes on with its transaction. -/
theorem resetOn_supported {r : Except Err Nat} (h : s.rbs[i]? = some rb) (hu : (rb.sleeps && s.atomic) = false)
    (hn : rb.hasReset = true) (ht : (backendReset i).Yields (s.dropped i rb) r t) : (resetOn i).Yields s r t := by
  refine .bind (contextCheck_yields h hu) (.bind (capability_yields h _) ?_)
  simp only [hn, if_true]
  refine .bind (backendOf_yields h) ?_
  by_cases hk : rb.backend = .mdioSlave
  · rw [State.dropped] at ht
    simp only [hk, if_true] at ht
    simp only [hk, Backend.code, if_true]
    exact .bind (setAa1_yields none) ht
  · have code : rb.backend.code ≠ 2 := fun hc => hk (by revert hc; cases rb.backend <;> simp [Backend.code])
    have kept : s.dropped i rb = s := by
      simp only [State.dropped, hk, if_false, State.modRb]
      rw [modify_self _ _ _ fun _ _ => rfl]
    rw [kept] at ht
    rwa [if_neg code]

theorem backendReset_completes (hc : s.turns = []) :
    (backendReset i).Yields s (.ok 0) ((s.resetFar i).log i .busReset true) :=
  .tryXfer (s.clear_of_nil hc 1) (by rw [dropTurns_of_nil hc])

theorem backendReset_fails (ht : s.turns = .fail l :: m) : (backendReset i).Yields s (.error .io)
    ((if l then (s.withTurns m).resetFar i else s.withTurns m).log i .busReset false) :=
  .tryXfer_fails ht rfl

theorem resetFar_doing (s : State) (op : Instr) (i : Nat) : (s.doing op).resetFar i = (s.resetFar i).doing op := by
  simp only [State.resetFar, show (s.doing op).rbs = s.rbs from rfl]
  cases s.rbs[i]? <;> rfl

theorem landedReset_doing (s : State) (op : Instr) (l : Bool) (i : Nat) :
    (if l then (s.doing op).resetFar i else s.doing op) = (if l then s.resetFar i else s).doing op := by
  cases l
  · rfl
  · exact resetFar_doing s op i

theorem State.dropped_doing (s : State) (op : Instr) (i : Nat) (rb : Rb) :
    (s.doing op).dropped i rb = (s.dropped i rb).doing op := rfl

/-- A reset leaves every byte alone of the other far ends, and of its own where the effect keeps them. -/
theorem resetFar_farByte (hr : s.rbs[i]? = some rb) {j : Nat} (x : Nat) (h : j ≠ i ∨ rb.cfg.resetEffect = .keep) :
    (s.resetFar i).farByte j x = s.farByte j x := by
  simp only [State.resetFar, hr, State.farByte, State.modFar_fars, List.getElem?_modify]
  cases s.fars[j]? with
  | none => rfl
  | some e =>
    by_cases hij : i = j
    · have keep := h.resolve_left fun hj => hj hij.symm
      simp [hij, keep, FarEnd.reset]
    · simp [hij]

end

/-- Settles O27: the binding of the key decides. -/
theorem lookupBinds : Obligations.LookupBinds := by
  unfold Obligations.LookupBinds
  intro s k hi
  cases hf : s.topo.find? fun e => decide (e.1 = k) with
  | none =>
    have unbound : s.bound k = none := by simp only [State.bound, hf]
    exact State.perform_plain_yields hi (lookupKey_unbound unbound)
  | some e =>
    have bound : s.bound k = some e.2 := by simp only [State.bound, hf]
    exact State.perform_plain_yields (t := { s.modRb e.2 fun rb => { rb with refs := rb.refs + 1 } with
      handles := s.handles ++ [⟨e.2, false⟩] }) hi (lookupKey_binds bound)

/-- Settles O26: the context check, the capability, the cache and the one transaction. -/
theorem busReset : Obligations.BusReset := by
  unfold Obligations.BusReset
  intro s b i rb hi hn hu
  have named (op : Instr) : (s.doing op).rbs[i]? = some rb := hn.1
  have context : (rb.sleeps && (s.doing (.reset b)).atomic) = false := by rwa [State.doing_atomic hi.1 rfl]
  refine ⟨fun hr => ?unsupported, fun hr ht => ?completes, fun hr l m ht => ?fails, fun j x hj => ?bytes⟩
  case unsupported => exact State.perform_onBus_yields hi hn (asUnit_error (resetOn_unsupported (named _) context hr))
  case completes =>
    have resets := resetOn_supported (named _) context hr (backendReset_completes (i := i) ht)
    rw [State.dropped_doing, resetFar_doing] at resets
    exact State.perform_onBus_yields (t := ((s.dropped i rb).resetFar i).log i .busReset true) hi hn
      (asUnit_yields resets)
  case fails =>
    have resets := resetOn_supported (named _) context hr (backendReset_fails (i := i) ht)
    rw [State.dropped_doing, State.doing_withTurns, landedReset_doing] at resets
    exact State.perform_onBus_yields (t := (if l then ((s.dropped i rb).withTurns m).resetFar i
      else (s.dropped i rb).withTurns m).log i .busReset false) hi hn (asUnit_error resets)
  case bytes =>
    have there : (s.dropped i rb).rbs[i]? =
        some { rb with aa1Cache := if rb.backend = .mdioSlave then none else rb.aa1Cache } :=
      getElem?_modify_self _ _ _ _ hn.1
    exact resetFar_farByte there x hj

end Sys2Proof.Machine

namespace Sys2Proof

open Machine

/-- Settles O28: the mark of the handle and the count decide, and the mark is looked at before anything else. -/
theorem releaseHandle : Obligations.ReleaseHandle := by
  unfold Obligations.ReleaseHandle
  refine ⟨fun s h x rb hi hx hr => ?release, fun s h x a w v hi hx hf i hm => ?use⟩
  case release =>
    split
    · exact State.perform_plain_faults hi (releaseHandle_faults hx hr ‹_›)
    · exact State.perform_plain_yields (t := { s.modRb x.inst fun r => { r with refs := r.refs - 1 } with
        handles := s.handles.modify h fun y => { y with released := true } }) hi (releaseHandle_yields hx hr ‹_›)
  case use =>
    have again : exec (.release h) s = .next (s.halt .doubleRelease) :=
      State.perform_plain_faults hi (releaseHandle_released hx hf)
    have used {op : Instr} {y : Nat → Op (Except Err Res)} :
        s.perform op (onBus (.handle h) y) = .next (s.halt .doubleRelease) :=
      State.perform_plain_faults hi (onBus_released hx hf)
    simp only [List.mem_cons, List.not_mem_nil, or_false] at hm
    rcases hm with rfl | rfl | rfl | rfl | rfl | rfl | rfl | rfl | rfl | rfl | rfl | rfl | rfl | rfl | rfl | rfl
    case inr.inr.inr.inr.inr.inl => exact again
    all_goals exact used

end Sys2Proof
end

section
/-!
The capability set over the backends (spec/40_register_bus.md rules R200 to R204): `read16` and `write16` are the
operations of the RegisterBus's backend, and a native 32-bit access is the native operation.
-/

namespace Sys2Proof.Machine

open Sys2Proof

section

variable {s : State} {b : BusRef} {i : Nat} {rb : Rb} {a : U32} {v : U16} {w : U32} {p p' : Instr}

/-! ### Operations that do not look at the operation of the agent

Where no turns are given, each of them ends, faults or is refused, and which of these does not depend on the operation
that the agent is in. -/

/-- What a step answers, whatever operation it is part of. -/
inductive StepSettles (f : State → Ans) (s : State) : Prop where
  | goes {n : Nat} {t : State} (turns : t.turns = []) (step : ∀ op, f (s.doing op) = .go n (t.doing op))
  | faults {x : Fault} (step : ∀ op, f (s.doing op) = .fault x (s.doing op))
  | refuses {x : Refusal} (step : ∀ op, f (s.doing op) = .refuse x)

/-- What becomes of an operation from a state, whatever larger operation it is part of. -/
inductive Op.Settles {α : Type} (o : Op α) (s : State) : Prop where
  | yields {r : α} {t : State} (turns : t.turns = []) (run : ∀ op, o.Yields (s.doing op) r (t.doing op))
  | faults {x : Fault} {t : State} (run : ∀ op, o.Faults (s.doing op) x (t.doing op))
  | refuses {x : Refusal} (run : ∀ op, o.Refuses (s.doing op) x)

/-- The operation settles wherever no turns are given. -/
def Op.Settled {α : Type} (o : Op α) : Prop := ∀ s : State, s.turns = [] → o.Settles s

section

variable {α β : Type}

theorem Op.settled_ret (r : α) : (Op.ret r).Settled := fun _ ht => .yields ht fun _ => .ret r

theorem Op.settled_fault (x : Fault) : (Op.fault x : Op α).Settled := fun _ _ => .faults fun _ => .fault x

theorem Op.Settled.bind {o : Op α} {g : α → Op β} (h : o.Settled) (hg : ∀ r, (g r).Settled) : (o.bind g).Settled := by
  intro s hs
  cases h s hs with
  | faults run => exact .faults fun op => (run op).bind
  | refuses run => exact .refuses fun op => (run op).bind
  | @yields r t ht run =>
    cases hg r t ht with
    | yields hu next => exact .yields hu fun op => (run op).bind (next op)
    | faults next => exact .faults fun op => .after (run op) (next op)
    | refuses next => exact .refuses fun op => .after (run op) (next op)

theorem Op.Settled.q {x : Op (Except Err α)} {g : α → Op (Except Err β)} (h : x.Settled) (hg : ∀ r, (g r).Settled) :
    (x.q g).Settled := by
  refine h.bind fun r => ?_
  cases r with
  | error e => exact settled_ret _
  | ok r => exact hg r

theorem Op.Refuses.txn {f : Verdict → State → Ans} {k : Nat → Op α} {x : Refusal} (hc : s.Clear 1)
    (hf : f .ok (s.dropTurns 1) = .refuse x) : (Op.txn f k).Refuses s x := by
  intro c seen; simp [Op.bind, Op.run, spend, takeTurns_clear s hc, hf]

theorem Op.settled_act {f : State → Ans} {k : Nat → Op α} (h : ∀ s : State, s.turns = [] → StepSettles f s)
    (hk : ∀ n, (k n).Settled) : (Op.act f k).Settled := by
  intro s hs
  cases h s hs with
  | faults step => exact .faults fun op => .act (step op)
  | refuses step => exact .refuses fun op => .act (step op)
  | @goes n t ht step =>
    cases hk n t ht with
    | yields hu next => exact .yields hu fun op => .act (step op) (next op)
    | faults next => exact .faults fun op => .after (.step (step op)) (next op)
    | refuses next => exact .refuses fun op => .after (.step (step op)) (next op)

theorem Op.settled_txn {f : Verdict → State → Ans} {k : Nat → Op α}
    (h : ∀ s : State, s.turns = [] → StepSettles (f .ok) s) (hk : ∀ n, (k n).Settled) : (Op.txn f k).Settled := by
  intro s hs
  have clear (op : Instr) : (s.doing op).Clear 1 := State.clear_of_nil _ hs 1
  have dropped (op : Instr) : f .ok ((s.doing op).dropTurns 1) = f .ok (s.doing op) :=
    congrArg _ (dropTurns_of_nil (s := s.doing op) hs 1)
  cases h s hs with
  | faults step => exact .faults fun op => .txn (clear op) ((dropped op).trans (step op))
  | refuses step => exact .refuses fun op => .txn (clear op) ((dropped op).trans (step op))
  | @goes n t ht step =>
    have first (op : Instr) := (dropped op).trans (step op)
    cases hk n t ht with
    | yields hu next => exact .yields hu fun op => .txn (clear op) (first op) (next op)
    | faults next => exact .faults fun op => .after (.xfer (clear op) (first op)) (next op)
    | refuses next => exact .refuses fun op => .after (.xfer (clear op) (first op)) (next op)

theorem Op.settled_step {f : State → Ans} (h : ∀ s : State, s.turns = [] → StepSettles f s) : (Op.step f).Settled :=
  settled_act h settled_ret

theorem Op.settled_tryXfer {f : Verdict → State → Ans} (h : ∀ s : State, s.turns = [] → StepSettles (f .ok) s) :
    (Op.tryXfer f).Settled := settled_txn h fun _ => settled_ret _

theorem Op.settled_set {f : State → State} (turns : ∀ s, (f s).turns = s.turns)
    (doing : ∀ s op, f (s.doing op) = (f s).doing op) : (Op.set f).Settled :=
  settled_act (fun s hs => .goes ((turns s).trans hs) fun op => congrArg _ (doing s op)) fun _ => settled_ret ()

theorem StepSettles.onRb {g : Rb → State → Ans} (h : ∀ rb, StepSettles (g rb) s) :
    StepSettles (fun u => u.onRb i fun rb => g rb u) s := by
  cases hr : s.rbs[i]? with
  | none => exact .refuses fun op => by rw [State.onRb, show (s.doing op).rbs[i]? = none from hr]
  | some rb =>
    have at_rb (op : Instr) := State.onRb_some (s := s.doing op) hr fun rb => g rb (s.doing op)
    cases h rb with
    | goes ht step => exact .goes ht fun op => (at_rb op).trans (step op)
    | faults step => exact .faults fun op => (at_rb op).trans (step op)
    | refuses step => exact .refuses fun op => (at_rb op).trans (step op)

/-- A transaction that reads a far-end register and is recorded. -/
theorem StepSettles.read {f : U16 → Nat} {y : U16 → Wire} (hs : s.turns = []) :
    StepSettles (fun s => .go (f (s.farRead16 i a).1) ((s.farRead16 i a).2.log i (y (s.farRead16 i a).1) true)) s :=
  .goes (n := f (s.farRead16 i a).1) (t := (s.farRead16 i a).2.log i (y (s.farRead16 i a).1) true)
    ((farRead16_turns s i a).trans hs)
    fun op => by rw [farRead16_doing]; rfl

/-- A transaction that writes one and is recorded. -/
theorem StepSettles.write {n : Nat} {y : Wire} (hs : s.turns = []) :
    StepSettles (fun s => .go n ((s.farWrite16 i a v).log i y true)) s :=
  .goes (t := (s.farWrite16 i a v).log i y true) ((farWrite16_turns s i a v).trans hs)
    fun op => by rw [farWrite16_doing]; rfl

end

/-! ### Accesses settle -/

section

variable {x : Op (Except Err Nat)}

theorem evenOnly_settled (h : x.Settled) : (evenOnly a x).Settled := by
  unfold evenOnly
  split
  · exact Op.settled_fault _
  · exact h

theorem alignedOnly_settled (h : x.Settled) : (alignedOnly a x).Settled := by
  unfold alignedOnly
  split
  · exact h
  · exact Op.settled_fault _

theorem mmioXfer_settled {f : Rb → State → Ans} (h : ∀ rb (s : State), s.turns = [] → StepSettles (f rb) s) :
    (mmioXfer i f).Settled :=
  (Op.settled_txn (fun s hs => .onRb fun rb => h rb s hs) Op.settled_ret).bind fun n => Op.settled_ret (Except.ok n)

theorem nativeRead32On_settled : (nativeRead32On i a).Settled :=
  alignedOnly_settled <| mmioXfer_settled fun rb s hs =>
    .goes (n := (s.farRead32 i a).1.toNat)
      (t := (s.farRead32 i a).2.log i (.ioLoad (rb.cfg.mmioBase + a.toNat) 4 (s.farRead32 i a).1) true)
      (by obtain ⟨n, h⟩ := farRead32_snd s i a; rw [State.log_turns, h]; simpa [afterDraws_eq] using hs)
      fun op => by rw [farRead32_doing]; rfl

theorem farWrite32_turns (s : State) (i : Nat) (a w : U32) : (s.farWrite32 i a w).turns = s.turns := by
  unfold State.farWrite32
  split
  · rfl
  · rfl
  · rw [farWrite16_turns, farWrite16_turns]

theorem nativeWrite32On_settled : (nativeWrite32On i a w).Settled :=
  alignedOnly_settled <| mmioXfer_settled fun rb s hs =>
    .goes (t := (s.farWrite32 i a w).log i (.ioStore (rb.cfg.mmioBase + a.toNat) 4 w) true)
      ((farWrite32_turns s i a w).trans hs) fun op => by rw [farWrite32_doing]; rfl

theorem modRb_settled (f : Rb → Rb) : (Op.set fun s => s.modRb i f).Settled :=
  Op.settled_set (fun _ => rfl) fun _ _ => rfl

theorem mdioBegin_settled : (mdioBegin i).Settled := by
  refine Op.settled_step fun s hs => .onRb fun rb => ?_
  by_cases hb : rb.busy = none ∨ rb.busy = some s.me.id
  · exact .goes (t := s.modRb i fun r => { r with busy := some s.me.id }) hs fun op => if_pos hb
  · exact .faults fun op => if_neg hb

theorem mdioAccess_settled (h : x.Settled) : (mdioAccess i x).Settled :=
  mdioBegin_settled.bind fun _ => h.bind fun r =>
    (modRb_settled _).bind fun _ => Op.settled_ret r

/-- An MDIO write, with the far-end write that it completes or with none. -/
theorem mdioPost_settled (word : RbCfg → Wire) (far : Option (U32 × U16)) : (mdioPost i word far).Settled :=
  Op.settled_tryXfer fun s hs => .onRb fun rb => by
    cases far with
    | none => exact .goes (t := s.log i (word rb.cfg) true) hs fun op => rfl
    | some z => exact .write hs

theorem mdioReadOn_settled (phy reg : RbCfg → U5) : (mdioReadOn i phy reg a).Settled :=
  Op.settled_tryXfer fun _ hs => .onRb fun rb =>
    .read (f := (·.toNat + 1)) (y := .mdioRead (phy rb.cfg) (reg rb.cfg)) hs

theorem mdioFetch_settled (addr : RbCfg → Wire) (phy reg : RbCfg → U5) : (mdioFetch i addr phy reg a).Settled :=
  (mdioPost_settled addr none).q fun _ => mdioReadOn_settled phy reg

theorem mdioStore_settled (order : RbCfg → WriteOrder) (data addr : RbCfg → Wire) :
    (mdioStore i order data addr a v).Settled := by
  refine Op.Settled.bind (Op.settled_step fun _ hs => .onRb fun rb => .goes hs fun op => rfl) fun dataFirst => ?_
  split
  · exact (mdioPost_settled _ _).q fun _ => mdioPost_settled _ _
  · exact (mdioPost_settled _ _).q fun _ => mdioPost_settled _ _

theorem slaveSelectHigh_settled : (slaveSelectHigh i a).Settled := by
  refine Op.Settled.bind (Op.settled_step fun s hs => .onRb fun rb => .goes hs fun op => rfl) fun hit => ?_
  split
  · exact Op.settled_ret _
  · refine Op.Settled.bind (mdioPost_settled (slaveSelect a) none) fun r => ?_
    cases r with
    | error e => exact (modRb_settled _).bind fun _ => Op.settled_ret _
    | ok n => exact (modRb_settled _).bind fun _ => Op.settled_ret _

theorem bridgeRange_settled : (bridgeRange i a).Settled := by
  refine Op.settled_step fun s hs => .onRb fun rb => ?_
  by_cases hr : 31 < bridgePhy rb.cfg.bridgeBits a
  · exact .faults fun op => if_pos hr
  · exact .goes hs fun op => if_neg hr

/-- The read of every backend settles. -/
theorem backendRead16_settled (k : Backend) : (backendRead16 i a k).Settled := by
  cases k with
  | mmio =>
    exact evenOnly_settled <| mmioXfer_settled fun rb s hs =>
      .read (f := (·.toNat)) (y := fun v => .ioLoad (rb.cfg.mmioBase + a.toNat) 2 (v.setWidth 32)) hs
  | i2c =>
    exact Op.settled_tryXfer fun s hs => .onRb fun rb =>
      .read (f := fun v => v.toNat + 1) (y := fun v => .i2c rb.cfg.i2cSlave (i2cReadFrame a) (i2cDataFrame v)) hs
  | mdioSlave =>
    exact evenOnly_settled <| mdioAccess_settled <|
      slaveSelectHigh_settled.q fun _ => mdioFetch_settled (slaveAddr a Config.mdioRwRead) _ _
  | mdioBridge =>
    exact evenOnly_settled <| bridgeRange_settled.bind fun _ =>
      mdioAccess_settled <| mdioFetch_settled (bridgeAddr a Config.mdioRwRead) _ _

/-- The write of every backend settles. -/
theorem backendWrite16_settled (k : Backend) : (backendWrite16 i a v k).Settled := by
  cases k with
  | mmio =>
    exact evenOnly_settled <| mmioXfer_settled fun rb s hs => .write hs
  | i2c =>
    exact Op.settled_tryXfer fun s hs => .onRb fun rb => .write hs
  | mdioSlave =>
    exact evenOnly_settled <| mdioAccess_settled <|
      slaveSelectHigh_settled.q fun _ =>
        mdioStore_settled (·.mdioOrder) (slaveData v) (slaveAddr a Config.mdioRwWrite)
  | mdioBridge =>
    exact evenOnly_settled <| bridgeRange_settled.bind fun _ =>
      mdioAccess_settled <| mdioStore_settled (·.bridgeOrder) (bridgeData a v) (bridgeAddr a Config.mdioRwWrite)

end

/-! ### Dispatch -/

theorem Op.LeadsTo.bind {α β : Type} {o o' : Op α} {g : α → Op β} (h : o.LeadsTo o' s) :
    (o.bind g).LeadsTo (o'.bind g) s := by
  intro k seen
  rw [Op.bind_assoc, Op.bind_assoc]
  exact h _ seen

theorem Op.LeadsTo.refuses {α : Type} {o o' : Op α} {x : Refusal} (h : o.LeadsTo o' s) (hr : o'.Refuses s x) :
    o.Refuses s x := by
  intro k seen
  obtain ⟨seen', e⟩ := h k seen
  exact e.trans (hr k seen')

/-- Two operations that lead to one settled end have one outcome. -/
theorem Op.Settled.outcome {o x y : Op (Except Err Res)} (h : o.Settled) (hs : s.Ready)
    (hx : x.LeadsTo o (s.doing p)) (hy : y.LeadsTo o (s.doing p')) : s.perform p x = s.perform p' y := by
  obtain ⟨hi, ht⟩ := hs
  have begins (op : Instr) := State.start_eq_doing hi op
  rw [← begins] at hx hy
  cases h s ht with
  | yields _ run =>
    simp only [← begins] at run
    rw [State.perform_yields hi (hx.yields (run p)), State.perform_yields hi (hy.yields (run p'))]
    rfl
  | faults run =>
    simp only [← begins] at run
    rw [State.perform_faults hi (hx.faults (run p)), State.perform_faults hi (hy.faults (run p'))]
    rfl
  | refuses run =>
    simp only [← begins] at run
    rw [State.perform_refuses hi (hx.refuses (run p)), State.perform_refuses hi (hy.refuses (run p'))]

/-- An operation that checks the context and then goes on as a backend operation has the outcome of that. -/
theorem State.perform_dispatches {x y : Nat → Op (Except Err Res)} (hs : s.Ready) (hn : s.Names b i rb)
    (hp : atomicOp (some p) = false) (hp' : atomicOp (some p') = false)
    (sleeps : ∀ u : State, u.rbs[i]? = some rb → (rb.sleeps && u.atomic) = true → (x i).Faults u .atomicSleep u)
    (leads : ∀ u : State, u.rbs[i]? = some rb → (rb.sleeps && u.atomic) = false → (x i).LeadsTo (y i) u)
    (settled : (y i).Settled) : s.perform p (onBus b x) = s.perform p' (backendOp b y) := by
  have hi := hs.1
  have named (op : Instr) : (s.doing op).Names b i rb := hn
  have resolves (op : Instr) (z : Nat → Op (Except Err Res)) : (onBus b z).LeadsTo (z i) (s.doing op) :=
    (resolveBus_yields (named op)).leadsTo
  cases hu : rb.sleeps && s.atomic with
  | true =>
    have atomic {op : Instr} (h : atomicOp (some op) = false) : (rb.sleeps && (s.doing op).atomic) = true := by
      rwa [State.doing_atomic hi.1 h]
    have left := (resolves p x).faults (sleeps _ hn.1 (atomic hp))
    have right := (resolves p' fun i => (contextCheck i).bind fun _ => y i).faults
      (.bind (contextCheck_faults hn.1 (atomic hp')))
    rw [State.perform_plain_faults hi left]
    exact (State.perform_plain_faults hi right).symm
  | false =>
    have atomic {op : Instr} (h : atomicOp (some op) = false) : (rb.sleeps && (s.doing op).atomic) = false := by
      rwa [State.doing_atomic hi.1 h]
    exact settled.outcome hs ((resolves p x).trans (leads _ hn.1 (atomic hp)))
      ((resolves p' _).trans (contextCheck_yields (s := s.doing p') hn.1 (atomic hp')).leadsTo)

end

end Sys2Proof.Machine
end

section
/-!
What `read16`, `write16`, `read32` and `write32` end in over any backend (spec/40_register_bus.md rules R200 to R204):
the far-end accesses, and nothing else but the bookkeeping of the bus.
-/

namespace Sys2Proof.Machine

open Sys2Proof

section

variable {s u : State} {b : BusRef} {i k : Nat} {rb : Rb} {a : U32} {v : U16} {w : U32} {c : Option U16} {l : List Xfer}
  {r : Except Err Res} {op : Instr}

/-! ### What the bookkeeping of a bus leaves -/

/-- A far-end read draws, and does nothing else. -/
theorem farRead16_still (s : State) (i j : Nat) (a : U32) : (s.farRead16 j a).2.still i = s.still i := by
  obtain ⟨n, h⟩ := farRead16_snd s j a
  rw [h, State.afterDraws_still]

theorem farRead16_sameBytes (s : State) (i : Nat) (a : U32) : s.SameBytes (s.farRead16 i a).2 := by
  obtain ⟨n, h⟩ := farRead16_snd s i a
  rw [h, afterDraws_eq]
  exact ⟨fun _ _ => rfl, fun _ => rfl⟩

theorem State.SameBytes.trans {t : State} (h : s.SameBytes t) (h' : t.SameBytes u) : s.SameBytes u :=
  ⟨fun j x => (h'.1 j x).trans (h.1 j x), fun x => (h'.2 x).trans (h.2 x)⟩

/-- The operation's end and the bookkeeping show in nothing but the caller. -/
theorem moved_finish_still (h : u.still i = s.still i) :
    ((u.moved i k c none l).finish r).still i = (s.finish r).still i := by
  have : (u.moved i k c none l).still i = s.still i := (State.moved_still u i k c none l).trans h
  exact congrArg (·.finish r) this

theorem moved_turns (h : u.turns = []) : (u.moved i k c none l).turns = [] := by
  rw [State.moved, h, List.drop_nil]

theorem moved_finish_turns (h : u.turns = []) : ((u.moved i k c none l).finish r).turns = [] := by
  rw [State.finish_turns, moved_turns h]

theorem moved_clear {n : Nat} (h : u.turns = []) : (u.moved i k c none l).Clear n :=
  State.clear_of_nil _ (moved_turns h) n

/-! ### Two halves (rules R203, R204) -/

theorem State.MayUse.congr (h : s.MayUse rb) (hu : u.atomic = s.atomic) :
    u.MayUse { rb with aa1Cache := c, busy := none } := by
  refine ⟨?_, rfl⟩
  rw [hu]
  exact h.1

theorem State.MayUse.doing (h : s.MayUse rb) (hi : s.Idle) (hop : atomicOp (some op) = false) :
    (s.doing op).MayUse rb :=
  ⟨by rw [State.doing_atomic hi.1 hop]; exact h.1, h.2⟩

/-- The two halves of a word at the far end, low half first. -/
def State.farReadHalves (s : State) (i : Nat) (a : U32) : U32 × State :=
  let low := s.farRead16 i a
  let high := low.2.farRead16 i (highAddr a)
  (joinHalves high.1 low.1, high.2)

/-- The far end after the two halves of a word are written, low half first. -/
def State.farWriteHalves (s : State) (i : Nat) (a w : U32) : State :=
  (s.farWrite16 i a (lowHalf w)).farWrite16 i (highAddr a) (highHalf w)

theorem farReadHalves_doing (s : State) (op : Instr) (i : Nat) (a : U32) :
    (s.doing op).farReadHalves i a = ((s.farReadHalves i a).1, (s.farReadHalves i a).2.doing op) := by
  simp only [State.farReadHalves, farRead16_doing]

theorem farWriteHalves_doing (s : State) (op : Instr) (i : Nat) (a w : U32) :
    (s.doing op).farWriteHalves i a w = (s.farWriteHalves i a w).doing op := by
  simp only [State.farWriteHalves, farWrite16_doing]

section

variable (h : s.rbs[i]? = some rb) (hu : s.MayUse rb) (hlow : rb.reaches a = true)
  (hhigh : rb.reaches (highAddr a) = true) (ht : s.turns = [])
include h hu hlow hhigh ht

theorem read32On_decomposed (hn : rb.hasRead32 = false) : ∃ k c l,
    (read32On i a).Yields s (.ok (s.farReadHalves i a).1.toNat) ((s.farReadHalves i a).2.moved i k c none l) := by
  obtain ⟨l, low⟩ := read16On_yields h hu hlow (s.clear_of_nil ht _)
  obtain ⟨l', high⟩ := read16On_yields (a := highAddr a)
    (moved_rb (by rw [farRead16_rbs]; exact h) (rb.cost16 a) (rb.cache16 a) none l)
    (hu.congr (farRead16_atomic s i a)) hhigh (moved_clear ((farRead16_turns s i a).trans ht))
  rw [farRead16_moved, State.moved_moved] at high
  have joined := (read32On_halves h hu.1 hn).yields (low.q (high.q (.ok _)))
  simp only [BitVec.ofNat_toNat, BitVec.setWidth_eq] at joined
  exact ⟨_, _, l', joined⟩

theorem write32On_decomposed (hn : rb.hasWrite32 = false) : ∃ k c l,
    (write32On i a w).Yields s (.ok 0) ((s.farWriteHalves i a w).moved i k c none l) := by
  obtain ⟨l, low⟩ := write16On_yields (v := lowHalf w) h hu hlow (s.clear_of_nil ht _)
  obtain ⟨l', high⟩ := write16On_yields (a := highAddr a) (v := highHalf w)
    (moved_rb (by rw [farWrite16_rbs]; exact h) (rb.cost16 a) (rb.cache16 a) none l)
    (hu.congr (farWrite16_atomic s i a (lowHalf w))) hhigh
    (moved_clear ((farWrite16_turns s i a (lowHalf w)).trans ht))
  rw [farWrite16_moved, State.moved_moved] at high
  exact ⟨_, _, l', (write32On_halves h hu.1 hn).yields (low.q high)⟩

end

/-! ### The operations -/

section

variable (hs : s.Ready) (hn : s.Names b i rb) (hu : s.MayUse rb)
include hs hn hu

theorem read16_completes (hr : rb.reaches a = true) : ∃ k c l, exec (.read16 b a) s =
    .next (((s.farRead16 i a).2.moved i k c none l).finish (.ok (.val16 (s.farRead16 i a).1))) := by
  obtain ⟨l, reads⟩ := read16On_yields (s := s.doing (.read16 b a)) hn.1 (hu.doing hs.1 rfl) hr
    (State.clear_of_nil _ hs.2 _)
  simp only [farRead16_doing, moved_doing] at reads
  exact ⟨_, _, l, State.perform_onBus_yields hs.1 hn (asVal16_yields reads)⟩

theorem write16_completes (hr : rb.reaches a = true) : ∃ k c l, exec (.write16 b a v) s =
    .next (((s.farWrite16 i a v).moved i k c none l).finish (.ok .unit)) := by
  obtain ⟨l, writes⟩ := write16On_yields (s := s.doing (.write16 b a v)) (v := v) hn.1 (hu.doing hs.1 rfl) hr
    (State.clear_of_nil _ hs.2 _)
  simp only [farWrite16_doing, moved_doing] at writes
  exact ⟨_, _, l, State.perform_onBus_yields hs.1 hn (asUnit_yields writes)⟩

theorem read32_decomposed (hlow : rb.reaches a = true) (hhigh : rb.reaches (highAddr a) = true)
    (hd : rb.hasRead32 = false) : ∃ k c l, exec (.read32 b a) s =
    .next (((s.farReadHalves i a).2.moved i k c none l).finish (.ok (.val32 (s.farReadHalves i a).1))) := by
  obtain ⟨k, c, l, reads⟩ := read32On_decomposed (s := s.doing (.read32 b a)) hn.1 (hu.doing hs.1 rfl) hlow hhigh
    hs.2 hd
  simp only [farReadHalves_doing, moved_doing] at reads
  exact ⟨k, c, l, State.perform_onBus_yields hs.1 hn (asVal32_yields reads)⟩

theorem write32_decomposed (hlow : rb.reaches a = true) (hhigh : rb.reaches (highAddr a) = true)
    (hd : rb.hasWrite32 = false) : ∃ k c l, exec (.write32 b a w) s =
    .next (((s.farWriteHalves i a w).moved i k c none l).finish (.ok .unit)) := by
  obtain ⟨k, c, l, writes⟩ := write32On_decomposed (s := s.doing (.write32 b a w)) (w := w) hn.1 (hu.doing hs.1 rfl)
    hlow hhigh hs.2 hd
  simp only [farWriteHalves_doing, moved_doing] at writes
  exact ⟨k, c, l, State.perform_onBus_yields hs.1 hn (asUnit_yields writes)⟩

end

/-! ### Dispatch to the backend -/

section

variable (hs : s.Ready) (hn : s.Names b i rb)
include hs hn

theorem read16_dispatches (k : Backend) (hk : rb.backend = k) (hop : atomicOp (some op) = false) :
    exec (.read16 b a) s = s.perform op (backendOp b fun i => asVal16 (backendRead16 i a k)) :=
  State.perform_dispatches hs hn rfl hop (fun _ hr hu => .bind (.bind (contextCheck_faults hr hu)))
    (fun _ hr hu => (read16On_leads hr hu hk).bind) ((backendRead16_settled k).q fun _ => Op.settled_ret _)

theorem write16_dispatches (k : Backend) (hk : rb.backend = k) (hop : atomicOp (some op) = false) :
    exec (.write16 b a v) s = s.perform op (backendOp b fun i => asUnit (backendWrite16 i a v k)) :=
  State.perform_dispatches hs hn rfl hop (fun _ hr hu => .bind (.bind (contextCheck_faults hr hu)))
    (fun _ hr hu => (write16On_leads hr hu hk).bind) ((backendWrite16_settled k).q fun _ => Op.settled_ret _)

theorem read32_dispatches (hk : rb.hasRead32 = true) : exec (.read32 b a) s = exec (.nativeRead32 b a) s :=
  State.perform_dispatches hs hn rfl rfl (fun _ hr hu => .bind (.bind (contextCheck_faults hr hu)))
    (fun _ hr hu => (read32On_native hr hu hk).bind) (nativeRead32On_settled.q fun _ => Op.settled_ret _)

theorem write32_dispatches (hk : rb.hasWrite32 = true) : exec (.write32 b a w) s = exec (.nativeWrite32 b a w) s :=
  State.perform_dispatches hs hn rfl rfl (fun _ hr hu => .bind (.bind (contextCheck_faults hr hu)))
    (fun _ hr hu => (write32On_native hr hu hk).bind) (nativeWrite32On_settled.q fun _ => Op.settled_ret _)

end

end

/-- Settles O22: the backend's operation, which the far-end access completes. -/
theorem access16OnAnyBackend : Obligations.Access16OnAnyBackend := by
  unfold Obligations.Access16OnAnyBackend
  intro s b i rb a v hs hn
  refine ⟨?dispatchRead, ?dispatchWrite, fun hu hr => ⟨?read, ?write⟩⟩
  case dispatchRead =>
    cases hk : rb.backend with
    | mmio => exact read16_dispatches hs hn .mmio hk rfl
    | i2c => exact read16_dispatches hs hn .i2c hk rfl
    | mdioSlave => exact read16_dispatches hs hn .mdioSlave hk rfl
    | mdioBridge => exact read16_dispatches hs hn .mdioBridge hk rfl
  case dispatchWrite =>
    cases hk : rb.backend with
    | mmio => exact write16_dispatches hs hn .mmio hk rfl
    | i2c => exact write16_dispatches hs hn .i2c hk rfl
    | mdioSlave => exact write16_dispatches hs hn .mdioSlave hk rfl
    | mdioBridge => exact write16_dispatches hs hn .mdioBridge hk rfl
  case read =>
    obtain ⟨k, c, l, h⟩ := read16_completes hs hn hu hr
    exact ⟨_, h, moved_finish_turns ((farRead16_turns s i a).trans hs.2), farRead16_sameBytes s i a,
      moved_finish_still (farRead16_still s i i a)⟩
  case write =>
    obtain ⟨k, c, l, h⟩ := write16_completes (v := v) hs hn hu hr
    exact ⟨_, h, moved_finish_turns ((farWrite16_turns s i a v).trans hs.2), farWrite16_sameBytesBut s i a v,
      moved_finish_still rfl⟩

/-- Settles O23: the native operation where there is one, and else the two halves. -/
theorem access32OnAnyBackend : Obligations.Access32OnAnyBackend := by
  unfold Obligations.Access32OnAnyBackend
  intro s b i rb a v hs hn
  refine ⟨read32_dispatches hs hn, write32_dispatches hs hn,
    fun hu hlow hhigh => ⟨fun hd => ?read, fun hd => ?write⟩⟩
  case read =>
    obtain ⟨k, c, l, h⟩ := read32_decomposed hs hn hu hlow hhigh hd
    exact ⟨_, h, moved_finish_turns ((farRead16_turns _ i _).trans ((farRead16_turns s i a).trans hs.2)),
      (farRead16_sameBytes s i a).trans (farRead16_sameBytes _ i _),
      moved_finish_still ((farRead16_still _ i i _).trans (farRead16_still s i i a))⟩
  case write =>
    obtain ⟨k, c, l, h⟩ := write32_decomposed (w := v) hs hn hu hlow hhigh hd
    obtain ⟨lowFar, lowBuf⟩ := farWrite16_sameBytesBut s i a (lowHalf v)
    obtain ⟨highFar, highBuf⟩ := farWrite16_sameBytesBut (s.farWrite16 i a (lowHalf v)) i (highAddr a) (highHalf v)
    refine ⟨_, h, moved_finish_turns ((farWrite16_turns _ i _ _).trans ((farWrite16_turns s i a _).trans hs.2)),
      fun j x hx => (highFar j x (hx.imp_right And.right)).trans (lowFar j x (hx.imp_right And.left)),
      fun x => (highBuf x).trans (lowBuf x), moved_finish_still rfl⟩

end Sys2Proof.Machine
end

section
/-!
A 32-bit write and then a read at an address where no device register lies (spec/40_register_bus.md rules R203, R204,
spec/20_memory.md rule R110): a far end that keeps what is written gives it back.
-/

namespace Sys2Proof.Machine

open Sys2Proof

section

variable {s t : State} {b : BusRef} {i k : Nat} {rb : Rb} {e : FarEnd} {a x : U32} {v : U16} {w : U32} {c : Option U16}
  {l : List Xfer} {r : Except Err Res} {op : Instr}

/-! ### Addresses where no device register lies -/

/-- No device register lies at an address. -/
def State.BareAt (s : State) (i : Nat) (x : U32) : Prop := s.readTarget i x = none ∧ s.writeTarget i x = none

/-- No device register lies at either half of a word. -/
def State.Bare (s : State) (i : Nat) (a : U32) : Prop := ∀ x, x = evenAddr a ∨ x = evenAddr (highAddr a) → s.BareAt i x

theorem State.Bare.low (h : s.Bare i a) : s.BareAt i (evenAddr a) := h _ (.inl rfl)

theorem State.Bare.high (h : s.Bare i a) : s.BareAt i (evenAddr (highAddr a)) := h _ (.inr rfl)

theorem State.Bare.congr (h : s.Bare i a) (hm : SameMap s t) : t.Bare i a := by
  intro x hx
  rw [State.BareAt, readTarget_congr hm, writeTarget_congr hm]
  exact h x hx

/-- A native access there is one of the two halves (log entry 38). -/
theorem farRead32_bare (h : s.Bare i a) (ha : a &&& 3 = 0) : s.farRead32 i a = s.farReadHalves i a := by
  have none := h.low.1
  rw [(evenAddr_aligned4 ha).1] at none
  simp only [State.farRead32, none]
  rfl

theorem farWrite32_bare (h : s.Bare i a) (ha : a &&& 3 = 0) (w : U32) :
    s.farWrite32 i a w = s.farWriteHalves i a w := by
  have none := h.low.2
  rw [(evenAddr_aligned4 ha).1] at none
  simp only [State.farWrite32, none]
  rfl

/-! ### A far end that keeps what is written -/

/-- The far end shows a value at an address, and a read of it takes no draw. -/
def State.Holds (s : State) (i : Nat) (a : U32) (v : U16) : Prop := s.farRead16 i a = (v, s)

theorem State.holds_of_stored (h : s.readTarget i (evenAddr a) = none) (hv : s.storedAt i (evenAddr a) = some v) :
    s.Holds i a v := by
  simp only [State.Holds, State.farRead16, h, hv]

theorem farReadHalves_eq {low high : U16} (hl : s.Holds i a low) (hh : s.Holds i (highAddr a) high) :
    s.farReadHalves i a = (joinHalves high low, s) := by
  rw [State.Holds] at hl hh
  simp only [State.farReadHalves, hl, hh]

theorem evenAddr_eq_shift (a : U32) : evenAddr a = (a >>> 1) <<< 1 := by
  refine BitVec.eq_of_getLsbD_eq fun k hk => ?_
  rw [evenAddr, BitVec.getLsbD_and, BitVec.getLsbD_shiftLeft, BitVec.getLsbD_ushiftRight]
  cases k with
  | zero => simp
  | succ k =>
    rw [evenMask_getLsbD k (by omega)]
    simp [hk, Nat.add_comm, -BitVec.getLsbD_eq_getElem]

theorem evenAddr_toNat (a : U32) : (evenAddr a).toNat = 2 * (a.toNat / 2) := by
  rw [evenAddr_eq_shift]
  simp only [BitVec.toNat_shiftLeft, BitVec.toNat_ushiftRight, Nat.shiftRight_eq_div_pow, Nat.shiftLeft_eq]
  omega

/-- Two neighbouring registers do not overlap, across the end of the address space either. -/
theorem evenAddr_halves_disjoint (a : U32) : (evenAddr (highAddr a)).toNat + 2 ≤ (evenAddr a).toNat ∨
    (evenAddr a).toNat + 2 ≤ (evenAddr (highAddr a)).toNat := by
  have two : (2 : U32).toNat = 2 := rfl
  rw [evenAddr_toNat, evenAddr_toNat, highAddr, BitVec.toNat_add, two]
  omega

/-- The far end after both halves of a word are stored, low half first. -/
def FarEnd.storeHalves (e : FarEnd) (o : Endian) (a w : U32) : FarEnd :=
  (e.store o (evenAddr a) (lowHalf w)).store o (evenAddr (highAddr a)) (highHalf w)

theorem FarEnd.storeHalves_low (hk : e.keeps = true) (o : Endian) (a w : U32) :
    (e.storeHalves o a w).stored o (evenAddr a) = some (lowHalf w) := by
  rw [FarEnd.storeHalves, FarEnd.stored_store_other _ _ _ _ _ (evenAddr_halves_disjoint a).symm]
  exact FarEnd.stored_store e _ _ _ hk

theorem FarEnd.storeHalves_high (hk : e.keeps = true) (o : Endian) (a w : U32) :
    (e.storeHalves o a w).stored o (evenAddr (highAddr a)) = some (highHalf w) := FarEnd.stored_store _ _ _ _ hk

/-- A word written where no device register lies changes the far end alone. -/
theorem farWriteHalves_bare (h : s.Bare i a) (w : U32) :
    s.farWriteHalves i a w = s.modFar i fun e => e.storeHalves (s.farOrder i) a w := by
  have high := (h.congr (.farWrite16 s i a (lowHalf w))).high.2
  rw [State.farWriteHalves, farWrite16_none _ high, farWrite16_none _ h.low.2]
  exact congrArg (fun fars => { s with fars := fars }) (modify_modify _ _ _ _)

/-- A word stored in halves is shown in halves. -/
theorem storeHalves_holds (he : s.fars[i]? = some e) (hk : e.keeps = true) (h : s.Bare i a) (w : U32) :
    let t := s.modFar i fun e => e.storeHalves (s.farOrder i) a w
    t.Holds i a (lowHalf w) ∧ t.Holds i (highAddr a) (highHalf w) := by
  intro t
  have bare : t.Bare i a := h.congr (.modFar s i _)
  have far : t.fars[i]? = some (e.storeHalves (t.farOrder i) a w) := by
    rw [State.modFar_fars, List.getElem?_modify_eq, he]
    rfl
  refine ⟨State.holds_of_stored bare.low.1 ?_, State.holds_of_stored bare.high.1 ?_⟩
  · rw [State.storedAt, far]
    exact FarEnd.storeHalves_low hk _ _ _
  · rw [State.storedAt, far]
    exact FarEnd.storeHalves_high hk _ _ _

/-! ### The end of an access -/

/-- Where only a far end has changed, the next operation can be made as this one could. -/
theorem moved_finish_usable {f : FarEnd → FarEnd} (hs : s.Ready) (hn : s.Names b i rb) (hu : s.MayUse rb) (k : Nat)
    (c : Option U16) (l : List Xfer) (r : Except Err Res) :
    let t := ((s.modFar i f).moved i k c none l).finish r
    let rb' : Rb := { rb with aa1Cache := c, busy := none }
    t.Ready ∧ t.Names b i rb' ∧ t.MayUse rb' ∧ SameMap s t := by
  refine ⟨⟨⟨rfl, hs.1.2⟩, moved_finish_turns hs.2⟩, ⟨moved_rb (s := s.modFar i f) hn.1 k c none l, hn.2⟩,
    hu.congr ?_, (SameMap.modFar s i f).trans ((SameMap.moved _ i k c none l).trans (.setMe _ _))⟩
  simp only [State.atomic, hs.1.1]
  rfl

theorem State.Holds.moved_finish (h : s.Holds i a v) (k : Nat) (c : Option U16) (l : List Xfer)
    (r : Except Err Res) : ((s.moved i k c none l).finish r).Holds i a v := by
  rw [State.Holds, State.finish, farRead16_setMe, farRead16_moved, h]

section

variable (hs : s.Ready) (hn : s.Names b i rb) (hu : s.MayUse rb) (hb : s.Bare i a)
include hs hn hu hb

theorem read32_bare_completes (hr : rb.reaches32 rb.hasRead32 a = true) : ∃ k c l, exec (.read32 b a) s =
    .next (((s.farReadHalves i a).2.moved i k c none l).finish (.ok (.val32 (s.farReadHalves i a).1))) := by
  cases hk : rb.hasRead32 with
  | false =>
    rw [hk, Rb.reaches32, if_neg Bool.false_ne_true, Bool.and_eq_true] at hr
    exact read32_decomposed hs hn hu hr.1 hr.2 hk
  | true =>
    rw [hk, Rb.reaches32, if_pos rfl] at hr
    have reads := nativeRead32On_yields (s := s.doing (.nativeRead32 b a)) hn.1 hu.2 hr (State.clear_of_nil _ hs.2 1)
    rw [farRead32_doing, moved_doing, farRead32_bare hb ((isAligned4_iff a).mp hr)] at reads
    exact ⟨_, _, _, (read32_dispatches hs hn hk).trans
      (State.perform_backendOp_yields hs.1 hn rfl hu.1 (asVal32_yields reads))⟩

theorem write32_bare_completes (hr : rb.reaches32 rb.hasWrite32 a = true) : ∃ k c l, exec (.write32 b a w) s =
    .next (((s.farWriteHalves i a w).moved i k c none l).finish (.ok .unit)) := by
  cases hk : rb.hasWrite32 with
  | false =>
    rw [hk, Rb.reaches32, if_neg Bool.false_ne_true, Bool.and_eq_true] at hr
    exact write32_decomposed hs hn hu hr.1 hr.2 hk
  | true =>
    rw [hk, Rb.reaches32, if_pos rfl] at hr
    have writes := nativeWrite32On_yields (s := s.doing (.nativeWrite32 b a w)) (v := w) hn.1 hu.2 hr
      (State.clear_of_nil _ hs.2 1)
    rw [farWrite32_doing, moved_doing, farWrite32_bare hb ((isAligned4_iff a).mp hr)] at writes
    exact ⟨_, _, _, (write32_dispatches hs hn hk).trans
      (State.perform_backendOp_yields hs.1 hn rfl hu.1 (asUnit_yields writes))⟩

end

end

/-- Settles O25: the write leaves the far end holding both halves, and the reads after it find them. -/
theorem roundTrip32 : Obligations.RoundTrip32 := by
  unfold Obligations.RoundTrip32
  intro s b i rb e a v hs hn hu hr he hk hbare
  obtain ⟨k, c, l, writes⟩ := write32_bare_completes (w := v) hs hn hu hbare hr
  rw [farWriteHalves_bare hbare v] at writes
  obtain ⟨low, high⟩ := storeHalves_holds he hk hbare v
  obtain ⟨ready, names, use, map⟩ := moved_finish_usable (f := fun e => e.storeHalves (s.farOrder i) a v) hs hn hu
    k c l (.ok .unit)
  have low := low.moved_finish k c l (.ok .unit)
  have high := high.moved_finish k c l (.ok .unit)
  refine ⟨_, writes, rfl, rfl, fun hr => ?read32, fun hr => ?read16⟩
  case read32 =>
    obtain ⟨k', c', l', reads⟩ := read32_bare_completes ready names use (State.Bare.congr hbare map) hr
    rw [farReadHalves_eq low high, join_halves] at reads
    exact ⟨_, reads, rfl, rfl⟩
  case read16 =>
    obtain ⟨k', c', l', reads⟩ := read16_completes ready names use hr
    rw [low] at reads
    exact ⟨_, reads, rfl, rfl⟩

end Sys2Proof.Machine
end

section
/-!
What sleeps in atomic context (spec/40_register_bus.md rule R221, spec/60_faults.md rules R610 and R620): bus accesses
of a RegisterBus that sleeps, mutexes, and the wait for the triggers.
-/

namespace Sys2Proof.Machine

open Sys2Proof

section

variable {s t : State} {b : BusRef} {d h i k : Nat} {rb : Rb} {n : Nco} {x : Ts} {op : Instr} {f : Fault} {a : U32}

/-! ### Atomic context -/

/-- A caller that holds a spinlock is in atomic context in every operation. -/
theorem State.start_stays_atomic (hi : s.Idle) (ha : s.atomic = true) (op : Instr) : (s.start op).atomic = true := by
  have locked : (s.ncos.any fun n => n.spin && decide (n.lock = some s.me.id)) = true := by
    rwa [State.atomic, hi.1] at ha
  exact (Bool.or_eq_true _ _).mpr (.inr locked)

/-- A fault keeps what the operation has changed before it, and the operation itself does not show. -/
theorem State.perform_faults_after {o : Op (Except Err Res)} (hs : s.Idle) (ht : t.Idle)
    (ho : o.Faults (s.start op) f (t.start op)) : s.perform op o = .next (t.halt f) := by
  rw [← State.start_halt (i := op) ht]
  exact State.perform_faults hs ho

/-! ### The device lock of an NCO (rule R300) -/

theorem ncoEnter_yields {init : Bool} (hn : s.ncos[d]? = some n) (hr : n.removed = false) (hi : n.initialised = true) :
    (ncoEnter d init).Yields s 0 s :=
  .step (by simp [State.onNco_some hn, hr, hi])

/-- A mutex in atomic context faults, whatever it is to protect. -/
theorem ncoLocked_faults {α : Type} {o : Op (Except Err α)} (hn : s.ncos[d]? = some n) (hs : n.spin = false)
    (ha : s.atomic = true) : (ncoLocked d o).Faults s .atomicSleep s :=
  .bind (.step (by simp [State.onNco_some hn, hs, ha]))

/-! ### The mutexes and waits of a timestamper -/

section

variable (hx : s.tss[d]? = some x)
include hx

theorem tsEnter_yields (hr : x.removed = false) : (tsEnter d).Yields s 0 s :=
  .step (by simp [State.onTs_some hx, hr])

theorem tsGet_yields (g : Ts → Nat) : (tsGet d g).Yields s (g x) s := .step (State.onTs_some hx _)

section

variable (ha : s.atomic = true)
include ha

theorem acquireCfg_faults : (acquireCfg d).Faults s .atomicSleep s := .step (by simp [State.onTs_some hx, ha])

theorem acquireReaderInt_faults : (acquireReaderInt d).Faults s .atomicSleep s :=
  .step (by simp [State.onTs_some hx, ha])

theorem awaitTriggers_faults : (awaitTriggers d).Faults s .atomicSleep s := .step (by simp [State.onTs_some hx, ha])

theorem tsOpenOn_faults : (tsOpenOn d).Faults s .atomicSleep s := .bind (acquireCfg_faults hx ha)

theorem disableModeOn_direct_faults : (disableModeOn d .direct).Faults s .atomicSleep s :=
  .bind (awaitTriggers_faults hx ha)

/-- A change to `Direct` with a legal interval goes on to the configuration lock. -/
theorem changeSettingsOn_direct_faults {sec : U64} {nsec : U32} (hn : nsec.toNat < Config.giga) :
    (changeSettingsOn d 2 sec nsec).Faults s .atomicSleep s := by
  refine .after (tsGet_yields hx _) ?_
  rw [if_neg (by simp), if_neg (Nat.not_le.mpr hn)]
  exact .bind (acquireCfg_faults hx ha)

end

/-- A read of some records has begun on its handle (rule R505, log entry 20). -/
theorem needOpen_yields {max : Nat} (hh : x.handle h = .held k) (hm : max ≠ 0) :
    (needOpen d h max).Yields s 0 (s.modTs d fun y => y.setHandle h (.held (k + 1))) :=
  .step (by simp [State.onTs_some hx, hh, hm])

theorem tsReadOn_faults {len : U32} {nb : Bool} (ha : s.atomic = true) (hh : x.handle h = .held k)
    (hl : len.toNat / Config.recordSize ≠ 0) : (tsReadOn d h len nb).Faults s .atomicSleep
      (s.modTs d fun y => y.setHandle h (.held (k + 1))) := by
  refine .after (needOpen_yields hx hh hl) ?_
  rw [if_neg hl]
  exact .bind (.bind (acquireReaderInt_faults (getElem?_modify_self _ _ _ _ hx) ha))

end

/-! ### An interrupt handler that runs the check itself (rules R508, R510) -/

/-- The cells of timestamper `d` are those of `x`. -/
def State.setTs (s : State) (d : Nat) (x : Ts) : State := s.modTs d fun _ => x

theorem State.setTs_device (hx : s.tss[d]? = some x) (y : Ts) : (s.setTs d y).tss[d]? = some y :=
  getElem?_modify_self _ _ _ _ hx

theorem State.modTs_setTs (s : State) (d : Nat) (x : Ts) (g : Ts → Ts) : (s.setTs d x).modTs d g = s.setTs d (g x) :=
  congrArg (fun l => { s with tss := l }) (modify_modify _ _ _ _)

theorem State.setTs_setTs (s : State) (d : Nat) (x y : Ts) : (s.setTs d x).setTs d y = s.setTs d y :=
  State.modTs_setTs s d x fun _ => y

theorem State.modTs_eq_setTs (hx : s.tss[d]? = some x) (g : Ts → Ts) : s.modTs d g = s.setTs d (g x) :=
  State.modTs_congr hx rfl

/-- The index lock of a device, held by agent `c`. -/
def Ts.lockedBy (t : Ts) (c : Nat) : Ts := { t with indexLock := some c }

/-- A section inside an index lock that is free leaves it free. -/
theorem underIndex_yields {α : Type} {o : Op α} {r : α} {y : Ts} (hx : s.tss[d]? = some x) (hl : x.indexLock = none)
    (hy : y.indexLock = none)
    (ho : o.Yields (s.setTs d (x.lockedBy s.me.id)) r (s.setTs d (y.lockedBy s.me.id))) :
    (underIndex d o).Yields s r (s.setTs d y) := by
  have acquires : (acquireIndex d).Yields s 0 (s.setTs d (x.lockedBy s.me.id)) :=
    .step (by rw [State.onTs_some hx, if_pos hl, State.modTs_eq_setTs hx]; rfl)
  have released : ({ y.lockedBy s.me.id with indexLock := none } : Ts) = y := by rw [← hy]; rfl
  refine .bind acquires (.bind ho (.bind (.set _) ?_))
  rw [State.modTs_setTs, released]
  exact .ret r

/-- The first section of the event-check, on a device whose index lock is free (rules R508, R509). -/
theorem checkFull_yields (hx : s.tss[d]? = some x) (hl : x.indexLock = none) :
    (checkFull d).Yields s x.stuck.toNat (s.setTs d x.made) := by
  have locked := State.setTs_device hx (x.lockedBy s.me.id)
  by_cases full : x.bufCount = x.capacity
  · by_cases drained : x.readCount = x.bufCount
    · have made : x.made = x.reclaim := if_pos ⟨full, drained⟩
      have stuck : x.stuck = false := by simp [Ts.stuck, drained]
      rw [made, stuck]
      exact underIndex_yields hx hl hl
        (.step (by
          rw [State.onTs_some locked]
          exact ((if_pos full).trans (if_pos drained)).trans (congrArg _ (State.modTs_setTs s d _ Ts.reclaim))))
    · have made : x.made = x := if_neg fun h => drained h.2
      have stuck : x.stuck = true := by simp [Ts.stuck, full, full ▸ drained]
      rw [made, stuck]
      exact underIndex_yields hx hl hl
        (.step (by rw [State.onTs_some locked]; exact (if_pos full).trans (if_neg drained)))
  · have made : x.made = x := if_neg fun h => full h.1
    have stuck : x.stuck = false := by simp [Ts.stuck, full]
    rw [made, stuck]
    exact underIndex_yields hx hl hl (.step (by rw [State.onTs_some locked]; exact if_neg full))

/-- A register access of a timestamper whose RegisterBus faults at once. -/
theorem tsReg_faults {res : Resource} {r : TsReg} {o : Nat → U32 → Op (Except Err Nat)} (hx : s.tss[d]? = some x)
    (hres : x.res = some res) (hn : s.Names res.bus i rb) (ho : ∀ a, (o i a).Faults s f s) :
    (tsReg d r o).Faults s f s := by
  refine .after (.step (n := i) (t := s) ?_) (.after (.get _) (ho _))
  rw [State.onTs_some hx, hres]
  exact hn.resolve

theorem read32On_sleeps (hr : s.rbs[i]? = some rb) (hs : (rb.sleeps && s.atomic) = true) :
    (read32On i a).Faults s .atomicSleep s := .bind (contextCheck_faults hr hs)

/-- An event-check that does not end at its first section reads the status register. -/
theorem eventCheckOn_faults {res : Resource} (hx : s.tss[d]? = some x) (hl : x.indexLock = none)
    (hgo : ¬(x.stuck = true ∧ s.board.fullPolicy = .skip)) (hres : x.res = some res) (hn : s.Names res.bus i rb)
    (hs : (rb.sleeps && s.atomic) = true) : (eventCheckOn d).Faults s .atomicSleep (s.setTs d x.made) := by
  have same : x.made.res = x.res := by unfold Ts.made; split <;> rfl
  refine .after (checkFull_yields hx hl) (.after (.get _) ?_)
  rw [if_neg]
  · exact .bind (tsReg_faults (State.setTs_device hx x.made) (same.trans hres) hn fun a => read32On_sleeps hn.1 hs)
  · rintro ⟨stuck, skip⟩
    refine hgo ⟨Bool.toNat_eq_one.mp stuck, of_decide_eq_true (Bool.toNat_eq_one.mp skip)⟩

/-- A handler that defers nothing runs the check itself. -/
theorem tsIrqOn_faults {res : Resource} (hx : s.tss[d]? = some x) (hd : x.deferred = false) (hr : x.irqReady = true)
    (hl : x.indexLock = none) (hgo : ¬(x.stuck = true ∧ s.board.fullPolicy = .skip)) (hres : x.res = some res)
    (hn : s.Names res.bus i rb) (hs : (rb.sleeps && s.atomic) = true) :
    (tsIrqOn d).Faults s .atomicSleep (s.setTs d { x.made with irqRun := .checking }) := by
  have begins : x.beginIrq = { x with irqRun := .checking } := by simp [Ts.beginIrq, hd]
  have made : ({ x with irqRun := .checking } : Ts).made = { x.made with irqRun := .checking } := by
    unfold Ts.made
    split <;> rfl
  have takes := takeIrq_yields hx hr
  rw [State.modTs_eq_setTs hx, begins] at takes
  have checks := eventCheckOn_faults (s := s.setTs d { x with irqRun := .checking }) (State.setTs_device hx _) hl hgo
    hres hn hs
  rw [made, State.setTs_setTs] at checks
  refine .after takes ?_
  rw [if_neg (by simp [hd])]
  exact .bind checks

end

/-- Settles O20: each of them reaches a step that sleeps, having changed nothing or only begun its read. -/
theorem atomicSleepFaults : Obligations.AtomicSleepFaults := by
  unfold Obligations.AtomicSleepFaults
  refine ⟨fun s hi ha => ⟨?bus, ?nco, ?ts⟩, ?irq⟩
  case bus =>
    intro b i rb a v w hn
    refine ⟨fun hs => ?sleeps, fun hs hr => ?unsupported⟩
    case sleeps =>
      have check (op : Instr) : (contextCheck i).Faults (s.start op) .atomicSleep (s.start op) :=
        contextCheck_faults hn.1 (by rw [hs, State.start_stays_atomic hi ha]; rfl)
      have stops {op : Instr} {x : Nat → Op (Except Err Res)}
          (hx : (x i).Faults (s.start op) .atomicSleep (s.start op)) :
          s.perform op (onBus b x) = .next (s.halt .atomicSleep) := State.perform_onBus_faults hi hn hx
      simp only [List.forall_mem_cons, List.not_mem_nil, false_imp_iff, implies_true, and_true]
      exact ⟨stops (.bind (.bind (check _))), stops (.bind (.bind (check _))), stops (.bind (.bind (check _))),
        stops (.bind (.bind (check _))), stops (.bind (.bind (check _))), stops (.bind (check _)),
        stops (.bind (check _)), stops (.bind (check _)), stops (.bind (check _)), stops (.bind (check _)),
        stops (.bind (check _)), stops (.bind (check _)), stops (.bind (check _)), stops (.bind (check _)),
        stops (.bind (check _))⟩
    case unsupported =>
      exact State.perform_onBus_yields hi hn (asUnit_error (resetOn_unsupported hn.1 (by rw [hs]; rfl) hr))
  case nco =>
    intro d n sign ppb nsec sec hn hr hinit hs hnsec
    have stops {op : Instr} {init : Bool} {o : Op (Except Err Res)}
        (ho : o.Faults (s.start op) .atomicSleep (s.start op)) :
        s.perform op ((ncoEnter d init).bind fun _ => o) = .next (s.halt .atomicSleep) :=
      State.perform_faults_after hi hi (.after (ncoEnter_yields hn hr hinit) ho)
    have locked {α : Type} (op : Instr) (o : Op (Except Err α)) :
        (ncoLocked d o).Faults (s.start op) .atomicSleep (s.start op) :=
      ncoLocked_faults hn hs (State.start_stays_atomic hi ha op)
    refine ⟨stops (.bind (locked _ _)), stops (.bind ?_), stops (.bind (locked _ _)),
      stops (.bind (.bind (locked _ _)))⟩
    rw [adjustTimeOn, if_neg (Nat.not_le.mpr hnsec)]
    exact locked _ _
  case ts =>
    intro d h t len nb sec nsec ht hr
    have stops {op : Instr} {u : State} {o : Op (Except Err Nat)} {g : Nat → Op (Except Err Res)} (hu : u.Idle)
        (ho : o.Faults (s.start op) .atomicSleep (u.start op)) :
        s.perform op ((tsEnter d).bind fun _ => o.q g) = .next (u.halt .atomicSleep) :=
      State.perform_faults_after hi hu (.after (tsEnter_yields ht hr) ho.bind)
    have atomic (op : Instr) := State.start_stays_atomic hi ha op
    refine ⟨stops hi (tsOpenOn_faults ht (atomic _)), stops hi (disableModeOn_direct_faults ht (atomic _)),
      fun hn => stops hi (changeSettingsOn_direct_faults (s := s.start _) ht (atomic _) hn), fun k hk hl => ?read⟩
    case read =>
      have some : len.toNat / Config.recordSize ≠ 0 := Nat.ne_of_gt (Nat.div_pos hl (by decide))
      have held : t.handle h = .held k := by rw [Ts.handle, hk]; rfl
      exact stops hi (tsReadOn_faults (s := s.start _) ht (atomic _) held some)
  case irq =>
    intro s d i t res rb hi w hs hd hr hl hgo
    refine State.perform_faults_after hi hi (.after (tsEnter_yields w.device w.kept) (.bind ?_))
    exact tsIrqOn_faults w.device hd hr hl hgo w.resource w.names (by rw [hs]; rfl)

end Sys2Proof.Machine
end

section
/-!
The steps of an NCO's hardware (spec/41_nco.md rules R301, R302, R313): what a tick adds to the time, counted in units of
2^-32 ns, and what the completion of a command leaves.
-/

namespace Sys2Proof.Machine

open Sys2Proof

section

variable {h : NcoHw} {b : Bool}

/-! ### The time that a tick adds (rules R301, R313) -/

/-- Seconds, nanoseconds and fraction as one time in units of 2^-32 ns. -/
def fineTime (sec : Int) (nsec : Nat) (frac : U32) : Int := (sec * 1000000000 + nsec) * 2 ^ 32 + frac.toNat

/-- The active step in units of 2^-32 ns. -/
def NcoHw.fineStep (h : NcoHw) : Nat := h.stepNsec.toNat * 2 ^ 32 + h.stepSubnsec.toNat

/-- The carries of a step lose nothing. -/
theorem NcoHw.addStep_fineTime (n : Nat) (s : Int) :
    fineTime (h.addStep n s).2.1 (h.addStep n s).1 (h.addStep n s).2.2 = fineTime s n h.frac + h.fineStep := by
  have hgiga : Config.giga = 1000000000 := rfl
  unfold NcoHw.addStep
  dsimp only
  split <;> simp only [fineTime, NcoHw.fineStep, BitVec.toNat_ofNat] <;> omega

/-- A time below the second is the one that its seconds, nanoseconds and fraction give. -/
theorem fineTime_mod_seconds (s : Int) (n : Nat) (f : U32) :
    fineTime (BitVec.ofInt 48 s).toNat n f % (2 ^ 48 * 1000000000 * 2 ^ 32) =
      fineTime s n f % (2 ^ 48 * 1000000000 * 2 ^ 32) := by
  simp only [fineTime, BitVec.toNat_ofInt]
  omega

theorem NcoHw.tickNormal_nsec (hb : h.Below) : h.tickNormal.nsec.toNat = (h.addStep h.nsec.toNat h.sec.toNat).1 := by
  have below := NcoHw.addStep_below (h := h) h.sec.toNat hb
  refine (BitVec.toNat_ofNat _ _).trans (Nat.mod_eq_of_lt (Nat.lt_trans below ?_))
  decide

/-- From a time below the second a tick adds the step, but for whole turns of the seconds. -/
theorem NcoHw.tickNormal_fineTime (hb : h.Below) :
    fineTime h.tickNormal.sec.toNat h.tickNormal.nsec.toNat h.tickNormal.frac % (2 ^ 48 * 1000000000 * 2 ^ 32) =
      (fineTime h.sec.toNat h.nsec.toNat h.frac + h.fineStep) % (2 ^ 48 * 1000000000 * 2 ^ 32) := by
  rw [NcoHw.tickNormal_nsec hb, ← NcoHw.addStep_fineTime]
  exact fineTime_mod_seconds _ _ _

/-- What the applying tick makes of the time, before the nanoseconds are normalized. -/
def NcoHw.adjusted (h : NcoHw) (b : Bool) : Nat × Int × U32 :=
  if b then (h.nsec.toNat + h.adjNsec, h.sec.toNat + h.adjSec, h.frac)
  else h.addStep (h.nsec.toNat + h.adjNsec) (h.sec.toNat + h.adjSec)

/-- The applying tick adds what is staged, and the step where the adjustment does not take its place (rule R313). -/
theorem NcoHw.adjusted_fineTime (b : Bool) :
    fineTime (h.adjusted b).2.1 (h.adjusted b).1 (h.adjusted b).2.2 =
      fineTime (h.sec.toNat + h.adjSec) (h.nsec.toNat + h.adjNsec) h.frac + (if b then 0 else h.fineStep : Nat) := by
  cases b
  · exact NcoHw.addStep_fineTime _ _
  · exact (Int.add_zero _).symm

/-- The cells of the applying tick are the fraction, the nanoseconds and the seconds of the time it makes. -/
theorem NcoHw.tickAdjust_time {total : Int}
    (ht : fineTime (h.adjusted b).2.1 (h.adjusted b).1 (h.adjusted b).2.2 = total) :
    ((h.tickAdjust b).frac.toNat : Int) = total % 2 ^ 32 ∧
      ((h.tickAdjust b).nsec.toNat : Int) = total / 2 ^ 32 % 1000000000 ∧
      (h.tickAdjust b).sec = BitVec.ofInt 48 (total / 2 ^ 32 / 1000000000) := by
  have frac : (h.tickAdjust b).frac = (h.adjusted b).2.2 := rfl
  have nsec : (h.tickAdjust b).nsec = BitVec.ofNat 30 ((h.adjusted b).1 % 1000000000) := rfl
  have sec : (h.tickAdjust b).sec =
      BitVec.ofInt 48 ((h.adjusted b).2.1 + ((h.adjusted b).1 / 1000000000 : Nat)) := rfl
  have small := (h.adjusted b).2.2.isLt
  rw [frac, nsec, sec, ← ht, fineTime, BitVec.toNat_ofNat]
  refine ⟨by omega, by omega, congrArg _ (by omega)⟩

theorem NcoHw.tickAdjust_eq (h : NcoHw) (b : Bool) : h.tickAdjust b =
    { h with
      counter := h.counter + 1, sec := (h.tickAdjust b).sec, nsec := (h.tickAdjust b).nsec,
      frac := (h.tickAdjust b).frac, pendAdjClock := false } := rfl

/-! ### Completion of a command (rule R302) -/

theorem NcoHw.tick_applies (hp : h.pendAdjClock = true) (b : Bool) : h.tick b true = h.tickAdjust b := by
  simp [NcoHw.tick, hp]

theorem NcoHw.tick_steps (hp : h.pendAdjClock = false) (b apply : Bool) : h.tick b apply = h.tickNormal := by
  simp [NcoHw.tick, hp]

end

/-! ### Hardware steps as operations -/

section

variable {s : State} {d : Nat} {n : Nco} {c : Cmd}

theorem State.ncoTick_eq (hn : s.ncos[d]? = some n) (apply : Bool) :
    s.ncoTick d apply = s.modNcoHw d fun _ => n.hw.tick s.board.adjReplacesStep apply :=
  State.modNco_congr hn rfl

theorem ncoTickOn_free (hn : s.ncos[d]? = some n) (hp : n.hw.pendAdjClock = false) :
    (ncoTickOn d).Yields s (.ok 0) (s.modNcoHw d fun _ => n.hw.tickNormal) := by
  rw [← NcoHw.tick_steps hp s.board.adjReplacesStep false, ← State.ncoTick_eq hn]
  exact .bind (.step (n := 0) (by simp [State.onNco_some hn, hp])) (.ok 0)

/-- While an adjustment is pending, a draw decides whether the tick applies it (log entry 16). -/
theorem ncoTickOn_pending (hn : s.ncos[d]? = some n) (hp : n.hw.pendAdjClock = true) :
    (ncoTickOn d).Yields s (.ok 0) (s.afterDraw.modNcoHw d fun _ =>
      if s.drawn % 2 = 1 then n.hw.tickAdjust s.board.adjReplacesStep else n.hw.tickNormal) := by
  have ticks : s.afterDraw.ncoTick d (decide (s.drawn % 2 = 1)) = s.afterDraw.modNcoHw d fun _ =>
      if s.drawn % 2 = 1 then n.hw.tickAdjust s.board.adjReplacesStep else n.hw.tickNormal := by
    rw [State.ncoTick_eq (s := s.afterDraw) hn]
    by_cases draw : s.drawn % 2 = 1 <;> simp [NcoHw.tick, hp, draw]
  rw [← ticks]
  exact .bind (.step (n := 0) (by simp [State.onNco_some hn, hp])) (.ok 0)

theorem ncoCompleteOn_pending (hn : s.ncos[d]? = some n) (hp : n.hw.pending c = true) :
    (ncoCompleteOn d c).Yields s (.ok 0) (s.modNcoHw d fun _ => n.hw.complete s.board.adjReplacesStep c) := by
  have completes : s.ncoComplete d c = s.modNcoHw d fun _ => n.hw.complete s.board.adjReplacesStep c :=
    State.modNco_congr hn (by simp [hp])
  rw [← completes]
  exact .bind (.step (n := 0) (by simp [State.onNco_some hn, hp])) (.ok 0)

theorem ncoCompleteOn_waits (hn : s.ncos[d]? = some n) (hp : n.hw.pending c = false) :
    (ncoCompleteOn d c).Blocks s [] (s.setMe fun a => { a with blocked := some .other }) :=
  .bind (.act (by simp [State.onNco_some hn, hp, State.blockOn]))

end

/-- Settles O36: the step's carries lose nothing, and the applying tick normalizes what it adds. -/
theorem ncoTick : Obligations.NcoTick := by
  unfold Obligations.NcoTick
  intro s d n hi hn
  refine ⟨fun hp => ?free, fun hp => ?pending, rfl, fun hb => ⟨NcoHw.tickNormal_below hb, ?steps⟩, ?applies,
    NcoHw.tickAdjust_eq _ _, NcoHw.tickAdjust_below _⟩
  case free =>
    exact State.perform_plain_yields (t := s.modNcoHw d fun _ => n.hw.tickNormal) hi
      (asUnit_yields (ncoTickOn_free (s := s.doing _) hn hp))
  case pending =>
    exact State.perform_plain_yields (t := s.afterDraw.modNcoHw d fun _ =>
        if s.drawn % 2 = 1 then n.hw.tickAdjust s.board.adjReplacesStep else n.hw.tickNormal) hi
      (asUnit_yields (ncoTickOn_pending (s := s.doing _) hn hp))
  case steps =>
    have := NcoHw.tickNormal_fineTime hb
    simp only [fineTime, NcoHw.fineStep] at this
    dsimp only
    omega
  case applies =>
    refine NcoHw.tickAdjust_time ((NcoHw.adjusted_fineTime _).trans ?_)
    have adjNsec : n.hw.adjNsec = (n.hw.stageAdjNsec.extractLsb' 0 30).toNat := by
      simp [NcoHw.adjNsec, BitVec.extractLsb'_toNat]
    have adjSec : n.hw.adjSec = (n.hw.stageAdjSecHi.extractLsb' 0 16 ++ n.hw.stageAdjSecLo).toInt := rfl
    simp only [fineTime, NcoHw.fineStep, adjNsec, adjSec]
    push_cast
    ring

/-- Settles O37: each command's completion, and the wait for one that is not pending. -/
theorem ncoCmdComplete : Obligations.NcoCmdComplete := by
  unfold Obligations.NcoCmdComplete
  intro s d n c hi hn
  refine ⟨fun hp => ?completes, fun hp => ?waits, ⟨rfl, ?counter, ?sec, ?nsec⟩, ?step,
    fun hp => NcoHw.tick_applies hp _⟩
  case completes =>
    exact State.perform_plain_yields (t := s.modNcoHw d fun _ => n.hw.complete s.board.adjReplacesStep c) hi
      (asUnit_yields (ncoCompleteOn_pending (s := s.doing _) hn hp))
  case waits =>
    have waits : exec (.ncoCmdComplete d c) s = _ :=
      State.perform_blocks hi (ncoCompleteOn_waits (s := s.start (.ncoCmdComplete d c)) hn hp).bind
    rw [waits, State.start_eq_doing hi]
    rfl
  case counter =>
    exact (congrArg (· ++ _) (lowHalf_withHalf _ _)).trans (join_extract48 n.hw.counter)
  case sec =>
    exact (congrArg (· ++ _) (lowHalf_withHalf _ _)).trans (join_extract48 n.hw.sec)
  case nsec =>
    show (overDraw 30 (n.hw.nsec.setWidth 32) n.hw.latNsec).extractLsb' 0 30 = n.hw.nsec
    rw [← BitVec.setWidth_eq_extractLsb' (by decide), nsec_overDraw, BitVec.setWidth_setWidth_of_le _ (by decide),
      BitVec.setWidth_eq]
  case step =>
    rw [← BitVec.setWidth_eq_extractLsb' (by decide)]
    rfl

end Sys2Proof.Machine
end

section
/-!
`nco_probe` (spec/41_nco.md rules R311, R312): its rejections, and the device that it sets or creates (rules R40, R45).
-/

namespace Sys2Proof.Machine

open Sys2Proof

section

variable {s : State} {d i : Nat} {n : Nco} {rb : Rb} {r : Resource} {x : Option Resource} {step : StepReq}

/-- A step whose nanoseconds fit six bits keeps them in the wider word (rule R45). -/
theorem nominal48Of_fits (h : step.nsec.toNat ≤ 63) :
    nominal48Of (step.nsec.setWidth 6) step.sub = step.nsec.setWidth 16 ++ step.sub := by
  have fits : (step.nsec.setWidth 6).setWidth 16 = step.nsec.setWidth 16 := by
    apply BitVec.eq_of_toNat_eq
    simp only [BitVec.toNat_setWidth]
    omega
  rw [nominal48Of, fits]

theorem State.ncoRemoved_eq_false (h : ∀ n, s.ncos[d]? = some n → n.removed = false) : s.ncoRemoved d = false := by
  unfold State.ncoRemoved
  split
  · exact h _ ‹_›
  · rfl

theorem probeEnter_yields {removed : State → Bool} {why : Refusal} (h : removed s = false) :
    (probeEnter removed why).Yields s 0 s := .step (by simp [h])

theorem ncoProbeOn_removed (hn : s.ncos[d]? = some n) (h : n.removed = true) :
    (ncoProbeOn d x step).Refuses s .ncoRemoved :=
  .bind (.step (by simp [State.ncoRemoved, hn, h]))

theorem ncoProbeOn_missing (h : s.ncoRemoved d = false) :
    (ncoProbeOn d none step).Yields s (.error (.inval .missingResource)) s :=
  .bind (probeEnter_yields h) (.raise _)

theorem ncoProbeOn_badNominal (h : s.ncoRemoved d = false) (hs : 63 < step.nsec.toNat) :
    (ncoProbeOn d (some r) step).Yields s (.error (.inval .badNominal)) s := by
  refine .bind (probeEnter_yields h) ?_
  dsimp only
  rw [if_pos hs]
  exact .raise _

theorem ncoProbeOn_yields (h : s.ncoRemoved d = false) (hs : step.nsec.toNat ≤ 63) (hn : s.Names r.bus i rb) :
    (ncoProbeOn d (some r) step).Yields s (.ok 0) (s.probeNco d r (!rb.sleeps) step) := by
  have kind : s.sleepsOn i = rb.sleeps := by rw [State.sleepsOn, hn.1]
  refine .bind (probeEnter_yields h) ?_
  dsimp only
  rw [if_neg (Nat.not_lt.mpr hs), ← kind]
  exact .bind (.step hn.resolve) (.bind (.set _) (.ok 0))

/-- A device that is there takes the cells of a probe (rule R311). -/
theorem State.probeNco_known (hn : s.ncos[d]? = some n) (spin : Bool) :
    s.probeNco d r spin step = s.modNco d fun _ => n.probed s.board r spin step := by
  rw [State.probeNco, if_pos (List.getElem?_eq_some_iff.mp hn).1]
  exact State.modNco_congr hn rfl

/-- A number that names no device makes the next one (rule R40). -/
theorem State.probeNco_new (hd : s.ncos.length ≤ d) (spin : Bool) :
    s.probeNco d r spin step = { s.afterDraws 16 with
      ncos := s.ncos ++ [(Nco.ofCells s.cellsDrawn s.board).probed s.board r spin step] } :=
  if_neg (Nat.not_lt.mpr hd)

end

/-- Settles O33: the checks come in the order of the clauses, and what passes them sets the cells of rule R45. -/
theorem ncoProbe : Obligations.NcoProbe := by
  unfold Obligations.NcoProbe
  intro s r i rb param prop hi step set
  have nominal : nominalOf param prop = step := by cases param <;> cases prop <;> rfl
  have probed (fits : step.nsec.toNat ≤ 63) (n : Nco) : n.probed s.board r (!rb.sleeps) step = set n := by
    simp only [Nco.probed, nominal48Of_fits fits, set]
  refine ⟨fun d kept => ⟨?missing, fun big => ?badNominal⟩,
    fun fits hn => ⟨fun d n hd kept => ?known, fun d hd => ?new⟩,
    fun x d n hd removed => ?removed⟩
  case missing =>
    exact State.perform_plain_yields hi (asUnit_error (ncoProbeOn_missing (State.ncoRemoved_eq_false kept)))
  case badNominal =>
    rw [← nominal] at big
    exact State.perform_plain_yields hi (asUnit_error (ncoProbeOn_badNominal (State.ncoRemoved_eq_false kept) big))
  case known =>
    have kept : s.ncoRemoved d = false := State.ncoRemoved_eq_false fun m hm => by
      rw [hd] at hm
      cases hm
      exact kept
    have probes := ncoProbeOn_yields (s := s.doing (.ncoProbe d (some r) param prop)) (step := step) kept fits hn
    rw [State.probeNco_known (s := s.doing _) hd] at probes
    rw [← probed fits]
    rw [← nominal] at probes ⊢
    exact State.perform_plain_yields (t := s.modNco d fun _ => n.probed s.board r (!rb.sleeps) _) hi
      (asUnit_yields probes)
  case new =>
    have kept : s.ncoRemoved d = false := State.ncoRemoved_eq_false fun m hm => by
      rw [List.getElem?_eq_none hd] at hm
      cases hm
    have probes := ncoProbeOn_yields (s := s.doing (.ncoProbe d (some r) param prop)) (step := step) kept fits hn
    rw [State.probeNco_new (s := s.doing _) hd] at probes
    refine ⟨Nco.ofCells s.cellsDrawn s.board, rfl, rfl, ?_⟩
    rw [← probed fits]
    rw [← nominal] at probes ⊢
    exact State.perform_plain_yields (t := { s.afterDraws 16 with
      ncos := s.ncos ++ [(Nco.ofCells s.cellsDrawn s.board).probed s.board r (!rb.sleeps) _] }) hi
      (asUnit_yields probes)
  case removed =>
    exact State.perform_refuses hi (ncoProbeOn_removed (s := s.start _) hd removed).bind

end Sys2Proof.Machine
end

section
/-!
From a run of an NCO operation (`NcoRun`) to the operation itself, and `cmd_poll` (spec/41_nco.md rule R303), whatever
turns come after it.
-/

namespace Sys2Proof.Machine

open Sys2Proof

/-! ### Operations on a wired NCO -/

section

variable {s t : State} {d i : Nat} {n m : Nco} {rb : Rb} {res : Resource} {c : Option U16} {L : List Turn}
  {x : Instr} {init : Bool} {o : Op (Except Err Res)} {a : Except Err Res}

theorem ncoEnter_passes (hn : s.ncos[d]? = some n) (hr : n.removed = false)
    (hi : init = true → n.initialised = true) :
    (ncoEnter d init).Yields s 0 s := by
  refine .step ?_
  cases init <;> simp_all [State.onNco_some hn]

theorem State.modNco_self (hn : s.ncos[d]? = some n) : s.modNco d (fun _ => n) = s := by
  rw [State.modNco, modify_const_self _ _ _ hn]

/-- Two states that differ in the bookkeeping of a bus keep the same bytes. -/
theorem State.sameBytes_of_still {u : State} (h : t.still i = u.still i) (hf : u.fars = s.fars)
    (hb : u.me.buffer = s.me.buffer) : s.SameBytes t := by
  have fars : t.fars = s.fars := (congrArg State.fars h).trans hf
  have buffer : t.me.buffer = s.me.buffer := (congrArg (·.me.buffer) h).trans hb
  exact ⟨fun j x => by rw [State.farByte, fars, State.farByte], fun x => by rw [State.bufByte, buffer, State.bufByte]⟩

/-- The run of an operation on a wired NCO begins where the operation does. -/
theorem NcoRun.begins (hs : s.Idle) (w : NcoWired s d n res i rb) (hx : atomicOp (some x) = false) (hr : s.turns = L) :
    NcoWired (s.start x) d n res i rb ∧ NcoRun (s.start x) d n i rb n rb.aa1Cache L (s.start x) := by
  subst hr
  exact ⟨w.start x hs hx, .begin (w.start x hs hx)⟩

/-- The operation ends in what its run leaves. -/
theorem NcoRun.performs {u : State} (hs : s.Idle) (w : NcoWired s d n res i rb)
    (hi : init = true → n.initialised = true) (hy : o.Yields (s.start x) a t)
    (r : NcoRun (s.start x) d n i rb m c L t) (hm : (s.modNco d fun _ => m) = u) :
    ∃ t, s.perform x ((ncoEnter d init).bind fun _ => o) = .next t ∧ t.turns = L ∧ s.SameBytes t ∧
      t.still i = (u.finish a).still i := by
  have still : (t.finish a).still i = ((s.modNco d fun _ => m).finish a).still i := by
    have := congrArg (State.finish · a) r.still
    rw [State.start_eq_doing hs] at this
    exact this
  exact ⟨_, State.perform_yields hs (.bind (ncoEnter_passes w.device w.kept hi) hy), r.turns,
    State.sameBytes_of_still still rfl rfl, hm ▸ still⟩

end

/-! ### Register reads before any turns (rule R302) -/

section

variable {s0 s : State} {d i : Nat} {n m : Nco} {rb : Rb} {res : Resource} {c : Option U16} {L R : List Turn}
  {e : Cmd}

/-- The hardware completes a command at a turn of the run. -/
theorem NcoRun.completes (r : NcoRun s0 d n i rb m c (.env (.ncoComplete d e) :: L) s) :
    NcoRun s0 d n i rb { m with hw := m.hw.asked s0.board.adjReplacesStep e } c L
      ((s.env (.ncoComplete d e)).withTurns L) := by
  have h := r.mod (fun m => { m with hw := m.hw.asked s0.board.adjReplacesStep e }) rfl rfl
  exact ⟨by rw [← h.still, ← r.board]; rfl, h.inst, rfl, h.res, h.spin, h.later⟩

/-- A register read waits for such a turn. -/
theorem ncoRead_waits (w : NcoWired s0 d n res i rb) {x : NcoReg} (hx : x ∈ NcoReg.readable)
    (hsub : x ≠ .subnsec ∨ s0.board.readSubnsec = true)
    (r : NcoRun s0 d n i rb m c (.env (.ncoComplete d e) :: L) s) :
    (ncoRead d x).Waits s ((s.env (.ncoComplete d e)).withTurns L) := by
  obtain ⟨reaches, -⟩ := w.reads x hx hsub
  have r' := r.completes
  have begun (f : Rb → Rb) : SameTurns (s.modRb i f) (((s.env (.ncoComplete d e)).withTurns L).modRb i f) :=
    takeTurns_env (s := s.modRb i f) r.turns
  refine Op.Passes.waits (a := i) (.step ?_ ?_) (Op.Passes.waits (.get ?_) ?_)
  · rw [r.onNco w, r.res, w.resource]; exact (r.names w).resolve
  · rw [r'.onNco w, r'.res, w.resource]; exact (r'.names w).resolve
  · rw [r.addr w, r'.addr w]
  · rw [r.addr w, BitVec.ofNat_toNat, BitVec.setWidth_eq]
    have atomic := State.modNcoHw_atomic s d fun h => h.asked s.board.adjReplacesStep e
    exact read32On_waits r.inst rfl atomic (r.use w) (takeTurns_env r.turns) ⟨rfl, begun⟩ reaches

/-- A register read in a run that has other turns after its script. -/
theorem ncoRead_before (w : NcoWired s0 d n res i rb) {x : NcoReg} (hx : x ∈ NcoReg.readable)
    (hsub : x ≠ .subnsec ∨ s0.board.readSubnsec = true) {l : List Beat}
    (r : NcoRun s0 d n i rb m c (rb.script d c (.readAt (res.base + s0.board.ncoMap.off x) :: l) ++ R) s) :
    (ncoRead d x).EndsOk s fun v t => (∃ y, v = (m.hw.word s0.board y x).toNat) ∧
      ∃ c', NcoRun s0 d n i rb m c' (rb.script d c' l ++ R) t := by
  rw [Rb.script, List.append_assoc] at r
  exact (ncoRead_drop w hx hsub r (State.clear_replicate _ _ _ r.turns)).mono fun v t ⟨hv, ht⟩ =>
    ⟨hv, _, ht.dropped (rb.cost rb.hasRead32 c (res.base + s0.board.ncoMap.off x)) rfl⟩

/-! ### The poll loop (rule R303) -/

/-- What a poll does with the word that a read of the command register gives. -/
theorem cmdTest_word (w : NcoWired s0 d n res i rb) (r : NcoRun s0 d n i rb m c L s) (x : Cmd) (y : U32) :
    (cmdTest x (m.hw.word s0.board y .cmd).toNat).Yields s (m.hw.pending x).toNat s := by
  have := cmdTest_run r x (m.hw.word s0.board y .cmd)
  rwa [show m.hw.word s0.board y .cmd = m.hw.cmdWord s0.board y from rfl, cmdSet_cmdWord w.commands] at this

/-- One round of a poll that finds its command pending goes on with the budget that is left. -/
theorem cmdPollFrom_again (w : NcoWired s0 d n res i rb) (x : Cmd) (hp : m.hw.pending x = true) {budget : Nat}
    {T : Option U16 → List Turn} {Q : Except Err Nat → State → Prop}
    (hread : (ncoRead d .cmd).EndsOk s fun v t => (∃ y, v = (m.hw.word s0.board y .cmd).toNat) ∧
      ∃ c', NcoRun s0 d n i rb m c' (T c') t)
    (hnext : ∀ c' t, NcoRun s0 d n i rb m c' (T c') t → (cmdPollFrom d x budget).Ends t Q) :
    (cmdPollFrom d x (budget + 1)).Ends s Q := by
  refine hread.q ?_
  rintro v t ⟨⟨y, rfl⟩, c', ht⟩
  obtain ⟨a, u, polls, hQ⟩ := hnext c' t ht
  refine ⟨a, u, .bind (cmdTest_word w ht x y) ?_, hQ⟩
  rw [hp, Bool.toNat_true, if_neg Nat.one_ne_zero]
  exact polls

/-- A poll waits for the completion of a command that is the next turn. -/
theorem cmdPollFrom_waits (w : NcoWired s0 d n res i rb) (x : Cmd) (budget : Nat)
    (r : NcoRun s0 d n i rb m c (.env (.ncoComplete d e) :: L) s) :
    (cmdPollFrom d x budget).Waits s ((s.env (.ncoComplete d e)).withTurns L) := by
  cases budget <;> exact (ncoRead_waits w (x := .cmd) (by decide) (.inl (by decide)) r).bind

/-- A poll that finds its command done at its one read. -/
theorem cmdPollFrom_done (w : NcoWired s0 d n res i rb) (x : Cmd) (hp : m.hw.pending x = false) (budget : Nat)
    (r : NcoRun s0 d n i rb m c (rb.script d c [.readAt (res.base + s0.board.ncoMap.cmd)] ++ R) s) :
    (cmdPollFrom d x budget).EndsOk s fun _ t => ∃ c', NcoRun s0 d n i rb m c' R t := by
  rw [Rb.script, Rb.script, List.append_nil] at r
  exact (cmdPollFrom_clear w x budget hp r (State.clear_replicate _ _ _ r.turns)).mono fun _ _ ht =>
    ⟨_, ht.dropped (rb.cost rb.hasRead32 c (res.base + s0.board.ncoMap.cmd)) rfl⟩

/-- A poll that finds its command pending a number of times within its budget, before the hardware completes it. -/
theorem cmdPollFrom_completes (w : NcoWired s0 d n res i rb) (x : Cmd) (hp : m.hw.pending x = true) :
    ∀ (p budget : Nat) (c : Option U16) (s : State), p ≤ budget →
      NcoRun s0 d n i rb m c (rb.script d c (pollBeats s0.board res.base p x) ++ R) s →
      (cmdPollFrom d x budget).Ends s fun a t => ∃ v c', a = .ok v ∧
        NcoRun s0 d n i rb { m with hw := m.hw.complete s0.board.adjReplacesStep x } c' R t := by
  intro p
  induction p with
  | zero =>
    intro budget c s _ r
    have completed := r.completes
    rw [NcoHw.asked, if_pos hp] at completed
    obtain ⟨v, t, polls, c', ht⟩ := cmdPollFrom_done w x (complete_not_pending _ _ x) budget completed
    exact ⟨.ok v, t, (cmdPollFrom_waits w x budget r).yields polls, v, c', rfl, ht⟩
  | succ p ih =>
    intro budget c s hb r
    obtain ⟨b, rfl⟩ : ∃ b, budget = b + 1 := ⟨budget - 1, by omega⟩
    refine cmdPollFrom_again w x hp (ncoRead_before w (x := .cmd) (by decide) (.inl (by decide)) r) ?_
    exact fun c' t ht => ih b c' t (by omega) ht

/-- A poll over native reads, none of which finds its command done, takes one turn more than its budget (rule R303). -/
theorem cmdPollFrom_native_timeout (w : NcoWired s0 d n res i rb) (x : Cmd) (hp : m.hw.pending x = true)
    (hn : rb.hasRead32 = true) :
    ∀ (budget : Nat) (c : Option U16) (s : State),
      NcoRun s0 d n i rb m c (List.replicate (budget + 1) .go ++ R) s →
      (cmdPollFrom d x budget).Ends s fun a t => a = .error .timeout ∧ ∃ c', NcoRun s0 d n i rb m c' R t := by
  have reads (k : Nat) (c : Option U16) (s : State)
      (r : NcoRun s0 d n i rb m c (List.replicate (k + 1) .go ++ R) s) : (ncoRead d .cmd).EndsOk s fun v t =>
      (∃ y, v = (m.hw.word s0.board y .cmd).toNat) ∧ ∃ c', NcoRun s0 d n i rb m c' (List.replicate k .go ++ R) t := by
    have one (a : U32) : rb.cost rb.hasRead32 c a = 1 := by rw [Rb.cost, if_pos hn]
    have clear : s.Clear 1 := clear_of_go r.turns
    refine (ncoRead_drop w (x := .cmd) (by decide) (.inl (by decide)) r (by rwa [one])).mono ?_
    rintro v t ⟨hv, ht⟩
    rw [one] at ht
    exact ⟨hv, _, ht⟩
  intro budget
  induction budget with
  | zero =>
    intro c s r
    refine (reads 0 c s r).q ?_
    rintro v t ⟨⟨y, rfl⟩, c', ht⟩
    refine Op.Yields.ends (.bind (cmdTest_word w ht x y) ?_) ⟨rfl, c', ht⟩
    rw [hp, Bool.toNat_true, if_neg Nat.one_ne_zero]
    exact .raise _
  | succ b ih =>
    intro c s r
    exact cmdPollFrom_again w x hp (reads (b + 1) c s r) fun c' t ht => ih c' t ht

end

/-- Settles O34: a poll reads once more than the reads that find its command pending, and takes their turns. -/
theorem cmdPollCompletes : Obligations.CmdPollCompletes := by
  unfold Obligations.CmdPollCompletes
  intro s d i n res rb c r hs w
  refine ⟨fun hp hr => ?done, fun p hp hle hr => ?polls⟩
  case done =>
    have polls : (cmdPollOn d c).EndsOk (s.start (.cmdPoll d c)) fun _ t =>
        ∃ c', NcoRun (s.start (.cmdPoll d c)) d n i rb n c' r t := by
      rcases hr with ⟨hr, rfl⟩ | hr
      · obtain ⟨w', begins⟩ := NcoRun.begins (x := .cmdPoll d c) hs w rfl hr
        obtain ⟨v, t, hy, ht⟩ := cmdPollFrom_clear w' c Config.pollBudget hp begins (State.clear_of_nil _ hr _)
        rw [List.drop_nil] at ht
        exact ⟨v, t, hy, _, ht⟩
      · obtain ⟨w', begins⟩ := NcoRun.begins (x := .cmdPoll d c) hs w rfl hr
        exact cmdPollFrom_done w' c hp Config.pollBudget begins
    obtain ⟨v, t, hy, c', ht⟩ := polls
    exact ht.performs (init := false) hs w nofun (asUnit_yields hy) (State.modNco_self w.device)
  case polls =>
    obtain ⟨w', begins⟩ := NcoRun.begins (x := .cmdPoll d c) hs w rfl hr
    obtain ⟨a, t, hy, v, c', rfl, ht⟩ := cmdPollFrom_completes w' c hp p Config.pollBudget _ _ hle begins
    exact ht.performs (init := false) hs w nofun (asUnit_yields hy) (State.modNco_congr w.device rfl)

/-- Settles O35: with the command pending every round of the loop goes on, to the end of the budget. -/
theorem cmdPollTimesOut : Obligations.CmdPollTimesOut := by
  unfold Obligations.CmdPollTimesOut
  intro s d i n res rb c hs w hp
  refine ⟨fun hr => ?never, fun r hn hr => ?native⟩
  case never =>
    obtain ⟨w', begins⟩ := NcoRun.begins (x := .cmdPoll d c) hs w rfl hr
    obtain ⟨a, t, hy, rfl, c', ht⟩ := cmdPollFrom_timeout w' c hp Config.pollBudget _ _ begins
    exact ht.performs (init := false) hs w nofun (asUnit_error hy) (State.modNco_self w.device)
  case native =>
    obtain ⟨w', begins⟩ := NcoRun.begins (x := .cmdPoll d c) hs w rfl hr
    obtain ⟨a, t, hy, rfl, c', ht⟩ := cmdPollFrom_native_timeout w' c hp hn Config.pollBudget _ _ begins
    obtain ⟨t, runs, turns, -, still⟩ :=
      ht.performs (init := false) hs w nofun (asUnit_error hy) (State.modNco_self w.device)
    exact ⟨t, runs, turns, still⟩

end Sys2Proof.Machine
end

section
/-!
However the bus and the outside behave: what holds throughout an operation's register accesses (`AccessSteady`), and
where an operation that returns ends (`Op.Brings`).
-/

namespace Sys2Proof.Machine

open Sys2Proof

/-! ### What register accesses keep -/

/-- A property that no read touches, and no write of a device register or of a far end either. -/
structure AccessSteady (P Q : State → Prop) : Prop extends ReadSteady P Q where
  store : ∀ {s} (t : Target) (p : Part), P s → P (s.storeWord t p)
  far : ∀ {s} (i : Nat) (f : FarEnd → FarEnd), P s → P (s.modFar i f)

section

variable {P Q : State → Prop} {α : Type} {s : State}

theorem ReadSteady.farRead32 (hP : ReadSteady P Q) (i : Nat) (a : U32) (hs : P s) : P (s.farRead32 i a).2 := by
  obtain ⟨n, hn⟩ := farRead32_snd s i a
  rw [hn, afterDraws_eq]
  exact hP.book _ _ _ _ hs

theorem ReadSteady.alignedOnly (hP : ReadSteady P Q) (a : U32) {x : Op α} (h : x.Keeps P Q) :
    (alignedOnly a x).Keeps P Q := .ite h (hP.fault _)

theorem mmioXfer_keeps {i : Nat} {f : Rb → State → Ans} (h : ∀ rb s, P s → (f rb s).Keeps P Q) :
    (mmioXfer i f).Keeps P Q :=
  .bind ⟨fun _ _ hs => .onRb fun rb => h rb _ hs, fun _ => trivial⟩ fun _ => trivial

theorem mdioXfer_keeps {i : Nat} {f : Rb → Verdict → State → Ans} (h : ∀ rb v s, P s → (f rb v s).Keeps P Q) :
    (mdioXfer i f).Keeps P Q :=
  .tryXfer fun v _ hs => .onRb fun rb => h rb v _ hs

theorem capability_keeps (i : Nat) (f : Rb → Bool) : (capability i f).Keeps P Q := .step fun _ hs => .onRb fun _ => hs

theorem backendOf_keeps (i : Nat) : (backendOf i).Keeps P Q := .step fun _ hs => .onRb fun _ => hs

theorem writeOrderIs_keeps (i : Nat) (sel : RbCfg → WriteOrder) : (writeOrderIs i sel).Keeps P Q :=
  .step fun _ hs => .onRb fun _ => hs

theorem ReadSteady.read32On (hP : ReadSteady P Q) (i : Nat) (a : U32) : (read32On i a).Keeps P Q := by
  have native : (nativeRead32On i a).Keeps P Q :=
    hP.alignedOnly a <| mmioXfer_keeps fun _ _ hs => hP.log _ _ _ (hP.farRead32 i a hs)
  exact (hP.contextCheck i).bind fun _ => (capability_keeps i _).bind fun _ =>
    .ite native <| (hP.read16On i a).q fun _ => (hP.read16On i _).q fun _ => trivial

variable (hP : AccessSteady P Q)
include hP

theorem AccessSteady.farWrite16 (i : Nat) (a : U32) (v : U16) (hs : P s) : P (s.farWrite16 i a v) := by
  unfold State.farWrite16
  split
  · exact hP.store _ _ hs
  · exact hP.far i _ hs

theorem AccessSteady.farWrite32 (i : Nat) (a v : U32) (hs : P s) : P (s.farWrite32 i a v) := by
  unfold State.farWrite32
  split
  · exact hP.store _ _ hs
  · exact hP.store _ _ hs
  · exact hP.farWrite16 i _ _ (hP.farWrite16 i a _ hs)

theorem AccessSteady.landed (i : Nat) (a : U32) (v : U16) (landed : Bool) (hs : P s) :
    P (if landed then s.landWrite16 i a v else s) := by
  cases landed
  · exact hs
  · show P (s.landWrite16 i a v)
    unfold State.landWrite16
    split
    · split
      · exact hs
      · exact hP.farWrite16 i a v hs
    · exact hP.farWrite16 i a v hs

theorem AccessSteady.farDone (i : Nat) (far : Option (U32 × U16)) (hs : P s) : P (s.farDone i far) :=
  match far with
  | none => hs
  | some x => hP.farWrite16 i x.1 x.2 hs

theorem AccessSteady.farLanded (i : Nat) (landed : Bool) (far : Option (U32 × U16)) (hs : P s) :
    P (s.farLanded i landed far) :=
  match far with
  | none => hs
  | some x => hP.landed i x.1 x.2 landed hs

/-! ### Writes (rules R202, R204) -/

theorem AccessSteady.mdioWriteOn (i : Nat) (phy reg : RbCfg → U5) (w : U16) (far : Option (U32 × U16)) :
    (mdioWriteOn i phy reg w far).Keeps P Q :=
  mdioXfer_keeps fun
    | _, .fail l, _, hs => hP.log _ _ _ (hP.farLanded i l far hs)
    | _, .ok, _, hs => hP.log _ _ _ (hP.farDone i far hs)

theorem AccessSteady.bridgeAddrOn (i : Nat) (a : U32) (rw : U16) (far : Option (U32 × U16)) :
    (bridgeAddrOn i a rw far).Keeps P Q :=
  mdioXfer_keeps fun
    | _, .fail l, _, hs => hP.log _ _ _ (hP.farLanded i l far hs)
    | _, .ok, _, hs => hP.log _ _ _ (hP.farDone i far hs)

theorem AccessSteady.mmioWrite16On (i : Nat) (a : U32) (v : U16) : (mmioWrite16On i a v).Keeps P Q :=
  hP.evenOnly a <| mmioXfer_keeps fun _ _ hs => hP.log _ _ _ (hP.farWrite16 i a v hs)

theorem AccessSteady.i2cWrite16On (i : Nat) (a : U32) (v : U16) : (i2cWrite16On i a v).Keeps P Q :=
  .tryXfer fun
    | .fail l, _, hs => .onRb fun _ => hP.log _ _ _ (hP.landed i a v l hs)
    | .ok, _, hs => .onRb fun _ => hP.log _ _ _ (hP.farWrite16 i a v hs)

theorem AccessSteady.slaveWrite16On (i : Nat) (a : U32) (v : U16) : (slaveWrite16On i a v).Keeps P Q :=
  hP.evenOnly a <| hP.mdioAccess i <| (hP.slaveSelectHigh i a).q fun _ => (writeOrderIs_keeps i _).bind fun _ =>
    .ite ((hP.mdioWriteOn i _ _ _ _).q fun _ => hP.mdioWriteOn i _ _ _ _)
      ((hP.mdioWriteOn i _ _ _ _).q fun _ => hP.mdioWriteOn i _ _ _ _)

theorem AccessSteady.bridgeWrite16On (i : Nat) (a : U32) (v : U16) : (bridgeWrite16On i a v).Keeps P Q := by
  have range : (bridgeRange i a).Keeps P Q := .step fun _ hs => .onRb fun _ => .ite (hP.halt _ hs) hs
  exact hP.evenOnly a <| range.bind fun _ => hP.mdioAccess i <| (writeOrderIs_keeps i _).bind fun _ =>
    .ite ((hP.mdioWriteOn i _ _ _ _).q fun _ => hP.bridgeAddrOn i a _ _)
      ((hP.bridgeAddrOn i a _ _).q fun _ => hP.mdioWriteOn i _ _ _ _)

theorem AccessSteady.write16On (i : Nat) (a : U32) (v : U16) : (write16On i a v).Keeps P Q :=
  (hP.contextCheck i).bind fun _ => (backendOf_keeps i).bind fun
    | 0 => hP.mmioWrite16On i a v
    | 1 => hP.i2cWrite16On i a v
    | 2 => hP.slaveWrite16On i a v
    | _ + 3 => hP.bridgeWrite16On i a v

theorem AccessSteady.write32On (i : Nat) (a v : U32) : (write32On i a v).Keeps P Q := by
  have native : (nativeWrite32On i a v).Keeps P Q :=
    hP.alignedOnly a <| mmioXfer_keeps fun _ _ hs => hP.log _ _ _ (hP.farWrite32 i a v hs)
  exact (hP.contextCheck i).bind fun _ => (capability_keeps i _).bind fun _ =>
    .ite native <| (hP.write16On i a _).q fun _ => hP.write16On i _ _

end

/-! ### The accesses of an NCO operation -/

section

variable {P Q : State → Prop} {s : State} {d : Nat}

theorem Ans.Keeps.onNco {f : Nco → Ans} (h : ∀ n, (f n).Keeps P Q) : (s.onNco d f).Keeps P Q := by
  unfold State.onNco
  split
  · exact h _
  · trivial

theorem ncoGet_keeps (d : Nat) (f : Nco → Nat) : (ncoGet d f).Keeps P Q := .step fun _ hs => .onNco fun _ => hs

variable (hP : AccessSteady P Q)
include hP

theorem AccessSteady.ncoEnter (d : Nat) (init : Bool) : (ncoEnter d init).Keeps P Q :=
  .step fun _ hs => .onNco fun _ => .ite trivial (.ite (hP.halt _ hs) hs)

theorem AccessSteady.ncoReg (d : Nat) (r : NcoReg) {x : Nat → U32 → Op (Except Err Nat)}
    (h : ∀ i a, (x i a).Keeps P Q) : (ncoReg d r x).Keeps P Q :=
  .bind (.step fun _ hs => .onNco fun n => hP.resourceBus n.res hs) fun i => .bind (.get _) fun _ => h i _

theorem AccessSteady.ncoRead (d : Nat) (r : NcoReg) : (ncoRead d r).Keeps P Q := hP.ncoReg d r hP.read32On

theorem AccessSteady.ncoWrite (d : Nat) (r : NcoReg) (v : U32) : (ncoWrite d r v).Keeps P Q :=
  hP.ncoReg d r fun i a => hP.write32On i a v

theorem AccessSteady.ncoCommand (d : Nat) (c : Cmd) : (ncoCommand d c).Keeps P Q :=
  .bind (.get _) fun _ => hP.ncoWrite d .cmd _

theorem AccessSteady.cmdPollOn (d : Nat) (c : Cmd) : (cmdPollOn d c).Keeps P Q := by
  suffices polls : ∀ budget, (cmdPollFrom d c budget).Keeps P Q from polls _
  intro budget
  induction budget with
  | zero => exact (hP.ncoRead d .cmd).q fun _ => .bind (.get _) fun _ => .ite trivial trivial
  | succ budget ih => exact (hP.ncoRead d .cmd).q fun _ => .bind (.get _) fun _ => .ite trivial ih

theorem AccessSteady.hostNow : hostNow.Keeps P Q := by
  have draws (s : State) (hs : P s) : P s.afterDraw := hP.book _ _ _ _ hs
  exact .bind (.step draws) fun _ => .bind (.step draws) fun _ => trivial

end

/-! ### Where an operation that returns ends -/

/-- However the bus and the outside behave, the operation, begun where `P` holds, does not return, or answers some `a`
where `R a` holds. -/
def Op.Brings {α : Type} (o : Op α) (P : State → Prop) (R : α → State → Prop) : Prop :=
  ∀ (g : α → Op (Except Err Res)) (c : Option Nat) (seen : List Nat) (s t : State), P s →
    (o.bind g).run c [] seen s = .next t →
    t.Unreturned ∨ ∃ a c' seen' u, R a u ∧ (g a).run c' [] seen' u = .next t

/-- The answer of a step goes on where `M` holds, or leaves the operation in progress. -/
def Ans.Leads (M : Nat → State → Prop) : Ans → Prop
  | .go n t => M n t
  | .block t => t.InOperation
  | .fault _ _ => True
  | .refuse _ => True

section

variable {α β : Type} {P : State → Prop} {R : α → State → Prop} {S : β → State → Prop} {s t : State}

theorem Op.Brings.ret {a : α} (h : ∀ s, P s → R a s) : (Op.ret a).Brings P R :=
  fun _ c seen s _ hs hr => .inr ⟨a, c, seen, s, h s hs, hr⟩

theorem Op.Brings.bind {o : Op α} {g : α → Op β} (h : o.Brings P R) (hg : ∀ a, (g a).Brings (R a) S) :
    (o.bind g).Brings P S := by
  intro k c seen s t hs hr
  rw [Op.bind_assoc] at hr
  obtain hu | ⟨a, c', seen', u, ha, hr⟩ := h _ c seen s t hs hr
  · exact .inl hu
  · exact hg a k c' seen' u t ha hr

theorem Op.Brings.q {R : Except Err α → State → Prop} {S : Except Err β → State → Prop} {x : Op (Except Err α)}
    {g : α → Op (Except Err β)} (h : x.Brings P R) (herr : ∀ e s, R (.error e) s → S (.error e) s)
    (hg : ∀ a, (g a).Brings (R (.ok a)) S) : (x.q g).Brings P S :=
  h.bind fun
    | .error e => .ret (herr e)
    | .ok a => hg a

theorem Op.Brings.mono {R' : α → State → Prop} {o : Op α} (h : o.Brings P R) (hr : ∀ a s, R a s → R' a s) :
    o.Brings P R' := by
  intro g c seen s t hs hrun
  obtain hu | ⟨a, c', seen', u, ha, hrun⟩ := h g c seen s t hs hrun
  · exact .inl hu
  · exact .inr ⟨a, c', seen', u, hr a u ha, hrun⟩

theorem Op.Brings.ite {c : Prop} [Decidable c] {x y : Op α} (hx : x.Brings P R) (hy : y.Brings P R) :
    (if c then x else y).Brings P R := by
  split
  · exact hx
  · exact hy

/-- What every step of an operation keeps holds where it returns. -/
theorem Op.Keeps.brings {o : Op α} (h : o.Keeps P State.Unreturned) (hP : ReadSteady P State.Unreturned) :
    o.Brings P fun _ => P :=
  fun g c seen s t hs hr => Op.run_bind hP h g c seen s t hs hr

theorem Op.Brings.act {M : Nat → State → Prop} {f : State → Ans} {k : Nat → Op α} (hin : ∀ s, P s → s.InOperation)
    (hf : ∀ s, P s → (f s).Leads M) (hk : ∀ n, (k n).Brings (M n) R) : (Op.act f k).Brings P R := by
  intro g c seen s t hs hr
  have leads := hf s hs
  simp only [Op.bind, Op.run] at hr
  split at hr
  · cases hr
    exact .inl (.inl (hin s hs))
  · split at hr
    case h_1 n u hu => rw [hu] at leads; exact hk n g _ _ u t leads hr
    case h_2 u hu => rw [hu] at leads; cases hr; exact .inl (.inl leads)
    case h_3 x u hu => cases hr; exact .inl (.inr (Option.some_ne_none _))
    case h_4 => cases hr

theorem Op.Brings.step {M : Nat → State → Prop} {f : State → Ans} (hin : ∀ s, P s → s.InOperation)
    (hf : ∀ s, P s → (f s).Leads M) : (Op.step f).Brings P M :=
  .act hin hf fun _ => .ret fun _ hs => hs

theorem Op.Brings.set {M : State → Prop} {f : State → State} (hin : ∀ s, P s → s.InOperation)
    (hf : ∀ s, P s → M (f s)) : (Op.set f).Brings P fun _ => M :=
  .act (M := fun _ => M) hin hf fun _ => .ret fun _ hs => hs

/-- An operation that has returned has come to its end. -/
theorem State.perform_brings {x : Instr} {o : Op (Except Err Res)} {R : Except Err Res → State → Prop}
    (ho : o.Brings P R) (hs : s.me.op = none) (hP : P (s.start x)) (hr : s.perform x o = .next t)
    (hop : t.me.op = none) (hrun : t.me.stopped = none) : ∃ a u, R a u ∧ t = u.finish a := by
  rw [State.perform, if_neg (by simp [hs]), ← Op.bind_ret_right o] at hr
  obtain hu | ⟨a, c, seen, u, ha, hr⟩ := ho Op.ret _ _ _ _ hP hr
  · exact hu.elim (absurd hop) (absurd hrun)
  · exact ⟨a, u, ha, (Host.Outcome.next.inj hr).symm⟩

end

/-! ### The driver cells of an NCO -/

/-- The running agent is in an operation, and condition `C` holds of NCO `d`. -/
def State.NcoIs (d : Nat) (C : Nco → Prop) (s : State) : Prop := s.InOperation ∧ ∃ n, s.ncos[d]? = some n ∧ C n

/-- A condition that neither the hardware of an NCO nor its removal touches. -/
structure Nco.Lasting (C : Nco → Prop) : Prop where
  hw : ∀ n h, C n → C { n with hw := h }
  removed : ∀ n, C n → C { n with removed := true }

/-- The condition holds and the device lock is free. -/
def Nco.Free (C : Nco → Prop) (n : Nco) : Prop := C n ∧ n.lock = none

theorem Nco.Lasting.free {C : Nco → Prop} (h : Nco.Lasting C) : Nco.Lasting (Nco.Free C) where
  hw n x hn := ⟨h.hw n x hn.1, hn.2⟩
  removed n hn := ⟨h.removed n hn.1, hn.2⟩

section

variable {s : State} {d : Nat} {C C' : Nco → Prop}

theorem State.NcoIs.modNco (h : s.NcoIs d C) (k : Nat) {f : Nco → Nco} (hC : ∀ n, C n → C (f n)) :
    (s.modNco k f).NcoIs d C := by
  obtain ⟨hin, n, hn, hc⟩ := h
  refine ⟨hin, if k = d then f n else n, by rw [State.modNco_ncos, List.getElem?_modify, hn]; rfl, ?_⟩
  split
  · exact hC n hc
  · exact hc

theorem State.NcoIs.update (h : s.NcoIs d C) {f : Nco → Nco} (hC : ∀ n, C n → C' (f n)) :
    (s.modNco d f).NcoIs d C' := by
  obtain ⟨hin, n, hn, hc⟩ := h
  exact ⟨hin, f n, getElem?_modify_self _ _ _ _ hn, hC n hc⟩

theorem State.NcoIs.env (h : s.NcoIs d C) (hC : Nco.Lasting C) (e : Env) : (s.env e).NcoIs d C := by
  cases e with
  | ncoTick k apply => exact h.modNco k fun n => hC.hw n _
  | ncoComplete k c => exact h.modNco k fun n => hC.hw n _
  | removeNco k => exact h.modNco k hC.removed
  | tsPulse k =>
    show (s.tsPulse k).NcoIs d C
    unfold State.tsPulse
    split
    · exact h
    · split
      · rw [afterDraws_eq]; exact h
      · exact h
  | _ => exact h

/-- Register accesses leave the driver cells alone. -/
theorem ncoIs_accessSteady (hC : Nco.Lasting C) : AccessSteady (State.NcoIs d C) State.Unreturned where
  env e h := h.env hC e
  book _ _ _ _ h := h
  cache _ _ h := h
  busy _ _ h := h
  suspend _ h := .inl h.1
  halt _ _ := .inr (Option.some_ne_none _)
  store t _ h :=
    match t with
    | .nco k _ _ => h.modNco k fun n => hC.hw n _
    | .ts _ _ _ => h
    | .adp _ _ => h
  far _ _ h := h

/-- A locked section that returns leaves the lock free, whatever it answers (rule R300). -/
theorem ncoLocked_brings {α : Type} {x : Op (Except Err α)} {R : Except Err α → Nco → Prop}
    (hx : x.Brings (State.NcoIs d C) fun r => State.NcoIs d (R r)) (hin : ∀ n l, C n → C { n with lock := l })
    (hout : ∀ r n, R r n → R r { n with lock := none }) :
    (ncoLocked d x).Brings (State.NcoIs d C) fun r => State.NcoIs d (Nco.Free (R r)) := by
  have acquires : (ncoAcquire d).Brings (State.NcoIs d C) fun _ => State.NcoIs d C := by
    refine .step (fun _ hs => hs.1) fun s hs => ?_
    obtain ⟨-, n, hn, -⟩ := id hs
    rw [State.onNco_some hn]
    split
    · trivial
    · split
      · exact hs.update fun n => hin n _
      · exact hs.1
  have releases (r : Except Err α) : (ncoRelease d).Brings (State.NcoIs d (R r)) fun _ =>
      State.NcoIs d (Nco.Free (R r)) :=
    .set (fun _ hs => hs.1) fun s hs => hs.update fun n hn => ⟨hout r n hn, rfl⟩
  exact acquires.bind fun _ => hx.bind fun r => (releases r).bind fun _ => .ret fun _ hs => hs

/-- A locked section that only accesses registers. -/
theorem ncoLocked_accesses {α : Type} {x : Op (Except Err α)} (hC : Nco.Lasting C)
    (hlock : ∀ n l, C n → C { n with lock := l })
    (hx : AccessSteady (State.NcoIs d C) State.Unreturned → x.Keeps (State.NcoIs d C) State.Unreturned) :
    (ncoLocked d x).Brings (State.NcoIs d C) fun _ => State.NcoIs d (Nco.Free C) :=
  ncoLocked_brings ((hx (ncoIs_accessSteady hC)).brings (ncoIs_accessSteady hC).toReadSteady) hlock
    fun _ n => hlock n none

end

end Sys2Proof.Machine
end

section
/-!
Runs of NCO operations that the hardware leaves without an answer (spec/41_nco.md rules R303, R714) or whose first
transfer fails (spec/40_register_bus.md rules R202, R220): what has been staged by then, and a lock that is free.
-/

namespace Sys2Proof.Machine

open Sys2Proof

theorem Op.Ends.qError {α β : Type} {x : Op (Except Err α)} {g : α → Op (Except Err β)} {s : State} {e : Err}
    {Q : State → Prop} (h : x.Ends s fun a t => a = .error e ∧ Q t) :
    (x.q g).Ends s fun a t => a = .error e ∧ Q t := by
  obtain ⟨a, t, hy, rfl, hq⟩ := h
  exact ⟨_, t, hy.qError, rfl, hq⟩

section

variable {s0 s : State} {d i : Nat} {n m : Nco} {rb : Rb} {res : Resource} {c : Option U16} {L R : List Turn}

/-! ### Parts of a run -/

/-- A locked section that changes no driver cell leaves the lock as it was, free. -/
theorem ncoLocked_run_hw {α : Type} {o : Op (Except Err α)} {A : Except Err α → Prop} {h : NcoHw} {L' : List Turn}
    (w : NcoWired s0 d n res i rb) (r : NcoRun s0 d n i rb m c L s) (hl : m.lock = none)
    (ho : ∀ t, NcoRun s0 d n i rb { m with lock := some s0.me.id } c L t → o.Ends t fun a u => A a ∧
      ∃ c', NcoRun s0 d n i rb { m with lock := some s0.me.id, hw := h } c' L' u) :
    (ncoLocked d o).Ends s fun a u => A a ∧ ∃ c', NcoRun s0 d n i rb { m with hw := h } c' L' u := by
  refine ncoLocked_run w r hl fun t ht => (ho t ht).mono ?_
  rintro a u ⟨ha, c', hu⟩
  refine ⟨_, c', L', hu, fun v hv => ⟨ha, c', ?_⟩⟩
  have released : ({ m with lock := none, hw := h } : Nco) = { m with hw := h } := by rw [← hl]
  rw [← released]
  exact hv

theorem ncoReg_yields_any (w : NcoWired s0 d n res i rb) (r : NcoRun s0 d n i rb m c L s) {x : NcoReg}
    {f : Nat → U32 → Op (Except Err Nat)} {a : Except Err Nat} {t : State}
    (h : (f i (res.base + s0.board.ncoMap.off x)).Yields s a t) : (ncoReg d x f).Yields s a t := by
  refine .bind (.step (n := i) (t := s) ?_) (.bind (.get _) ?_)
  · rw [r.onNco w, r.res, w.resource]
    exact (r.names w).resolve
  · rw [r.addr w, BitVec.ofNat_toNat, BitVec.setWidth_eq]
    exact h

/-! ### Without turns -/

/-- A register write in a run without turns. -/
theorem ncoWrite_unturned (w : NcoWired s0 d n res i rb) {x : NcoReg} (hx : x ∈ NcoReg.writable) (v : U32)
    (r : NcoRun s0 d n i rb m c [] s) : (ncoWrite d x v).EndsOk s fun _ t =>
      ∃ c', NcoRun s0 d n i rb { m with hw := m.hw.store s0.board x (.whole v) } c' [] t := by
  obtain ⟨reaches, takes, takesHigh⟩ := w.writes x hx
  have takes : s.TakesNco i d x (res.base + s0.board.ncoMap.off x) :=
    ⟨(writeTarget_congr (r.map w) _ _).trans takes, (writeTarget_congr (r.map w) _ _).trans takesHigh⟩
  refine ncoReg_yields w r ((write32On_nco r.inst (r.use w) reaches takes (s.clear_of_nil r.turns _)).mono ?_)
  intro _ t q
  rw [r.board] at q
  have := r.quiet (fun m => { m with hw := m.hw.store s0.board x (.whole v) }) rfl rfl q
  rw [List.drop_nil] at this
  exact ⟨_, this⟩

theorem ncoCommand_unturned (w : NcoWired s0 d n res i rb) (x : Cmd) (r : NcoRun s0 d n i rb m c [] s) :
    (ncoCommand d x).EndsOk s fun _ t => ∃ c', NcoRun s0 d n i rb { m with hw := m.hw.addOne x } c' [] t := by
  obtain ⟨v, t, hy, c', ht⟩ := ncoWrite_unturned w (x := .cmd) (by decide) (s0.board.cmdMask x) r
  have ht : NcoRun s0 d n i rb { m with hw := m.hw.addPending s0.board (s0.board.cmdMask x) } c' [] t := ht
  rw [addPending_mask w.commands] at ht
  refine ⟨v, t, .bind (.get _) ?_, c', ht⟩
  rw [r.board, BitVec.ofNat_toNat, BitVec.setWidth_eq]
  exact hy

/-- A command that is never completed: its poll ends, and the command is pending. -/
theorem command_times_out {β : Type} (w : NcoWired s0 d n res i rb) (x : Cmd) (g : Nat → Op (Except Err β))
    (r : NcoRun s0 d n i rb m c [] s) : ((ncoCommand d x).q fun _ => (cmdPollOn d x).q g).Ends s fun a t =>
      a = .error .timeout ∧ ∃ c', NcoRun s0 d n i rb { m with hw := m.hw.addOne x } c' [] t := by
  refine (ncoCommand_unturned w x r).q ?_
  rintro _ t ⟨c', ht⟩
  exact (cmdPollFrom_timeout (m := { m with hw := m.hw.addOne x }) w x (addOne_pending _ x) Config.pollBudget c' t
    ht).qError

theorem readTimeOn_times_out (w : NcoWired s0 d n res i rb) (r : NcoRun s0 d n i rb m c [] s) (hl : m.lock = none) :
    (readTimeOn d).Ends s fun a t => a = .error .timeout ∧
      ∃ c', NcoRun s0 d n i rb { m with hw := m.hw.addOne .read } c' [] t :=
  ncoLocked_run_hw w r hl fun _ ht => command_times_out w .read _ ht

/-- An operation's last command and poll. -/
theorem last_command_times_out (w : NcoWired s0 d n res i rb) (x : Cmd) (r : NcoRun s0 d n i rb m c [] s) :
    ((ncoCommand d x).q fun _ => cmdPollOn d x).Ends s fun a t =>
      a = .error .timeout ∧ ∃ c', NcoRun s0 d n i rb { m with hw := m.hw.addOne x } c' [] t := by
  refine (ncoCommand_unturned w x r).q ?_
  rintro _ t ⟨c', ht⟩
  exact cmdPollFrom_timeout (m := { m with hw := m.hw.addOne x }) w x (addOne_pending _ x) Config.pollBudget c' t ht

theorem adjustTimeOn_times_out (w : NcoWired s0 d n res i rb) (sign : U32) (sec : U64) {nsec : U32}
    (hn : nsec.toNat < 2 ^ 31) (r : NcoRun s0 d n i rb m c [] s) (hl : m.lock = none) :
    (adjustTimeOn d sign sec nsec).Ends s fun a t => a = .error .timeout ∧ ∃ c', NcoRun s0 d n i rb
      { m with
        hw := (m.hw.stageAdjust (adjustWords sign sec nsec m.currentStepNsec.toNat).1
          (adjustWords sign sec nsec m.currentStepNsec.toNat).2).addOne .adjClock } c' [] t := by
  rw [adjustTimeOn, if_neg (Nat.not_le.mpr hn)]
  refine ncoLocked_run_hw w r hl fun t ht => ?_
  refine (Op.Yields.ends (ncoGet_run w ht _) (Q := fun a u => a = m.currentStepNsec.toNat ∧ u = t) ⟨rfl, rfl⟩).bind ?_
  rintro _ _ ⟨rfl, rfl⟩
  refine (ncoWrite_unturned w (x := .adjSecHi) (by decide) _ ht).q ?_
  rintro _ t1 ⟨c1, h1⟩
  refine (ncoWrite_unturned w (x := .adjSecLo) (by decide) _ h1).q ?_
  rintro _ t2 ⟨c2, h2⟩
  refine (ncoWrite_unturned w (x := .adjNsec) (by decide) _ h2).q ?_
  rintro _ t3 ⟨c3, h3⟩
  exact last_command_times_out w .adjClock h3

/-- What `adjust_frequency` does inside the lock with a step that fits (rule R308). -/
def commitStep (d nsec sub : Nat) : Op (Except Err Nat) :=
  (ncoWrite d .stepNsec (BitVec.ofNat 32 nsec)).q fun _ =>
  (ncoWrite d .stepSubnsec (BitVec.ofNat 32 sub)).q fun _ =>
  (ncoCommand d .adjStep).q fun _ =>
  (cmdPollOn d .adjStep).q fun _ =>
  (Op.set fun s => s.modNco d fun n => { n with currentStepNsec := BitVec.ofNat 6 nsec }).bind fun _ =>
  .ok 0

/-- An `adjust_frequency` with a step that fits, and that commits none. -/
theorem adjustFrequencyOn_run_hw {ppb : U32} {nsec sub : Nat} {A : Except Err Nat → Prop} {h : NcoHw}
    {L' : List Turn} (w : NcoWired s0 d n res i rb)
    (hs : newStep m.nominal48.toNat (ppbDelta s0.board.ppb m.scale ppb) = some (nsec, sub))
    (r : NcoRun s0 d n i rb m c L s) (hl : m.lock = none)
    (ho : ∀ t, NcoRun s0 d n i rb { m with lock := some s0.me.id } c L t → (commitStep d nsec sub).Ends t fun a u =>
      A a ∧ ∃ c', NcoRun s0 d n i rb { m with lock := some s0.me.id, hw := h } c' L' u) :
    (adjustFrequencyOn d ppb).Ends s fun a u => A a ∧ ∃ c', NcoRun s0 d n i rb { m with hw := h } c' L' u := by
  have small : sub < 2 ^ 32 := by
    unfold newStep at hs
    dsimp only at hs
    split at hs
    · cases hs
    · simp only [Option.some.injEq, Prod.mk.injEq] at hs
      omega
  obtain ⟨v, hv⟩ : ∃ v, v = nsec * 2 ^ 32 + sub := ⟨_, rfl⟩
  have high : v / 2 ^ 32 = nsec := by omega
  have low : BitVec.ofNat 32 v = BitVec.ofNat 32 sub := by
    apply BitVec.eq_of_toNat_eq
    simp only [BitVec.toNat_ofNat]
    omega
  refine ncoLocked_run_hw w r hl fun t ht => ?_
  have answer : stepAnswer t.board.ppb ppb { m with lock := some s0.me.id } = v + 1 := by
    simp only [stepAnswer, ht.board, hs, hv]
  refine (Op.Yields.ends (.step (n := v + 1) (t := t) ?_) (Q := fun b u => b = v + 1 ∧ u = t) ⟨rfl, rfl⟩).bind ?_
  · rw [ht.onNco w, answer]
  rintro _ _ ⟨rfl, rfl⟩
  dsimp only
  rw [high, low]
  exact ho _ ht

theorem adjustFrequencyOn_times_out {ppb : U32} {nsec sub : Nat} (w : NcoWired s0 d n res i rb)
    (hs : newStep m.nominal48.toNat (ppbDelta s0.board.ppb m.scale ppb) = some (nsec, sub))
    (r : NcoRun s0 d n i rb m c [] s) (hl : m.lock = none) :
    (adjustFrequencyOn d ppb).Ends s fun a t => a = .error .timeout ∧ ∃ c', NcoRun s0 d n i rb
      { m with
        hw := { m.hw with
          stageStepNsec := BitVec.ofNat 32 nsec, stageStepSubnsec := BitVec.ofNat 32 sub, pendAdjStep := true } }
      c' [] t := by
  refine adjustFrequencyOn_run_hw w hs r hl fun t ht => ?_
  refine (ncoWrite_unturned w (x := .stepNsec) (by decide) _ ht).q ?_
  rintro _ t1 ⟨c1, h1⟩
  refine (ncoWrite_unturned w (x := .stepSubnsec) (by decide) _ h1).q ?_
  rintro _ t2 ⟨c2, h2⟩
  exact command_times_out w .adjStep _ h2

theorem initStage_unturned (w : NcoWired s0 d n res i rb) (r : NcoRun s0 d n i rb m c [] s) (hl : m.lock = none) :
    (initStage d).Ends s fun a t => (∃ v, a = .ok v) ∧ ∃ c', NcoRun s0 d n i rb
      { m with hw := { m.hw with
        stageStepNsec := m.nominalNsec.setWidth 32, stageStepSubnsec := m.nominalSubnsec } } c' [] t := by
  have nsec : BitVec.ofNat 32 m.nominalNsec.toNat = m.nominalNsec.setWidth 32 := BitVec.eq_of_toNat_eq (by simp)
  refine ncoLocked_run_hw w r hl fun t ht => ?_
  refine (Op.Yields.ends (ncoGet_run w ht _) (Q := fun a u => a = m.nominalNsec.toNat ∧ u = t) ⟨rfl, rfl⟩).bind ?_
  rintro _ _ ⟨rfl, rfl⟩
  rw [nsec]
  refine (ncoWrite_unturned w (x := .stepNsec) (by decide) _ ht).q ?_
  rintro _ t1 ⟨c1, h1⟩
  refine (Op.Yields.ends (ncoGet_run w h1 _) (Q := fun a u => a = m.nominalSubnsec.toNat ∧ u = t1) ⟨rfl, rfl⟩).bind ?_
  rintro _ _ ⟨rfl, rfl⟩
  rw [BitVec.ofNat_toNat, BitVec.setWidth_eq]
  obtain ⟨v, t2, hy, h2⟩ := ncoWrite_unturned w (x := .stepSubnsec) (by decide) m.nominalSubnsec h1
  exact hy.ends ⟨⟨v, rfl⟩, h2⟩

/-- With no completion the first `READ` ends an `init_registers`, the nominal step staged. -/
theorem initRegistersOn_times_out (w : NcoWired s0 d n res i rb) (r : NcoRun s0 d n i rb m c [] s) (hl : m.lock = none) :
    (initRegistersOn d).Ends s fun a t => a = .error .timeout ∧ ∃ c', NcoRun s0 d n i rb
      { m with hw := { m.hw with
        stageStepNsec := m.nominalNsec.setWidth 32, stageStepSubnsec := m.nominalSubnsec, pendRead := true } }
      c' [] t := by
  obtain ⟨_, t, stages, ⟨v, rfl⟩, c', ht⟩ := initStage_unturned w r hl
  obtain ⟨_, u, reads, rfl, hu⟩ := readTimeOn_times_out w ht hl
  exact (stages.q reads.qError).ends ⟨rfl, hu⟩

/-! ### A first transfer that fails -/

/-- A register write over I2C whose first transfer fails and does not land. -/
theorem ncoWrite_fails (w : NcoWired s0 d n res i rb) (hk : rb.backend = .i2c) (hw : rb.hasWrite32 = false)
    (ho : checkOp s0.me.op = false) (x : NcoReg) (v : U32)
    (r : NcoRun s0 d n i rb m c (.fail false :: R) s) :
    (ncoWrite d x v).Ends s fun a t => a = .error .io ∧ NcoRun s0 d n i rb m c R t := by
  have fails := write32On_i2c_fails_low (a := res.base + s0.board.ncoMap.off x) (w := v) r.inst (r.use w).1 hk hw r.turns
    (by rwa [r.me])
  exact Op.Yields.ends (ncoReg_yields_any w r fails)
    ⟨rfl, r.still, r.inst, rfl, r.res, r.spin, r.later.trans (.of_eq rfl rfl)⟩

section

variable (w : NcoWired s0 d n res i rb) (hk : rb.backend = .i2c) (hw : rb.hasWrite32 = false)
  (ho : checkOp s0.me.op = false) (r : NcoRun s0 d n i rb m c (.fail false :: R) s) (hl : m.lock = none)
include w hk hw ho r hl

theorem readTimeOn_fails : (readTimeOn d).Ends s fun a t => a = .error .io ∧ ∃ c', NcoRun s0 d n i rb m c' R t :=
  ncoLocked_run_hw (h := m.hw) w r hl fun t ht => by
    obtain ⟨_, u, fails, rfl, hu⟩ := ncoWrite_fails w hk hw ho .cmd _ ht
    exact Op.Yields.ends (Op.Yields.qError (.bind (.get _) fails)) ⟨rfl, _, hu⟩

theorem adjustTimeOn_fails (sign : U32) (sec : U64) {nsec : U32} (hn : nsec.toNat < 2 ^ 31) :
    (adjustTimeOn d sign sec nsec).Ends s fun a t => a = .error .io ∧ ∃ c', NcoRun s0 d n i rb m c' R t := by
  rw [adjustTimeOn, if_neg (Nat.not_le.mpr hn)]
  refine ncoLocked_run_hw (h := m.hw) w r hl fun t ht => ?_
  obtain ⟨_, u, fails, rfl, hu⟩ := ncoWrite_fails w hk hw ho .adjSecHi _ ht
  exact Op.Yields.ends (.bind (ncoGet_run w ht _) fails.qError) ⟨rfl, _, hu⟩

theorem adjustFrequencyOn_fails {ppb : U32} {nsec sub : Nat}
    (hs : newStep m.nominal48.toNat (ppbDelta s0.board.ppb m.scale ppb) = some (nsec, sub)) :
    (adjustFrequencyOn d ppb).Ends s fun a t => a = .error .io ∧ ∃ c', NcoRun s0 d n i rb m c' R t :=
  adjustFrequencyOn_run_hw (h := m.hw) w hs r hl fun t ht => by
    obtain ⟨_, u, fails, rfl, hu⟩ := ncoWrite_fails w hk hw ho .stepNsec _ ht
    exact fails.qError.ends ⟨rfl, _, hu⟩

theorem initRegistersOn_fails :
    (initRegistersOn d).Ends s fun a t => a = .error .io ∧ ∃ c', NcoRun s0 d n i rb m c' R t := by
  refine Op.Ends.qError (ncoLocked_run_hw (h := m.hw) w r hl fun t ht => ?_)
  obtain ⟨_, u, fails, rfl, hu⟩ := ncoWrite_fails w hk hw ho .stepNsec _ ht
  exact Op.Yields.ends (.bind (ncoGet_run w ht _) fails.qError) ⟨rfl, _, hu⟩

end

end

end Sys2Proof.Machine
end

section
/-!
The arithmetic of requests (spec/41_nco.md rules R304, R306 to R308): what an adjustment moves, in nanoseconds, and the
words of a new step.
-/

namespace Sys2Proof.Machine

open Sys2Proof

section

variable {h : NcoHw} {sign : U32} {sec : U64} {nsec : U32} {step : Nat}

/-- A request of an adjustment in nanoseconds, with the current step added (rule R306). -/
def requested (sign : U32) (sec : U64) (nsec : U32) (step : Nat) : Int :=
  (if sign.toInt < 0 then -((sec.toNat * 1000000000 + nsec.toNat : Nat) : Int)
    else ((sec.toNat * 1000000000 + nsec.toNat : Nat) : Int)) + step

/-- The words of an adjustment are the seconds and nanoseconds of the request. -/
theorem adjustWords_eq (sign : U32) (sec : U64) (nsec : U32) (step : Nat) : adjustWords sign sec nsec step =
    (BitVec.ofInt 48 (requested sign sec nsec step / 1000000000),
      BitVec.ofInt 32 (requested sign sec nsec step % 1000000000)) := by
  unfold adjustWords requested
  by_cases neg : sign.toInt < 0
  · simp only [neg, decide_true, if_true, Config.giga]
    congr 2 <;> omega
  · simp only [neg, decide_false, if_false, Bool.false_eq_true, Config.giga]
    congr 2 <;> omega

/-- The hardware's time in nanoseconds. -/
def NcoHw.time (h : NcoHw) : Nat := h.sec.toNat * 1000000000 + h.nsec.toNat

/-- The hardware after it has applied an adjustment by `move` nanoseconds. -/
def NcoHw.moved (h : NcoHw) (b : Bool) (move : Int) : NcoHw :=
  (h.stageAdjust (BitVec.ofInt 48 (move / 1000000000)) (BitVec.ofInt 32 (move % 1000000000))).tickAdjust b

/-- Where the adjustment takes the step's place the time has moved by it, and the fraction not at all (rule R313). -/
theorem NcoHw.moved_time (h : NcoHw) (move : Int) :
    (h.moved true move).sec = BitVec.ofInt 48 ((h.time + move) / 1000000000) ∧
    ((h.moved true move).nsec.toNat : Int) = (h.time + move) % 1000000000 ∧ (h.moved true move).frac = h.frac := by
  obtain ⟨g, hg⟩ : ∃ g, g =
    h.stageAdjust (BitVec.ofInt 48 (move / 1000000000)) (BitVec.ofInt 32 (move % 1000000000)) := ⟨_, rfl⟩
  have sec : g.adjSec % 2 ^ 48 = move / 1000000000 % 2 ^ 48 := by
    have joined : (lowHalf g.stageAdjSecHi ++ g.stageAdjSecLo : U48) = BitVec.ofInt 48 (move / 1000000000) := by
      have high (v : U16) : lowHalf (v.setWidth 32) = v := by
        apply BitVec.eq_of_toNat_eq
        simp only [lowHalf, BitVec.extractLsb'_toNat, BitVec.toNat_setWidth]
        omega
      rw [hg]
      exact (congrArg (· ++ _) (high _)).trans (join_extract48 _)
    rw [NcoHw.adjSec, joined, BitVec.toInt_ofInt]
    exact Int.bmod_emod
  have nsec : (g.adjNsec : Int) = move % 1000000000 := by
    have staged : g.stageAdjNsec = BitVec.ofInt 32 (move % 1000000000) := by rw [hg]; rfl
    rw [NcoHw.adjNsec, staged, BitVec.toNat_setWidth, BitVec.toNat_ofInt]
    omega
  have moved : h.moved true move = g.tickAdjust true := by rw [hg]; rfl
  have time : h.time = g.sec.toNat * 1000000000 + g.nsec.toNat := by rw [hg]; rfl
  have frac : (g.tickAdjust true).frac = h.frac := by rw [hg]; rfl
  obtain ⟨-, nsecIs, secIs⟩ := NcoHw.tickAdjust_time (g.adjusted_fineTime true)
  have small := g.frac.isLt
  rw [if_pos rfl, fineTime] at nsecIs secIs
  rw [moved, time, secIs, frac]
  refine ⟨BitVec.eq_of_toNat_eq ?_, ?_, rfl⟩
  · simp only [BitVec.toNat_ofInt]
    omega
  · rw [nsecIs]
    omega

/-! ### The new step (rule R308) -/

/-- A step whose nanoseconds fit is cut into its nanoseconds and its fraction. -/
theorem newStep_fits {nominal : Nat} {delta : Int} (h0 : 0 ≤ nominal + delta) (h1 : nominal + delta < 64 * 2 ^ 32) :
    newStep nominal delta = some (((nominal + delta) / 2 ^ 32).toNat, ((nominal + delta) % 2 ^ 32).toNat) := by
  simp only [newStep]
  rw [if_neg (by omega)]

theorem newStep_out {nominal : Nat} {delta : Int} (h : nominal + delta < 0 ∨ 64 * 2 ^ 32 ≤ nominal + delta) :
    newStep nominal delta = none := by
  simp only [newStep]
  rw [if_pos (by omega)]

/-- The words of a step that fits, as they stand in the cells of each width. -/
theorem stepWords {v : Int} (h0 : 0 ≤ v) : BitVec.ofNat 32 (v / 2 ^ 32).toNat = BitVec.ofInt 32 (v / 2 ^ 32) ∧
    BitVec.ofNat 6 (v / 2 ^ 32).toNat = BitVec.ofInt 6 (v / 2 ^ 32) ∧
    BitVec.ofNat 32 (v % 2 ^ 32).toNat = BitVec.ofInt 32 v := by
  refine ⟨BitVec.eq_of_toNat_eq ?_, BitVec.eq_of_toNat_eq ?_, BitVec.eq_of_toNat_eq ?_⟩
  all_goals
    simp only [BitVec.toNat_ofNat, BitVec.toNat_ofInt]
    omega

theorem ppbDelta_zero (f : FunctionChoice) (scale : Nat) : ppbDelta f scale 0 = 0 := by
  cases f <;> simp [ppbDelta]

end

end Sys2Proof.Machine
end

section
/-!
`read_time`, `adjust_time` and `adjust_frequency` (spec/41_nco.md rules R305 to R308).
-/

namespace Sys2Proof.Machine

open Sys2Proof

/-! ### However the bus behaves -/

/-- What `read_time` and `adjust_time` do not change: `initialised` and `current_step_nsec`. -/
def Nco.SameCells (n m : Nco) : Prop := m.initialised = n.initialised ∧ m.currentStepNsec = n.currentStepNsec

theorem Nco.sameCells_lasting (n : Nco) : Nco.Lasting n.SameCells where
  hw _ _ h := h
  removed _ h := h

section

variable {s t : State} {d : Nat} {n : Nco} {x : Instr}

/-- An operation has begun on a device whose lock is free. -/
theorem State.start_ncoIs {C : Nco → Prop} (hn : s.ncos[d]? = some n) (hC : C n) : (s.start x).NcoIs d C :=
  ⟨Option.some_ne_none _, n, hn, hC⟩

theorem asUnit_brings {o : Op (Except Err Nat)} {P : State → Prop} {R : Except Err Nat → State → Prop}
    {S : Except Err Res → State → Prop} (ho : o.Brings P R) (herr : ∀ e s, R (.error e) s → S (.error e) s)
    (hok : ∀ n s, R (.ok n) s → S (.ok .unit) s) : (asUnit o).Brings P S :=
  ho.q herr fun n => .ret (hok n)

/-- A `read_time` answers the hardware's seconds and nanoseconds, normalized. -/
theorem ReadsTime.normalized {b : Board} {h : NcoHw} {v : TimeResult} (is : ReadsTime s b h v) :
    v.sec.toNat = h.sec.toNat + h.nsec.toNat / 1000000000 ∧ v.nsec.toNat = h.nsec.toNat % 1000000000 := by
  have nsec := h.nsec.isLt
  have sec := h.sec.isLt
  rw [is.sec, is.nsec, normalize, BitVec.toNat_ofNat, BitVec.toNat_ofNat, Config.giga]
  omega

/-- The host's times that a run draws are those its operation finds at its start. -/
theorem State.start_hostDrawn (k : Nat) : (s.start x).hostDrawn k = s.hostDrawn k := by
  simp only [State.hostDrawn, State.drawn, afterDraws_eq]
  rfl

/-- An operation on a wired NCO whose run ends in an error. -/
theorem NcoWired.fails {α : Type} {o : Op (Except Err α)} {g : α → Op (Except Err Res)} {i : Nat} {m : Nco} {rb : Rb}
    {res : Resource} {L R : List Turn} {init : Bool} {e : Err} {u : State} (w : NcoWired s d n res i rb) (hs : s.Idle)
    (hx : atomicOp (some x) = false) (hi : init = true → n.initialised = true) (hr : s.turns = L)
    (ho : NcoWired (s.start x) d n res i rb → NcoRun (s.start x) d n i rb n rb.aa1Cache L (s.start x) →
      o.Ends (s.start x) fun a t => a = .error e ∧ ∃ c', NcoRun (s.start x) d n i rb m c' R t)
    (hm : (s.modNco d fun _ => m) = u) :
    ∃ t, s.perform x ((ncoEnter d init).bind fun _ => o.q g) = .next t ∧ t.turns = R ∧ s.SameBytes t ∧
      t.still i = (u.finish (.error e)).still i := by
  obtain ⟨w', begins⟩ := NcoRun.begins hs w hx hr
  obtain ⟨_, t, ends, rfl, c', ht⟩ := ho w' begins
  exact ht.performs hs w hi ends.qError hm

/-- An operation on an NCO, however the bus behaves: where it has returned the lock is free and its condition holds. -/
theorem State.perform_frees {C : Nco → Prop} {R : Except Err Res → Nco → Prop} {o : Op (Except Err Res)}
    {init : Bool} (hC : Nco.Lasting C) (ho : o.Brings (State.NcoIs d C) fun r => State.NcoIs d (Nco.Free (R r)))
    (hs : s.me.op = none) (hn : s.ncos[d]? = some n) (hc : C n)
    (hr : s.perform x ((ncoEnter d init).bind fun _ => o) = .next t) (hop : t.me.op = none)
    (hrun : t.me.stopped = none) :
    ∃ r m, t.me.result = some r ∧ t.ncos[d]? = some m ∧ m.lock = none ∧ R r m := by
  have steady := ncoIs_accessSteady (d := d) hC
  have enters := (steady.ncoEnter d init).brings steady.toReadSteady
  obtain ⟨r, u, ⟨-, m, hm, hR, free⟩, rfl⟩ :=
    State.perform_brings (enters.bind fun _ => ho) hs (State.start_ncoIs hn hc) hr hop hrun
  exact ⟨r, m, rfl, hm, free, hR⟩

theorem readTimeOn_brings {C : Nco → Prop} (hC : Nco.Lasting C) (hlock : ∀ n l, C n → C { n with lock := l }) :
    (readTimeOn d).Brings (State.NcoIs d C) fun _ => State.NcoIs d (Nco.Free C) := by
  refine ncoLocked_accesses hC hlock fun hP => ?_
  have subnsec : (ncoSubnsec d).Keeps (State.NcoIs d C) State.Unreturned :=
    .bind (.get _) fun _ => .ite (hP.ncoRead d _) trivial
  exact (hP.ncoCommand d _).q fun _ => (hP.cmdPollOn d _).q fun _ => (hP.ncoRead d _).q fun _ =>
    (hP.ncoRead d _).q fun _ => (hP.ncoRead d _).q fun _ => (hP.ncoRead d _).q fun _ => (hP.ncoRead d _).q fun _ =>
    subnsec.q fun _ => hP.hostNow.bind fun _ => trivial

/-- What an operation brings from a held lock as from a free one, it brings from a free one. -/
theorem Op.Brings.whenFree {α : Type} {o : Op α} {C : Nco → Prop} {R : α → State → Prop}
    (ho : o.Brings (State.NcoIs d C) R) : o.Brings (State.NcoIs d (Nco.Free C)) R :=
  fun g c seen s t ⟨hin, n, hn, hc, _⟩ hr => ho g c seen s t ⟨hin, n, hn, hc⟩ hr

/-- An adjustment that is rejected has not taken the lock. -/
theorem adjustTimeOn_brings {C : Nco → Prop} (hC : Nco.Lasting C) (hlock : ∀ n l, C n → C { n with lock := l })
    (sign : U32) (sec : U64) (nsec : U32) : (adjustTimeOn d sign sec nsec).Brings (State.NcoIs d (Nco.Free C)) fun _ =>
      State.NcoIs d (Nco.Free C) := by
  refine .ite (.ret fun _ hs => hs) ?_
  have locked := ncoLocked_accesses (d := d) hC hlock fun hP =>
    (ncoGet_keeps d fun n => n.currentStepNsec.toNat).bind fun step =>
      (hP.ncoWrite d .adjSecHi (((adjustWords sign sec nsec step).1.extractLsb' 32 16).setWidth 32)).q fun _ =>
      (hP.ncoWrite d .adjSecLo ((adjustWords sign sec nsec step).1.extractLsb' 0 32)).q fun _ =>
      (hP.ncoWrite d .adjNsec (adjustWords sign sec nsec step).2).q fun _ =>
      (hP.ncoCommand d .adjClock).q fun _ => hP.cmdPollOn d .adjClock
  exact locked.whenFree

end

/-- Settles O29: the run of a `read_time` that the hardware answers, leaves without an answer, or whose first transfer
fails, and what its steps keep however the bus behaves. -/
theorem readTime : Obligations.ReadTime := by
  unfold Obligations.ReadTime
  refine ⟨?completes, ?however, ?timesOut, ?fails⟩
  case completes =>
    intro s d i n res rb p hs w hi hp hr
    obtain ⟨w', begins⟩ := NcoRun.begins (x := .readTime d) hs w rfl hr
    rw [← List.append_nil (readTimeBeats _ _ _)] at begins
    obtain ⟨_, t, reads, v, rfl, is, c', ht⟩ := readTimeOn_run w' hp begins w.free
    have answers : ((readTimeOn d).q fun v => .ok (.time v)).Yields _ (.ok (Res.time v)) t := reads.q (.ok _)
    obtain ⟨t, runs, turns, bytes, still⟩ :=
      ht.performs (init := true) hs w (fun _ => hi) answers (u := s.modNcoHw d NcoHw.latch)
        (State.modNco_congr w.device rfl)
    obtain ⟨sec, nsec⟩ := is.normalized
    obtain ⟨k, hk⟩ := is.src
    exact ⟨t, v, runs, turns, bytes, still, is.counter, sec, nsec, is.subnsec, k, hk.trans (State.start_hostDrawn k)⟩
  case however =>
    intro s t d n hs hn hl hr hop hrun
    have lasting := n.sameCells_lasting
    have reads : ((readTimeOn d).q fun t => .ok (Res.time t)).Brings (State.NcoIs d n.SameCells) fun _ =>
        State.NcoIs d (Nco.Free n.SameCells) :=
      (readTimeOn_brings lasting fun _ _ h => h).q (fun _ _ h => h) fun _ => .ret fun _ h => h
    obtain ⟨_, m, -, hm, free, init, step⟩ := State.perform_frees lasting reads hs hn ⟨rfl, rfl⟩ hr hop hrun
    exact ⟨m, hm, free, init, step⟩
  case timesOut =>
    intro s d i n res rb hs w hi hr
    exact w.fails hs rfl (fun _ => hi) hr (fun w' begins => readTimeOn_times_out w' begins w.free)
      (State.modNco_congr w.device rfl)
  case fails =>
    intro s d i n res rb r hs w hi hk hw hr
    exact w.fails hs rfl (fun _ => hi) hr (fun w' begins => readTimeOn_fails w' hk hw rfl begins w.free)
      (State.modNco_self w.device)

/-- Settles O30: as O29, with the words of the request and what the applying tick makes of the time. -/
theorem adjustTime : Obligations.AdjustTime := by
  unfold Obligations.AdjustTime
  refine ⟨?completes, ?however, ?timesOut, ?fails, ?rejected⟩
  case completes =>
    intro s d i n res rb p sign sec nsec hs w hi hp hn hr delta move total
    obtain ⟨w', begins⟩ := NcoRun.begins (x := .adjustTime d sign sec nsec) hs w rfl hr
    rw [← List.append_nil (adjustTimeBeats _ _ _)] at begins
    obtain ⟨v, t, adjusts, c', ht⟩ := adjustTimeOn_run w' hp sign sec nsec hn begins w.free
    obtain ⟨t, runs, turns, bytes, still⟩ :=
      ht.performs (init := true) hs w (fun _ => hi) (asUnit_yields adjusts) rfl
    rw [adjustWords_eq] at still
    refine ⟨t, _, runs, turns, bytes, still, rfl, rfl, fun replaces => ?_⟩
    obtain ⟨secIs, nsecIs, frac⟩ := n.hw.moved_time move
    exact replaces ▸ ⟨secIs, nsecIs, frac⟩
  case however =>
    intro s t d n sign sec nsec hs hn hl hr hop hrun
    have lasting := n.sameCells_lasting
    have adjusts := asUnit_brings (S := fun _ => State.NcoIs d (Nco.Free n.SameCells))
      (adjustTimeOn_brings lasting (fun _ _ h => h) sign sec nsec) (fun _ _ h => h) fun _ _ h => h
    obtain ⟨_, m, -, hm, free, init, step⟩ :=
      State.perform_frees lasting.free adjusts hs hn ⟨⟨rfl, rfl⟩, hl⟩ hr hop hrun
    exact ⟨m, hm, free, init, step⟩
  case timesOut =>
    intro s d i n res rb sign sec nsec hs w hi hn hr delta move
    obtain ⟨w', begins⟩ := NcoRun.begins (x := .adjustTime d sign sec nsec) hs w rfl hr
    obtain ⟨_, t, ends, rfl, c', ht⟩ := adjustTimeOn_times_out w' sign sec hn begins w.free
    rw [adjustWords_eq] at ht
    exact ht.performs (init := true) hs w (fun _ => hi) (asUnit_error ends) (State.modNco_congr w.device rfl)
  case fails =>
    intro s d i n res rb sign sec nsec r hs w hi hn hk hw hr
    exact w.fails hs rfl (fun _ => hi) hr (fun w' begins => adjustTimeOn_fails w' hk hw rfl begins w.free sign sec hn)
      (State.modNco_self w.device)
  case rejected =>
    intro s d n sign sec nsec hs hn hr hi hbig
    have rejects (s : State) : (adjustTimeOn d sign sec nsec).Yields s (.error (.inval .adjNsecRange)) s := by
      rw [adjustTimeOn, if_pos hbig]
      exact .raise _
    exact State.perform_plain_yields (t := s) hs
      (.bind (ncoEnter_passes (s := s.doing _) hn hr fun _ => hi) (asUnit_error (rejects _)))

end Sys2Proof.Machine
end

section
/-!
`adjust_frequency` (spec/41_nco.md rule R308).
-/

namespace Sys2Proof.Machine

open Sys2Proof

section

variable {s : State} {d : Nat} {n : Nco} {ppb : U32}

/-- The hardware's cells after it has taken a staged step that fits. -/
theorem stepWords_taken {h : NcoHw} {v : Int} (h0 : 0 ≤ v) :
    ({ h with
      stageStepNsec := BitVec.ofNat 32 (v / 2 ^ 32).toNat
      stageStepSubnsec := BitVec.ofNat 32 (v % 2 ^ 32).toNat } : NcoHw).takeStep =
    { h with
      stageStepNsec := BitVec.ofInt 32 (v / 2 ^ 32), stageStepSubnsec := BitVec.ofInt 32 v
      stepNsec := BitVec.ofInt 6 (v / 2 ^ 32), stepSubnsec := BitVec.ofInt 32 v, pendAdjStep := false } := by
  obtain ⟨word, cell, sub⟩ := stepWords h0
  have narrow : (BitVec.ofNat 32 (v / 2 ^ 32).toNat).setWidth 6 = BitVec.ofInt 6 (v / 2 ^ 32) :=
    (BitVec.setWidth_ofNat_of_le (by decide) _).trans cell
  simp only [NcoHw.takeStep, narrow, sub]
  rw [word]

/-- What `adjust_frequency` keeps: `initialised`, and `current_step_nsec` where it has not answered a success. -/
def Nco.Stepped (n : Nco) {α : Type} (r : Except Err α) (m : Nco) : Prop :=
  m.initialised = n.initialised ∧ ∀ e, r = .error e → m.currentStepNsec = n.currentStepNsec

/-- The step is changed after the last access (rule R308). -/
theorem adjustFrequencyOn_brings (d : Nat) (n : Nco) (ppb : U32) :
    (adjustFrequencyOn d ppb).Brings (State.NcoIs d n.SameCells) fun r => State.NcoIs d (Nco.Free (n.Stepped r)) := by
  have steady := ncoIs_accessSteady (d := d) n.sameCells_lasting
  have accesses {o : Op (Except Err Nat)} (h : o.Keeps (State.NcoIs d n.SameCells) State.Unreturned) :
      o.Brings (State.NcoIs d n.SameCells) fun _ => State.NcoIs d n.SameCells := h.brings steady.toReadSteady
  have fails (e : Err) (s : State) (h : s.NcoIs d n.SameCells) : s.NcoIs d (n.Stepped (.error e : Except Err Nat)) := by
    obtain ⟨hin, m, hm, init, step⟩ := h
    exact ⟨hin, m, hm, init, fun _ _ => step⟩
  refine ncoLocked_brings (R := n.Stepped) ?_ (fun _ _ h => h) fun _ _ h => h
  have steps : (Op.step fun s => s.onNco d fun n => .go (stepAnswer s.board.ppb ppb n) s).Keeps
      (State.NcoIs d n.SameCells) State.Unreturned := .step fun _ hs => .onNco fun _ => hs
  refine (steps.brings steady.toReadSteady).bind fun
    | 0 => .ret (fails _)
    | v + 1 => ?_
  refine (accesses (steady.ncoWrite d _ _)).q fails fun _ => ?_
  refine (accesses (steady.ncoWrite d _ _)).q fails fun _ => ?_
  refine (accesses (steady.ncoCommand d _)).q fails fun _ => ?_
  refine (accesses (steady.cmdPollOn d _)).q fails fun _ => ?_
  have commits {s : State} (hs : s.NcoIs d n.SameCells) :
      (s.modNco d fun n => { n with currentStepNsec := BitVec.ofNat 6 (v / 2 ^ 32) }).NcoIs d
        (n.Stepped (.ok 0 : Except Err Nat)) := hs.update fun m hm => ⟨hm.1, nofun⟩
  exact (Op.Brings.set (fun _ hs => hs.1) fun _ => commits).bind fun _ => .ret fun _ h => h

/-- A step out of range is found under the lock, before any access. -/
theorem adjustFrequencyOn_rejects (hn : s.ncos[d]? = some n) (hl : n.lock = none)
    (ha : n.spin = false → s.atomic = false)
    (hs : newStep n.nominal48.toNat (ppbDelta s.board.ppb n.scale ppb) = none) :
    (adjustFrequencyOn d ppb).Yields s (.error (.inval .stepRange)) s := by
  obtain ⟨u, hu⟩ : ∃ u, u = s.modNco d fun m => { m with lock := some s.me.id } := ⟨_, rfl⟩
  have held : u.ncos[d]? = some { n with lock := some s.me.id } := hu ▸ getElem?_modify_self _ _ _ _ hn
  have board : u.board = s.board := hu ▸ rfl
  have acquires : (ncoAcquire d).Yields s 0 u := by
    refine .step ?_
    rw [State.onNco_some hn, if_neg (by simpa using ha), if_pos hl, hu]
  have back : u.modNco d (fun m => { m with lock := none }) = s :=
    calc u.modNco d (fun m => { m with lock := none })
      _ = s.modNco d fun m => { m with lock := none } :=
        hu ▸ congrArg (fun l => { s with ncos := l }) (modify_modify _ _ _ _)
      _ = s.modNco d fun _ => n := State.modNco_congr hn (by rw [← hl])
      _ = s := State.modNco_self hn
  have releases : (ncoRelease d).Yields u () s := by
    have sets : (ncoRelease d).Yields u () (u.modNco d fun m => { m with lock := none }) := .set _
    rwa [back] at sets
  refine .bind acquires (.bind (.bind (.step (n := 0) (t := u) ?_) (.raise _)) (.bind releases (.ret _)))
  rw [State.onNco_some held]
  simp only [stepAnswer, board, hs]

end

/-- Settles O31: as O29, with the step that the request gives, or its rejection under the lock. -/
theorem adjustFrequency : Obligations.AdjustFrequency := by
  unfold Obligations.AdjustFrequency
  refine ⟨?completes, ?rejected, ?however, ?timesOut, ?fails, ppbDelta_zero⟩
  case completes =>
    intro s d i n res rb p ppb hs w hi hp v h0 h1 hr
    obtain ⟨w', begins⟩ := NcoRun.begins (x := .adjustFrequency d ppb) hs w rfl hr
    rw [← List.append_nil (adjustFrequencyBeats _ _ _)] at begins
    have fits : newStep n.nominal48.toNat (ppbDelta s.board.ppb n.scale ppb) = _ := newStep_fits h0 h1
    obtain ⟨a, t, adjusts, c', ht⟩ := adjustFrequencyOn_run w' hp ppb fits begins w.free
    rw [stepWords_taken h0] at ht
    obtain ⟨t, runs, turns, bytes, still⟩ :=
      ht.performs (init := true) hs w (fun _ => hi) (asUnit_yields adjusts) rfl
    obtain ⟨-, cell, -⟩ := stepWords h0
    exact ⟨t, _, runs, turns, bytes, still, by rw [cell]⟩
  case rejected =>
    intro s d n ppb hs hn hr hi hl ha v hv
    have enters := ncoEnter_passes (s := s.start (.adjustFrequency d ppb)) (init := true) hn hr fun _ => hi
    have rejects := adjustFrequencyOn_rejects (s := s.start (.adjustFrequency d ppb)) (ppb := ppb) hn hl
      (fun h => (State.start_atomic hs rfl).trans (ha h)) (newStep_out hv)
    have runs : exec (.adjustFrequency d ppb) s = _ := State.perform_yields hs (enters.bind (asUnit_error rejects))
    rw [runs, State.start_eq_doing hs]
    rfl
  case however =>
    intro s t d n ppb hs hn hl hr hop hrun
    have adjusts := asUnit_brings (S := fun r => State.NcoIs d (Nco.Free (n.Stepped r)))
      (adjustFrequencyOn_brings d n ppb)
      (fun e s ⟨hin, m, hm, ⟨init, step⟩, free⟩ => ⟨hin, m, hm, ⟨init, fun _ _ => step e rfl⟩, free⟩)
      fun _ s ⟨hin, m, hm, ⟨init, _⟩, free⟩ => ⟨hin, m, hm, ⟨init, nofun⟩, free⟩
    obtain ⟨r, m, result, hm, free, init, step⟩ :=
      State.perform_frees n.sameCells_lasting adjusts hs hn ⟨rfl, rfl⟩ hr hop hrun
    exact ⟨m, hm, free, init, fun e he => step e (Option.some.inj (result.symm.trans he))⟩
  case timesOut =>
    intro s d i n res rb ppb hs w hi v h0 h1 hr
    obtain ⟨w', begins⟩ := NcoRun.begins (x := .adjustFrequency d ppb) hs w rfl hr
    have fits : newStep n.nominal48.toNat (ppbDelta s.board.ppb n.scale ppb) = _ := newStep_fits h0 h1
    obtain ⟨_, t, ends, rfl, c', ht⟩ := adjustFrequencyOn_times_out w' fits begins w.free
    obtain ⟨word, -, sub⟩ := stepWords h0
    rw [word, sub] at ht
    exact ht.performs (init := true) hs w (fun _ => hi) (asUnit_error ends) (State.modNco_congr w.device rfl)
  case fails =>
    intro s d i n res rb ppb r hs w hi v h0 h1 hk hw hr
    exact w.fails hs rfl (fun _ => hi) hr (fun w' begins => adjustFrequencyOn_fails w' hk hw rfl begins w.free (newStep_fits h0 h1))
      (State.modNco_self w.device)

end Sys2Proof.Machine
end

section
/-!
`init_registers` (spec/41_nco.md rule R309), and what the NCO operations refuse, fault on and wait for (rules R300,
R312).
-/

namespace Sys2Proof.Machine

open Sys2Proof

section

variable {s0 s t : State} {d i : Nat} {n m : Nco} {rb : Rb} {res : Resource} {c : Option U16} {L : List Turn}
  {h : NcoHw} {v : TimeResult} {host : U64 × U32}

/-! ### The time that `init_registers` leaves (rule R724) -/

/-- The hardware after the five commands of `init_registers`: the nominal step is staged, a snapshot taken, its time
moved away and the host's time moved in, the staged step taken, and another snapshot taken. -/
def Nco.broughtUp (m : Nco) (b : Bool) (host : U64 × U32) : NcoHw :=
  let staged : NcoHw :=
    { m.hw with stageStepNsec := m.nominalNsec.setWidth 32, stageStepSubnsec := m.nominalSubnsec }
  ((staged.latch.moved b (m.currentStepNsec.toNat - m.hw.time)).moved b
    ((host.1.toNat * 1000000000 + host.2.toNat : Nat) + m.currentStepNsec.toNat)).takeStep.latch

theorem Nco.broughtUp_step (m : Nco) (b : Bool) (host : U64 × U32) : (m.broughtUp b host).stepNsec = m.nominalNsec ∧
    (m.broughtUp b host).stepSubnsec = m.nominalSubnsec ∧ (m.broughtUp b host).counter = m.hw.counter + 2 := by
  have step : (m.nominalNsec.setWidth 32).setWidth 6 = m.nominalNsec :=
    (BitVec.setWidth_setWidth_of_le _ (by decide)).trans (BitVec.setWidth_eq _)
  exact ⟨step, rfl, BitVec.add_assoc m.hw.counter 1 1⟩

/-- The adjustments take the hardware's own time away and add the host's, and each adds the current step. -/
theorem Nco.broughtUp_time (m : Nco) (host : U64 × U32) (total : Nat)
    (ht : total = host.1.toNat * 1000000000 + host.2.toNat + 2 * m.currentStepNsec.toNat) :
    (m.broughtUp true host).sec = BitVec.ofNat 48 (total / 1000000000) ∧
      (m.broughtUp true host).nsec.toNat = total % 1000000000 := by
  obtain ⟨h0, is0⟩ : ∃ h0 : NcoHw, h0 = ({ m.hw with
    stageStepNsec := m.nominalNsec.setWidth 32, stageStepSubnsec := m.nominalSubnsec } : NcoHw).latch := ⟨_, rfl⟩
  obtain ⟨h1, is1⟩ : ∃ h1, h1 = h0.moved true (m.currentStepNsec.toNat - m.hw.time) := ⟨_, rfl⟩
  obtain ⟨h2, is2⟩ : ∃ h2, h2 =
    h1.moved true ((host.1.toNat * 1000000000 + host.2.toNat : Nat) + m.currentStepNsec.toNat) := ⟨_, rfl⟩
  have start : h0.time = m.hw.time := is0 ▸ rfl
  have away : h1.time = m.currentStepNsec.toNat := by
    obtain ⟨sec, nsec, -⟩ := h0.moved_time (m.currentStepNsec.toNat - m.hw.time)
    have small := m.currentStepNsec.isLt
    rw [← is1, start] at sec nsec
    have zero : ((m.hw.time : Int) + (m.currentStepNsec.toNat - m.hw.time)) / 1000000000 = 0 := by omega
    have secIs : h1.sec.toNat = 0 := by rw [sec, zero]; rfl
    rw [NcoHw.time, secIs]
    omega
  obtain ⟨sec, nsec, -⟩ :=
    h1.moved_time ((host.1.toNat * 1000000000 + host.2.toNat : Nat) + m.currentStepNsec.toNat)
  have sum : (m.currentStepNsec.toNat : Int) + ((host.1.toNat * 1000000000 + host.2.toNat : Nat) +
      m.currentStepNsec.toNat) = total := by omega
  rw [← is2, away, sum] at sec nsec
  have brought : m.broughtUp true host = h2.takeStep.latch := by rw [is2, is1, is0]; rfl
  have secIs : h2.sec = BitVec.ofNat 48 (total / 1000000000) := sec.trans (BitVec.ofInt_natCast 48 _)
  have nsecIs : h2.nsec.toNat = total % 1000000000 := by omega
  rw [brought]
  exact ⟨secIs, nsecIs⟩

/-! ### Its run -/

/-- An adjustment that takes away the time that a `read_time` answered. -/
theorem ReadsTime.requested_away (is : ReadsTime s s0.board h v) (step : Nat) :
    requested 0xFFFFFFFF v.sec v.nsec step = step - h.time := by
  obtain ⟨sec, nsec⟩ := is.normalized
  rw [requested, if_pos (by decide), sec, nsec, NcoHw.time]
  omega

theorem requested_positive (sec : U64) (nsec : U32) (step : Nat) :
    requested 1 sec nsec step = (sec.toNat * 1000000000 + nsec.toNat : Nat) + step := by
  rw [requested, if_neg (by decide)]

/-- `adjust_time` in a run, with what it moves. -/
theorem adjustTimeOn_moves (w : NcoWired s0 d n res i rb) {p : Nat} (hp : p ≤ Config.pollBudget) {l : List Beat}
    {sign : U32} {sec : U64} {nsec : U32} {move : Int} (hn : nsec.toNat < 2 ^ 31)
    (hm : requested sign sec nsec m.currentStepNsec.toNat = move)
    (r : NcoRun s0 d n i rb m c (rb.script d c (adjustTimeBeats s0.board res.base p ++ l)) s) (hl : m.lock = none) :
    (adjustTimeOn d sign sec nsec).EndsOk s fun _ t => ∃ c', NcoRun s0 d n i rb
      { m with hw := m.hw.moved s0.board.adjReplacesStep move } c' (rb.script d c' l) t := by
  have runs := adjustTimeOn_run w hp sign sec nsec hn r hl
  rwa [adjustWords_eq, hm] at runs

/-- The check of rule R309 answers as `P_NCO_INIT_CHECK` does of the time read last, and initialises on success. -/
theorem initVerify_run (is : ReadsTime s s0.board h v) (r : NcoRun s0 d n i rb m c L t) {good : Bool}
    (hg : good = initCheckOk s0.board.initCheck (h.sec.toNat + h.nsec.toNat / 1000000000) (h.nsec.toNat % 1000000000)
      host.1.toNat host.2.toNat) :
    (initVerify d v host).Ends t fun a u => a = (if good then .ok 0 else .error .initCheck) ∧
      NcoRun s0 d n i rb { m with initialised := good || m.initialised } c L u := by
  obtain ⟨sec, nsec⟩ := is.normalized
  have tests : (Op.test fun s =>
      initCheckOk s.board.initCheck v.sec.toNat v.nsec.toNat host.1.toNat host.2.toNat).Yields t good t := by
    rw [hg, ← sec, ← nsec, ← r.board]
    exact .test _
  cases good with
  | false => exact Op.Yields.ends (.bind tests (.raise _)) ⟨rfl, r⟩
  | true =>
    exact Op.Yields.ends (.bind tests (.bind (.set _) (.ok 0)))
      ⟨rfl, r.mod (fun m => { m with initialised := true }) rfl rfl⟩

/-- `init_registers` whose five commands the hardware completes within the budget. -/
theorem initRegistersOn_run (w : NcoWired s0 d n res i rb) {p : Nat → Nat} (hp : ∀ k, p k ≤ Config.pollBudget)
    (r : NcoRun s0 d n i rb m c (rb.script d c (initBeats s0.board res.base p)) s) (hl : m.lock = none) :
    (initRegistersOn d).Ends s fun a t => ∃ k good hw, hw = m.broughtUp s0.board.adjReplacesStep (s0.hostDrawn k) ∧
      good = initCheckOk s0.board.initCheck (hw.sec.toNat + hw.nsec.toNat / 1000000000) (hw.nsec.toNat % 1000000000)
        (s0.hostDrawn k).1.toNat (s0.hostDrawn k).2.toNat ∧
      a = (if good then .ok 0 else .error .initCheck) ∧
      ∃ c', NcoRun s0 d n i rb
        { m with currentStepNsec := m.nominalNsec, initialised := good || m.initialised, hw := hw } c' [] t := by
  rw [initBeats, ← List.append_nil (readTimeBeats s0.board res.base (p 4))] at r
  refine (initStage_run w r hl).q ?_
  rintro _ t1 ⟨c1, h1⟩
  refine (readTimeOn_run w (hp 0) h1 hl).bind ?_
  rintro _ t2 ⟨v, rfl, is, c2, h2⟩
  obtain ⟨-, nsec⟩ := is.normalized
  refine (hostNow_run h2).bind ?_
  rintro _ t3 ⟨⟨k, rfl⟩, h3⟩
  refine (adjustTimeOn_moves w (hp 1) (by omega) (is.requested_away _) h3 hl).q ?_
  rintro _ t4 ⟨c4, h4⟩
  have host := hostDrawn_nsec s0 k
  rw [Config.giga] at host
  refine (adjustTimeOn_moves w (hp 2) (by omega) (requested_positive _ _ _) h4 hl).q ?_
  rintro _ t5 ⟨c5, h5⟩
  refine (initCommit_run w (hp 3) h5 hl).q ?_
  rintro _ t6 ⟨c6, h6⟩
  refine (readTimeOn_run w (hp 4) h6 hl).bind ?_
  rintro _ t7 ⟨u, rfl, is, c7, h7⟩
  obtain ⟨a, t8, checks, rfl, h8⟩ := initVerify_run (host := s0.hostDrawn k) is h7 rfl
  exact checks.ends ⟨k, _, _, rfl, rfl, rfl, c7, h8⟩

/-! ### However the bus behaves -/

/-- `init_registers` has not changed `initialised` unless it answers a success. -/
def Nco.Begun (n : Nco) {α : Type} (r : Except Err α) (m : Nco) : Prop :=
  ∀ e, r = .error e → m.initialised = n.initialised

/-- What all of `init_registers` but its last step keeps. -/
def Nco.SameInit (n m : Nco) : Prop := m.initialised = n.initialised

theorem Nco.sameInit_lasting (n : Nco) : Nco.Lasting n.SameInit where
  hw _ _ h := h
  removed _ h := h

theorem initStage_brings (d : Nat) (n : Nco) :
    (initStage d).Brings (State.NcoIs d n.SameInit) fun _ => State.NcoIs d (Nco.Free n.SameInit) :=
  ncoLocked_accesses n.sameInit_lasting (fun _ _ h => h) fun hP => (ncoGet_keeps d _).bind fun _ =>
    (hP.ncoWrite d _ _).q fun _ => (ncoGet_keeps d _).bind fun _ => hP.ncoWrite d _ _

theorem initCommit_brings (d : Nat) (n : Nco) :
    (initCommit d).Brings (State.NcoIs d n.SameInit) fun _ => State.NcoIs d (Nco.Free n.SameInit) :=
  ncoLocked_accesses n.sameInit_lasting (fun _ _ h => h) fun hP => (hP.ncoCommand d _).q fun _ =>
    (hP.cmdPollOn d _).q fun _ => (Op.Keeps.set fun _ hs => hs.modNco d fun _ h => h).bind fun _ => trivial

theorem initVerify_brings (d : Nat) (n : Nco) (v : TimeResult) (host : U64 × U32) :
    (initVerify d v host).Brings (State.NcoIs d (Nco.Free n.SameInit)) fun r =>
      State.NcoIs d (Nco.Free (n.Begun r)) := by
  have steady := ncoIs_accessSteady (d := d) n.sameInit_lasting.free
  refine ((Op.Keeps.test _).brings steady.toReadSteady).bind fun good => .ite ?_ (.ret ?_)
  · refine (Op.Brings.set (M := State.NcoIs d (Nco.Free (n.Begun (.ok 0 : Except Err Nat)))) (fun _ hs => hs.1)
      fun s hs => ?_).bind fun _ => .ret fun _ h => h
    exact hs.update fun m hm => ⟨nofun, hm.2⟩
  · exact fun s ⟨hin, m, hm, init, free⟩ => ⟨hin, m, hm, fun _ _ => init, free⟩

theorem initRegistersOn_brings (d : Nat) (n : Nco) :
    (initRegistersOn d).Brings (State.NcoIs d n.SameInit) fun r => State.NcoIs d (Nco.Free (n.Begun r)) := by
  have lasting := n.sameInit_lasting
  have hlock (m : Nco) (l : Option Nat) (h : n.SameInit m) : n.SameInit { m with lock := l } := h
  have steady := ncoIs_accessSteady (d := d) lasting.free
  have fails (e : Err) (s : State) (h : s.NcoIs d (Nco.Free n.SameInit)) :
      s.NcoIs d (Nco.Free (n.Begun (.error e : Except Err Nat))) := by
    obtain ⟨hin, m, hm, init, free⟩ := h
    exact ⟨hin, m, hm, fun _ _ => init, free⟩
  refine (initStage_brings d n).q fails fun _ => ?_
  refine (readTimeOn_brings lasting hlock).whenFree.q fails fun _ => ?_
  refine (steady.hostNow.brings steady.toReadSteady).bind fun host => ?_
  refine (adjustTimeOn_brings lasting hlock _ _ _).q fails fun _ => ?_
  refine (adjustTimeOn_brings lasting hlock _ _ _).q fails fun _ => ?_
  refine (initCommit_brings d n).whenFree.q fails fun _ => ?_
  exact (readTimeOn_brings lasting hlock).whenFree.q fails fun v => initVerify_brings d n v host

end

/-- An `init_registers` whose five commands the hardware completes runs to its check. -/
theorem State.initRegisters_runs {s : State} {d i : Nat} {n : Nco} {res : Resource} {rb : Rb} {p : Nat → Nat}
    (hs : s.Idle) (w : NcoWired s d n res i rb) (hp : ∀ k, p k ≤ Config.pollBudget)
    (hr : s.turns = rb.script d rb.aa1Cache (initBeats s.board res.base p)) :
    ∃ t k, ∃ (hw : NcoHw) (good : Bool), hw = n.broughtUp s.board.adjReplacesStep (s.hostDrawn k) ∧
      good = initCheckOk s.board.initCheck (hw.sec.toNat + hw.nsec.toNat / 1000000000) (hw.nsec.toNat % 1000000000)
        (s.hostDrawn k).1.toNat (s.hostDrawn k).2.toNat ∧
      exec (.initRegisters d) s = .next t ∧ t.turns = [] ∧ s.SameBytes t ∧
      t.still i = ((s.modNco d fun _ => { n with
        currentStepNsec := n.nominalNsec, initialised := good || n.initialised, hw := hw }).finish
        (if good then .ok .unit else .error .initCheck)).still i := by
  obtain ⟨w', begins⟩ := NcoRun.begins (x := .initRegisters d) hs w rfl hr
  obtain ⟨_, t, inits, k, good, hw, is, checks, rfl, c', ht⟩ := initRegistersOn_run w' hp begins w.free
  rw [State.start_hostDrawn] at is checks
  have answers : (asUnit (initRegistersOn d)).Yields (s.start (.initRegisters d))
      (if good then .ok .unit else .error .initCheck) t := by
    cases good with
    | true => exact asUnit_yields inits
    | false => exact asUnit_error inits
  obtain ⟨t, runs⟩ := ht.performs (init := false) hs w nofun answers rfl
  exact ⟨t, k, hw, good, is, checks, runs⟩

/-- Settles O32: the run of the five commands, the two ways it ends early, and what its steps keep however the bus
behaves. -/
theorem initRegisters : Obligations.InitRegisters := by
  unfold Obligations.InitRegisters
  refine ⟨?completes, ?however, ?timesOut, ?fails⟩
  case completes =>
    intro s d i n res rb p hs w hp hr
    obtain ⟨t, k, hw, good, rfl, rfl, runs, turns, bytes, still⟩ := State.initRegisters_runs hs w hp hr
    obtain ⟨step, substep, counter⟩ := n.broughtUp_step s.board.adjReplacesStep (s.hostDrawn k)
    refine ⟨t, _, k, runs, turns, bytes, still, rfl, step, substep, counter, fun replaces => ?_⟩
    exact replaces ▸ n.broughtUp_time (s.hostDrawn k) _ rfl
  case however =>
    intro s t d n hs hn hl hr hop hrun
    have inits := asUnit_brings (S := fun r => State.NcoIs d (Nco.Free (n.Begun r))) (initRegistersOn_brings d n)
      (fun e s ⟨hin, m, hm, init, free⟩ => ⟨hin, m, hm, fun _ _ => init e rfl, free⟩)
      fun _ s ⟨hin, m, hm, _, free⟩ => ⟨hin, m, hm, nofun, free⟩
    obtain ⟨r, m, result, hm, free, init⟩ :=
      State.perform_frees n.sameInit_lasting inits hs hn rfl hr hop hrun
    exact ⟨m, hm, free, fun e he => init e (Option.some.inj (result.symm.trans he))⟩
  case timesOut =>
    intro s d i n res rb hs w hr
    exact w.fails hs rfl nofun hr (fun w' begins => initRegistersOn_times_out w' begins w.free)
      (State.modNco_congr w.device rfl)
  case fails =>
    intro s d i n res rb r hs w hk hw hr
    exact w.fails hs rfl nofun hr (fun w' begins => initRegistersOn_fails w' hk hw rfl begins w.free)
      (State.modNco_self w.device)

/-! ### Guards (rules R300, R312) -/

section

variable {s : State} {d : Nat} {n : Nco} {init : Bool} {x : Instr} {o : Op (Except Err Res)}

theorem ncoEnter_removed (hn : s.ncos[d]? = some n) (hr : n.removed = true) : (ncoEnter d init).Refuses s .ncoRemoved :=
  .step (by rw [State.onNco_some hn, if_pos hr])

theorem ncoEnter_uninit (hn : s.ncos[d]? = some n) (hr : n.removed = false) (hi : n.initialised = false) :
    (ncoEnter d true).Faults s .ncoUninit s :=
  .step (by simp [State.onNco_some hn, hr, hi])

/-- A held lock is waited for, before anything else is done. -/
theorem ncoLocked_blocks {α : Type} {o : Op (Except Err α)} (hn : s.ncos[d]? = some n) (hl : n.lock ≠ none)
    (ha : n.spin = false → s.atomic = false) :
    (ncoLocked d o).Blocks s [] (s.setMe fun a => { a with blocked := some .other }) := by
  refine .bind (.act ?_)
  rw [State.onNco_some hn, if_neg (by simpa using ha), if_neg hl]
  rfl

/-- An operation that waits for the device lock has done nothing but to pass its guard. -/
theorem State.perform_waits (hs : s.Idle) (hn : s.ncos[d]? = some n) (hr : n.removed = false)
    (hi : init = true → n.initialised = true)
    (ho : o.Blocks (s.start x) [] ((s.start x).setMe fun a => { a with blocked := some .other })) :
    s.perform x ((ncoEnter d init).bind fun _ => o) =
      .next (s.setMe fun a => { a with op := some x, hist := [0], blocked := some .other }) := by
  refine (State.perform_blocks hs (.after (n := 0) (t := s.start x) ?_ ho)).trans ?_
  · rw [State.onNco_some (s := s.start x) hn]
    cases init <;> simp_all
  · rw [State.start_eq_doing hs]
    rfl

end

/-- Settles O38: each guard of the operations, and the run of a first `init_registers`. -/
theorem ncoGuards : Obligations.NcoGuards := by
  unfold Obligations.NcoGuards
  refine ⟨fun s d n sign ppb nsec sec c r param prop hs hn => ⟨fun hr => ?removed, fun hr hi => ?uninit,
    fun hr hl ha => ?waits⟩, fun s d i n res rb hs w hi hr => ?first⟩
  case removed =>
    have refuses {x : Instr} {init : Bool} {o : Op (Except Err Res)} :
        s.perform x ((ncoEnter d init).bind fun _ => o) = .refused .ncoRemoved :=
      State.perform_refuses hs (ncoEnter_removed (s := s.start x) hn hr).bind
    have probe : exec (.ncoProbe d r param prop) s = .refused .ncoRemoved :=
      State.perform_refuses hs (ncoProbeOn_removed (s := s.start _) hn hr).bind
    simp only [List.forall_mem_cons, List.not_mem_nil, false_imp_iff, implies_true, and_true]
    exact ⟨refuses, refuses, refuses, refuses, refuses, probe⟩
  case uninit =>
    have stops {x : Instr} {o : Op (Except Err Res)} :
        s.perform x ((ncoEnter d true).bind fun _ => o) = .next (s.halt .ncoUninit) :=
      State.perform_plain_faults hs (ncoEnter_uninit (s := s.doing x) hn hr hi).bind
    simp only [List.forall_mem_cons, List.not_mem_nil, false_imp_iff, implies_true, and_true]
    exact ⟨stops, stops, stops⟩
  case waits =>
    have locked {α : Type} (x : Instr) (hx : atomicOp (some x) = false) (o : Op (Except Err α)) :
        (ncoLocked d o).Blocks (s.start x) [] ((s.start x).setMe fun a => { a with blocked := some .other }) :=
      ncoLocked_blocks (s := s.start x) hn hl fun h => (State.start_atomic hs hx).trans (ha h)
    refine ⟨State.perform_waits hs hn hr nofun (locked _ rfl _).bind.bind, fun hi => ⟨?_, ?_, fun hsec => ?_⟩⟩
    · exact State.perform_waits hs hn hr (fun _ => hi) (locked _ rfl _).bind
    · exact State.perform_waits hs hn hr (fun _ => hi) (locked _ rfl _).bind
    · refine State.perform_waits hs hn hr (fun _ => hi) (Op.Blocks.bind ?_)
      rw [adjustTimeOn, if_neg (Nat.not_le.mpr hsec)]
      exact locked _ rfl _
  case first =>
    obtain ⟨t, k, hw, good, -, -, runs, -, -, still⟩ := State.initRegisters_runs hs w (fun _ => Nat.zero_le _) hr
    have me : t.me = _ := State.of_still_me still
    refine ⟨t, if good then .ok .unit else .error .initCheck, runs, me ▸ rfl, me ▸ rfl, me ▸ rfl, ?_⟩
    cases good with
    | true => exact .inl rfl
    | false => exact .inr rfl

end Sys2Proof.Machine
end

section
/-!
The register accesses of an adapter operation (spec/42_adapter.md rules R56, R101 and R400), over any backend: what a
read answers, what a write leaves, where one fails, and nothing else but the bookkeeping of the bus.
-/

namespace Sys2Proof.Machine

open Sys2Proof

section

variable {α β : Type} {s t u : State} {p i k : Nat} {q : Port} {res : Resource} {rb : Rb} {c : Option U16}
  {L : List Turn} {x : Instr} {f : Port → Port} {v : Variant} {r : AdpReg} {off : U32} {w : U16} {l : Bool}

theorem Variant.ofCode_code (v : Variant) : Variant.ofCode v.code = v := by cases v <;> rfl

theorem PcsMode.ofCode_code (m : PcsMode) : PcsMode.ofCode m.code = m := by cases m <;> rfl

/-! ### Entry and cells -/

theorem adpEnter_yields (hq : s.portAt p = some q) (hk : q.removed = false) : (adpEnter p).Yields s 0 s :=
  .step (by simp [State.onPort_some hq, hk])

theorem adpEnter_removed (hq : s.portAt p = some q) (hr : q.removed = true) : (adpEnter p).Refuses s .adpRemoved :=
  .step (by simp [State.onPort_some hq, hr])

theorem portGet_yields (hq : s.portAt p = some q) (g : Port → Nat) : (portGet p g).Yields s (g q) s :=
  .step (State.onPort_some hq _)

theorem State.portAt_congr (h : t.ports = s.ports) (p : Nat) : t.portAt p = s.portAt p := by
  rw [State.portAt_eq_find, State.portAt_eq_find, h]

/-- States that differ in the bookkeeping of a bus differ in no more after an update of a port. -/
theorem State.modPort_still (h : t.still i = s.still i) (p : Nat) (f : Port → Port) :
    (t.modPort p f).still i = (s.modPort p f).still i := congrArg (State.modPort · p f) h

/-! ### Ports on a bus -/

/-- What only leaves bookkeeping, or writes far-end registers, leaves the port where it is. -/
theorem PortWired.congr (h : PortWired s p q res i rb) (hp : t.ports = s.ports) (hh : t.handles = s.handles)
    (ha : t.atomic = s.atomic) (hr : t.rbs[i]? = some { rb with aa1Cache := c, busy := none }) :
    PortWired t p q res i { rb with aa1Cache := c, busy := none } where
  device := (State.portAt_congr hp p).trans h.device
  resource := h.resource
  names := ⟨hr, by
    have names := h.names.2
    cases hb : res.bus with
    | inst j => rwa [hb] at names
    | handle k => rw [hb] at names; rwa [hh]⟩
  use := h.use.congr ha
  kept := h.kept

theorem PortWired.quiet (h : PortWired s p q res i rb) (hq : Quiet s i rb c k t) :
    PortWired t p q res i { rb with aa1Cache := c, busy := none } :=
  h.congr (State.of_still_ports hq.still) (State.of_still_handles hq.still) (State.of_still_atomic hq.still) hq.inst

theorem PortWired.doing (h : PortWired s p q res i rb) (hi : s.Idle) (hx : atomicOp (some x) = false) :
    PortWired (s.doing x) p q res i rb := ⟨h.device, h.resource, h.names, h.use.doing hi hx, h.kept⟩

theorem State.ShowsAdp.quiet (h : s.ShowsAdp i p rb res.base r v) (hq : Quiet s i rb c k t) :
    t.ShowsAdp i p { rb with aa1Cache := c, busy := none } res.base r v := by
  obtain ⟨off, hoff, hreach, hshow⟩ := h
  have map := State.of_still_sameMap hq.still
  exact ⟨off, by rw [map.board]; exact hoff, hreach, (readTarget_congr map _ _).trans hshow⟩

/-- The ID register lies at one place for every variant (rule R56). -/
theorem State.ShowsAdp.id_any (h : s.ShowsAdp i p rb res.base .id v) (v' : Variant) :
    s.ShowsAdp i p rb res.base .id v' := h

/-! ### Operations that only read -/

/-- From state `s` the operation answers `a` with the turns `L` still to come, and leaves everything else but for the
bookkeeping of the bus of instance `i`. -/
def Op.Reads (o : Op α) (s : State) (i : Nat) (rb : Rb) (L : List Turn) (a : α) : Prop :=
  ∃ t c k, o.Yields s a t ∧ Quiet s i rb c k t ∧ t.turns = L

theorem Op.Reads.bind {o : Op α} {g : α → Op β} {a : α} {b : β} {L' : List Turn} (h : o.Reads s i rb L a)
    (hg : ∀ t c k, Quiet s i rb c k t → t.turns = L →
      (g a).Reads t i { rb with aa1Cache := c, busy := none } L' b) :
    (o.bind g).Reads s i rb L' b := by
  obtain ⟨t, c, k, hy, hq, ht⟩ := h
  obtain ⟨u, c', k', hy', hq', hu⟩ := hg t c k hq ht
  exact ⟨u, c', _, hy.bind hy', hq.trans hq', hu⟩

theorem Op.LeadsTo.reads {o o' : Op α} {a : α} (h : o.LeadsTo o' s) (hr : o'.Reads s i rb L a) :
    o.Reads s i rb L a := by
  obtain ⟨t, c, k, hy, hq⟩ := hr
  exact ⟨t, c, k, h.yields hy, hq⟩

/-- What takes no turn and leaves the state as it is only reads. -/
theorem PortWired.reads {o : Op α} {a : α} (h : PortWired s p q res i rb) (ht : s.turns = L) (ho : o.Yields s a s) :
    o.Reads s i rb L a := by
  refine ⟨s, rb.aa1Cache, 0, ho, ⟨rfl, ?_, rfl, .refl s⟩, ht⟩
  rw [h.names.1, ← h.use.2]

/-- An adapter operation ends in what its run leaves, the bookkeeping of the bus aside. -/
theorem State.perform_adapter {o : Op (Except Err Res)} {a : Except Err Res} (hi : s.Idle)
    (ho : o.Yields (s.doing x) a t) (hs : t.still i = (u.doing x).still i) (ht : t.turns = L) :
    ∃ t, s.perform x o = .next t ∧ t.turns = L ∧ u.SameBytes t ∧ t.still i = (u.finish a).still i := by
  have still : (t.finish a).still i = (u.finish a).still i := congrArg (State.finish · a) hs
  rw [← State.start_eq_doing hi] at ho
  exact ⟨_, State.perform_yields hi ho, ht, State.sameBytes_of_still still rfl rfl, still⟩

/-! ### Register reads (rules R56, R101) -/

theorem adpBus_yields (h : PortWired s p q res i rb) : (adpBus p).Yields s i s :=
  .step (by rw [State.onPort_some h.device, h.resource]; exact h.names.resolve)

theorem PortWired.address (h : PortWired s p q res i rb) (off : U32) :
    BitVec.ofNat 32 (s.adpAddr p off).toNat = res.base + off := by
  simp only [State.adpAddr, h.device, h.resource, baseOf, BitVec.ofNat_toNat, BitVec.setWidth_eq]

theorem adpRead_leads (h : PortWired s p q res i rb) (r : AdpReg) (v : Variant) :
    (adpRead p r v).LeadsTo (read16On i (res.base + (s.board.adpMap.off r v).getD 0)) s := by
  refine (adpBus_yields h).leadsTo.trans ((Op.Yields.get _).leadsTo.trans ?_)
  rw [h.address]
  exact .refl _

theorem adpWrite_leads (h : PortWired s p q res i rb) (off : U32) (w : U16) :
    (adpWrite p off w).LeadsTo (write16On i (res.base + off) w) s := by
  refine (adpBus_yields h).leadsTo.trans ((Op.Yields.get _).leadsTo.trans ?_)
  rw [h.address]
  exact .refl _

theorem farRead16_adp {a : U32} (hq : s.portAt p = some q) (ha : s.readTarget i (evenAddr a) = some (.adp p r)) :
    s.farRead16 i a = (q.word r, s) := by
  have half : lowHalf ((q.word r).setWidth 32) = q.word r := by
    apply BitVec.eq_of_toNat_eq
    simp only [lowHalf, BitVec.extractLsb'_toNat, BitVec.toNat_setWidth]
    omega
  simp [State.farRead16, ha, State.readWord, hq, Target.high, halfOf, half]

/-- A read of an adapter register answers what the hardware shows there. -/
theorem adpRead_reads (h : PortWired s p q res i rb) (hs : s.ShowsAdp i p rb res.base r v) (ht : s.turns = []) :
    (adpRead p r v).Reads s i rb [] (.ok (q.word r).toNat) := by
  obtain ⟨off, hoff, hreach, hshow⟩ := hs
  obtain ⟨w, reads⟩ := read16On_yields h.names.1 h.use hreach (s.clear_of_nil ht _)
  rw [farRead16_adp h.device hshow] at reads
  have leads := adpRead_leads h r v
  rw [hoff, Option.getD_some] at leads
  exact ⟨_, _, _, leads.yields reads, quiet_moved h.names.1 0 _ _ w, moved_turns ht⟩

/-- A transfer that fails ends the read (rule R209). -/
theorem adpRead_fails (h : PortWired s p q res i rb) (hk : rb.backend = .i2c) (ht : s.turns = .fail l :: L) (r : AdpReg)
    (v : Variant) : (adpRead p r v).Reads s i rb L (.error .io) := by
  refine ⟨_, rb.aa1Cache, 1, (adpRead_leads h r v).yields
    ((read16On_leads h.names.1 h.use.1 hk).yields (i2cRead16On_fails h.names.1 ht)), ⟨rfl, ?_, ?_, .of_eq rfl rfl⟩, rfl⟩
  · rw [← h.use.2]; exact h.names.1
  · rw [ht]; rfl

/-! ### Register writes -/

/-- A write of an adapter register is the far-end write (rule R408). -/
theorem adpWrite_yields (h : PortWired s p q res i rb) (hr : rb.reaches (res.base + off) = true) (ht : s.turns = []) :
    ∃ k c w', (adpWrite p off w).Yields s (.ok 0) ((s.farWrite16 i (res.base + off) w).moved i k c none w') := by
  obtain ⟨w', writes⟩ := write16On_yields (v := w) h.names.1 h.use hr (s.clear_of_nil ht _)
  exact ⟨_, _, w', (adpWrite_leads h off w).yields writes⟩

/-- A transfer that fails, its write not having landed, ends the write (rules R202, R210). -/
theorem adpWrite_fails (h : PortWired s p q res i rb) (hk : rb.backend = .i2c) (hc : checkOp s.me.op = false)
    (ht : s.turns = .fail false :: L) : (adpWrite p off w).Reads s i rb L (.error .io) := by
  refine ⟨_, rb.aa1Cache, 1, (adpWrite_leads h off w).yields
    ((write16On_leads h.names.1 h.use.1 hk).yields (i2cWrite16On_fails h.names.1 ht hc)),
    ⟨rfl, ?_, ?_, .of_eq rfl rfl⟩, rfl⟩
  · rw [← h.use.2]; exact h.names.1
  · rw [ht]; rfl

/-! ### Detection (rule R403) -/

theorem adpDetectOn_reads (h : PortWired s p q res i rb) (hs : s.ShowsAdp i p rb res.base .id v) (ht : s.turns = []) :
    (adpDetectOn p).Reads s i rb [] (variantOfId s.board.idMap q.hwId) := by
  refine (adpRead_reads h (hs.id_any .none) ht).bind fun t c k hq htt => ?_
  have answer : variantOfId s.board.idMap q.hwId =
      Variant.ofCode (variantOfId t.board.idMap (BitVec.ofNat 16 (q.word .id).toNat)).code := by
    rw [Variant.ofCode_code, State.of_still_board hq.still, BitVec.ofNat_toNat, BitVec.setWidth_eq]
    rfl
  rw [answer]
  exact (h.quiet hq).reads htt (.bind (.get _) (.ret _))

theorem adpDetectOn_fails (h : PortWired s p q res i rb) (hk : rb.backend = .i2c) (ht : s.turns = .fail l :: L) :
    (adpDetectOn p).Reads s i rb L .none :=
  (adpRead_fails h hk ht .id .none).bind fun _ _ _ hq htt => (h.quiet hq).reads htt (.ret _)

end

/-- Settles O39: the read of the ID register, and the variant that its value or its failure gives. -/
theorem adpDetect : Obligations.AdpDetect := by
  unfold Obligations.AdpDetect
  intro s p i q res rb hi h hs
  have wired := h.doing (x := .adpDetect p) hi rfl
  have answers {L : List Turn} {v : Variant} (hd : (adpDetectOn p).Reads (s.doing (.adpDetect p)) i rb L v) :
      ∃ t, exec (.adpDetect p) s = .next t ∧ t.turns = L ∧ s.SameBytes t ∧
        t.still i = (s.finish (.ok (.variant v))).still i := by
    obtain ⟨t, c, k, hy, hq, ht⟩ := hd
    exact State.perform_adapter hi (.bind (adpEnter_yields wired.device wired.kept) (.bind hy (.ok _))) hq.still ht
  refine ⟨fun ht => ?_, fun l r hk ht => ?_⟩
  · exact answers (adpDetectOn_reads wired hs ht)
  · obtain ⟨t, runs, turns, -, still⟩ := answers (adpDetectOn_fails wired hk ht)
    exact ⟨t, runs, turns, still⟩

end Sys2Proof.Machine
end

section
/-!
Adapter operations that read no register (spec/42_adapter.md rules R409 to R414): `init_adapter`,
`best_adapter_link_mode`, and the refusals of a torn-down port and of a removed timestamper (rule R611).
-/

namespace Sys2Proof.Machine

open Sys2Proof

section

variable {s : State} {p d : Nat} {q : Port} {t : Ts} {x y : MaskArg} {i : Instr} {o : Op (Except Err Res)}

/-! ### `init_adapter` (rules R409, R410) -/

/-- `DOWN` has no bit, so the modes without a supported bit are those reported as `DOWN` (rule R53). -/
theorem reportedMode_eq (supported : U16) (m : LinkMode) :
    reportedMode supported m = if linkBit m &&& supported = 0 then .down else m := by
  cases m <;> simp [reportedMode, linkAllowed, ite_not]

theorem SfpType.fiber_iff (x : SfpType) : x.fiber = true ↔ x = .fiber1000BaseX ∨ x = .fiber100BaseFX := by
  cases x <;> simp [SfpType.fiber]

theorem initAdapterOn_yields (p : Nat) : (initAdapterOn p).Yields s (.ok 0)
    (s.modPort p fun q => q.initialised s.board.inferSfp) := .bind (.set _) (.ok 0)

/-! ### `best_adapter_link_mode` (rules R412, R413) -/

/-- The mask that an operand gives: its own, or a cell of a port that is not torn down. -/
def State.Gives (s : State) (x : MaskArg) (f : Port → U16) (v : U16) : Prop :=
  match x with
  | .mask m => v = m
  | .port p => ∃ q, s.portAt p = some q ∧ q.removed = false ∧ v = f q

theorem maskOf_yields {f : Port → U16} {v : U16} (h : s.Gives x f v) : (maskOf x f).Yields s v.toNat s := by
  cases x with
  | mask m => cases h; exact .ret _
  | port p =>
    obtain ⟨q, hq, kept, rfl⟩ := h
    exact .bind (adpEnter_yields hq kept) (portGet_yields hq _)

theorem maskOf_removed (hq : s.portAt p = some q) (hr : q.removed = true) (f : Port → U16) :
    (maskOf (.port p) f).Refuses s .adpRemoved := .bind (adpEnter_removed hq hr)

theorem bestLinkModeOf_yields {a b : U16} (ha : s.Gives x (·.supported) a)
    (hb : s.Gives y (fun q => sfpModes q.sfpType) b) : (bestLinkModeOf x y).Yields s (bestMode a b) s := by
  refine .bind (maskOf_yields ha) (.bind (maskOf_yields hb) ?_)
  simp only [BitVec.ofNat_toNat, BitVec.setWidth_eq]
  exact .ret _

theorem bestLinkModeOf_removed (hq : s.portAt p = some q) (hr : q.removed = true)
    (h : x = .port p ∨ y = .port p ∧ ∃ a, s.Gives x (·.supported) a) : (bestLinkModeOf x y).Refuses s .adpRemoved := by
  obtain rfl | ⟨rfl, a, ha⟩ := h
  · exact .bind (maskOf_removed hq hr _)
  · exact .after (maskOf_yields ha) (.bind (maskOf_removed hq hr _))

/-! ### Refusals (rules R414, R611) -/

theorem State.perform_port_removed (hs : s.Idle) (hq : s.portAt p = some q) (hr : q.removed = true) :
    s.perform i ((adpEnter p).bind fun _ => o) = .refused .adpRemoved :=
  State.perform_refuses hs (.bind (adpEnter_removed (s := s.start i) hq hr))

theorem State.perform_ts_removed (hs : s.Idle) (ht : s.tss[d]? = some t) (hr : t.removed = true) :
    s.perform i ((tsEnter d).bind fun _ => o) = .refused .tsRemoved :=
  State.perform_refuses hs (.bind (.step (by simp [State.onTs_some (s := s.start i) ht, hr])))

theorem probeEnter_refuses {removed : State → Bool} {why : Refusal} (h : removed s = true) :
    (probeEnter removed why).Refuses s why := .step (by simp [h])

theorem State.portRemoved_eq (hq : s.portAt p = some q) : s.portRemoved p = q.removed := by
  rw [State.portRemoved, hq]

theorem State.tsRemoved_eq (ht : s.tss[d]? = some t) : s.tsRemoved d = t.removed := by
  rw [State.tsRemoved, ht]

theorem adpProbe_removed (hs : s.Idle) (hq : s.portAt p = some q) (hr : q.removed = true) (r : Option Resource) :
    exec (.adpProbe p r) s = .refused .adpRemoved :=
  State.perform_refuses hs (.bind (.bind (probeEnter_refuses ((State.portRemoved_eq (s := s.start _) hq).trans hr))))

theorem tsProbe_removed (hs : s.Idle) (ht : s.tss[d]? = some t) (hr : t.removed = true) (r : Option Resource)
    (l : Bool) : exec (.tsProbe d r l) s = .refused .tsRemoved :=
  State.perform_refuses hs (.bind (.bind (probeEnter_refuses ((State.tsRemoved_eq (s := s.start _) ht).trans hr))))

theorem bestAdapterLinkMode_removed (hs : s.Idle) (hq : s.portAt p = some q) (hr : q.removed = true)
    (h : x = .port p ∨ y = .port p ∧ ∃ a, s.Gives x (·.supported) a) :
    exec (.bestAdapterLinkMode x y) s = .refused .adpRemoved :=
  State.perform_refuses hs (.bind (bestLinkModeOf_removed (s := s.start _) hq hr h))

end

/-- Settles O44: the cells that `init_adapter` decides, in its one step. -/
theorem initAdapter : Obligations.InitAdapter := by
  unfold Obligations.InitAdapter
  intro s p q hi hq kept inputs phy sup type one both adv
  have decided : q.initialised s.board.inferSfp = { q with
      supported := sup, sfpType := type, linkCheckEnabled := !phy, advertised := adv,
      linkMode := if linkBit q.linkMode &&& sup = 0 then .down else q.linkMode } := by
    have advertised : advertisedOf inputs sup type = adv := by
      simp only [advertisedOf, SfpType.fiber_iff, adv, both, one]
      cases inputs.extPhyAttached <;> cases inputs.sfpPhyAttached <;> rfl
    rw [← advertised, ← reportedMode_eq]
    rfl
  rw [← State.modPort_congr (f := fun q => q.initialised s.board.inferSfp) hq decided]
  exact State.perform_plain_yields hi (.bind (adpEnter_yields (s := s.doing _) hq kept)
    (asUnit_yields (initAdapterOn_yields p)))

/-- Settles O45: the two masks, each its operand's own or a port's, and the best mode of both. -/
theorem bestLinkMode : Obligations.BestLinkMode := by
  unfold Obligations.BestLinkMode
  intro best modes is s x y hi
  have hmodes : modes = sfpModes := by funext m; cases m <;> rfl
  have gives (z : MaskArg) (f : Port → U16) (v : U16) : is s z f v ↔ s.Gives z f v := by cases z <;> exact .rfl
  rw [hmodes]
  simp only [gives]
  refine ⟨fun a b ha hb => ?_, fun p q hq hr h => bestAdapterLinkMode_removed hi hq hr h⟩
  exact State.perform_plain_yields hi (.bind (bestLinkModeOf_yields (s := s.doing _) ha hb) (.ok _))

/-- Settles O60: every operation begins with the check of the mark, and `best_adapter_link_mode` where it takes the
port's mask. -/
theorem removedUnitsRefuse : Obligations.RemovedUnitsRefuse := by
  unfold Obligations.RemovedUnitsRefuse
  simp only [List.forall_mem_cons, List.not_mem_nil, false_imp_iff, implies_true, and_true]
  refine ⟨fun s p q m f r x a hi hq hr => ?port, fun s d h t len w nsec sec nb l m r hi ht hr => ?timestamper⟩
  case port =>
    have enter {i : Instr} {o : Op (Except Err Res)} :
        s.perform i ((adpEnter p).bind fun _ => o) = .refused .adpRemoved := State.perform_port_removed hi hq hr
    exact ⟨enter, enter, enter, enter, bestAdapterLinkMode_removed hi hq hr (.inl rfl),
      bestAdapterLinkMode_removed hi hq hr (.inr ⟨rfl, a, rfl⟩), adpProbe_removed hi hq hr r⟩
  case timestamper =>
    have enter {i : Instr} {o : Op (Except Err Res)} :
        s.perform i ((tsEnter d).bind fun _ => o) = .refused .tsRemoved := State.perform_ts_removed hi ht hr
    exact ⟨enter, enter, enter, enter, enter, enter, enter, enter, enter, enter, tsProbe_removed hi ht hr r l⟩

end Sys2Proof.Machine
end

section
/-!
`check_link` (spec/42_adapter.md rules R406, R407): what each decoder reads and answers, and the mode that is reported.
-/

namespace Sys2Proof.Machine

open Sys2Proof

section

variable {s : State} {p i k : Nat} {q : Port} {res : Resource} {rb : Rb} {c : Option U16} {w : U16} {m : LinkMode}
  {v : Variant}

/-! ### The parts of a decoder -/

theorem whenLinkOk_leads (hq : s.portAt p = some q) (w : U16) (o : Op LinkMode) :
    (whenLinkOk p w o).LeadsTo (if s.board.linkOk q.anEnabled w then o else .ret .down) s := by
  refine (Op.Yields.step (n := (s.board.linkOk q.anEnabled w).toNat) (by rw [State.onPort_some hq])).leadsTo.trans ?_
  cases s.board.linkOk q.anEnabled w <;> exact .refl _

theorem fixedSpeed_yields (w : U16) (m : LinkMode) :
    (fixedSpeed w m).Yields s (if s.board.linkUp w then m else .down) s := .bind (.test _) (.ret _)

theorem speedOf_yields (pos : Board → Nat) (w : U16) :
    (speedOf pos w).Yields s (s.board.speedMap.mode (speedField (pos s.board) w)) s := by
  refine .bind (.get _) ?_
  rw [LinkMode.ofCode_code]
  exact .ret _

theorem reportLink_yields (hq : s.portAt p = some q) (m : LinkMode) :
    (reportLink p m).Yields s (reportedMode q.supported m)
      (s.modPort p fun x => { x with linkMode := reportedMode q.supported m }) := by
  refine .bind (.step (State.onPort_some hq _)) ?_
  rw [LinkMode.ofCode_code]
  exact .ret _

/-- The decoders that read the status go on from it. -/
theorem fromStatus_reads (h : PortWired s p q res i rb) (hs : s.ShowsAdp i p rb res.base .status v) (ht : s.turns = [])
    {f : U16 → Op LinkMode} (hf : ∀ t c k, Quiet s i rb c k t → t.turns = [] →
      (f q.hwStatus).Reads t i { rb with aa1Cache := c, busy := none } [] m) :
    (fromStatus p v f).Reads s i rb [] m := by
  refine (adpRead_reads h hs ht).bind fun t c k hq htt => ?_
  simp only [BitVec.ofNat_toNat, BitVec.setWidth_eq]
  exact hf t c k hq htt

/-- The AN-capable decoders go on where the status has its bits (rule R407). -/
theorem whenLinkOk_reads (h : PortWired s p q res i rb) (ht : s.turns = []) {o : Op LinkMode}
    (ho : s.board.linkOk q.anEnabled w = true → o.Reads s i rb [] m) :
    (whenLinkOk p w o).Reads s i rb [] (if s.board.linkOk q.anEnabled w then m else .down) := by
  refine (whenLinkOk_leads h.device w o).reads ?_
  split
  · exact ho ‹_›
  · exact h.reads ht (.ret _)

/-- The link mode that the PCS mode gives, its own status field deciding the speed of SGMII. -/
def Port.pcsLink (q : Port) (b : Board) : LinkMode :=
  match q.pcsMode with
  | .sgmii => b.speedMap.mode (speedField b.fldPcsSpeed q.hwPcs)
  | .x1000 => .full1000
  | .fx100 => .full100
  | .none => .down

theorem decodePcs_reads (h : PortWired s p q res i rb) (ht : s.turns = [])
    (hs : q.pcsMode = .sgmii → s.ShowsAdp i p rb res.base .pcsStatus v) :
    (decodePcs p v).Reads s i rb [] (q.pcsLink s.board) := by
  refine (portGet_yields h.device _).leadsTo.reads ?_
  simp only [PcsMode.ofCode_code, Port.pcsLink]
  cases hm : q.pcsMode with
  | sgmii =>
    refine (adpRead_reads h (hs hm) ht).bind fun t c k hq htt => ?_
    simp only [BitVec.ofNat_toNat, BitVec.setWidth_eq]
    rw [← State.of_still_board hq.still]
    exact (h.quiet hq).reads htt (speedOf_yields (·.fldPcsSpeed) _)
  | x1000 => exact h.reads ht (.ret _)
  | fx100 => exact h.reads ht (.ret _)
  | none => exact h.reads ht (.ret _)

/-! ### The decoders by variant (rule R406) -/

theorem decodeLink_speed (hv : v = .rgmii ∨ v = .alteraTse) :
    decodeLink p v = fromStatus p v fun w => whenLinkOk p w (speedOf (·.fldSpeed) w) := by
  obtain rfl | rfl := hv
  · rfl
  · rfl

theorem decodeLink_pcs (hv : v = .sgmiiOr1000BaseX ∨ v = .sgmiiOr1000BaseXOr100BaseFX) :
    decodeLink p v = fromStatus p v fun w => whenLinkOk p w (decodePcs p v) := by
  obtain rfl | rfl := hv
  · rfl
  · rfl

theorem decodeLink_blind (hv : v ∈ [Variant.none, .mii, .rmii]) : decodeLink p v = .ret .down := by
  simp only [List.mem_cons, List.not_mem_nil, or_false] at hv
  obtain rfl | rfl | rfl := hv
  · rfl
  · rfl
  · rfl

section

variable (h : PortWired s p q res i rb) (hs : s.ShowsAdp i p rb res.base .status v) (ht : s.turns = [])
include h hs ht

theorem decodeLink_speed_reads (hv : v = .rgmii ∨ v = .alteraTse) : (decodeLink p v).Reads s i rb []
    (if s.board.linkOk q.anEnabled q.hwStatus then s.board.speedMap.mode (speedField s.board.fldSpeed q.hwStatus)
      else .down) := by
  rw [decodeLink_speed hv]
  refine fromStatus_reads h hs ht fun t c k hq htt => ?_
  rw [← State.of_still_board hq.still]
  exact whenLinkOk_reads (h.quiet hq) htt fun _ => (h.quiet hq).reads htt (speedOf_yields (·.fldSpeed) _)

theorem decodeLink_pcs_reads (hv : v = .sgmiiOr1000BaseX ∨ v = .sgmiiOr1000BaseXOr100BaseFX)
    (hp : s.board.linkOk q.anEnabled q.hwStatus = true → q.pcsMode = .sgmii →
      s.ShowsAdp i p rb res.base .pcsStatus v) : (decodeLink p v).Reads s i rb []
    (if s.board.linkOk q.anEnabled q.hwStatus then q.pcsLink s.board else .down) := by
  rw [decodeLink_pcs hv]
  refine fromStatus_reads h hs ht fun t c k hq htt => ?_
  rw [← State.of_still_board hq.still] at hp ⊢
  exact whenLinkOk_reads (h.quiet hq) htt fun ok => decodePcs_reads (h.quiet hq) htt fun hm => (hp ok hm).quiet hq

theorem decodeLink_fixed_reads (hv : decodeLink p v = fromStatus p v fun w => fixedSpeed w m) :
    (decodeLink p v).Reads s i rb [] (if s.board.linkUp q.hwStatus then m else .down) := by
  rw [hv]
  refine fromStatus_reads h hs ht fun t c k hq htt => ?_
  rw [← State.of_still_board hq.still]
  exact (h.quiet hq).reads htt (fixedSpeed_yields _ m)

end

/-! ### The operation -/

theorem Board.linkOk_eq (b : Board) (an : Bool) (w : U16) :
    b.linkOk an w = (w.getLsbD b.bitLink && (!an || w.getLsbD b.bitAn)) := by
  cases an <;> simp [Board.linkOk]

/-- A mode outside the supported set is reported as `DOWN` (rules R53, R406). -/
theorem reportedMode_unsupported (supported : U16) (m : LinkMode) :
    reportedMode supported m = if m ≠ .down ∧ linkBit m &&& supported = 0 then .down else m := by
  rw [reportedMode_eq]
  by_cases hm : m = .down
  · simp [hm]
  · simp [hm]

/-- With link checking on, the mode reported is the decoder's. -/
theorem checkLinkOn_leads (hq : s.portAt p = some q) (hc : q.linkCheckEnabled = true) :
    (checkLinkOn p).LeadsTo ((decodeLink p q.variant).bind (reportLink p)) s := by
  refine (portGet_yields hq _).leadsTo.trans ?_
  simp only [hc, Bool.toNat_true, if_true]
  refine (portGet_yields hq _).leadsTo.trans ?_
  rw [Variant.ofCode_code]
  exact .refl _

/-- With link checking off, or no register to look at, `DOWN` is reported (rule R406). -/
theorem checkLinkOn_blind (hq : s.portAt p = some q)
    (hc : q.linkCheckEnabled = false ∨ q.variant ∈ [Variant.none, .mii, .rmii]) :
    (checkLinkOn p).LeadsTo (reportLink p .down) s := by
  cases hon : q.linkCheckEnabled with
  | false =>
    refine (portGet_yields hq _).leadsTo.trans ?_
    rw [hon]
    exact .refl _
  | true =>
    refine (checkLinkOn_leads hq hon).trans ?_
    rw [decodeLink_blind (hc.resolve_left (by simp [hon]))]
    exact .refl _

end

/-- Settles O41: the decoder of the port's variant only reads, and what it answers is reported. -/
theorem checkLink : Obligations.CheckLink := by
  unfold Obligations.CheckLink
  intro s p q hs hq kept b set shown ok
  obtain ⟨hi, ht⟩ := hs
  have entered (op : Instr) : (adpEnter p).Yields (s.doing op) 0 (s.doing op) :=
    adpEnter_yields (s := s.doing op) hq kept
  have hok : s.board.linkOk q.anEnabled q.hwStatus = ok := Board.linkOk_eq _ _ _
  have reported (m : LinkMode) : reportedMode q.supported m = shown m := reportedMode_unsupported _ m
  refine ⟨fun hc => ?blind, fun i res rb hc h hstatus => ?wired⟩
  case blind =>
    have reports := (checkLinkOn_blind (s := s.doing (.checkLink p)) hq hc).yields
      (reportLink_yields (s := s.doing _) hq .down)
    exact State.perform_plain_yields hi (.bind (entered _) (.bind reports (.ok _)))
  case wired =>
    intro out
    have wired := h.doing (x := .checkLink p) hi rfl
    have reads {m : LinkMode} (hd : (decodeLink p q.variant).Reads (s.doing (.checkLink p)) i rb [] m) : out m := by
      obtain ⟨t, c, k, decodes, quiet, turns⟩ := hd
      have reports := (checkLinkOn_leads wired.device hc).yields
        (decodes.bind (reportLink_yields (wired.quiet quiet).device m))
      rw [reported] at reports
      exact State.perform_adapter (u := s.modPort p fun x => { x with linkMode := shown m }) hi
        (.bind (entered _) (.bind reports (.ok _))) (State.modPort_still quiet.still p _) turns
    have pcs (hv : q.variant = .sgmiiOr1000BaseX ∨ q.variant = .sgmiiOr1000BaseXOr100BaseFX)
        (hp : ok = true → q.pcsMode = .sgmii → s.ShowsAdp i p rb res.base .pcsStatus q.variant) :
        out (if ok then q.pcsLink b else .down) := hok ▸ reads (decodeLink_pcs_reads wired hstatus ht hv (hok ▸ hp))
    refine ⟨fun hv => ?speed, fun hv => ⟨fun bad => ?noLink, fun good hm hp => ?sgmii, fun good hm => ?x1000,
      fun good hm => ?fx100, fun good hm => ?noPcs⟩, fun hv => ?only1000BaseX, fun hv => ?only100BaseFX⟩
    case speed => exact hok ▸ reads (decodeLink_speed_reads wired hstatus ht hv)
    case noLink => simpa [bad] using pcs hv (by simp [bad])
    case sgmii => simpa only [good, if_true, Port.pcsLink, hm, speedField] using pcs hv fun _ _ => hp
    case x1000 => simpa only [good, if_true, Port.pcsLink, hm] using pcs hv (by simp [hm])
    case fx100 => simpa only [good, if_true, Port.pcsLink, hm] using pcs hv (by simp [hm])
    case noPcs => simpa only [good, if_true, Port.pcsLink, hm] using pcs hv (by simp [hm])
    case only1000BaseX => exact reads (decodeLink_fixed_reads wired hstatus ht (by rw [hv]; rfl))
    case only100BaseFX => exact reads (decodeLink_fixed_reads wired hstatus ht (by rw [hv]; rfl))

end Sys2Proof.Machine
end

section
/-!
`adp_setup` (spec/42_adapter.md rules R405, R408): its rejection, the writes in their order, and the cells that it sets,
or those of a port without an adapter where a write fails (rule R400).
-/

namespace Sys2Proof.Machine

open Sys2Proof

section

variable {s t : State} {p i : Nat} {q : Port} {res : Resource} {rb : Rb} {m : LinkMode} {forced : Bool}
  {L : List Turn}

/-! ### A list of register writes -/

theorem farWrite16_ports (s : State) (i : Nat) (a : U32) (v : U16) : (s.farWrite16 i a v).ports = s.ports := by
  rcases writeTarget_cases s i (evenAddr a) with h | ⟨d, r, high, h⟩ | ⟨d, r, high, h⟩
  · rw [farWrite16_none v h]; rfl
  · rw [farWrite16_nco v h]; rfl
  · rw [farWrite16_ts v h]; rfl

/-- The far end after a list of writes at offsets from a base, in order. -/
def State.farWrites (s : State) (i : Nat) (base : U32) (l : List (U32 × U16)) : State :=
  l.foldl (fun u w => u.farWrite16 i (base + w.1) w.2) s

theorem farWrites_cons (s : State) (i : Nat) (base : U32) (w : U32 × U16) (l : List (U32 × U16)) :
    s.farWrites i base (w :: l) = (s.farWrite16 i (base + w.1) w.2).farWrites i base l := rfl

theorem farWrites_moved (i k : Nat) (base : U32) (c : Option U16) (b : Option Nat) (x : List Xfer)
    (l : List (U32 × U16)) (s : State) :
    (s.moved i k c b x).farWrites i base l = (s.farWrites i base l).moved i k c b x := by
  induction l generalizing s with
  | nil => rfl
  | cons w l ih => rw [farWrites_cons, farWrites_cons, farWrite16_moved, ih]

theorem farWrites_doing (op : Instr) (i : Nat) (base : U32) (l : List (U32 × U16)) (s : State) :
    (s.doing op).farWrites i base l = (s.farWrites i base l).doing op := by
  induction l generalizing s with
  | nil => rfl
  | cons w l ih => rw [farWrites_cons, farWrites_cons, farWrite16_doing, ih]

/-- A byte outside every register written. -/
def Untouched (i : Nat) (base : U32) (l : List (U32 × U16)) (j x : Nat) : Prop :=
  j ≠ i ∨ ∀ w ∈ l, x < (evenAddr (base + w.1)).toNat ∨ (evenAddr (base + w.1)).toNat + 2 ≤ x

theorem farWrites_farByte (i : Nat) (base : U32) (l : List (U32 × U16)) (s : State) {j x : Nat}
    (h : Untouched i base l j x) : (s.farWrites i base l).farByte j x = s.farByte j x := by
  induction l generalizing s with
  | nil => rfl
  | cons w l ih =>
    rw [farWrites_cons, ih _ (h.imp_right fun h y hy => h y (List.mem_cons_of_mem _ hy))]
    exact (farWrite16_sameBytesBut s i _ _).1 j x (h.imp_right fun h => h w List.mem_cons_self)

theorem farWrites_bufByte (i : Nat) (base : U32) (l : List (U32 × U16)) (s : State) (x : Nat) :
    (s.farWrites i base l).bufByte x = s.bufByte x := by
  induction l generalizing s with
  | nil => rfl
  | cons w l ih => rw [farWrites_cons, ih, State.bufByte, farWrite16_me, State.bufByte]

/-! ### The writes of a setup (rule R408) -/

/-- Two reads of the list that the write is taken from, then the write. -/
theorem setupLoop_leads {f : State → List (U32 × U16)} {pre rest : List (U32 × U16)} {w : U32 × U16}
    (hf : f s = pre ++ w :: rest) : (setupLoop p f (w :: rest).length pre.length).LeadsTo
      ((adpWrite p w.1 w.2).q fun _ => setupLoop p f rest.length (pre ++ [w]).length) s := by
  refine (Op.Yields.get _).leadsTo.trans ((Op.Yields.get _).leadsTo.trans ?_)
  simp only [hf, List.getElem?_append_right (Nat.le_refl _), Nat.sub_self, List.getElem?_cons_zero, Option.getD_some,
    BitVec.ofNat_toNat, BitVec.setWidth_eq, List.length_append, List.length_singleton]
  exact .refl _

/-- The writes that are left are made in their order. -/
theorem setupLoop_yields {f : State → List (U32 × U16)} (rest pre : List (U32 × U16)) (s : State) (rb : Rb)
    (h : PortWired s p q res i rb) (ht : s.turns = []) (hf : ∀ t : State, t.board = s.board → f t = pre ++ rest)
    (hr : ∀ w ∈ rest, rb.reaches (res.base + w.1) = true) :
    ∃ t, (setupLoop p f rest.length pre.length).Yields s (.ok 0) t ∧ t.turns = [] ∧
      t.still i = (s.farWrites i res.base rest).still i := by
  induction rest generalizing pre s rb with
  | nil => exact ⟨s, .ok 0, ht, rfl⟩
  | cons w rest ih =>
    obtain ⟨k, c, x, writes⟩ := adpWrite_yields (w := w.2) h (hr w List.mem_cons_self) ht
    have board := (SameMap.farWrite16 s i (res.base + w.1) w.2).board
    have wired : PortWired ((s.farWrite16 i (res.base + w.1) w.2).moved i k c none x) p q res i
        { rb with aa1Cache := c, busy := none } :=
      h.congr (farWrite16_ports s i _ _) (SameMap.farWrite16 s i _ _).handles (farWrite16_atomic s i _ _)
        (moved_rb (by rw [farWrite16_rbs]; exact h.names.1) k c none x)
    obtain ⟨t, loops, turns, still⟩ := ih (pre ++ [w]) _ _ wired (moved_turns ((farWrite16_turns s i _ _).trans ht))
      (fun t hb => by rw [List.append_assoc]; exact hf t (hb.trans board))
      (fun y hy => hr y (List.mem_cons_of_mem _ hy))
    refine ⟨t, (setupLoop_leads (hf s rfl)).yields (writes.q loops), turns, still.trans ?_⟩
    rw [farWrites_moved, State.moved_still, farWrites_cons]

/-- A first write that fails without having landed ends them. -/
theorem setupLoop_fails {f : State → List (U32 × U16)} (h : PortWired s p q res i rb) (hk : rb.backend = .i2c)
    (hc : checkOp s.me.op = false) (ht : s.turns = .fail false :: L) (hf : f s ≠ []) :
    (setupLoop p f (f s).length 0).Reads s i rb L (.error .io) := by
  obtain ⟨w, rest, hl⟩ := List.exists_cons_of_ne_nil hf
  rw [hl]
  obtain ⟨t, c, k, fails, quiet⟩ := adpWrite_fails (off := w.1) (w := w.2) h hk hc ht
  exact ⟨t, c, k, (setupLoop_leads (pre := []) hl).yields fails.qError, quiet⟩

/-! ### The operation -/

/-- The port's cells after its writes, or after one of them has failed. -/
def Port.setUp (q : Port) (r : Except Err Nat) (pcs : PcsMode) (m : LinkMode) (forced : Bool) : Port :=
  match r with
  | .error _ => { q with variant := .none, linkMode := .down }
  | .ok _ => { q with pcsMode := pcs, desired := m, forced := forced, anEnabled := setupAn m forced }

theorem setupRejects_iff (supported : U16) (m : LinkMode) (forced : Bool) :
    setupRejects supported m forced = true ↔ forced = true ∧ m ≠ .down ∧ linkBit m &&& supported = 0 := by
  simp [setupRejects, and_assoc]

theorem adpSetupOn_rejects (hq : s.portAt p = some q) (hb : setupRejects q.supported m forced = true) :
    (adpSetupOn p m forced).Yields s (.error (.inval .mode)) s := by
  refine .bind (portGet_yields hq _) ?_
  simp only [hb, Bool.toNat_true, if_true]
  exact .raise _

/-- Past its check a setup makes its writes and sets the cells that they lead to. -/
theorem adpSetupOn_yields {r : Except Err Nat} (hq : s.portAt p = some q)
    (hb : setupRejects q.supported m forced = false)
    (hl : (setupLoop p (State.setupList · q.variant (choosePcs q.variant q.sfpType) (setupAn m forced) m)
      (s.setupList q.variant (choosePcs q.variant q.sfpType) (setupAn m forced) m).length 0).Yields s r t) :
    (adpSetupOn p m forced).Yields s (.ok 0)
      (t.modPort p fun x => x.setUp r (choosePcs q.variant q.sfpType) m forced) := by
  refine .bind (portGet_yields hq _) ?_
  simp only [hb, Bool.toNat_false, Nat.zero_ne_one, if_false]
  refine .bind (portGet_yields hq _) (.bind (portGet_yields hq _) (.bind (.get _) ?_))
  simp only [Variant.ofCode_code, PcsMode.ofCode_code]
  refine .bind hl ?_
  cases r with
  | error e => exact .bind (.set _) (.ok 0)
  | ok n => exact .bind (.set _) (.ok 0)

end

/-- Settles O43: the check, the writes over the port's bus, and the cells that they lead to. -/
theorem adpSetup : Obligations.AdpSetup := by
  unfold Obligations.AdpSetup
  intro s p q m forced hi hq kept bad pcs an l
  have entered (op : Instr) : (adpEnter p).Yields (s.doing op) 0 (s.doing op) :=
    adpEnter_yields (s := s.doing op) hq kept
  have accepts (good : ¬ bad) : setupRejects q.supported m forced = false :=
    Bool.eq_false_iff.mpr (mt (setupRejects_iff _ _ _).mp good)
  let op : Instr := .adpSetup p m forced
  let list (t : State) : List (U32 × U16) := t.setupList q.variant pcs an m
  refine ⟨fun hb => ?rejects, fun good hl => ?nothing, fun i res rb good h => ?wired⟩
  case rejects =>
    have rejects := adpSetupOn_rejects (s := s.doing op) hq ((setupRejects_iff _ _ _).mpr hb)
    exact State.perform_plain_yields hi (.bind (entered _) (asUnit_error rejects))
  case nothing =>
    have loops : (setupLoop p list l.length 0).Yields (s.doing op) (.ok 0) (s.doing op) := by rw [hl]; exact .ok 0
    exact State.perform_plain_yields hi (.bind (entered _) (asUnit_yields
      (adpSetupOn_yields (s := s.doing op) hq (accepts good) loops)))
  case wired =>
    have wired := h.doing (x := op) hi rfl
    have ends {r : Except Err Nat} {t u : State} {L : List Turn}
        (loops : (setupLoop p list l.length 0).Yields (s.doing op) r t) (still : t.still i = (u.doing op).still i)
        (turns : t.turns = L) : ∃ t, exec op s = .next t ∧ t.turns = L ∧ u.SameBytes t ∧
          t.still i = ((u.modPort p fun x => x.setUp r pcs m forced).finish (.ok .unit)).still i :=
      State.perform_adapter (u := u.modPort p fun x => x.setUp r pcs m forced) hi
        (.bind (entered _) (asUnit_yields (adpSetupOn_yields wired.device (accepts good) loops)))
        (State.modPort_still still p _) turns
    refine ⟨fun ht hr => ?writes, fun L hk hl ht => ?fails⟩
    case writes =>
      obtain ⟨t, loops, turns, still⟩ := setupLoop_yields l [] _ rb wired ht
        (fun t hb => congrArg (setupWrites ·.setup q.variant pcs an m) hb) hr
      rw [farWrites_doing] at still
      obtain ⟨t, runs, turns, bytes, still⟩ := ends loops still turns
      exact ⟨t, runs, turns, still, fun j x hx => (bytes.1 j x).trans (farWrites_farByte i res.base l s hx),
        fun x => (bytes.2 x).trans (farWrites_bufByte i res.base l s x)⟩
    case fails =>
      obtain ⟨t, c, k, fails, quiet, turns⟩ := setupLoop_fails (f := list) wired hk rfl ht hl
      exact ends fails quiet.still turns

end Sys2Proof.Machine
end

section
/-!
`adp_probe` (spec/42_adapter.md rules R402 to R404): the cells that it sets, of the port that the index names or of
a new one (rules R40, R52, R704), and the variant that it detects.
-/

namespace Sys2Proof.Machine

open Sys2Proof

section

variable {s t u : State} {p i : Nat} {q : Port} {f g : Port → Port} {r : Resource} {rb : Rb} {v : Variant} {an : Bool}

/-! ### Updates of a port that set its index -/

theorem map_modify_at {α β : Type} {l : List α} {k : Nat} {x : α} {f : α → α} {g : α → β} (hx : l[k]? = some x)
    (h : g (f x) = g x) : (l.modify k f).map g = l.map g := by
  apply List.ext_getElem?
  intro n
  simp only [List.getElem?_map, List.getElem?_modify]
  split
  · rename_i hn; subst hn; simp [hx, h]
  · simp

theorem State.portPlace_eq (s : State) (p : Nat) :
    s.portPlace p = (s.ports.map (·.port)).findIdx fun k => decide (k = p) := by
  rw [List.findIdx_map]; rfl

theorem State.portPlace_modPort (hq : s.portAt p = some q) (hf : (f q).port = p) :
    (s.modPort p f).portPlace p = s.portPlace p := by
  rw [State.portPlace_eq, State.modPort_ports, map_modify_at hq (hf.trans (State.portAt_port hq).symm),
    ← State.portPlace_eq]

theorem State.portAt_modPort_self (hq : s.portAt p = some q) (hf : (f q).port = p) :
    (s.modPort p f).portAt p = some (f q) := by
  rw [State.portAt, State.portPlace_modPort hq hf]
  exact getElem?_modify_self _ _ _ _ hq

/-- Two updates of one port are one update. -/
theorem State.modPort_modPort (hq : s.portAt p = some q) (hf : (f q).port = p) :
    (s.modPort p f).modPort p g = s.modPort p fun x => g (f x) := by
  rw [State.modPort, State.portPlace_modPort hq hf, State.modPort_ports, modify_modify]
  rfl

/-- Updates that give the port one resource and one variant wire the registers one way. -/
theorem SameMap.modPort_agree (hq : s.portAt p = some q)
    (h : ((f q).port, (f q).res, (f q).variant) = ((g q).port, (g q).res, (g q).variant)) :
    SameMap (s.modPort p f) (s.modPort p g) := by
  refine ⟨rfl, rfl, rfl, rfl, List.ext_getElem? fun k => ?_⟩
  simp only [State.modPort_ports, List.getElem?_map, List.getElem?_modify]
  split
  · rename_i hk
    have hq : s.ports[k]? = some q := hk ▸ hq
    simp [hq, ← h]
  · rfl

/-! ### A new port -/

/-- The machine with one more port (rules R40, R404). -/
def State.addPort (s : State) (q : Port) : State := { s with ports := s.ports ++ [q] }

theorem State.portAt_addPort (hn : s.portAt p = none) (hp : q.port = p) : (s.addPort q).portAt p = some q :=
  (State.portAt_append s q p).trans (by rw [hn, if_pos hp, Option.none_or])

/-- An update of the new port alone is the machine with the updated port. -/
theorem State.addPort_modPort (hn : s.portAt p = none) (hp : q.port = p) (g : Port → Port) :
    (s.addPort q).modPort p g = s.addPort (g q) := by
  have others : ∀ x ∈ s.ports, decide (x.port = p) = false := fun x hx =>
    decide_eq_false fun e => State.portAt_none.mp hn (List.mem_map.mpr ⟨x, hx, e⟩)
  have place : (s.addPort q).portPlace p = s.ports.length := by
    rw [State.portPlace, State.addPort, List.findIdx_append, List.findIdx_eq_length.mpr others]
    simp [hp]
  have ports : (s.ports ++ [q]).modify s.ports.length g = s.ports ++ [g q] := by simp [List.modify_eq_take_drop]
  rw [State.modPort, place, State.addPort, ports]
  rfl

/-! ### The cells of a probe (rules R52, R404) -/

/-- The reset values of a probe, then the detected variant with its modes. -/
theorem Port.probed_detected (q : Port) (p : Nat) (r : Resource) (an : Bool) (v : Variant) :
    (q.probed p r an).detected v = { q with
      port := p, res := some r, variant := v, supported := Config.adpSupported v,
      advertised := Config.adpSupported v, linkCheckEnabled := true, sfpType := .none, pcsMode := .none,
      desired := .down, forced := false, anEnabled := an, linkMode := .down } := rfl

theorem State.portRemoved_eq_false (h : ∀ q, s.portAt p = some q → q.removed = false) : s.portRemoved p = false := by
  unfold State.portRemoved
  split
  · exact h _ ‹_›
  · rfl

theorem State.probePort_known (hq : s.portAt p = some q) :
    s.probePort p r = s.afterDraw.modPort p fun x => x.probed p r (s.drawn.testBit 0) := by
  rw [State.probePort, hq]

/-- An index that names no port makes one, of which nothing else is known (rules R40, R404). -/
theorem State.probePort_new (hn : s.portAt p = none) : ∃ q : Port, q.removed = false ∧ q.inputs = PortInputs.reset ∧
    q = q.probed p r q.anEnabled ∧
    s.probePort p r = State.addPort { s with tape := s.tape.drop 4, draws := s.draws + 4 } q := by
  refine ⟨(Port.ofCells s.cellsDrawn p).probed p r ((s.cellsDrawn .adpAnEnabled).testBit 0), rfl, rfl, rfl, ?_⟩
  rw [State.probePort, hn, afterDraws_eq]
  rfl

theorem adpProbeOn_missing (h : s.portRemoved p = false) :
    (adpProbeOn p none).Yields s (.error (.inval .missingResource)) s := .bind (probeEnter_yields h) (.raise _)

/-- The cells of a probe are the ports' alone, and some draws are taken. -/
theorem State.probePort_eq (s : State) (p : Nat) (r : Resource) :
    ∃ l tape n, s.probePort p r = { s with ports := l, tape := tape, draws := n } := by
  cases hq : s.portAt p with
  | some q => exact ⟨_, _, _, State.probePort_known hq⟩
  | none =>
    obtain ⟨q, -, -, -, h⟩ := State.probePort_new hq
    exact ⟨_, _, _, h⟩

theorem State.probePort_turns (s : State) (p : Nat) (r : Resource) : (s.probePort p r).turns = s.turns := by
  obtain ⟨l, tape, n, h⟩ := s.probePort_eq p r
  rw [h]

theorem State.probePort_board (s : State) (p : Nat) (r : Resource) : (s.probePort p r).board = s.board := by
  obtain ⟨l, tape, n, h⟩ := s.probePort_eq p r
  rw [h]

theorem State.probePort_idle (hi : s.Idle) (p : Nat) (r : Resource) : (s.probePort p r).Idle := by
  obtain ⟨l, tape, n, h⟩ := s.probePort_eq p r
  rw [h]
  exact hi

/-- The cells of a probe do not depend on the operation of the agent. -/
theorem State.probePort_doing (s : State) (op : Instr) (p : Nat) (r : Resource) :
    (s.doing op).probePort p r = (s.probePort p r).doing op := by
  have same : (s.doing op).portAt p = s.portAt p := rfl
  simp only [State.probePort, same]
  split
  · rfl
  · have drawn : (s.doing op).cellsDrawn = s.cellsDrawn := by
      funext c
      simp only [State.cellsDrawn, afterDraws_eq, State.drawn]
      rfl
    rw [drawn]
    rfl

/-- Past its checks a probe sets the cells, detects the variant over the port's bus, and sets what follows from it. -/
theorem adpProbe_completes (hs : s.Ready) (hr : s.portRemoved p = false) (h : PortWired (s.probePort p r) p q r i rb)
    (hv : (s.probePort p r).ShowsAdp i p rb r.base .id v)
    (hu : u = (s.probePort p r).modPort p (·.detected (variantOfId s.board.idMap q.hwId))) :
    ∃ t, exec (.adpProbe p (some r)) s = .next t ∧ t.turns = [] ∧ u.SameBytes t ∧
      t.still i = (u.finish (.ok .unit)).still i := by
  subst hu
  obtain ⟨hi, ht⟩ := hs
  obtain ⟨t, c, k, detects, quiet, turns⟩ := adpDetectOn_reads (h.doing (x := .adpProbe p (some r))
    (s.probePort_idle hi p r) rfl) hv ((s.probePort_turns p r).trans ht)
  rw [← State.probePort_doing, State.probePort_board] at detects
  have probes : (adpProbeOn p (some r)).Yields (s.doing (.adpProbe p (some r))) (.ok 0) _ :=
    .bind (probeEnter_yields hr) (.bind (.set _) (.bind detects (.bind (.set _) (.ok 0))))
  exact State.perform_adapter hi (asUnit_yields probes) (State.modPort_still quiet.still p _) turns

end

/-- Settles O40: the checks come in the order of the clauses, and a probe that passes them detects the variant over the
bus of the port that it sets or creates. -/
theorem adpProbe : Obligations.AdpProbe := by
  unfold Obligations.AdpProbe
  intro s i r rb hs v set
  have detected (q : Port) (p : Nat) (an : Bool) :
      (q.probed p r an).detected (variantOfId s.board.idMap q.hwId) = set q p an := Port.probed_detected ..
  refine ⟨fun p kept => ?missing, fun p q hq kept hn hu hreach hshow => ?known,
    fun hn hu hreach p hp hshow => ?new, fun x p q hq hr => adpProbe_removed hs.1 hq hr x⟩
  case missing =>
    exact State.perform_plain_yields hs.1
      (asUnit_error (adpProbeOn_missing (s := s.doing _) (State.portRemoved_eq_false (s := s) kept)))
  case known =>
    have probed := State.probePort_known (r := r) hq
    have wired : PortWired (s.probePort p r) p (q.probed p r (s.drawn.testBit 0)) r i rb := by
      rw [probed]
      exact ⟨State.portAt_modPort_self (s := s.afterDraw) hq rfl, rfl, hn, hu, kept⟩
    have map : SameMap (s.modPort p fun x => { x with res := some r, variant := .none }) (s.probePort p r) := by
      rw [probed]
      refine .trans (.modPort_agree (g := fun x => x.probed p r (s.drawn.testBit 0)) hq ?_) ⟨rfl, rfl, rfl, rfl, rfl⟩
      simp only [Port.probed, State.portAt_port hq]
    have cells : (s.probePort p r).modPort p (·.detected (variantOfId s.board.idMap q.hwId)) =
        s.afterDraw.modPort p fun _ => set q p (s.drawn.testBit 0) := by
      rw [probed, State.modPort_modPort (s := s.afterDraw) hq rfl]
      exact State.modPort_congr (s := s.afterDraw) hq (detected q p _)
    exact adpProbe_completes (v := .none) (u := s.afterDraw.modPort p _) hs ((State.portRemoved_eq hq).trans kept) wired
      ⟨_, by rw [map.board]; rfl, hreach, (readTarget_congr map _ _).trans hshow⟩ cells.symm
  case new =>
    obtain ⟨q, kept, inputs, isProbed, probed⟩ := State.probePort_new (r := r) hp
    have index : q.port = p := isProbed ▸ rfl
    have resource : q.res = some r := isProbed ▸ rfl
    have wired : PortWired (s.probePort p r) p q r i rb := by
      rw [probed]
      exact ⟨State.portAt_addPort hp index, resource, hn, hu, kept⟩
    have cells : (s.probePort p r).modPort p (·.detected (variantOfId s.board.idMap q.hwId)) =
        State.addPort { s with tape := s.tape.drop 4, draws := s.draws + 4 } (set q p q.anEnabled) := by
      rw [probed]
      refine (State.addPort_modPort (by exact hp) index _).trans (congrArg _ ?_)
      exact (congrArg (Port.detected · _) isProbed).trans (detected q p _)
    have shows : (s.probePort p r).readTarget i (evenAddr (r.base + s.board.adpMap.id)) = some (.adp p .id) := by
      rw [probed]
      exact hshow q index resource (isProbed ▸ rfl)
    obtain ⟨t, runs, rest⟩ := adpProbe_completes (v := .none) hs (State.portRemoved_eq_false (by simp [hp])) wired
      ⟨_, by rw [State.probePort_board]; rfl, hreach, shows⟩ cells.symm
    exact ⟨t, q, kept, inputs, runs, rest⟩

end Sys2Proof.Machine
end

section
/-!
Operations of a timestamper that make no access: the poll period, pulses, the poll timer, the host's events and the probe
(spec/43_timestamper.md rules R501, R502, R514, R516, R517).
-/

namespace Sys2Proof.Machine

open Sys2Proof

/-- Settles O53: a ceiling, and not below one tick. -/
theorem pollPeriod : Obligations.PollPeriod := by
  unfold Obligations.PollPeriod
  have giga : Config.giga = 1000000000 := rfl
  refine ⟨fun hz k sec nsec => ?least, fun _ _ _ _ => ⟨rfl, rfl⟩, fun k hk => ?half⟩
  case least =>
    simp only [pollTicks, giga]
    generalize (sec.toNat * 1000000000 + nsec.toNat) * hz = x
    omega
  case half =>
    have sec : (0 : U64).toNat = 0 := rfl
    have nsec : (500000000 : U32).toNat = 500000000 := rfl
    simp only [pollTicks, giga, sec, nsec]
    omega

/-! ### Operations that stay on one timestamper -/

section

variable {s t : State} {d : Nat} {x : Ts} {op : Instr} {o : Op (Except Err Res)} {r : Except Err Res}
  {ready : State → Ts → Bool} {g : State → Ts → Ts} {rb : Rb} {i : Nat} {res : Resource} {y : Option Resource}
  {line : Bool}

/-- An operation on a timestamper that is not removed is what follows its entry. -/
theorem State.performTs_yields (hi : s.Idle) (hx : s.tss[d]? = some x) (hr : x.removed = false)
    (ho : o.Yields (s.doing op) r (t.doing op)) :
    s.perform op ((tsEnter d).bind fun _ => o) = .next (t.finish r) :=
  State.perform_plain_yields hi (.bind (tsEnter_yields (s := s.doing op) hx hr) ho)

/-- The operation blocked in the step that comes after its entry. -/
theorem State.performTs_waits {w : WaitKind} (hi : s.Idle) (hx : s.tss[d]? = some x) (hr : x.removed = false)
    (ho : o.Blocks (s.doing op) [] ((s.doing op).setMe fun a => { a with blocked := some w })) :
    s.perform op ((tsEnter d).bind fun _ => o) =
      .next (s.setMe fun a => { a with op := some op, hist := [0], blocked := some w }) := by
  have waits : ((tsEnter d).bind fun _ => o).Blocks (s.doing op) [0]
      ((s.doing op).setMe fun a => { a with blocked := some w }) :=
    .after (n := 0) (t := s.doing op) (by simp [State.onTs_some (s := s.doing op) hx, hr]) ho
  rw [← State.start_eq_doing hi] at waits
  rw [State.perform_blocks hi waits, State.start_eq_doing hi]
  rfl

theorem whenReady_yields (hx : s.tss[d]? = some x) (hp : ready s x = true) :
    (whenReady d ready g).Yields s 0 (s.setTs d (g s x)) :=
  .step (by rw [State.onTs_some hx, if_pos hp, State.modTs_eq_setTs hx])

theorem whenReady_waits (hx : s.tss[d]? = some x) (hp : ready s x = false) :
    (whenReady d ready g).Blocks s [] (s.setMe fun a => { a with blocked := some .other }) :=
  .act (by simp [State.onTs_some hx, hp, State.blockOn])

theorem tsSet_setTs (y : Ts) (h : Ts → Ts) : (tsSet d h).Yields (s.setTs d y) () (s.setTs d (h y)) := by
  rw [← State.modTs_setTs]
  exact .set _

/-! ### Pulses (rule R502) -/

theorem State.tsPulse_unarmed (hx : s.tss[d]? = some x) (h : x.hw.armed = false) :
    s.tsPulse d = s.modTsHw d TsHw.count := by
  rw [State.tsPulse, hx]
  simp [h]

theorem State.tsPulse_armed (hx : s.tss[d]? = some x) (h : x.hw.armed = true) :
    s.tsPulse d = (s.afterDraws 2).modTsHw d fun h => h.capture s.drawn s.afterDraw.drawn := by
  rw [State.tsPulse, hx]
  simp only [h, if_true, afterDraws_eq]
  rfl

theorem tsPulse_yields (hx : s.tss[d]? = some x) :
    (asUnit ((Op.step fun s => s.onTs d fun _ => .go 0 (s.tsPulse d)).bind fun _ => .ok 0)).Yields s (.ok .unit)
      (s.tsPulse d) :=
  asUnit_yields (.bind (.step (n := 0) (by rw [State.onTs_some hx])) (.ok 0))

/-! ### The poll timer (rule R516) -/

theorem pollFireOn_fires (hx : s.tss[d]? = some x) (hp : x.pollReady s.hostTicks = true) :
    (pollFireOn d).Yields s (.ok 0) (s.setTs d { x with
      workPending := true, timerBusy := false,
      timerDeadline := s.hostTicks + pollTicks s.board.hostHz x.pollSec x.pollNsec }) := by
  refine .bind (whenReady_yields hx hp) (.bind (tsSet_setTs _ _) (.bind (.set _) (.bind (.set _) ?_)))
  simp only [State.modTs_setTs]
  exact .ok 0

/-! ### Host signals (rule R514) -/

theorem hostSignalOn_misses {c : Nat} (h : s.me.id = c ∨ (s.others.zipIdx.find? fun e => decide (e.1.id = c)) = none) :
    (hostSignalOn c).Yields s (.ok 0) s := by
  refine .bind (.step (n := 0) (t := s) ?_) (.ok 0)
  by_cases me : s.me.id = c
  · simp [me]
  · simp [me, h.resolve_left me]

theorem hostSignalOn_finds {c k : Nat} {a : Agent} (hc : s.me.id ≠ c)
    (hf : (s.others.zipIdx.find? fun e => decide (e.1.id = c)) = some (a, k)) :
    (hostSignalOn c).Yields s (.ok 0) (s.signalOther k a) :=
  .bind (.step (n := 0) (by simp only [if_neg hc, hf])) (.ok 0)

/-- Only a reader can be blocked in a wait that a signal interrupts (rule R514). -/
theorem State.interruptible_eq {a : Agent} : s.interruptible a = some d ↔ ∃ h n nb t,
    a.op = some (.tsRead d h n nb) ∧ s.tss[d]? = some t ∧
      (a.blocked = some .waitq ∧ a.id ∈ t.waiters ∨ a.blocked = some .readerLock ∧ t.readerLock ≠ none) := by
  constructor
  · intro found
    unfold State.interruptible at found
    split at found
    · rename_i d' h n nb w hop hw
      split at found
      · cases found
      · rename_i t ht
        cases w with
        | waitq =>
          obtain ⟨waits, rfl⟩ : t.waiters.contains a.id = true ∧ d' = d := by simpa using found
          exact ⟨h, n, nb, t, hop, ht, .inl ⟨hw, by simpa using waits⟩⟩
        | readerLock =>
          obtain ⟨held, rfl⟩ : t.readerLock ≠ none ∧ d' = d := by simpa using found
          exact ⟨h, n, nb, t, hop, ht, .inr ⟨hw, held⟩⟩
        | other => cases found
    · cases found
  · rintro ⟨h, n, nb, t, hop, ht, ⟨hw, waits⟩ | ⟨hw, held⟩⟩
    · simp [State.interruptible, hop, hw, ht, waits]
    · simp [State.interruptible, hop, hw, ht, held]

/-! ### Probes (rule R501) -/

theorem State.tsRemoved_eq_false (h : ∀ t, s.tss[d]? = some t → t.removed = false) : s.tsRemoved d = false := by
  unfold State.tsRemoved
  split
  · exact h _ ‹_›
  · rfl

theorem tsProbeOn_removed (hx : s.tss[d]? = some x) (h : x.removed = true) :
    (tsProbeOn d y line).Refuses s .tsRemoved :=
  .bind (.step (by simp [State.tsRemoved, hx, h]))

theorem tsProbeOn_missing (h : s.tsRemoved d = false) :
    (tsProbeOn d none line).Yields s (.error (.inval .missingResource)) s :=
  .bind (probeEnter_yields h) (.raise _)

theorem tsProbeOn_yields (h : s.tsRemoved d = false) (hn : s.Names res.bus i rb) :
    (tsProbeOn d (some res) line).Yields s (.ok 0) (s.probeTs d res line rb.sleeps) := by
  have kind : s.sleepsOn i = rb.sleeps := by rw [State.sleepsOn, hn.1]
  rw [← kind]
  exact .bind (probeEnter_yields h) (.bind (.step hn.resolve) (.bind (.set _) (.ok 0)))

/-- A device that is there takes the cells of a probe. -/
theorem State.probeTs_known (hx : s.tss[d]? = some x) (sleeps : Bool) :
    s.probeTs d res line sleeps = s.modTs d fun _ => x.probed res line sleeps := by
  rw [State.probeTs, if_pos (List.getElem?_eq_some_iff.mp hx).1]
  exact State.modTs_congr hx rfl

/-- A number that names no device makes the next one (rule R40). -/
theorem State.probeTs_new (hd : s.tss.length ≤ d) (sleeps : Bool) : s.probeTs d res line sleeps =
    { s.afterDraws 7 with tss := s.tss ++ [Ts.create (some res) line sleeps (TsHw.ofCells s.cellsDrawn)] } :=
  if_neg (Nat.not_lt.mpr hd)

end

/-- Settles O55: by whether the capture is armed. -/
theorem tsPulse : Obligations.TsPulse := by
  unfold Obligations.TsPulse
  intro s d t hi ht
  have pulses := tsPulse_yields (s := s.doing (.tsPulse d)) ht
  refine ⟨fun idle => ?counted, fun armed => ⟨BitVec.ofNat 48 s.drawn, BitVec.ofNat 30 s.afterDraw.drawn, ?captured⟩⟩
  case counted =>
    rw [State.tsPulse_unarmed (s := s.doing _) ht idle] at pulses
    exact State.perform_plain_yields (t := s.modTsHw d TsHw.count) hi pulses
  case captured =>
    rw [State.tsPulse_armed (s := s.doing _) ht armed] at pulses
    exact State.perform_plain_yields (t := (s.afterDraws 2).modTsHw d fun h => h.capture s.drawn s.afterDraw.drawn)
      hi pulses

/-- Settles O58: by whether the timer may fire. -/
theorem pollFire : Obligations.PollFire := by
  unfold Obligations.PollFire
  intro s d t hi ht kept
  have due : t.pollReady s.hostTicks = true ↔
      t.timerOn = true ∧ t.timerDeadline ≤ s.hostTicks ∧ t.timerBusy = false := by
    simp [Ts.pollReady, and_assoc]
  refine ⟨fun ready => ?fires, fun early => ?waits⟩
  case fires =>
    have fires := State.performTs_yields (op := .pollFire d) (t := s.setTs d _) hi ht kept
      (asUnit_yields (pollFireOn_fires (s := s.doing _) ht (due.mpr ready)))
    rw [State.modTs_eq_setTs ht]
    exact fires
  case waits =>
    have early : t.pollReady s.hostTicks = false := Bool.eq_false_iff.mpr fun ready => early (due.mp ready)
    exact State.performTs_waits hi ht kept (whenReady_waits (s := s.doing _) ht early).bind.bind

/-- Settles O59: by what the signal finds. -/
theorem hostSteps : Obligations.HostSteps := by
  unfold Obligations.HostSteps
  have misses {s : State} {c : Nat} (hi : s.Idle)
      (h : s.me.id = c ∨ (s.others.zipIdx.find? fun e => decide (e.1.id = c)) = none) :
      exec (.hostSignal c) s = .next (s.finish (.ok .unit)) :=
    State.perform_plain_yields hi (asUnit_yields (hostSignalOn_misses (s := s.doing _) h))
  refine ⟨fun s hi => ?tick, fun s hi => misses hi (.inl rfl), fun s c hi absent => misses hi (.inr ?absent),
    fun s c k a hi other found => ?found⟩
  case tick =>
    exact State.perform_plain_yields (t := s.hostTick) hi (asUnit_yields (.bind (.set _) (.ok 0)))
  case absent =>
    rw [List.find?_eq_none]
    rintro ⟨a, k⟩ mem
    have := absent a (List.mem_cons_of_mem _ (List.mem_of_getElem? (List.mem_zipIdx_iff_getElem?.mp mem)))
    simpa using this
  case found =>
    have id : a.id = c := by simpa using List.find?_some found
    have signals : exec (.hostSignal c) s = .next ((s.signalOther k a).finish (.ok .unit)) := by
      have := hostSignalOn_finds (s := s.doing (.hostSignal c)) other found
      refine State.perform_plain_yields hi (asUnit_yields (n := 0) ?_)
      have same : (s.doing (.hostSignal c)).signalOther k a = (s.signalOther k a).doing (.hostSignal c) := by
        have sees : (s.doing (.hostSignal c)).interruptible a = s.interruptible a := rfl
        simp only [State.signalOther, sees]
        cases s.interruptible a <;> rfl
      rwa [same] at this
    intro waits
    have iff (d : Nat) : s.interruptible a = some d ↔ waits d := by
      rw [State.interruptible_eq, id]
    refine ⟨fun none => ?free, fun d waiting => ?reached⟩
    case free =>
      have free : s.interruptible a = .none := Option.eq_none_iff_forall_ne_some.mpr fun d h => none d ((iff d).mp h)
      rw [signals, State.signalOther, free]
    case reached =>
      rw [signals, State.signalOther, (iff d).mpr waiting, id]

/-- Settles O54: what passes the checks sets the cells of rule R57, or makes a device that has them. -/
theorem tsProbe : Obligations.TsProbe := by
  unfold Obligations.TsProbe
  intro s i r rb line hi set
  have created (hw : TsHw) : Ts.create (some r) line rb.sleeps hw = set [] hw := rfl
  refine ⟨fun d kept => ?missing, fun hn => ⟨fun d t ht kept => ?known, fun d hd => ?new⟩,
    fun x d t ht removed => ?removed⟩
  case missing =>
    exact State.perform_plain_yields hi (asUnit_error (tsProbeOn_missing (State.tsRemoved_eq_false kept)))
  case known =>
    have kept : s.tsRemoved d = false := by simp only [State.tsRemoved, ht, kept]
    have probes := tsProbeOn_yields (s := s.doing (.tsProbe d (some r) line)) (line := line) kept hn
    rw [State.probeTs_known (s := s.doing _) ht] at probes
    exact State.perform_plain_yields (t := s.modTs d fun _ => t.probed r line rb.sleeps) hi (asUnit_yields probes)
  case new =>
    have kept : s.tsRemoved d = false := State.tsRemoved_eq_false fun t ht => by
      rw [List.getElem?_eq_none hd] at ht
      cases ht
    have probes := tsProbeOn_yields (s := s.doing (.tsProbe d (some r) line)) (line := line) kept hn
    rw [State.probeTs_new (s := s.doing _) hd] at probes
    refine ⟨TsHw.ofCells s.cellsDrawn, ?_⟩
    exact State.perform_plain_yields (t := { s.afterDraws 7 with
      tss := s.tss ++ [Ts.create (some r) line rb.sleeps (TsHw.ofCells s.cellsDrawn)] }) hi (asUnit_yields probes)
  case removed =>
    exact State.perform_refuses hi (tsProbeOn_removed (s := s.start _) ht removed).bind

end Sys2Proof.Machine
end

section
/-!
Operations on a wired timestamper whose transfers all succeed: `ts_close` and `change_settings` (spec/43_timestamper.md
rules R505, R515), with their rejections and their waits.
-/

namespace Sys2Proof.Machine

open Sys2Proof

/-! ### From a run to the operation -/

section

variable {s t u : State} {d i : Nat} {x m : Ts} {rb : Rb} {res : Resource} {c : Option U16} {op : Instr}
  {o : Op (Except Err Res)} {r : Except Err Res}

theorem Op.LeadsTo.parks {α : Type} {o o' : Op α} (h : o.LeadsTo o' s) (hp : o'.Parks s t) : o.Parks s t := by
  intro k seen
  obtain ⟨seen', leads⟩ := h k seen
  obtain ⟨l, parks⟩ := hp k seen'
  exact ⟨l, leads.trans parks⟩

theorem State.performTs_parks {w : WaitKind} (hi : s.Idle) (hx : s.tss[d]? = some x) (hr : x.removed = false)
    (ho : o.Parks (s.doing op) ((u.doing op).setMe fun a => { a with blocked := some w })) :
    ∃ l, s.perform op ((tsEnter d).bind fun _ => o) =
      .next (u.setMe fun a => { a with op := some op, hist := l, blocked := some w }) := by
  rw [← State.start_eq_doing hi] at ho
  have parks : ((tsEnter d).bind fun _ => o).Parks (s.start op) _ := .after (tsEnter_yields (s := s.start op) hx hr) ho
  exact State.perform_parks hi parks

theorem State.performTs_faults {f : Fault} (hi : s.Idle) (hx : s.tss[d]? = some x) (hr : x.removed = false)
    (ho : o.Faults (s.doing op) f (s.doing op)) :
    s.perform op ((tsEnter d).bind fun _ => o) = .next (s.halt f) :=
  State.perform_plain_faults hi (.after (tsEnter_yields (s := s.doing op) hx hr) ho)

/-- What an operation that ends leaves, where its run is known but for the bookkeeping of the bus. -/
theorem State.performTs_ends (hi : s.Idle) (hx : s.tss[d]? = some x) (hr : x.removed = false)
    (ho : o.Yields (s.start op) r t) (still : t.still i = ((s.start op).modTs d fun _ => m).still i) :
    s.perform op ((tsEnter d).bind fun _ => o) = .next (t.finish r) ∧ s.SameBytes (t.finish r) ∧
      (t.finish r).still i = ((s.modTs d fun _ => m).finish r).still i := by
  have same : (t.finish r).still i = ((s.modTs d fun _ => m).finish r).still i := by
    have := congrArg (State.finish · r) still
    rw [State.start_eq_doing hi] at this
    exact this
  exact ⟨State.perform_yields hi (.bind (tsEnter_yields (s := s.start op) hx hr) ho),
    State.sameBytes_of_still same rfl rfl, same⟩

/-- The operation ends in what its run leaves. -/
theorem TsRun.performs (hi : s.Idle) (w : TsWired s d x res i rb) (ho : o.Yields (s.start op) r t)
    (run : TsRun (s.start op) d x i rb m c t) :
    ∃ u, s.perform op ((tsEnter d).bind fun _ => o) = .next u ∧ u.turns = [] ∧ s.SameBytes u ∧
      u.still i = ((s.modTs d fun _ => m).finish r).still i := by
  obtain ⟨ends, bytes, still⟩ := State.performTs_ends hi w.device w.kept ho run.still
  exact ⟨_, ends, run.turns, bytes, still⟩

/-- The run of an operation on a wired timestamper begins where the operation does. -/
theorem TsRun.begins (hs : s.Ready) (w : TsWired s d x res i rb) (hx : atomicOp (some op) = false) :
    TsWired (s.start op) d x res i rb ∧ TsRun (s.start op) d x i rb x rb.aa1Cache (s.start op) :=
  ⟨w.start op hs.1 hx, .begin (w.start op hs.1 hx) hs.2⟩

end

/-! ### Locks and cells of a device that is there -/

section

variable {s : State} {d h : Nat} {x y : Ts}

/-- The configuration lock as it is held. -/
def Ts.withCfg (t : Ts) (l : Option Nat) : Ts := { t with cfgLock := l }

/-- The reader lock as it is held. -/
def Ts.withReader (t : Ts) (l : Option Nat) : Ts := { t with readerLock := l }

theorem Ts.withCfg_none {t : Ts} (h : t.cfgLock = none) : t.withCfg none = t := by
  rw [← h]
  rfl

theorem Ts.withReader_none {t : Ts} (h : t.readerLock = none) : t.withReader none = t := by
  rw [← h]
  rfl

theorem releaseCfg_setTs : (releaseCfg d).Yields (s.setTs d y) () (s.setTs d (y.withCfg none)) := tsSet_setTs _ _

theorem releaseReader_setTs : (releaseReader d).Yields (s.setTs d y) () (s.setTs d (y.withReader none)) :=
  tsSet_setTs _ _

theorem acquireCfg_yields (hx : s.tss[d]? = some x) (hl : x.cfgLock = none) (ha : s.atomic = false) :
    (acquireCfg d).Yields s 0 (s.setTs d (x.withCfg (some s.me.id))) :=
  .step (by simp [State.onTs_some hx, ha, hl, State.modTs_eq_setTs hx, Ts.withCfg])

theorem acquireCfg_waits (hx : s.tss[d]? = some x) (hl : x.cfgLock ≠ none) (ha : s.atomic = false) :
    (acquireCfg d).Blocks s [] (s.setMe fun a => { a with blocked := some .other }) :=
  .act (by simp [State.onTs_some hx, ha, hl, State.blockOn])

theorem acquireReader_yields (hx : s.tss[d]? = some x) (hl : x.readerLock = none) (ha : s.atomic = false) :
    (acquireReader d).Yields s 0 (s.setTs d (x.withReader (some s.me.id))) :=
  .step (by simp [State.onTs_some hx, ha, hl, State.modTs_eq_setTs hx, Ts.withReader])

end

/-! ### `ts_close` (rule R505) -/

section

variable {s0 s : State} {d h i k : Nat} {x t0 m : Ts} {rb : Rb} {res : Resource} {c : Option U16}

theorem Ts.isOpen_iff {t : Ts} : t.isOpen h = true ↔ ∃ k, t.handles[h]? = some (.held k) := by
  simp only [Ts.isOpen, Ts.handle]
  cases t.handles[h]? with
  | none => simp
  | some x => cases x <;> simp

theorem Ts.handle_of {t : Ts} {x : TsHandle} (hh : t.handles[h]? = some x) : t.handle h = x := by
  rw [Ts.handle, hh]
  rfl

theorem closeHandle_faults (hx : s.tss[d]? = some x) (hh : x.isOpen h = false) :
    (closeHandle d h).Faults s .tsNotOpen s := by
  refine .step ?_
  rw [State.onTs_some hx]
  rw [Ts.isOpen] at hh
  cases hk : x.handle h <;> simp_all

theorem closeHandle_reading (hx : s.tss[d]? = some x) (hh : x.handles[h]? = some (.held (k + 1))) :
    (closeHandle d h).Yields s 0 (s.modTs d fun x => x.setHandle h (.closing k)) :=
  .step (by simp [State.onTs_some hx, Ts.handle_of hh])

theorem closeHandle_unread (hx : s.tss[d]? = some x) (hh : x.handles[h]? = some (.held 0)) :
    (closeHandle d h).Yields s 1 (s.modTs d fun x => x.setHandle h .closed) :=
  .step (by simp [State.onTs_some hx, Ts.handle_of hh])

/-- The cells after a use of the device has ended, which is the last or another one. -/
def Ts.used (t : Ts) (b : Board) : Ts :=
  if t.useCount ≤ 1 then ({ t with useCount := t.useCount - 1 } : Ts).disabled b t.mode |>.shut
  else { t with useCount := t.useCount - 1 }

theorem Ts.used_last {t : Ts} (hl : t.cfgLock = none) (hu : t.useCount ≤ 1) (l : Option Nat) (b : Board) : t.used b =
    ((({ t.withCfg l with useCount := t.useCount - 1 } : Ts).disabled b t.mode).shut).withCfg none := by
  have unlocked (q : DMode) : (({ t with useCount := t.useCount - 1 } : Ts).disabled b q).shut =
      ((({ t.withCfg l with useCount := t.useCount - 1 } : Ts).disabled b q).shut).withCfg none := by
    rw [← hl]
    cases q <;> rfl
  rw [Ts.used, if_pos hu, unlocked]

theorem Ts.used_another {t : Ts} (hl : t.cfgLock = none) (hu : ¬t.useCount ≤ 1) (l : Option Nat) (b : Board) :
    t.used b = ({ t.withCfg l with useCount := t.useCount - 1 } : Ts).withCfg none := by
  rw [Ts.used, if_neg hu, ← hl]
  rfl

/-- The end of a use, in a run (rule R505). -/
theorem endUse_run (w : TsWired s0 d t0 res i rb) (r : TsRun s0 d t0 i rb m c s) (hl : m.cfgLock = none)
    (ha : s0.atomic = false) (hd : m.useCount ≤ 1 → m.triggersDone = true) :
    (endUse d).EndsOk s fun _ t => ∃ c', TsRun s0 d t0 i rb (m.used s0.board) c' t := by
  refine (acquireCfg_run w r hl ha).thenOk fun _ _ r => ?_
  refine (tsSet_run r (fun t => { t with useCount := t.useCount - 1 }) (fun _ => rfl) rfl).thenOk fun _ _ r => ?_
  refine Op.Ends.thenOk (Op.Yields.ends (tsGet_run w r _ fun _ => rfl)
    (Q := fun n u => n = m.useCount - 1 ∧ TsRun s0 d t0 i rb _ c u) ⟨rfl, r⟩) ?_
  rintro _ _ ⟨rfl, r⟩
  by_cases last : m.useCount ≤ 1
  · rw [if_pos (by omega)]
    refine Op.Ends.thenOk (Op.Yields.ends (currentMode_run w r)
      (Q := fun k u => k = m.mode ∧ TsRun s0 d t0 i rb _ c u) ⟨rfl, r⟩) ?_
    rintro _ _ ⟨rfl, r⟩
    obtain ⟨n, t, disables, c1, r⟩ := disableModeOn_run w m.mode r ha (hd last)
    refine Op.Ends.thenOk (Op.Yields.ends disables (Q := fun _ u => TsRun s0 d t0 i rb _ c1 u) r) fun _ _ r => ?_
    refine (tsSet_run r Ts.shut (fun _ => rfl) rfl).thenOk fun _ _ r => ?_
    refine (releaseCfg_run r).thenOk fun _ t r => ⟨0, t, .ok 0, c1, ?_⟩
    rw [Ts.used_last hl last (some s0.me.id)]
    exact r
  · rw [if_neg (by omega)]
    refine (releaseCfg_run r).thenOk fun _ t r => ⟨0, t, .ok 0, c, ?_⟩
    rw [Ts.used_another hl last (some s0.me.id)]
    exact r

end

/-- Settles O47: the handle is marked, and the end of its use is a run of its own. -/
theorem tsClose : Obligations.TsClose := by
  unfold Obligations.TsClose
  refine ⟨fun s d h t hi ht kept => ⟨fun shut => ?faults, fun n reading => ?reading, fun unread ha locked => ?waits⟩,
    fun s d i h t res rb hs w ha free unread done => ?closes⟩
  case faults =>
    exact State.performTs_faults hi ht kept (closeHandle_faults (s := s.doing _) ht shut).bind.bind
  case reading =>
    have marks := closeHandle_reading (s := s.doing (.tsClose d h)) ht reading
    exact State.performTs_yields (t := s.modTs d _) hi ht kept (asUnit_yields (.bind marks (.ok 0)))
  case waits =>
    have marks := closeHandle_unread (s := s.doing (.tsClose d h)) ht unread
    have atomic := State.doing_atomic (op := .tsClose d h) hi.1 rfl
    have waits := acquireCfg_waits (s := (s.doing (.tsClose d h)).modTs d fun x => x.setHandle h .closed)
      (getElem?_modify_self _ _ _ _ ht) locked (atomic.trans ha)
    exact State.performTs_parks (u := s.modTs d fun x => x.setHandle h .closed) hi ht kept
      (.bind (.after marks waits.parks.bind))
  case closes =>
    obtain ⟨w', run⟩ := TsRun.begins (op := .tsClose d h) hs w rfl
    have atomic := (State.start_atomic (op := .tsClose d h) hs.1 rfl).trans ha
    have marks := closeHandle_unread (s := s.start (.tsClose d h)) w.device unread
    obtain ⟨n, u, ends, c, run⟩ :=
      endUse_run w' (run.mod (fun x => x.setHandle h .closed) (fun _ => rfl) rfl) free atomic done
    exact run.performs hs.1 w (asUnit_yields (.bind marks ends))

/-! ### `change_settings` (rule R515) -/

section

variable {s0 s : State} {d i : Nat} {x t0 m : Ts} {rb : Rb} {res : Resource} {c : Option U16} {k : DMode} {word : U32}
  {sec : U64} {nsec : U32}

theorem changeSettingsOn_badMode (hw : DMode.ofWord word = none) :
    (changeSettingsOn d word sec nsec).Yields s (.error (.inval .mode)) s := by
  rw [changeSettingsOn, hw]
  exact .raise _

theorem changeSettingsOn_noIrq (hx : s.tss[d]? = some x) (hw : DMode.ofWord word = some .interrupt)
    (hl : x.irqLine = false) : (changeSettingsOn d word sec nsec).Yields s (.error (.inval .noIrq)) s := by
  rw [changeSettingsOn, hw]
  refine .bind (tsGet_yields hx _) ?_
  rw [if_pos (by simp [hl])]
  exact .raise _

theorem changeSettingsOn_badInterval (hx : s.tss[d]? = some x) (hw : DMode.ofWord word = some k)
    (hl : k = .interrupt → x.irqLine = true) (hn : Config.giga ≤ nsec.toNat) :
    (changeSettingsOn d word sec nsec).Yields s (.error (.inval .interval)) s := by
  rw [changeSettingsOn, hw]
  refine .bind (tsGet_yields hx _) ?_
  rw [if_neg (by simpa using hl), if_pos hn]
  exact .raise _

/-- A settings request that passes the checks is applied. -/
theorem changeSettingsOn_leads (hx : s.tss[d]? = some x) (hw : DMode.ofWord word = some k)
    (hl : k = .interrupt → x.irqLine = true) (hn : nsec.toNat < Config.giga) :
    (changeSettingsOn d word sec nsec).LeadsTo (applySettings d k sec nsec) s := by
  rw [changeSettingsOn, hw]
  refine (tsGet_yields hx _).leadsTo.trans ?_
  rw [if_neg (by simpa using hl), if_neg (Nat.not_le.mpr hn)]
  exact .refl _

/-- The cells at the end of `change_settings`. -/
def Ts.settled (t : Ts) (k : DMode) : Ts := { t with waiters := if k = .interrupt then t.waiters else [], cfgLock := none }

theorem settingsDone_yields {r : Except Err Nat} :
    (settingsDone d k r).Yields s r (s.modTs d fun t => t.settled k) := by
  unfold settingsDone
  by_cases hk : k = .interrupt
  · rw [if_pos hk]
    have e : (fun t : Ts => t.settled k) = fun t => { t with cfgLock := none } := by simp [Ts.settled, hk]
    rw [e]
    exact .bind (.set _) (.ret r)
  · rw [if_neg hk]
    have e : s.modTs d (fun t => t.settled k) =
        (s.modTs d fun t => { t with waiters := [] }).modTs d fun t => { t with cfgLock := none } := by
      simp only [State.modTs, modify_modify, Ts.settled, if_neg hk]
    rw [e]
    exact .bind (.set _) (.bind (.set _) (.ret r))

/-! The locks that `change_settings` holds meanwhile do not matter to what it does. -/

section

variable (t : Ts) (l : Option Nat) (b : Board) (now : Nat)

theorem Ts.withReader_withReader (l' : Option Nat) : (t.withReader l).withReader l' = t.withReader l' := rfl

theorem Ts.withCfg_withReader (l' : Option Nat) : (t.withCfg l).withReader l' = (t.withReader l').withCfg l := rfl

theorem Ts.disabled_withCfg : (t.withCfg l).disabled b k = (t.disabled b k).withCfg l := by cases k <;> rfl

theorem Ts.store_withCfg : (t.withCfg l).store k sec nsec = (t.store k sec nsec).withCfg l := rfl

theorem Ts.store_withReader : (t.withReader l).store k sec nsec = (t.store k sec nsec).withReader l := rfl

theorem Ts.enabled_withCfg : (t.withCfg l).enabled b now k = (t.enabled b now k).withCfg l := by cases k <;> rfl

theorem Ts.settled_withCfg : (t.withCfg l).settled k = t.settled k := rfl

end

theorem Ts.disabled_readerLock (t : Ts) (b : Board) : (t.disabled b k).readerLock = t.readerLock := by cases k <;> rfl

theorem Ts.store_settled {t : Ts} (h : t.readerLock = none) (l : Option Nat) :
    ((((t.withCfg l).withReader l).store k sec nsec).withReader none).settled k = (t.store k sec nsec).settled k := by
  rw [Ts.withCfg_withReader, Ts.store_withCfg, Ts.withCfg_withReader, Ts.settled_withCfg, Ts.store_withReader,
    Ts.withReader_withReader, ← Ts.store_withReader, Ts.withReader_none h]

theorem Ts.switch_settled {t : Ts} (h : t.readerLock = none) (l : Option Nat) (b : Board) (now : Nat) (q : DMode) :
    ((((((t.withCfg l).disabled b q).withReader l).store k sec nsec).withReader none).enabled b now k).settled k =
      (((t.disabled b q).store k sec nsec).enabled b now k).settled k := by
  rw [Ts.disabled_withCfg, Ts.withCfg_withReader, Ts.store_withCfg, Ts.withCfg_withReader, Ts.enabled_withCfg,
    Ts.settled_withCfg, Ts.store_withReader, Ts.withReader_withReader, ← Ts.store_withReader,
    Ts.withReader_none ((t.disabled_readerLock b).trans h)]

/-- The settings of an idle device are stored. -/
theorem applySettings_idle (hx : s.tss[d]? = some x) (hc : x.cfgLock = none) (hr : x.readerLock = none)
    (ha : s.atomic = false) (hi : x.life = .idle) : (applySettings d k sec nsec).Yields s (.ok 0)
      (s.setTs d ((x.store k sec nsec).settled k)) := by
  refine .bind (acquireCfg_yields hx hc ha) (.bind (tsGet_yields (State.setTs_device hx _) _) ?_)
  rw [if_neg (by simp [Ts.withCfg, hi])]
  refine .bind (acquireReader_yields (State.setTs_device hx _) hr ha) ?_
  rw [State.setTs_setTs]
  refine .bind (tsSet_setTs _ _) (.bind releaseReader_setTs ?_)
  rw [← Ts.store_settled hr (some s.me.id), ← State.modTs_setTs s d _ fun t => t.settled k]
  exact settingsDone_yields

/-- The settings of an active device are stored between the end of the old mode and the beginning of the new one. -/
theorem applySettings_run (w : TsWired s0 d t0 res i rb) (r : TsRun s0 d t0 i rb m c s) (hc : m.cfgLock = none)
    (hr : m.readerLock = none) (ha : s0.atomic = false) (hi : m.life = .active) (hd : m.triggersDone = true) :
    (applySettings d k sec nsec).EndsOk s fun _ t => ∃ c', TsRun s0 d t0 i rb
      ((((m.disabled s0.board m.mode).store k sec nsec).enabled s0.board s0.hostTicks k).settled k) c' t := by
  refine (acquireCfg_run w r hc ha).thenOk fun _ _ r => ?_
  refine Op.Ends.thenOk (Op.Yields.ends (tsGet_run w r _ fun _ => rfl)
    (Q := fun n u => n = 1 ∧ TsRun s0 d t0 i rb (m.withCfg (some s0.me.id)) c u) ⟨by simp [hi], r⟩) ?_
  rintro _ _ ⟨rfl, r⟩
  rw [if_pos rfl]
  refine Op.Ends.thenOk (Op.Yields.ends (currentMode_run w r)
    (Q := fun k u => k = m.mode ∧ TsRun s0 d t0 i rb (m.withCfg (some s0.me.id)) c u) ⟨rfl, r⟩) ?_
  rintro _ _ ⟨rfl, r⟩
  obtain ⟨n, t, disables, c1, r⟩ := disableModeOn_run w m.mode r ha hd
  refine Op.Ends.thenOk (Op.Yields.ends disables (Q := fun _ u => TsRun s0 d t0 i rb _ c1 u) r) fun _ _ r => ?_
  have free : ((m.withCfg (some s0.me.id)).disabled s0.board m.mode).readerLock = none := by
    cases m.mode <;> exact hr
  refine (acquireReader_run w r free ha).thenOk fun _ _ r => ?_
  refine (tsSet_run r (fun t => t.store k sec nsec) (fun _ => rfl) rfl).thenOk fun _ _ r => ?_
  refine (releaseReader_run r).thenOk fun _ t r => ?_
  obtain ⟨n, u, enables, c2, r⟩ := enableModeOn_run w k r
  refine ⟨n, _, .bind enables settingsDone_yields, c2, ?_⟩
  rw [← Ts.switch_settled hr (some s0.me.id)]
  exact r.mod (fun t => t.settled k) (fun _ => rfl) rfl

end

/-- Settles O50: the checks in their order, and what is applied once they are passed. -/
theorem changeSettings : Obligations.ChangeSettings := by
  unfold Obligations.ChangeSettings
  refine ⟨fun s d t word sec nsec hi ht kept => ⟨fun h0 h1 h2 => ?badMode, fun h0 line => ?noIrq, fun hw big => ?interval⟩,
    fun s d t k sec nsec hs ht kept ha small line => ?accepted⟩
  case badMode =>
    have none : DMode.ofWord word = .none := by rw [DMode.ofWord, if_neg h0, if_neg h1, if_neg h2]
    exact State.performTs_yields hi ht kept (asUnit_error (changeSettingsOn_badMode none))
  case noIrq =>
    subst h0
    exact State.performTs_yields hi ht kept (asUnit_error (changeSettingsOn_noIrq (s := s.doing _) ht rfl line))
  case interval =>
    obtain ⟨k, mode, line⟩ : ∃ k, DMode.ofWord word = some k ∧ (k = .interrupt → t.irqLine = true) := by
      rcases hw with rfl | rfl | ⟨rfl, line⟩
      · exact ⟨.poll, rfl, nofun⟩
      · exact ⟨.direct, rfl, nofun⟩
      · exact ⟨.interrupt, rfl, fun _ => line⟩
    exact State.performTs_yields hi ht kept
      (asUnit_error (changeSettingsOn_badInterval (s := s.doing _) ht mode line big))
  case accepted =>
    intro word woken
    have mode : DMode.ofWord word = some k := by cases k <;> rfl
    have applies (s : State) (ht : s.tss[d]? = some t) :
        (changeSettingsOn d word sec nsec).LeadsTo (applySettings d k sec nsec) s :=
      changeSettingsOn_leads ht mode line small
    have atomic (op : Instr) (hop : atomicOp (some op) = false) := (State.doing_atomic hs.1.1 hop).trans ha
    have settled (x : Ts) (h : x.cfgLock = none) : x.settled k = woken x := by
      rw [← Ts.withCfg_none h]
      rfl
    refine ⟨fun locked => ?waits, fun free reader idle => ?idle, fun i res rb free reader active w done => ?active⟩
    case waits =>
      have waits := acquireCfg_waits (s := s.doing (.changeSettings d word sec nsec)) ht locked (atomic _ rfl)
      exact State.performTs_parks hs.1 ht kept ((applies (s.doing _) ht).parks waits.parks.bind).bind
    case idle =>
      have stores := (applies (s.doing (.changeSettings d word sec nsec)) ht).yields
        (applySettings_idle (s := s.doing (.changeSettings d word sec nsec)) ht free reader (atomic _ rfl) idle)
      rw [settled (t.store k sec nsec) free] at stores
      rw [State.modTs_eq_setTs ht]
      exact State.performTs_yields (t := s.setTs d _) hs.1 ht kept (asUnit_yields stores)
    case active =>
      obtain ⟨w', run⟩ := TsRun.begins (op := .changeSettings d word sec nsec) hs w rfl
      have atomic := (State.start_atomic (op := .changeSettings d word sec nsec) hs.1 rfl).trans ha
      obtain ⟨n, u, ends, c, run⟩ := applySettings_run (k := k) (sec := sec) (nsec := nsec) w' run free reader atomic
        active done
      have runs := run.performs hs.1 w (asUnit_yields ((applies (s.start _) ht).yields ends))
      rw [settled _ (by cases t.mode <;> cases k <;> exact free)] at runs
      exact runs

end Sys2Proof.Machine
end

section
/-!
Accesses of a timestamper's registers over I2C, one transfer at a time: what the wire shows, and what a transfer that the
turns let fail leaves (spec/40_register_bus.md rules R202 to R204, spec/43_timestamper.md rule R508, log entries 8 and 9).
-/

namespace Sys2Proof.Machine

open Sys2Proof

/-- State `t` is state `u` but for the bookkeeping of bus `i`, with the turns `r` still to come. -/
structure Left (u : State) (i : Nat) (r : List Turn) (t : State) : Prop where
  still : t.still i = u.still i
  rbs : t.rbs = u.rbs
  turns : t.turns = r

section

variable {s t u : State} {d i : Nat} {rb : Rb} {a : U32} {v : U16} {w : U32} {l high : Bool} {r : List Turn} {x : TsReg}

/-! ### One half of a register -/

theorem takesTs_even (h : s.writeTarget i a = some (.ts d x high)) : s.writeTarget i (evenAddr a) = some (.ts d x high) := by
  rw [writeTarget_even h, h]

/-- A half of an action register that a transfer writes. -/
theorem write16On_i2c_writes (h : s.rbs[i]? = some rb) (hu : (rb.sleeps && s.atomic) = false) (hk : rb.backend = .i2c)
    (ha : s.writeTarget i a = some (.ts d x high)) (hc : s.Clear 1) :
    (write16On i a v).Yields s (.ok 0)
      (((s.modTsHw d fun h => h.store s.board x (.half high v)).dropTurns 1).log i
        (.i2c rb.cfg.i2cSlave (i2cWriteFrame a v) []) true) := by
  have := (write16On_leads (a := a) (v := v) h hu hk).yields (i2cWrite16On_completes h hc)
  rwa [farWrite16_ts (s := s.dropTurns 1) v (takesTs_even ha)] at this

/-- The acknowledge does not land in an event-check (rule R508). -/
def State.lands (s : State) (x : TsReg) (l : Bool) : Bool := l && !(decide (x = .ack) && checkOp s.me.op)

theorem landWrite16_ts (ha : s.writeTarget i a = some (.ts d x high)) :
    (if l then s.landWrite16 i a v else s) =
      if s.lands x l then s.modTsHw d fun h => h.store s.board x (.half high v) else s := by
  cases l with
  | false => rfl
  | true =>
    simp only [if_true, State.landWrite16, takesTs_even ha, State.lands, farWrite16_ts v (takesTs_even ha)]
    by_cases hc : checkOp s.me.op = true <;> cases x <;> simp [hc]

/-- A half of an action register that a failing transfer may write. -/
theorem write16On_i2c_fails (h : s.rbs[i]? = some rb) (hu : (rb.sleeps && s.atomic) = false) (hk : rb.backend = .i2c)
    (ha : s.writeTarget i a = some (.ts d x high)) (ht : s.turns = .fail l :: r) :
    ∃ t, (write16On i a v).Yields s (.error .io) t ∧
      Left (if s.lands x l then s.modTsHw d fun h => h.store s.board x (.half high v) else s) i r t := by
  have fails : (i2cWrite16On i a v).Yields s (.error .io)
      ((if l then (s.withTurns r).landWrite16 i a v else s.withTurns r).log i
        (.i2c rb.cfg.i2cSlave (i2cWriteFrame a v) []) false) :=
    .tryXfer_fails ht (by rw [State.onRb_some (s := s.withTurns r) h])
  rw [landWrite16_ts (s := s.withTurns r) ha] at fails
  refine ⟨_, (write16On_leads h hu hk).yields fails, ?_⟩
  have same : (s.withTurns r).lands x l = s.lands x l := rfl
  rw [same]
  cases s.lands x l <;> exact ⟨rfl, rfl, rfl⟩

/-! ### Writes of a register -/

theorem State.modTsHw_modTsHw (s : State) (d : Nat) (f g : TsHw → TsHw) :
    (s.modTsHw d f).modTsHw d g = s.modTsHw d fun h => g (f h) := by
  simp only [State.modTsHw, State.modTs, modify_modify]

/-- The low half alone is only kept. -/
theorem storeLow_still (s : State) (d i : Nat) (x : TsReg) (v : U16) :
    (s.modTsHw d fun h => h.store s.board x (.half false v)).still i = s.still i := by
  have unchanged : s.modTsHw d (fun h => h) = s := by
    rw [State.modTsHw, State.modTs, modify_self _ _ _ fun _ _ => rfl]
  have kept := State.modTsHw_still s i d (fun h => h.store s.board x (.half false v)) (fun h => h) fun h =>
    TsHw.keepLow_still h x v
  rw [kept, unchanged]

/-- Both halves act as the whole word does. -/
theorem storeHalves_still (hx : x ∈ TsReg.writable) (s : State) (d i : Nat) :
    ((s.modTsHw d fun h => h.store s.board x (.half false (lowHalf w))).modTsHw d fun h =>
      h.store s.board x (.half true (highHalf w))).still i = (s.modTsHw d fun h => h.act s.board x w).still i := by
  rw [State.modTsHw_modTsHw, State.modTsHw_still s i d _ _ fun h => TsHw.store_halves h s.board x w hx]
  rfl

/-- A transfer that succeeds takes a turn and is on the wire. -/
theorem Left.log (s : State) (i : Nat) (y : Wire) : Left s i (s.turns.drop 1) ((s.dropTurns 1).log i y true) :=
  ⟨rfl, rfl, rfl⟩

theorem State.log_modTsHw_still (s : State) (i d : Nat) (y : Wire) (f : TsHw → TsHw) :
    (((s.dropTurns 1).log i y true).modTsHw d f).still i = (s.modTsHw d f).still i := rfl

/-- The state in which the low half is written and the high half is still to come. -/
def State.halfway (s : State) (d i : Nat) (x : TsReg) (rb : Rb) (a w : U32) : State :=
  ((s.modTsHw d fun h => h.store s.board x (.half false (lowHalf w))).dropTurns 1).log i
    (.i2c rb.cfg.i2cSlave (i2cWriteFrame a (lowHalf w)) []) true

theorem State.halfway_takes (hs : s.TakesTs i d x a) :
    (s.halfway d i x rb a w).writeTarget i (highAddr a) = some (.ts d x true) := by
  have same := SameMap.storeWord s (.ts d x false) (.half false (lowHalf w))
  have same : SameMap s (s.halfway d i x rb a w) := ⟨same.board, same.handles, same.ncos, same.tss, same.ports⟩
  rw [writeTarget_congr same, hs.2]

theorem State.halfway_turns : (s.halfway d i x rb a w).turns = s.turns.drop 1 := rfl

theorem State.halfway_wire : (s.halfway d i x rb a w).wire =
    ⟨i, .i2c rb.cfg.i2cSlave (i2cWriteFrame a (lowHalf w)) [], true⟩ :: s.wire := rfl

theorem State.halfway_board : (s.halfway d i x rb a w).board = s.board := rfl

theorem State.halfway_modTsHw_still (f : TsHw → TsHw) : ((s.halfway d i x rb a w).modTsHw d f).still i =
    ((s.modTsHw d fun h => h.store s.board x (.half false (lowHalf w))).modTsHw d f).still i :=
  State.log_modTsHw_still _ i d _ f

theorem State.halfway_still : (s.halfway d i x rb a w).still i = s.still i := storeLow_still s d i x (lowHalf w)

section

variable (h : s.rbs[i]? = some rb) (hu : (rb.sleeps && s.atomic) = false) (hk : rb.backend = .i2c)
include h hu hk

section

variable (hn : rb.hasWrite32 = false) (hs : s.TakesTs i d x a) (hx : x ∈ TsReg.writable)
include hs

/-- The low half is written. -/
theorem write16On_i2c_halfway (hc : s.Clear 1) :
    (write16On i a (lowHalf w)).Yields s (.ok 0) (s.halfway d i x rb a w) := write16On_i2c_writes h hu hk hs.1 hc

include hn hx

/-- A write of an action register is two transfers, the low half first (rule R204). -/
theorem write32On_i2c_writes (hc : s.Clear 2) : ∃ t, (write32On i a w).Yields s (.ok 0) t ∧
    Left (s.modTsHw d fun h => h.act s.board x w) i (s.turns.drop 2) t ∧
    t.wire = ⟨i, .i2c rb.cfg.i2cSlave (i2cWriteFrame (highAddr a) (highHalf w)) [], true⟩ ::
      ⟨i, .i2c rb.cfg.i2cSlave (i2cWriteFrame a (lowHalf w)) [], true⟩ :: s.wire := by
  have low := write16On_i2c_halfway (w := w) h hu hk hs (hc.le (Nat.le_succ 1))
  have clear : (s.halfway d i x rb a w).Clear 1 := by
    rw [State.Clear, State.halfway_turns]
    exact State.Clear.drop (n := 1) hc
  have high := write16On_i2c_writes (s := s.halfway d i x rb a w) (v := highHalf w) h hu hk (State.halfway_takes hs) clear
  refine ⟨_, (write32On_halves h hu hn).yields (low.q high), ?_, ?_⟩
  · have left := Left.log ((s.halfway d i x rb a w).modTsHw d fun h => h.store s.board x (.half true (highHalf w))) i
      (.i2c rb.cfg.i2cSlave (i2cWriteFrame (highAddr a) (highHalf w)) [])
    refine ⟨left.still.trans ?_, left.rbs, left.turns.trans ?_⟩
    · rw [State.halfway_modTsHw_still, storeHalves_still hx]
    · rw [State.modTsHw_turns, State.halfway_turns, List.drop_drop]
  · rw [State.log_wire]
    exact congrArg _ State.halfway_wire

/-- The transfer that fails ends the write; the register acts where its high half landed (log entry 9). -/
theorem write32On_i2c_fails {k : Nat} (hl : k < 2) (ht : s.turns = List.replicate k .go ++ .fail l :: r) :
    ∃ t, (write32On i a w).Yields s (.error .io) t ∧
      Left (if decide (k = 1) && s.lands x l then s.modTsHw d fun h => h.act s.board x w else s) i r t := by
  match k, hl with
  | 0, _ =>
    obtain ⟨t, fails, left⟩ := write16On_i2c_fails (v := lowHalf w) h hu hk hs.1 ht
    refine ⟨t, (write32On_halves h hu hn).yields fails.qError, ?_⟩
    cases hland : s.lands x l with
    | false => rw [hland] at left; exact left
    | true =>
      rw [hland] at left
      exact ⟨left.still.trans (storeLow_still s d i x _), left.rbs, left.turns⟩
  | 1, _ =>
    have low := write16On_i2c_halfway (w := w) h hu hk hs (clear_of_go ht)
    have turns : (s.halfway d i x rb a w).turns = .fail l :: r := by
      rw [State.halfway_turns, ht]
      rfl
    obtain ⟨t, fails, left⟩ := write16On_i2c_fails (s := s.halfway d i x rb a w) (v := highHalf w) h hu hk
      (State.halfway_takes hs) turns
    refine ⟨t, (write32On_halves h hu hn).yields (low.q fails), ?_⟩
    have same : (s.halfway d i x rb a w).lands x l = s.lands x l := rfl
    rw [same] at left
    cases hland : s.lands x l with
    | false =>
      rw [hland] at left
      exact ⟨left.still.trans State.halfway_still, left.rbs, left.turns⟩
    | true =>
      rw [hland] at left
      refine ⟨left.still.trans ?_, left.rbs, left.turns⟩
      rw [if_pos rfl, State.halfway_board, State.halfway_modTsHw_still, storeHalves_still hx]
      rfl

end

/-! ### Reads of a register -/

section

theorem read16On_i2c_reads (hc : s.Clear 1) : ∃ n t y, (read16On i a).Yields s (.ok n) t ∧ Left s i (s.turns.drop 1) t ∧
    t.atomic = s.atomic ∧ t.wire = y :: s.wire := by
  have reads := (read16On_leads (a := a) h hu hk).yields (i2cRead16On_completes h hc)
  obtain ⟨n, hd⟩ := farRead16_snd (s.dropTurns 1) i a
  have left : Left s i (s.turns.drop 1) ((s.dropTurns 1).afterDraws n) :=
    ⟨State.afterDraws_still (s.dropTurns 1) i n, by rw [afterDraws_eq]; rfl, by rw [afterDraws_eq]; rfl⟩
  have wire : ((s.dropTurns 1).afterDraws n).wire = s.wire := by rw [afterDraws_eq]; rfl
  have atomic : ((s.dropTurns 1).afterDraws n).atomic = s.atomic := State.of_still_atomic left.still
  rw [hd] at reads
  exact ⟨_, _, _, reads, ⟨left.still, left.rbs, left.turns⟩, atomic, by rw [State.log_wire, wire]⟩

variable (hn : rb.hasRead32 = false)
include hn

/-- A read of a register is two transfers (rule R203). -/
theorem read32On_i2c_wire (hc : s.Clear 2) :
    ∃ n t y z, (read32On i a).Yields s (.ok n) t ∧ t.wire = y :: z :: s.wire := by
  obtain ⟨n, t, z, low, left, atomic, wire⟩ := read16On_i2c_reads (a := a) h hu hk (hc.le (by decide))
  obtain ⟨m, u, y, high, -, -, wire'⟩ := read16On_i2c_reads (s := t) (a := highAddr a) (by rw [left.rbs]; exact h)
    (by rw [atomic]; exact hu) hk (by rw [State.Clear, left.turns]; exact State.Clear.drop (n := 1) hc)
  exact ⟨_, u, y, z, (read32On_halves h hu hn).yields (low.q (high.q (.ok _))), by rw [wire', wire]⟩

/-- The transfer that fails ends the read. -/
theorem read32On_i2c_stops {k : Nat} (hl : k < 2) (ht : s.turns = List.replicate k .go ++ .fail l :: r) :
    ∃ t, (read32On i a).Yields s (.error .io) t ∧ Left s i r t := by
  match k, hl with
  | 0, _ => exact ⟨_, read32On_i2c_fails h hu hk hn ht, rfl, rfl, rfl⟩
  | 1, _ =>
    obtain ⟨n, t, y, low, left, atomic, -⟩ := read16On_i2c_reads (a := a) h hu hk (clear_of_go ht)
    have rbs : t.rbs[i]? = some rb := by rw [left.rbs]; exact h
    have turns : t.turns = .fail l :: r := by rw [left.turns, ht]; rfl
    have high := (read16On_leads (a := highAddr a) rbs (by rw [atomic]; exact hu) hk).yields
      (i2cRead16On_fails rbs turns)
    exact ⟨_, (read32On_halves h hu hn).yields (low.q high.qError), left.still, left.rbs, rfl⟩

end

end

end

/-! ### Where an operation on a timestamper stands, whatever turns come -/

/-- A run of an operation on timestamper `d` stands in state `s` with the device's cells `m`, the turns apart. -/
def TsSeat (s0 : State) (d : Nat) (t0 : Ts) (i : Nat) (rb : Rb) (m : Ts) (s : State) : Prop :=
  ∃ c, TsRun s0 d t0 i rb m c (s.withTurns [])

section

variable {s0 s t : State} {d i : Nat} {t0 m m' : Ts} {rb : Rb} {res : Resource} {c : Option U16} {x : TsReg} {l : Bool}
  {r : List Turn} {v : Board → U32} {k : Nat}

theorem TsSeat.begin (w : TsWired s0 d t0 res i rb) : TsSeat s0 d t0 i rb t0 s0 := by
  have w' : TsWired (s0.withTurns []) d t0 res i rb :=
    ⟨w.device, w.resource, w.names, w.use, w.kept, w.reads, w.writes⟩
  have run := TsRun.begin w' rfl
  exact ⟨_, run.still, run.inst, run.turns, run.res⟩

theorem TsRun.seat (run : TsRun s0 d t0 i rb m c s) : TsSeat s0 d t0 i rb m s := by
  have same : s.withTurns [] = s := by rw [← run.turns]; rfl
  exact ⟨c, same ▸ run⟩

theorem TsSeat.run (g : TsSeat s0 d t0 i rb m s) (ht : s.turns = []) : ∃ c, TsRun s0 d t0 i rb m c s := by
  obtain ⟨c, run⟩ := g
  have same : s.withTurns [] = s := by rw [← ht]; rfl
  exact ⟨c, same ▸ run⟩

theorem TsSeat.still (g : TsSeat s0 d t0 i rb m s) : s.still i = (s0.modTs d fun _ => m).still i :=
  g.elim fun _ run => run.still

theorem TsSeat.device (w : TsWired s0 d t0 res i rb) (g : TsSeat s0 d t0 i rb m s) :
    ∃ y, s.tss[d]? = some y ∧ y.still = m.still := by
  obtain ⟨c, run⟩ := g
  have device := run.device w
  exact device

theorem TsSeat.me (g : TsSeat s0 d t0 i rb m s) : s.me = s0.me := g.elim fun _ run => run.me

theorem TsSeat.board (g : TsSeat s0 d t0 i rb m s) : s.board = s0.board := g.elim fun _ run => run.board

theorem TsSeat.atomic (g : TsSeat s0 d t0 i rb m s) : s.atomic = s0.atomic := g.elim fun _ run => run.atomic

theorem TsSeat.mod (g : TsSeat s0 d t0 i rb m s) (f : Ts → Ts) (hf : Ts.blind f) (hr : (f m).res = m.res) :
    TsSeat s0 d t0 i rb (f m) (s.modTs d f) := g.elim fun c run => ⟨c, run.mod f hf hr⟩

/-- A step that is only bookkeeping of the bus. -/
theorem TsSeat.left (g : TsSeat s0 d t0 i rb m s) (h : Left s i r t) : TsSeat s0 d t0 i rb m t :=
  g.elim fun c run => ⟨c, (show t.still i = _ from h.still).trans run.still,
    by rw [← run.inst]; exact congrArg (·[i]?) h.rbs, rfl, run.res⟩

theorem Ts.acted_blind (b : Board) (x : TsReg) (v : U32) : Ts.blind fun m => m.acted b x v := by
  intro y
  have still (z : TsHw) : ({ y with hw := z } : Ts).still = { y with hw := z.still } := rfl
  show ({ y with hw := y.hw.act b x v } : Ts).still = ({ y with hw := y.hw.still.act b x v } : Ts).still
  rw [still, still, TsHw.act_still, TsHw.act_still]
  rfl

/-- What the accesses of an operation need of the bus where it stands. -/
theorem TsSeat.inst (w : TsWired s0 d t0 res i rb) (g : TsSeat s0 d t0 i rb m s) :
    ∃ c, s.rbs[i]? = some { rb with aa1Cache := c, busy := none } ∧ (rb.sleeps && s.atomic) = false ∧ SameMap s0 s :=
  g.elim fun c run => ⟨c, run.inst, (run.use w).1,
    have map := run.map w
    ⟨map.board, map.handles, map.ncos, map.tss, map.ports⟩⟩

theorem tsReg_leads (w : TsWired s0 d t0 res i rb) (g : TsSeat s0 d t0 i rb m s) (x : TsReg)
    (f : Nat → U32 → Op (Except Err Nat)) : (tsReg d x f).LeadsTo (f i (res.base + s0.board.tsMap.off x)) s := by
  obtain ⟨c, run⟩ := g
  obtain ⟨y, hd, he⟩ := run.device w
  have hd : s.tss[d]? = some y := hd
  have resource : y.res = some res := by
    have same := congrArg Ts.res he
    have same : y.res = m.res := same
    rw [same, run.res, w.resource]
  have bus : (Op.step fun s => s.onTs d fun t => s.resourceBus t.res).Yields s i s := by
    refine .step ?_
    simp only [State.onTs, hd, resource]
    have names := run.names w
    have names : s.Names res.bus i { rb with aa1Cache := c, busy := none } := names
    exact names.resolve
  have address : s.tsAddr d x = res.base + s0.board.tsMap.off x := by
    have board : s.board = s0.board := run.board
    simp [State.tsAddr, hd, resource, baseOf, board]
  refine bus.leadsTo.trans ((Op.Yields.get _).leadsTo.trans ?_)
  rw [address, BitVec.ofNat_toNat, BitVec.setWidth_eq]
  exact .refl _

theorem tsRegRead_leads (w : TsWired s0 d t0 res i rb) (g : TsSeat s0 d t0 i rb m s) (x : TsReg) :
    (tsRegRead d x).LeadsTo (read32On i (res.base + s0.board.tsMap.off x)) s := tsReg_leads w g x _

theorem tsRegWrite_leads (w : TsWired s0 d t0 res i rb) (g : TsSeat s0 d t0 i rb m s) (x : TsReg) (v : Board → U32) :
    (tsRegWrite d x v).LeadsTo (write32On i (res.base + s0.board.tsMap.off x) (v s0.board)) s := by
  have board : s.board = s0.board := g.board
  refine (Op.Yields.get _).leadsTo.trans ?_
  rw [board, BitVec.ofNat_toNat, BitVec.setWidth_eq]
  exact tsReg_leads w g x _

/-! ### Register writes of an operation over I2C -/

section

variable (w : TsWired s0 d t0 res i rb) (hx : x ∈ TsReg.writable) (hk : rb.backend = .i2c) (hn : rb.hasWrite32 = false)
  (g : TsSeat s0 d t0 i rb m s)
include w hx hk hn g

theorem tsRegWrite_seat (hc : s.Clear 2) :
    (tsRegWrite d x v).EndsOk s fun _ t => TsSeat s0 d t0 i rb (m.acted s0.board x (v s0.board)) t ∧
      t.turns = s.turns.drop 2 ∧
      t.wire = ⟨i, .i2c rb.cfg.i2cSlave (i2cWriteFrame (highAddr (res.base + s0.board.tsMap.off x))
          (highHalf (v s0.board))) [], true⟩ ::
        ⟨i, .i2c rb.cfg.i2cSlave (i2cWriteFrame (res.base + s0.board.tsMap.off x) (lowHalf (v s0.board))) [], true⟩ ::
          s.wire := by
  obtain ⟨c, inst, use, map⟩ := g.inst w
  obtain ⟨-, takes⟩ := w.writes x hx
  have takes : s.TakesTs i d x (res.base + s0.board.tsMap.off x) := by
    simpa only [State.TakesTs, writeTarget_congr map] using takes
  obtain ⟨t, writes, left, wire⟩ := write32On_i2c_writes (w := v s0.board) inst use hk hn takes hx hc
  have board : s.board = s0.board := g.board
  rw [board] at left
  exact ⟨0, t, (tsRegWrite_leads w g x v).yields writes,
    (g.mod _ (Ts.acted_blind s0.board x (v s0.board)) rfl).left left, left.turns, wire⟩

theorem tsRegWrite_fails (hl : k < 2) (ht : s.turns = List.replicate k .go ++ .fail l :: r) :
    ∃ t, (tsRegWrite d x v).Yields s (.error .io) t ∧ t.turns = r ∧
      TsSeat s0 d t0 i rb (if decide (k = 1) && s0.lands x l then m.acted s0.board x (v s0.board) else m) t := by
  obtain ⟨c, inst, use, map⟩ := g.inst w
  obtain ⟨-, takes⟩ := w.writes x hx
  have takes : s.TakesTs i d x (res.base + s0.board.tsMap.off x) := by
    simpa only [State.TakesTs, writeTarget_congr map] using takes
  obtain ⟨t, writes, left⟩ := write32On_i2c_fails (w := v s0.board) inst use hk hn takes hx hl ht
  have board : s.board = s0.board := g.board
  have lands : s.lands x l = s0.lands x l := by rw [State.lands, g.me]; rfl
  rw [board, lands] at left
  refine ⟨t, (tsRegWrite_leads w g x v).yields writes, left.turns, ?_⟩
  cases hland : decide (k = 1) && s0.lands x l with
  | false => rw [hland] at left; exact g.left left
  | true => rw [hland] at left; exact (g.mod _ (Ts.acted_blind s0.board x (v s0.board)) rfl).left left

end

end

end Sys2Proof.Machine
end

section
/-!
The delivery modes: what `enable_mode` and `disable_mode` turn on and off, where a transfer of theirs fails
(spec/43_timestamper.md rules R506, R507, R602), and `ts_open` (rule R504), which enables a mode.
-/

namespace Sys2Proof.Machine

open Sys2Proof

/-! ### Parts of an operation, whatever turns come -/

section

variable {s0 s t : State} {d i : Nat} {t0 m : Ts} {rb : Rb} {res : Resource} {op : Instr} {o : Op (Except Err Res)}
  {a : Except Err Res}

theorem tsSet_seat (g : TsSeat s0 d t0 i rb m s) (f : Ts → Ts) (hf : Ts.blind f) (hr : (f m).res = m.res) :
    ∃ t, (tsSet d f).Yields s () t ∧ t.turns = s.turns ∧ TsSeat s0 d t0 i rb (f m) t :=
  ⟨_, .set _, rfl, g.mod f hf hr⟩

section

variable (w : TsWired s0 d t0 res i rb) (g : TsSeat s0 d t0 i rb m s)
include w g

theorem tsGet_seat (f : Ts → Nat) (hf : ∀ t, f t = f t.still) : (tsGet d f).Yields s (f m) s := by
  obtain ⟨y, hy, same⟩ := g.device w
  rw [hf m, ← same, ← hf y]
  exact tsGet_yields hy f

theorem currentMode_seat : (currentMode d).Yields s m.mode s := by
  have code : DMode.ofCode m.mode.code = m.mode := by cases m.mode <;> rfl
  refine .bind (tsGet_seat w g _ fun _ => rfl) ?_
  rw [code]
  exact .ret _

theorem acquireCfg_seat (hl : m.cfgLock = none) (ha : s0.atomic = false) :
    ∃ t, (acquireCfg d).Yields s 0 t ∧ t.turns = s.turns ∧ TsSeat s0 d t0 i rb (m.withCfg (some s0.me.id)) t := by
  obtain ⟨y, hy, same⟩ := g.device w
  have free := congrArg Ts.cfgLock same
  have free : y.cfgLock = none := Eq.trans free hl
  have atomic : s.atomic = false := g.atomic.trans ha
  have acquires := acquireCfg_yields hy free atomic
  have state : s.setTs d (y.withCfg (some s.me.id)) = s.modTs d fun t => t.withCfg (some s0.me.id) := by
    rw [g.me, ← State.modTs_eq_setTs hy fun t => t.withCfg (some s0.me.id)]
  rw [state] at acquires
  exact ⟨_, acquires, rfl, g.mod (fun t => t.withCfg (some s0.me.id)) (fun _ => rfl) rfl⟩

theorem awaitTriggers_seat (ha : s0.atomic = false) (hd : m.triggersDone = true) : (awaitTriggers d).Yields s 0 s := by
  obtain ⟨y, hy, same⟩ := g.device w
  have done := congrArg Ts.triggersDone same
  have done : y.triggersDone = true := Eq.trans done hd
  exact .step (by simp [State.onTs_some hy, done, g.atomic, ha])

/-- The wait of `disable_mode` while a trigger is queued or runs. -/
theorem awaitTriggers_waits (ha : s0.atomic = false) (hd : m.triggersDone = false) :
    (awaitTriggers d).Blocks s [] (s.setMe fun a => { a with blocked := some .other }) := by
  obtain ⟨y, hy, same⟩ := g.device w
  have done := congrArg Ts.triggersDone same
  have done : y.triggersDone = false := Eq.trans done hd
  exact .act (by simp [State.onTs_some hy, done, g.atomic, ha, State.blockOn])

end

/-- The operation ends in what its run leaves. -/
theorem TsSeat.performs (hi : s.Idle) (w : TsWired s d t0 res i rb) (ho : o.Yields (s.start op) a t)
    (g : TsSeat (s.start op) d t0 i rb m t) :
    ∃ u, s.perform op ((tsEnter d).bind fun _ => o) = .next u ∧ u.turns = t.turns ∧ s.SameBytes u ∧
      u.still i = ((s.modTs d fun _ => m).finish a).still i := by
  obtain ⟨ends, bytes, still⟩ := State.performTs_ends hi w.device w.kept ho g.still
  exact ⟨_, ends, rfl, bytes, still⟩

/-- The operation is blocked where its run has come to. -/
theorem TsSeat.performs_waits (hi : s.Idle) (w : TsWired s d t0 res i rb)
    (ho : o.Parks (s.start op) (t.setMe fun a => { a with blocked := some .other }))
    (g : TsSeat (s.start op) d t0 i rb m t) :
    ∃ u l, s.perform op ((tsEnter d).bind fun _ => o) = .next u ∧ u.turns = t.turns ∧ s.SameBytes u ∧
      u.still i = ((s.modTs d fun _ => m).setMe fun a =>
        { a with op := some op, hist := l, blocked := some .other }).still i := by
  have parks : ((tsEnter d).bind fun _ => o).Parks (s.start op) _ :=
    .after (tsEnter_yields (s := s.start op) w.device w.kept) ho
  obtain ⟨l, waits⟩ := State.perform_parks hi parks
  have still := congrArg (State.setMe · fun a => { a with hist := l, blocked := some .other }) g.still
  rw [State.start_eq_doing hi] at still
  have still : ((t.setMe fun a => { a with blocked := some .other }).suspend l).still i =
      ((s.modTs d fun _ => m).setMe fun a => { a with op := some op, hist := l, blocked := some .other }).still i := still
  exact ⟨_, l, waits, rfl, State.sameBytes_of_still still rfl rfl, still⟩

end

/-! ### What the registers of the delivery modes do -/

theorem TsHw.act_arm (h : TsHw) (b : Board) : h.act b .arm b.armVal = { h with armed := true } := if_pos rfl

theorem TsHw.act_irqOn (h : TsHw) (b : Board) : h.act b .irqEn b.irqOn = { h with irqEn := true } := if_pos rfl

theorem TsHw.act_irqOff (h : TsHw) {b : Board} (hb : b.irqOn ≠ b.irqOff) :
    h.act b .irqEn b.irqOff = { h with irqEn := false } := (if_neg hb.symm).trans (if_pos rfl)

theorem lands_false {s : State} {x : TsReg} : s.lands x false = false := rfl

theorem turns_drop_two {k : Nat} {l : List Turn} (hk : 2 ≤ k) :
    (List.replicate k Turn.go ++ l).drop 2 = List.replicate (k - 2) .go ++ l := by
  rw [List.drop_append_of_le_length (by simpa using hk), List.drop_replicate]

/-! ### Where a transfer of `enable_mode` or `disable_mode` fails -/

section

variable {s0 s : State} {d i k : Nat} {t0 m : Ts} {rb : Rb} {res : Resource} {l : Bool} {r : List Turn} {q : DMode}

/-- The cells where a transfer of the enabling has failed. -/
def Ts.enableFailed (t : Ts) (k : Nat) (armed on : Bool) : Ts :=
  { t with irqHooked := if k < 2 then t.irqHooked else false, hw := { t.hw with armed := armed, irqEn := on } }

variable (w : TsWired s0 d t0 res i rb) (hk : rb.backend = .i2c) (hn : rb.hasWrite32 = false)
  (g : TsSeat s0 d t0 i rb m s) (ht : s.turns = List.replicate k .go ++ .fail l :: r)
include w hk hn g ht

theorem enableModeOn_fails (hl : k < if q = .interrupt then 4 else 2) :
    ∃ t armed on, (enableModeOn d q).Yields s (.error .io) t ∧ t.turns = r ∧
      (l = false → armed = (m.hw.armed || decide (2 ≤ k)) ∧ on = m.hw.irqEn) ∧
      TsSeat s0 d t0 i rb (m.enableFailed k armed on) t := by
  by_cases first : k < 2
  · obtain ⟨t, fails, turns, g⟩ := tsRegWrite_fails (x := .arm) (v := (·.armVal)) w (by decide) hk hn g first ht
    refine ⟨t, m.hw.armed || (decide (k = 1) && s0.lands .arm l), m.hw.irqEn, fails.qError, turns, ?_, ?_⟩
    · rintro rfl
      simp [lands_false, Nat.not_le.mpr first]
    · convert g using 1
      cases decide (k = 1) && s0.lands .arm l <;> simp [Ts.acted, TsHw.act_arm, Ts.enableFailed, first]
  · have mode : q = .interrupt := by
      by_contra other
      rw [if_neg other] at hl
      exact first hl
    subst mode
    obtain ⟨n, t1, arms, g, turns, -⟩ := tsRegWrite_seat (x := .arm) (v := (·.armVal)) w (by decide) hk hn g
      ((s.clear_replicate k _ ht).le (Nat.not_lt.mp first))
    obtain ⟨t2, hooks, turns2, g⟩ := tsSet_seat g (fun t => { t with irqHooked := true }) (fun _ => rfl) rfl
    rw [turns, ht, turns_drop_two (Nat.not_lt.mp first)] at turns2
    obtain ⟨t3, fails, turns3, g⟩ := tsRegWrite_fails (x := .irqEn) (v := (·.irqOn)) w (by decide) hk hn g
      (by simp only [if_true] at hl; omega) turns2
    have unhooks : Ts.blind fun t => { t with irqHooked := false } := fun _ => rfl
    refine ⟨_, true, m.hw.irqEn || (decide (k - 2 = 1) && s0.lands .irqEn l),
      .q arms (.bind hooks (.bind fails (.bind (.set _) (.raise _)))), turns3, ?_,
      ?_⟩
    · rintro rfl
      simp [lands_false, Nat.not_lt.mp first]
    · have g := g.mod _ unhooks (by split <;> rfl)
      convert g using 1
      cases decide (k - 2 = 1) && s0.lands .irqEn l <;>
        simp [Ts.acted, TsHw.act_arm, TsHw.act_irqOn, Ts.enableFailed, first]

theorem disableModeOn_fails (hb : s0.board.irqOn ≠ s0.board.irqOff) (hl : k < 2) (ha : s0.atomic = false)
    (hd : m.triggersDone = true) :
    ∃ t on, (disableModeOn d .interrupt).Yields s (.error .io) t ∧ t.turns = r ∧ (l = false → on = m.hw.irqEn) ∧
      TsSeat s0 d t0 i rb { m with irqHooked := false, hw := { m.hw with irqEn := on } } t := by
  obtain ⟨t1, unhooks, turns, g⟩ := tsSet_seat g (fun t => { t with irqHooked := false }) (fun _ => rfl) rfl
  obtain ⟨t2, fails, turns2, g⟩ := tsRegWrite_fails (x := .irqEn) (v := (·.irqOff)) w (by decide) hk hn g hl
    (turns.trans ht)
  have done : (if decide (k = 1) && s0.lands .irqEn l then
      ({ m with irqHooked := false } : Ts).acted s0.board .irqEn s0.board.irqOff
      else { m with irqHooked := false }).triggersDone = true := by split <;> exact hd
  refine ⟨t2, m.hw.irqEn && !(decide (k = 1) && s0.lands .irqEn l),
    .bind unhooks (.bind fails (.bind (awaitTriggers_seat w g ha done) (.ret _))), turns2, ?_, ?_⟩
  · rintro rfl
    simp [lands_false]
  · convert g using 1
    cases decide (k = 1) && s0.lands .irqEn l <;> simp [Ts.acted, TsHw.act_irqOff _ hb]

end

/-! ### A mode that is turned off while a trigger is queued or runs -/

section

variable {s0 s : State} {d i : Nat} {t0 m : Ts} {rb : Rb} {res : Resource} {c : Option U16} {q : DMode}

theorem disableModeOn_waits (w : TsWired s0 d t0 res i rb) (run : TsRun s0 d t0 i rb m c s) (ha : s0.atomic = false)
    (hd : m.triggersDone = false) :
    ∃ t c', (disableModeOn d q).Parks s (t.setMe fun a => { a with blocked := some .other }) ∧
      TsRun s0 d t0 i rb (m.disabled s0.board q) c' t := by
  have waits {m : Ts} {c : Option U16} {s : State} (run : TsRun s0 d t0 i rb m c s) (hd : m.triggersDone = false) :
      (awaitTriggers d).Parks s (s.setMe fun a => { a with blocked := some .other }) :=
    (awaitTriggers_waits w run.seat ha hd).parks
  cases q with
  | interrupt =>
    have run := run.mod (fun t => { t with irqHooked := false }) (fun _ => rfl) rfl
    obtain ⟨n, t, writes, c', run⟩ := tsRegWrite_run w (x := .irqEn) (by decide) (·.irqOff) run
    exact ⟨t, c', .after (.set _) (.after writes (waits run hd).bind), run⟩
  | poll =>
    have run := run.mod (fun t => { t with timerOn := false }) (fun _ => rfl) rfl
    exact ⟨_, c, .after (.set _) (waits run hd).bind, run⟩
  | direct => exact ⟨s, c, (waits run hd).bind, run⟩

end

/-- Settles O52: the cells that a mode turns on and off, over any backend, and where a transfer fails. -/
theorem enableDisableMode : Obligations.EnableDisableMode := by
  unfold Obligations.EnableDisableMode
  intro s d i t res rb m hi w hb on off
  have enabled : t.enabled s.board s.hostTicks m = on := by
    cases m <;> simp [Ts.enabled, Ts.acted, TsHw.act_arm, TsHw.act_irqOn, Ts.setDeadline, on]
  have disabled : t.disabled s.board m = off := by
    cases m <;> simp [Ts.disabled, Ts.acted, TsHw.act_irqOff _ hb, off]
  have atomic {op : Instr} (hop : atomicOp (some op) = false) (ha : s.atomic = false) : (s.start op).atomic = false :=
    (State.start_atomic hi hop).trans ha
  refine ⟨fun ht => ?enables, fun ht ha done => ?disables,
    fun k l r hk hn ht => ⟨fun hl => ?enableFails, fun hl ha done => ?disableFails⟩, fun ht ha busy => ?waits⟩
  case enables =>
    obtain ⟨w', run⟩ := TsRun.begins (op := .enableMode d m) ⟨hi, ht⟩ w rfl
    obtain ⟨n, u, ends, c, run⟩ := enableModeOn_run w' m run
    rw [← enabled]
    exact run.performs hi w (asUnit_yields ends)
  case disables =>
    obtain ⟨w', run⟩ := TsRun.begins (op := .disableMode d m) ⟨hi, ht⟩ w rfl
    obtain ⟨n, u, ends, c, run⟩ := disableModeOn_run w' m run (atomic rfl ha) done
    rw [← disabled]
    exact run.performs hi w (asUnit_yields ends)
  case enableFails =>
    have w' := w.start (.enableMode d m) hi rfl
    obtain ⟨u, armed, on, fails, turns, unlanded, seat⟩ := enableModeOn_fails w' hk hn (TsSeat.begin w') ht hl
    obtain ⟨u, ends, turns', bytes, still⟩ := seat.performs hi w (asUnit_error fails)
    exact ⟨u, armed, on, ends, turns'.trans turns, bytes, unlanded, still⟩
  case disableFails =>
    have w' := w.start (.disableMode d .interrupt) hi rfl
    obtain ⟨u, on, fails, turns, unlanded, seat⟩ :=
      disableModeOn_fails w' hk hn (TsSeat.begin w') ht hb hl (atomic rfl ha) done
    obtain ⟨u, ends, turns', bytes, still⟩ := seat.performs hi w (asUnit_error fails)
    exact ⟨u, on, ends, turns'.trans turns, bytes, unlanded, still⟩
  case waits =>
    obtain ⟨w', run⟩ := TsRun.begins (op := .disableMode d m) ⟨hi, ht⟩ w rfl
    obtain ⟨u, c, parks, run⟩ := disableModeOn_waits (q := m) w' run (atomic rfl ha) busy
    rw [← disabled]
    obtain ⟨u, l, waits, turns, bytes, still⟩ := run.seat.performs_waits hi w parks.bind
    exact ⟨u, l, waits, turns.trans run.turns, bytes, still⟩

/-! ### `ts_open` (rule R504) -/

section

variable {s0 s : State} {d i k : Nat} {t0 m : Ts} {rb : Rb} {res : Resource} {c : Option U16} {l : Bool} {r : List Turn}

/-- The cells after the first open. -/
def Ts.opened (t : Ts) (b : Board) (now : Nat) : Ts :=
  { t.allocate.enabled b now t.mode with life := .active }.addHandle

theorem openDone_run (w : TsWired s0 d t0 res i rb) (run : TsRun s0 d t0 i rb m c s) :
    (openDone d).EndsOk s fun n t => n = m.handles.length ∧ TsRun s0 d t0 i rb (m.addHandle.withCfg none) c t := by
  refine Op.Ends.thenOk (Op.Yields.ends (tsGet_run w run _ fun _ => rfl)
    (Q := fun n u => n = m.handles.length ∧ TsRun s0 d t0 i rb m c u) ⟨rfl, run⟩) ?_
  rintro n _ ⟨rfl, run⟩
  refine (tsSet_run run Ts.addHandle (fun _ => rfl) rfl).thenOk fun _ _ run => ?_
  exact (releaseCfg_run run).thenOk fun _ t run => ⟨_, t, .ok _, rfl, run⟩

theorem tsOpenOn_run (w : TsWired s0 d t0 res i rb) (run : TsRun s0 d t0 i rb m c s) (hl : m.cfgLock = none)
    (ha : s0.atomic = false) :
    (tsOpenOn d).EndsOk s fun n t => n = m.handles.length ∧ ∃ c', TsRun s0 d t0 i rb
      (if m.useCount = 0 then m.opened s0.board s0.hostTicks else m.addHandle) c' t := by
  refine (acquireCfg_run w run hl ha).thenOk fun _ _ run => ?_
  refine Op.Ends.thenOk (Op.Yields.ends (tsGet_run w run _ fun _ => rfl)
    (Q := fun n u => n = m.useCount ∧ TsRun s0 d t0 i rb (m.withCfg (some s0.me.id)) c u) ⟨rfl, run⟩) ?_
  rintro _ _ ⟨rfl, run⟩
  by_cases first : m.useCount = 0
  · rw [if_pos first, if_pos first]
    refine (tsSet_run run Ts.allocate (fun _ => rfl) rfl).thenOk fun _ t ready => ?_
    obtain ⟨n, u, enables, c', run⟩ := enableModeOn_run w m.mode ready
    refine Op.Ends.thenOk (Op.Yields.ends (currentMode_run w ready)
      (Q := fun k u => k = m.mode ∧ u = t) ⟨rfl, rfl⟩) ?_
    rintro _ _ ⟨rfl, rfl⟩
    refine Op.Ends.thenOk (Op.Yields.ends enables (Q := fun a v => a = .ok n ∧ v = u) ⟨rfl, rfl⟩) ?_
    rintro _ _ ⟨rfl, rfl⟩
    have run := run.mod (fun t => { t with life := .active }) (fun _ => rfl) rfl
    obtain ⟨h, v, done, rfl, run⟩ := openDone_run w run
    refine ⟨_, v, .bind (.set _) done, ?_, c', ?_⟩
    · cases m.mode <;> rfl
    · have cells : (({ ((m.withCfg (some s0.me.id)).allocate).enabled s0.board s0.hostTicks m.mode with
          life := .active } : Ts).addHandle).withCfg none = m.opened s0.board s0.hostTicks := by
        rw [← Ts.withCfg_none (t := m.opened s0.board s0.hostTicks) (by rw [← hl]; unfold Ts.opened; cases m.mode <;> rfl)]
        have locked : (m.withCfg (some s0.me.id)).allocate = m.allocate.withCfg (some s0.me.id) := rfl
        rw [locked, Ts.enabled_withCfg]
        rfl
      exact cells ▸ run
  · rw [if_neg first, if_neg first]
    obtain ⟨h, v, done, rfl, run⟩ := openDone_run w run
    have cells : ((m.withCfg (some s0.me.id)).addHandle).withCfg none = m.addHandle :=
      Ts.withCfg_none (t := m.addHandle) hl
    exact ⟨_, v, done, rfl, c, cells ▸ run⟩

/-- A transfer of the enabling that fails ends the open, the ring freed again. -/
theorem tsOpenOn_fails (w : TsWired s0 d t0 res i rb) (hk : rb.backend = .i2c) (hn : rb.hasWrite32 = false)
    (g : TsSeat s0 d t0 i rb m s) (ht : s.turns = List.replicate k .go ++ .fail l :: r) (hc : m.cfgLock = none)
    (ha : s0.atomic = false) (first : m.useCount = 0) (hl : k < if m.mode = .interrupt then 4 else 2) :
    ∃ t armed on, (tsOpenOn d).Yields s (.error .io) t ∧ t.turns = r ∧
      (l = false → armed = (m.hw.armed || decide (2 ≤ k)) ∧ on = m.hw.irqEn) ∧
      TsSeat s0 d t0 i rb { m.enableFailed k armed on with buf := [], bufCount := 0, readCount := 0 } t := by
  obtain ⟨t1, acquires, turns, g⟩ := acquireCfg_seat w g hc ha
  have users : (tsGet d fun t => t.useCount).Yields t1 m.useCount t1 := tsGet_seat w g _ fun _ => rfl
  obtain ⟨t2, allocates, turns2, g⟩ := tsSet_seat g Ts.allocate (fun _ => rfl) rfl
  have mode := currentMode_seat w g
  have mode : (currentMode d).Yields t2 m.mode t2 := mode
  obtain ⟨t3, armed, on, fails, turns3, unlanded, g⟩ :=
    enableModeOn_fails (q := m.mode) w hk hn g (turns2.trans (turns.trans ht)) hl
  obtain ⟨t4, frees, turns4, g⟩ := tsSet_seat g (fun t => { t with buf := [] }) (fun _ => rfl) rfl
  obtain ⟨t5, releases, turns5, g⟩ := tsSet_seat g (fun t => t.withCfg none) (fun _ => rfl) rfl
  refine ⟨t5, armed, on, .bind acquires (.bind users ?_), turns5.trans (turns4.trans turns3), unlanded, ?_⟩
  · rw [if_pos first]
    exact .bind allocates (.bind mode (.bind fails (.bind frees (.bind releases (.raise _)))))
  · convert g using 1
    simp only [Ts.withCfg, Ts.allocate, Ts.enableFailed, hc]

end

/-- Settles O46: the first open is a run through the enabling of the mode, which may fail there. -/
theorem tsOpen : Obligations.TsOpen := by
  unfold Obligations.TsOpen
  refine ⟨fun s d t hi ht kept ha locked => ?waits, fun s d i t res rb hi w ha free => ?wired⟩
  case waits =>
    have waits := acquireCfg_waits (s := s.doing (.tsOpen d)) ht locked ((State.doing_atomic hi.1 rfl).trans ha)
    exact State.performTs_waits hi ht kept waits.bind.bind
  case wired =>
    intro first later
    have atomic := (State.start_atomic (op := .tsOpen d) hi rfl).trans ha
    refine ⟨fun ht => ?opens, fun k l r unused hk hn hl ht => ?fails⟩
    case opens =>
      obtain ⟨w', run⟩ := TsRun.begins (op := .tsOpen d) ⟨hi, ht⟩ w rfl
      obtain ⟨n, u, ends, rfl, c, run⟩ := tsOpenOn_run w' run free atomic
      have cells : (if t.useCount = 0 then t.opened s.board s.hostTicks else t.addHandle) =
          if t.useCount = 0 then first else later := by
        split
        · rename_i unused
          simp only [first, Ts.opened]
          cases hm : t.mode <;>
            simp [Ts.addHandle, Ts.enabled, Ts.acted, Ts.setDeadline, Ts.allocate, unused, hm]
        · rfl
      rw [← cells]
      exact run.performs hi w (ends.q (.ok _))
    case fails =>
      have w' := w.start (.tsOpen d) hi rfl
      obtain ⟨u, armed, on, fails, turns, unlanded, seat⟩ :=
        tsOpenOn_fails w' hk hn (TsSeat.begin w') ht free atomic unused hl
      obtain ⟨u, ends, turns', bytes, still⟩ := seat.performs hi w fails.qError
      exact ⟨u, armed, on, ends, turns'.trans turns, bytes, unlanded, still⟩

end Sys2Proof.Machine
end

section
/-!
The triggers: `ts_irq` and `worker_run` run an event-check and drop its error, whatever the bus does meanwhile
(spec/43_timestamper.md rules R510, R511, R601, R623, log entries 17 and 44).
-/

namespace Sys2Proof.Machine

open Sys2Proof

/-! ### The cells of the triggers -/

/-- The cells that say which triggers are queued and run. -/
def Ts.triggers (t : Ts) : Int × IrqRun × Bool × Bool × Bool :=
  (t.irqDepth, t.irqRun, t.workPending, t.workIrq, t.workerBusy)

/-- A timestamper with these cells of the triggers. -/
def Ts.withTriggers (t : Ts) (depth : Int) (run : IrqRun) (pending irq busy : Bool) : Ts :=
  { t with irqDepth := depth, irqRun := run, workPending := pending, workIrq := irq, workerBusy := busy }

/-- The cells after an event-check (rules R508, R509). -/
def Ts.afterCheck (t : Ts) (b : Board) : Ts :=
  if t.stuck = true ∧ b.fullPolicy = .skip then t else if t.hw.pending then t.checked b else t.made

/-- The cells of an event-check whose event is recorded, acknowledged and re-armed. -/
def Ts.taken (t : Ts) (b : Board) : Ts :=
  ({ t.made with lastEvent := some t.hw.event } : Ts).acted b .ack b.ackVal |>.acted b .arm b.armVal

/-- The cells once the event is in the ring. -/
def Ts.enqueued (t : Ts) (ev : Event) : Ts := { t.append ev with waiters := [] }

theorem Ts.checked_eq (t : Ts) (b : Board) :
    t.checked b = if t.stuck = true then t.taken b else (t.taken b).enqueued t.hw.event := rfl

section

variable (t : Ts) (depth : Int) (run : IrqRun) (pending irq busy : Bool) (b : Board)

/-- The cells of the triggers commute with a choice that does not look at them. -/
theorem Ts.withTriggers_ite {c : Prop} [Decidable c] (x y : Ts) :
    (if c then x.withTriggers depth run pending irq busy else y.withTriggers depth run pending irq busy) =
      (if c then x else y).withTriggers depth run pending irq busy :=
  (apply_ite (fun t : Ts => t.withTriggers depth run pending irq busy) c x y).symm

theorem Ts.made_withTriggers : (t.withTriggers depth run pending irq busy).made =
    t.made.withTriggers depth run pending irq busy :=
  Ts.withTriggers_ite (c := t.bufCount = t.capacity ∧ t.readCount = t.bufCount) depth run pending irq busy t.reclaim t

theorem Ts.checked_withTriggers : (t.withTriggers depth run pending irq busy).checked b =
    (t.checked b).withTriggers depth run pending irq busy := by
  have taken : (t.withTriggers depth run pending irq busy).taken b =
      (t.taken b).withTriggers depth run pending irq busy := by
    unfold Ts.taken
    rw [Ts.made_withTriggers]
    rfl
  rw [Ts.checked_eq, Ts.checked_eq, taken]
  exact Ts.withTriggers_ite (c := t.stuck = true) depth run pending irq busy (t.taken b)
    ((t.taken b).enqueued t.hw.event)

/-- An event-check leaves the triggers alone, and they do not matter to it. -/
theorem Ts.afterCheck_withTriggers : (t.withTriggers depth run pending irq busy).afterCheck b =
    (t.afterCheck b).withTriggers depth run pending irq busy := by
  unfold Ts.afterCheck
  rw [Ts.made_withTriggers, Ts.checked_withTriggers, ← Ts.withTriggers_ite, ← Ts.withTriggers_ite]
  rfl

theorem Ts.afterCheck_triggers : (t.afterCheck b).triggers = t.triggers := by
  have same := congrArg Ts.triggers
    (t.afterCheck_withTriggers t.irqDepth t.irqRun t.workPending t.workIrq t.workerBusy b)
  exact same

end

/-! ### However the bus behaves -/

/-- The running agent is in an operation, and the triggers of timestamper `d` are as those of `t`. -/
def State.TriggersAre (d : Nat) (t : Ts) (s : State) : Prop :=
  s.InOperation ∧ ∃ x, s.tss[d]? = some x ∧ x.triggers = t.triggers

section

variable {s : State} {d k : Nat} {t t' : Ts} {α : Type}

theorem State.TriggersAre.modTs (h : s.TriggersAre d t) (k : Nat) {f : Ts → Ts} (hf : ∀ x, (f x).triggers = x.triggers) :
    (s.modTs k f).TriggersAre d t := by
  obtain ⟨hin, x, hx, same⟩ := h
  refine ⟨hin, if k = d then f x else x, by rw [State.modTs_tss, List.getElem?_modify, hx]; rfl, ?_⟩
  split
  · exact (hf x).trans same
  · exact same

theorem State.TriggersAre.update (h : s.TriggersAre d t) {f : Ts → Ts}
    (hf : ∀ x, x.triggers = t.triggers → (f x).triggers = t'.triggers) : (s.modTs d f).TriggersAre d t' := by
  obtain ⟨hin, x, hx, same⟩ := h
  exact ⟨hin, f x, getElem?_modify_self _ _ _ _ hx, hf x same⟩

theorem State.TriggersAre.env (h : s.TriggersAre d t) (e : Env) : (s.env e).TriggersAre d t := by
  cases e with
  | removeTs k => exact h.modTs k fun _ => rfl
  | tsPulse k =>
    show (s.tsPulse k).TriggersAre d t
    unfold State.tsPulse
    split
    · exact h
    · split
      · rw [afterDraws_eq]
        exact h.modTs k fun _ => rfl
      · exact h.modTs k fun _ => rfl
  | _ => exact h

/-- Register accesses leave the triggers alone. -/
theorem triggersAre_accessSteady : AccessSteady (State.TriggersAre d t) State.Unreturned where
  env e h := h.env e
  book _ _ _ _ h := h
  cache _ _ h := h
  busy _ _ h := h
  suspend _ h := .inl h.1
  halt _ _ := .inr (Option.some_ne_none _)
  store x _ h :=
    match x with
    | .nco _ _ _ => h
    | .ts k _ _ => h.modTs k fun _ => rfl
    | .adp _ _ => h
  far _ _ h := h

/-! An event-check leaves the triggers alone (rule R508). -/

section

variable {P Q : State → Prop}

theorem Ans.Keeps.onTs {f : Ts → Ans} (h : ∀ t, (f t).Keeps P Q) : (s.onTs d f).Keeps P Q := by
  unfold State.onTs
  split
  · exact h _
  · trivial

theorem AccessSteady.tsReg (hP : AccessSteady P Q) (d : Nat) (r : TsReg) {x : Nat → U32 → Op (Except Err Nat)}
    (h : ∀ i a, (x i a).Keeps P Q) : (tsReg d r x).Keeps P Q :=
  .bind (.step fun _ hs => .onTs fun t => hP.resourceBus t.res hs) fun i => .bind (.get _) fun _ => h i _

theorem AccessSteady.tsRegRead (hP : AccessSteady P Q) (d : Nat) (r : TsReg) : (tsRegRead d r).Keeps P Q :=
  hP.tsReg d r hP.read32On

theorem AccessSteady.tsRegWrite (hP : AccessSteady P Q) (d : Nat) (r : TsReg) (v : Board → U32) :
    (tsRegWrite d r v).Keeps P Q :=
  .bind (.get _) fun _ => hP.tsReg d r fun i a => hP.write32On i a _

end

theorem tsSet_keepsTriggers (f : Ts → Ts) (hf : ∀ x, (f x).triggers = x.triggers) :
    (tsSet k f).Keeps (State.TriggersAre d t) State.Unreturned := .set fun _ hs => hs.modTs k hf

theorem underIndex_keepsTriggers {x : Op α} (h : x.Keeps (State.TriggersAre d t) State.Unreturned) :
    (underIndex k x).Keeps (State.TriggersAre d t) State.Unreturned := by
  have acquires : (acquireIndex k).Keeps (State.TriggersAre d t) State.Unreturned :=
    .step fun _ hs => .onTs fun _ => .ite (hs.modTs k fun _ => rfl) hs
  have releases : (releaseIndex k).Keeps (State.TriggersAre d t) State.Unreturned := tsSet_keepsTriggers _ fun _ => rfl
  unfold underIndex
  exact acquires.bind fun _ => h.bind fun _ => releases.bind fun _ => trivial

theorem checkFull_keepsTriggers : (checkFull k).Keeps (State.TriggersAre d t) State.Unreturned :=
  underIndex_keepsTriggers <| .step fun _ hs => .onTs fun _ => .ite (.ite (hs.modTs k fun _ => rfl) hs) hs

theorem deliver_keepsTriggers (full : Nat) (ev : Event) :
    (deliver k full ev).Keeps (State.TriggersAre d t) State.Unreturned := by
  unfold deliver
  refine (tsSet_keepsTriggers (fun t => { t with lastEvent := some ev }) fun _ => rfl).bind fun _ => ?_
  refine (triggersAre_accessSteady.tsRegWrite k .ack _).q fun _ => ?_
  refine (triggersAre_accessSteady.tsRegWrite k .arm _).q fun _ => .ite trivial ?_
  refine (underIndex_keepsTriggers (tsSet_keepsTriggers (fun t => t.append ev) fun _ => rfl)).bind fun _ => ?_
  exact Op.Keeps.bind (tsSet_keepsTriggers (fun t => { t with waiters := [] }) fun _ => rfl) fun _ => trivial

theorem eventCheckOn_keepsTriggers : (eventCheckOn k).Keeps (State.TriggersAre d t) State.Unreturned := by
  have reads (r : TsReg) : (tsRegRead k r).Keeps (State.TriggersAre d t) State.Unreturned :=
    triggersAre_accessSteady.tsRegRead k r
  unfold eventCheckOn
  refine checkFull_keepsTriggers.bind fun _ => .bind (.get _) fun _ => .ite trivial ?_
  refine (reads .status).q fun _ => .bind (.get _) fun _ => .ite trivial ?_
  exact (reads .secLo).q fun _ => (reads .secHi).q fun _ => (reads .nsec).q fun _ => (reads .counter).q fun _ =>
    deliver_keepsTriggers _ _

theorem eventCheckOn_bringsTriggers :
    (eventCheckOn d).Brings (State.TriggersAre d t) fun _ => State.TriggersAre d t :=
  eventCheckOn_keepsTriggers.brings triggersAre_accessSteady.toReadSteady

theorem tsSet_bringsTriggers {f : Ts → Ts} (hf : ∀ x, x.triggers = t.triggers → (f x).triggers = t'.triggers) :
    (tsSet d f).Brings (State.TriggersAre d t) fun _ => State.TriggersAre d t' :=
  .set (fun _ hs => hs.1) fun _ hs => hs.update hf

/-- An operation may use what holds where it begins. -/
theorem Op.Brings.assume {p : Prop} {P : State → Prop} {R : α → State → Prop} {o : Op α} (h : p → o.Brings P R) :
    o.Brings (fun s => p ∧ P s) R :=
  fun g c seen s t hs hr => h hs.1 g c seen s t hs.2 hr

/-- The running agent is in an operation, and the cells of timestamper `d` are those of `t`. -/
def State.TsIs (d : Nat) (t : Ts) (s : State) : Prop := s.InOperation ∧ s.tss[d]? = some t

theorem State.TsIs.update (h : s.TsIs d t) (f : Ts → Ts) : (s.modTs d f).TriggersAre d (f t) :=
  ⟨h.1, f t, getElem?_modify_self _ _ _ _ h.2, rfl⟩

theorem tsEnter_brings : (tsEnter d).Brings (State.TsIs d t) fun _ => State.TsIs d t := by
  refine .step (fun _ hs => hs.1) fun s hs => ?_
  rw [State.onTs_some hs.2]
  split
  · trivial
  · exact hs

/-- An operation that begins on a timestamper and returns, returns what its end brings. -/
theorem State.performTs_brings {x : Instr} {o : Op (Except Err Nat)} {R : Except Err Nat → State → Prop} {u : State}
    (ho : o.Brings (State.TsIs d t) R) (hok : ∀ r s, R r s → r = .ok 0) (hs : s.me.op = none) (hx : s.tss[d]? = some t)
    (hr : s.perform x ((tsEnter d).bind fun _ => asUnit o) = .next u) (hop : u.me.op = none)
    (hrun : u.me.stopped = none) : ∃ v, R (.ok 0) v ∧ u = v.finish (.ok .unit) := by
  have units := asUnit_brings (S := fun a v => a = .ok .unit ∧ R (.ok 0) v) ho
    (fun e s h => nomatch hok _ s h) fun n s h => ⟨rfl, by cases hok _ s h; exact h⟩
  obtain ⟨a, v, ⟨rfl, hv⟩, rfl⟩ := State.perform_brings (tsEnter_brings.bind fun _ => units) hs
    ⟨Option.some_ne_none _, hx⟩ hr hop hrun
  exact ⟨v, hv, rfl⟩

end

/-! ### `ts_irq` (rule R510) -/

section

variable {s0 s : State} {d i : Nat} {t t0 m : Ts} {rb : Rb} {res : Resource} {c : Option U16} {op : Instr}

theorem Ts.irqReady_iff : t.irqReady = true ↔ t.irqHooked = true ∧ t.hw.pending = true ∧ t.hw.irqEn = true ∧
    t.irqDepth ≤ 0 ∧ t.irqBusy = false ∧ (t.deferred = true ∨ t.workerBusy = false) := by
  have idle : t.irqBusy = false → t.irqRun ≠ .checking := by
    intro h
    have : t.irqRun = .idle := by simpa [Ts.irqBusy] using h
    rw [this]
    exact nofun
  simp only [Ts.irqReady, TsHw.irqReq, Ts.checkFree, Bool.and_eq_true, Bool.or_eq_true, Bool.not_eq_true',
    decide_eq_true_eq]
  constructor
  · rintro ⟨⟨⟨⟨hooked, pending, on⟩, depth⟩, busy⟩, free⟩
    exact ⟨hooked, pending, on, depth, busy, free.imp_right And.left⟩
  · rintro ⟨hooked, pending, on, depth, busy, free⟩
    exact ⟨⟨⟨⟨hooked, pending, on⟩, depth⟩, busy⟩, free.imp_right fun h => ⟨h, idle busy⟩⟩

theorem Ts.irqRun_idle (h : t.irqReady = true) : t.irqRun = .idle := by
  obtain ⟨-, -, -, -, busy, -⟩ := Ts.irqReady_iff.mp h
  simpa [Ts.irqBusy] using busy

theorem takeIrq_waits (hx : s.tss[d]? = some t) (hr : t.irqReady = false) :
    (takeIrq d).Blocks s [] (s.setMe fun a => { a with blocked := some .other }) :=
  .act (by simp [State.onTs_some hx, hr, State.blockOn])

/-- A handler that defers the check touches no register. -/
theorem tsIrqOn_defers (hx : s.tss[d]? = some t) (hr : t.irqReady = true) (hd : t.deferred = true) :
    (tsIrqOn d).Yields s (.ok 0) (s.setTs d t.beginIrq.maskIrq.queueIrq.endIrq) := by
  refine .bind (takeIrq_yields hx hr) ?_
  rw [if_pos (by rw [hd]; rfl), State.modTs_eq_setTs hx]
  exact .bind (tsSet_setTs _ _) (.bind (tsSet_setTs _ _) (.bind (tsSet_setTs _ _) (.ok 0)))

/-- What a `ts_irq` that has returned has left (rule R623). -/
def Ts.IrqDone (t t' : Ts) : Prop :=
  t'.irqBusy = false ∧ t'.irqDepth = if t.deferred then t.irqDepth + 1 else t.irqDepth

theorem tsIrqOn_brings : (tsIrqOn d).Brings (State.TsIs d t) fun r s => r = .ok 0 ∧
    ∃ t', s.tss[d]? = some t' ∧ t.IrqDone t' := by
  have ends (t1 : Ts) (h : t1.irqDepth = if t.deferred then t.irqDepth + 1 else t.irqDepth) :
      ((tsSet d Ts.endIrq).bind fun _ => (Op.ok 0 : Op (Except Err Nat))).Brings (State.TriggersAre d t1)
        fun r s => r = .ok 0 ∧ ∃ t', s.tss[d]? = some t' ∧ t.IrqDone t' := by
    refine Op.Brings.bind (R := fun _ s => ∃ t', s.tss[d]? = some t' ∧ t.IrqDone t')
      (.set (fun _ hs => hs.1) fun s hs => ?_) fun _ => .ret fun s hs => ⟨rfl, hs⟩
    obtain ⟨-, x, hx, same⟩ := hs
    have depth : x.irqDepth = t1.irqDepth := congrArg Prod.fst same
    exact ⟨x.endIrq, getElem?_modify_self _ _ _ _ hx, rfl, depth.trans h⟩
  have takes : (takeIrq d).Brings (State.TsIs d t)
      fun n s => n = t.deferred.toNat ∧ State.TriggersAre d t.beginIrq s := by
    refine .step (fun _ hs => hs.1) fun s hs => ?_
    rw [State.onTs_some hs.2]
    split
    · exact ⟨rfl, hs.update _⟩
    · exact hs.1
  refine takes.bind fun defer => .assume fun answer => ?_
  subst answer
  cases deferred : t.deferred with
  | true =>
    have masks : (tsSet d Ts.maskIrq).Brings (State.TriggersAre d t.beginIrq) fun _ =>
        State.TriggersAre d t.beginIrq.maskIrq :=
      tsSet_bringsTriggers fun x same => by simp_all [Ts.triggers, Ts.maskIrq]
    have queues : (tsSet d Ts.queueIrq).Brings (State.TriggersAre d t.beginIrq.maskIrq) fun _ =>
        State.TriggersAre d t.beginIrq.maskIrq.queueIrq :=
      tsSet_bringsTriggers fun x same => by simp_all [Ts.triggers, Ts.queueIrq]
    exact masks.bind fun _ => queues.bind fun _ => ends _ (by rw [deferred]; rfl)
  | false => exact eventCheckOn_bringsTriggers.bind fun _ => ends _ (by rw [deferred]; rfl)

/-- What a handler that runs the check itself leaves. -/
theorem tsIrqOn_run (w : TsWired s0 d t0 res i rb) (run : TsRun s0 d t0 i rb m c s) (hx : s.tss[d]? = some m)
    (hr : m.irqReady = true) (hd : m.deferred = false) (hl : m.indexLock = none) (hb : s0.board.bitNew < 32) :
    (tsIrqOn d).EndsOk s fun _ t => ∃ c', TsRun s0 d t0 i rb (m.afterCheck s0.board) c' t := by
  have idle := Ts.irqRun_idle hr
  have begins : m.beginIrq = m.withTriggers m.irqDepth .checking m.workPending m.workIrq m.workerBusy := by
    simp [Ts.beginIrq, hd, Ts.withTriggers]
  have takes := takeIrq_yields hx hr
  have run := run.mod Ts.beginIrq (fun t => by cases h : t.deferred <;> simp [Ts.beginIrq, Ts.still, h]) rfl
  obtain ⟨n, u, checks, c', run⟩ := eventCheckOn_run w run hl hb
  have run : TsRun s0 d t0 i rb (m.beginIrq.afterCheck s0.board) c' u := run
  have run := run.mod Ts.endIrq (fun _ => rfl) rfl
  rw [begins, Ts.afterCheck_withTriggers] at run
  have same : m.withTriggers m.irqDepth .idle m.workPending m.workIrq m.workerBusy = m := by rw [← idle]; rfl
  have cells : ((m.afterCheck s0.board).withTriggers m.irqDepth .checking m.workPending m.workIrq m.workerBusy).endIrq =
      m.afterCheck s0.board := by
    conv_rhs => rw [← same, Ts.afterCheck_withTriggers]
    rfl
  refine ⟨0, _, .bind takes ?_, c', cells ▸ run⟩
  rw [if_neg (by simp [hd])]
  exact .bind checks (.bind (.set _) (.ok 0))

end

/-- Settles O56: by what the handler does once it is taken. -/
theorem tsIrq : Obligations.TsIrq := by
  unfold Obligations.TsIrq
  refine ⟨fun s u d t hop ht hr hend hrun => ?returns, fun s d t hs ht kept => ?runs⟩
  case returns =>
    obtain ⟨v, ⟨-, t', hv, busy, depth⟩, rfl⟩ := State.performTs_brings tsIrqOn_brings (fun _ _ h => h.1) hop ht hr hend hrun
    exact ⟨rfl, t', hv, busy, depth⟩
  case runs =>
    intro ready
    have iff : t.irqReady = true ↔ ready := Ts.irqReady_iff
    refine ⟨fun now deferred => ?defers, fun early => ?waits,
      fun i res rb now direct w awake free hb _ _ => ?checks⟩
    case defers =>
      have defers := tsIrqOn_defers (s := s.doing (.tsIrq d)) ht (iff.mpr now) deferred
      have idle := Ts.irqRun_idle (iff.mpr now)
      have cells : t.beginIrq.maskIrq.queueIrq.endIrq =
          { t with irqDepth := t.irqDepth + 1, workIrq := true, workPending := true } := by
        simp [Ts.beginIrq, Ts.maskIrq, Ts.queueIrq, Ts.endIrq, idle]
      rw [cells] at defers
      rw [State.modTs_eq_setTs ht]
      exact State.performTs_yields (t := s.setTs d _) hs.1 ht kept (asUnit_yields defers)
    case waits =>
      have early : t.irqReady = false := Bool.eq_false_iff.mpr fun h => early (iff.mp h)
      exact State.performTs_waits hs.1 ht kept (takeIrq_waits (s := s.doing _) ht early).bind.bind
    case checks =>
      have use : (s.start (.tsIrq d)).MayUse rb := ⟨by rw [awake]; rfl, w.use.2⟩
      have w' : TsWired (s.start (.tsIrq d)) d t res i rb :=
        ⟨w.device, w.resource, w.names, use, w.kept, w.reads, w.writes⟩
      obtain ⟨n, u, ends, c, run⟩ := tsIrqOn_run w' (.begin w' hs.2) w.device (iff.mpr now) direct free hb
      have cells : t.afterCheck (s.start (.tsIrq d)).board =
          if t.stuck = true ∧ s.board.fullPolicy = .skip then t else t.checked s.board := by
        obtain ⟨-, pending, -⟩ := now
        simp [Ts.afterCheck, pending]
      rw [← cells]
      exact run.performs hs.1 w (asUnit_yields ends)

/-! ### `worker_run` (rule R511) -/

section

variable {s0 s : State} {d i : Nat} {t t0 m : Ts} {rb : Rb} {res : Resource} {c : Option U16} {op : Instr}
  {o : Op (Except Err Nat)}

/-- What a `worker_run` that has returned has left (rule R511). -/
def Ts.WorkerDone (t t' : Ts) : Prop :=
  t'.workPending = false ∧ t'.workIrq = false ∧ t'.workerBusy = false ∧
    t'.irqDepth = if t.workIrq then t.irqDepth - 1 else t.irqDepth

/-- The cells while the worker runs its check. -/
def Ts.working (t : Ts) : Ts := t.withTriggers t.irqDepth t.irqRun false false true

theorem workerRunOn_brings : (workerRunOn d).Brings (State.TsIs d t) fun r s => r = .ok 0 ∧
    ∃ t', s.tss[d]? = some t' ∧ t.WorkerDone t' := by
  have frees (t1 : Ts) (pending : t1.workPending = false) (irq : t1.workIrq = false)
      (depth : t1.irqDepth = if t.workIrq then t.irqDepth - 1 else t.irqDepth) :
      ((tsSet d fun t => { t with workerBusy := false }).bind fun _ => (Op.ok 0 : Op (Except Err Nat))).Brings
        (State.TriggersAre d t1) fun r s => r = .ok 0 ∧ ∃ t', s.tss[d]? = some t' ∧ t.WorkerDone t' := by
    refine Op.Brings.bind (R := fun _ s => ∃ t', s.tss[d]? = some t' ∧ t.WorkerDone t')
      (.set (fun _ hs => hs.1) fun s hs => ?_) fun _ => .ret fun s hs => ⟨rfl, hs⟩
    obtain ⟨-, x, hx, same⟩ := hs
    simp only [Ts.triggers, Prod.mk.injEq] at same
    obtain ⟨sameDepth, -, samePending, sameIrq, -⟩ := same
    exact ⟨_, getElem?_modify_self _ _ _ _ hx, samePending.trans pending, sameIrq.trans irq, rfl, sameDepth.trans depth⟩
  have takes : (whenReady d (fun _ t => t.workPending && t.checkFree) fun _ t => t.takeJob).Brings (State.TsIs d t)
      fun _ => State.TsIs d t.takeJob := by
    refine .step (fun _ hs => hs.1) fun s hs => ?_
    rw [State.onTs_some hs.2]
    split
    · exact ⟨hs.1, getElem?_modify_self _ _ _ _ hs.2⟩
    · exact hs.1
  have marks : (takeIrqMark d).Brings (State.TsIs d t.takeJob)
      fun n s => n = t.workIrq.toNat ∧ State.TriggersAre d t.working s := by
    refine .step (fun _ hs => hs.1) fun s hs => ?_
    rw [State.onTs_some hs.2]
    exact ⟨rfl, hs.update _⟩
  have unmasks : (unmask d).Brings (State.TriggersAre d t.working)
      fun _ => State.TriggersAre d { t.working with irqDepth := t.irqDepth - 1 } := by
    refine .step (fun _ hs => hs.1) fun s hs => ?_
    have lowered := hs.update (f := fun x => { x with irqDepth := x.irqDepth - 1 })
      (t' := { t.working with irqDepth := t.irqDepth - 1 }) fun x same => by simp_all [Ts.triggers, Ts.working, Ts.withTriggers]
    obtain ⟨-, x, hx, -⟩ := hs
    rw [State.onTs_some hx]
    dsimp only
    split
    · trivial
    · exact lowered
  refine takes.bind fun _ => marks.bind fun j => .assume fun answer => ?_
  subst answer
  refine eventCheckOn_bringsTriggers.bind fun _ => ?_
  cases irq : t.workIrq with
  | true => exact unmasks.bind fun _ => frees _ rfl rfl (by rw [irq]; rfl)
  | false => exact frees _ rfl rfl (by rw [irq]; rfl)

/-- The worker takes its job and runs the check. -/
theorem workerChecks_run (w : TsWired s0 d t0 res i rb) (run : TsRun s0 d t0 i rb m c s) (hx : s.tss[d]? = some m)
    (hp : m.workPending = true) (hf : m.checkFree = true) (hl : m.indexLock = none) (hb : s0.board.bitNew < 32) :
    ∃ s1 s2 t r c',
      (whenReady d (fun _ t => t.workPending && t.checkFree) fun _ t => t.takeJob).Yields s 0 s1 ∧
      (takeIrqMark d).Yields s1 m.workIrq.toNat s2 ∧ (eventCheckOn d).Yields s2 r t ∧
      TsRun s0 d t0 i rb ((m.afterCheck s0.board).withTriggers m.irqDepth m.irqRun false false true) c' t := by
  have takes : (whenReady d (fun _ t => t.workPending && t.checkFree) fun _ t => t.takeJob).Yields s 0
      (s.modTs d Ts.takeJob) := by
    rw [State.modTs_eq_setTs hx]
    exact whenReady_yields hx (by rw [hp, hf]; rfl)
  have taken : (s.modTs d Ts.takeJob).tss[d]? = some m.takeJob := getElem?_modify_self _ _ _ _ hx
  have marks : (takeIrqMark d).Yields (s.modTs d Ts.takeJob) m.workIrq.toNat
      ((s.modTs d Ts.takeJob).modTs d fun t => { t with workIrq := false }) := .step (State.onTs_some taken _)
  have run := (run.mod Ts.takeJob (fun _ => rfl) rfl).mod (fun t => { t with workIrq := false }) (fun _ => rfl) rfl
  have run : TsRun s0 d t0 i rb m.working c _ := run
  obtain ⟨n, u, checks, c', run⟩ := eventCheckOn_run w run hl hb
  have run : TsRun s0 d t0 i rb (m.working.afterCheck s0.board) c' u := run
  rw [Ts.working, Ts.afterCheck_withTriggers] at run
  exact ⟨_, _, u, _, c', takes, marks, checks, run⟩

theorem unmask_run (w : TsWired s0 d t0 res i rb) (run : TsRun s0 d t0 i rb m c s) :
    (m.irqDepth ≤ 0 → (unmask d).Faults s .irqUnbalanced (s.modTs d fun x => { x with irqDepth := x.irqDepth - 1 })) ∧
      (0 < m.irqDepth → (unmask d).Yields s 0 (s.modTs d fun x => { x with irqDepth := x.irqDepth - 1 })) := by
  obtain ⟨y, hy, same⟩ := run.device w
  have depth := congrArg Ts.irqDepth same
  have depth : y.irqDepth = m.irqDepth := depth
  refine ⟨fun balanced => .step ?_, fun masked => .step ?_⟩
  · rw [State.onTs_some hy]
    exact if_pos (by omega)
  · rw [State.onTs_some hy]
    exact if_neg (by omega)

/-- A fault that stops the agent where the run of its operation has come to. -/
theorem TsRun.performs_faults {o : Op (Except Err Res)} {f : Fault} {u : State} (hi : s.Idle) (w : TsWired s d t res i rb)
    (ho : o.Faults (s.start op) f u) (run : TsRun (s.start op) d t i rb m c u) :
    ∃ v, s.perform op ((tsEnter d).bind fun _ => o) = .next v ∧ v.turns = [] ∧ s.SameBytes v ∧
      v.still i = ((s.modTs d fun _ => m).halt f).still i := by
  have still := congrArg (State.halt · f) run.still
  rw [State.start_eq_doing hi] at still
  have still : (u.halt f).still i = ((s.modTs d fun _ => m).halt f).still i := still
  exact ⟨_, State.perform_faults hi (.after (tsEnter_yields (s := s.start op) w.device w.kept) ho), run.turns,
    State.sameBytes_of_still still rfl rfl, still⟩

end

/-- Settles O57: by whether the job is there, whether the interrupt queued it and what its unmasking makes of the depth. -/
theorem workerRun : Obligations.WorkerRun := by
  unfold Obligations.WorkerRun
  refine ⟨fun s u d t hop ht hr hend hrun => ?returns, fun s d t hs ht kept => ?runs⟩
  case returns =>
    obtain ⟨v, ⟨-, t', hv, pending, irq, busy, depth⟩, rfl⟩ :=
      State.performTs_brings workerRunOn_brings (fun _ _ h => h.1) hop ht hr hend hrun
    exact ⟨rfl, t', hv, pending, irq, busy, depth⟩
  case runs =>
    intro ready
    have iff : (t.workPending && t.checkFree) = true ↔ ready := by simp [Ts.checkFree, ready]
    refine ⟨fun early => ?waits, fun i res rb now w free hb _ _ => ?checks⟩
    case waits =>
      have early : (t.workPending && t.checkFree) = false := Bool.eq_false_iff.mpr fun h => early (iff.mp h)
      exact State.performTs_waits hs.1 ht kept (whenReady_waits (s := s.doing _) ht early).bind.bind
    case checks =>
      intro t1
      obtain ⟨w', run⟩ := TsRun.begins (op := .workerRun d) hs w rfl
      obtain ⟨pending, checkFree⟩ := (Bool.and_eq_true _ _).mp (iff.mpr now)
      obtain ⟨s1, s2, u, r, c, takes, marks, checks, run⟩ :=
        workerChecks_run w' run w.device pending checkFree free hb
      have run : TsRun (s.start (.workerRun d)) d t i rb (t1.withTriggers t.irqDepth t.irqRun false false true) c u := run
      have irqRun : t1.irqRun = t.irqRun := congrArg (fun x => x.2.1) (Ts.afterCheck_triggers t s.board)
      obtain ⟨faults, unmasks⟩ := unmask_run w' run
      have lowered := run.mod (fun x => { x with irqDepth := x.irqDepth - 1 }) (fun _ => rfl) rfl
      refine ⟨fun irq unbalanced => ?unbalanced, fun balanced => ?balanced⟩
      case unbalanced =>
        have faults : (workerRunOn d).Faults (s.start (.workerRun d)) .irqUnbalanced _ :=
          .after takes (.after marks (.after checks (by rw [if_pos (by rw [irq]; rfl)]; exact (faults unbalanced).bind)))
        have cells : ({ t1.withTriggers t.irqDepth t.irqRun false false true with irqDepth := t.irqDepth - 1 } : Ts) =
            { t1 with workPending := false, workIrq := false, workerBusy := true, irqDepth := t.irqDepth - 1 } := by
          rw [← irqRun]
          rfl
        rw [← cells]
        exact lowered.performs_faults hs.1 w faults.bind
      case balanced =>
        have frees (x : Ts) (depth : Int) (h : x = t1.withTriggers depth t.irqRun false false true) :
            ({ x with workerBusy := false } : Ts) = { t1 with
              workPending := false, workIrq := false, workerBusy := false, irqDepth := depth } := by
          rw [h, ← irqRun]
          rfl
        cases irq : t.workIrq with
        | true =>
          have masked : 0 < t.irqDepth := balanced.resolve_left (by rw [irq]; exact nofun)
          have ends : (workerRunOn d).Yields (s.start (.workerRun d)) (.ok 0) _ :=
            .bind takes (.bind marks (.bind checks (by
              rw [if_pos (by rw [irq]; rfl)]
              exact .bind (unmasks masked) (.bind (.set _) (.ok 0)))))
          rw [if_pos rfl, ← frees _ _ rfl]
          exact (lowered.mod (fun x => { x with workerBusy := false }) (fun _ => rfl) rfl).performs hs.1 w
            (asUnit_yields ends)
        | false =>
          have ends : (workerRunOn d).Yields (s.start (.workerRun d)) (.ok 0) _ :=
            .bind takes (.bind marks (.bind checks (by
              rw [if_neg (by rw [irq]; exact nofun)]
              exact .bind (.set _) (.ok 0))))
          rw [if_neg (by exact nofun), ← frees _ _ rfl]
          exact (run.mod (fun x => { x with workerBusy := false }) (fun _ => rfl) rfl).performs hs.1 w
            (asUnit_yields ends)

end Sys2Proof.Machine
end

section
/-!
The wire record only grows (log entry 31): whatever an event-check's accesses do, what the wire showed before stays.
-/

namespace Sys2Proof.Machine

open Sys2Proof

/-- The wire shows `l`, and perhaps more since. -/
def State.Showed (l : List Xfer) (s : State) : Prop := l <:+ s.wire

section

variable {l : List Xfer} {s t : State} {i d : Nat} {a : U32} {v : U16} {w : U32} {α : Type}

theorem State.Showed.same (h : s.Showed l) (hw : t.wire = s.wire) : t.Showed l := by
  rw [State.Showed, hw]
  exact h

theorem State.Showed.log (h : s.Showed l) (i : Nat) (x : Wire) (ok : Bool) : (s.log i x ok).Showed l :=
  List.IsSuffix.trans h (List.suffix_cons _ _)

theorem State.Showed.farRead16 (h : s.Showed l) : (s.farRead16 i a).2.Showed l := h.same (farRead16_wire s i a)

theorem State.Showed.farRead32 (h : s.Showed l) : (s.farRead32 i a).2.Showed l := h.same (farRead32_wire s i a)

theorem State.Showed.farWrite16 (h : s.Showed l) : (s.farWrite16 i a v).Showed l := h.same (farWrite16_wire s i a v)

theorem storeWord_wire (s : State) (x : Target) (p : Part) : (s.storeWord x p).wire = s.wire := by cases x <;> rfl

theorem State.Showed.farWrite32 (h : s.Showed l) : (s.farWrite32 i a w).Showed l := by
  unfold State.farWrite32
  split
  · exact h.same (storeWord_wire _ _ _)
  · exact h.same (storeWord_wire _ _ _)
  · exact h.farWrite16.farWrite16

theorem State.Showed.landed (h : s.Showed l) (b : Bool) : (if b then s.landWrite16 i a v else s).Showed l := by
  cases b
  · exact h
  · show (s.landWrite16 i a v).Showed l
    unfold State.landWrite16
    split
    · split
      · exact h
      · exact h.farWrite16
    · exact h.farWrite16

theorem State.Showed.farDone (h : s.Showed l) : ∀ far, (s.farDone i far).Showed l
  | none => h
  | some _ => h.farWrite16

theorem State.Showed.farLanded (h : s.Showed l) (b : Bool) : ∀ far, (s.farLanded i b far).Showed l
  | none => h
  | some _ => h.landed b

/-- Nothing that the operation does takes anything off the wire record. -/
def Op.Shows {α : Type} (o : Op α) : Prop := ∀ l, o.Keeps (State.Showed l) (State.Showed l)

theorem Op.Shows.bind {β : Type} {o : Op α} {g : α → Op β} (h : o.Shows) (hg : ∀ a, (g a).Shows) : (o.bind g).Shows :=
  fun l => (h l).bind fun a => hg a l

theorem Op.Shows.q {β : Type} {o : Op (Except Err α)} {g : α → Op (Except Err β)} (h : o.Shows)
    (hg : ∀ a, (g a).Shows) : (o.q g).Shows := fun l => (h l).q fun a => hg a l

theorem Op.Shows.ite {c : Prop} [Decidable c] {x y : Op α} (hx : x.Shows) (hy : y.Shows) :
    (if c then x else y).Shows := fun l => .ite (hx l) (hy l)

theorem Op.Shows.ret (a : α) : (Op.ret a).Shows := fun _ => trivial

theorem Op.Shows.get (f : State → Nat) : (Op.get f).Shows := fun _ => .get f

theorem Op.Shows.fault (f : Fault) : (Op.fault f : Op α).Shows := fun _ => ⟨fun _ hs => hs, fun _ => trivial⟩

theorem Op.Shows.step {f : State → Ans} (h : ∀ l s, s.Showed l → (f s).Keeps (State.Showed l) (State.Showed l)) :
    (Op.step f).Shows := fun l => .step (h l)

theorem Op.Shows.set {f : State → State} (h : ∀ s, (f s).wire = s.wire) : (Op.set f).Shows :=
  fun _ => .set fun s hs => hs.same (h s)

/-! ### Register accesses -/

theorem contextCheck_shows (i : Nat) : (contextCheck i).Shows :=
  .step fun _ _ hs => .onRb fun _ => .ite hs hs

theorem evenOnly_shows (a : U32) {x : Op α} (h : x.Shows) : (evenOnly a x).Shows := .ite (.fault _) h

theorem alignedOnly_shows (a : U32) {x : Op α} (h : x.Shows) : (alignedOnly a x).Shows := .ite h (.fault _)

theorem mdioWriteOn_shows (i : Nat) (phy reg : RbCfg → U5) (w : U16) (far : Option (U32 × U16)) :
    (mdioWriteOn i phy reg w far).Shows := fun _ =>
  mdioXfer_keeps fun
    | _, .fail b, _, hs => (hs.farLanded b far).log _ _ _
    | _, .ok, _, hs => (hs.farDone far).log _ _ _

theorem bridgeAddrOn_shows (i : Nat) (a : U32) (rw : U16) (far : Option (U32 × U16)) :
    (bridgeAddrOn i a rw far).Shows := fun _ =>
  mdioXfer_keeps fun
    | _, .fail b, _, hs => (hs.farLanded b far).log _ _ _
    | _, .ok, _, hs => (hs.farDone far).log _ _ _

theorem mdioReadOn_shows (i : Nat) (phy reg : RbCfg → U5) (a : U32) : (mdioReadOn i phy reg a).Shows := fun _ =>
  mdioXfer_keeps fun
    | _, .fail _, _, hs => hs.log _ _ _
    | _, .ok, _, hs => hs.farRead16.log _ _ _

theorem mdioAccess_shows (i : Nat) {x : Op (Except Err Nat)} (h : x.Shows) : (mdioAccess i x).Shows := by
  have begins : (mdioBegin i).Shows := .step fun _ _ hs => .onRb fun _ => .ite hs hs
  have ends : (Op.set fun s => s.modRb i fun rb => { rb with busy := none }).Shows := .set fun _ => rfl
  exact begins.bind fun _ => h.bind fun r => ends.bind fun _ => .ret r

theorem slaveSelectHigh_shows (i : Nat) (a : U32) : (slaveSelectHigh i a).Shows := by
  have hits : (aa1Is i (aa1Word a)).Shows := .step fun _ _ hs => .onRb fun _ => hs
  have sets (c : Option U16) : (setAa1 i c).Shows := .set fun _ => rfl
  refine hits.bind fun _ => .ite (.ret _) ((mdioWriteOn_shows i _ _ _ _).bind fun r => ?_)
  cases r with
  | error e => exact (sets none).bind fun _ => .ret _
  | ok _ => exact (sets _).bind fun _ => .ret _

theorem writeOrderIs_shows (i : Nat) (sel : RbCfg → WriteOrder) : (writeOrderIs i sel).Shows :=
  fun _ => writeOrderIs_keeps i sel

theorem bridgeRange_shows (i : Nat) (a : U32) : (bridgeRange i a).Shows := .step fun _ _ hs => .onRb fun _ => .ite hs hs

theorem read16On_shows (i : Nat) (a : U32) : (read16On i a).Shows := by
  have backend : (backendOf i).Shows := fun _ => backendOf_keeps i
  refine (contextCheck_shows i).bind fun _ => backend.bind fun
    | 0 => evenOnly_shows a fun _ => mmioXfer_keeps fun _ _ hs => hs.farRead16.log _ _ _
    | 1 => fun _ => .tryXfer fun
      | .fail _, _, hs => .onRb fun _ => hs.log _ _ _
      | .ok, _, hs => .onRb fun _ => hs.farRead16.log _ _ _
    | 2 => evenOnly_shows a (mdioAccess_shows i ((slaveSelectHigh_shows i a).q fun _ =>
      (mdioWriteOn_shows i _ _ _ _).q fun _ => mdioReadOn_shows i _ _ a))
    | _ + 3 => evenOnly_shows a ((bridgeRange_shows i a).bind fun _ => mdioAccess_shows i
      ((bridgeAddrOn_shows i a _ _).q fun _ => mdioReadOn_shows i _ _ a))

theorem write16On_shows (i : Nat) (a : U32) (v : U16) : (write16On i a v).Shows := by
  have backend : (backendOf i).Shows := fun _ => backendOf_keeps i
  refine (contextCheck_shows i).bind fun _ => backend.bind fun
    | 0 => evenOnly_shows a fun _ => mmioXfer_keeps fun _ _ hs => hs.farWrite16.log _ _ _
    | 1 => fun _ => .tryXfer fun
      | .fail b, _, hs => .onRb fun _ => (hs.landed b).log _ _ _
      | .ok, _, hs => .onRb fun _ => hs.farWrite16.log _ _ _
    | 2 => evenOnly_shows a (mdioAccess_shows i ((slaveSelectHigh_shows i a).q fun _ =>
      (writeOrderIs_shows i _).bind fun _ =>
        .ite ((mdioWriteOn_shows i _ _ _ _).q fun _ => mdioWriteOn_shows i _ _ _ _)
          ((mdioWriteOn_shows i _ _ _ _).q fun _ => mdioWriteOn_shows i _ _ _ _)))
    | _ + 3 => evenOnly_shows a ((bridgeRange_shows i a).bind fun _ => mdioAccess_shows i
      ((writeOrderIs_shows i _).bind fun _ =>
        .ite ((mdioWriteOn_shows i _ _ _ _).q fun _ => bridgeAddrOn_shows i a _ _)
          ((bridgeAddrOn_shows i a _ _).q fun _ => mdioWriteOn_shows i _ _ _ _)))

theorem capability_shows (i : Nat) (f : Rb → Bool) : (capability i f).Shows := fun _ => capability_keeps i f

theorem read32On_shows (i : Nat) (a : U32) : (read32On i a).Shows :=
  (contextCheck_shows i).bind fun _ => (capability_shows i _).bind fun _ =>
    .ite (alignedOnly_shows a fun _ => mmioXfer_keeps fun _ _ hs => hs.farRead32.log _ _ _)
      ((read16On_shows i a).q fun _ => (read16On_shows i _).q fun _ => .ret _)

theorem write32On_shows (i : Nat) (a v : U32) : (write32On i a v).Shows :=
  (contextCheck_shows i).bind fun _ => (capability_shows i _).bind fun _ =>
    .ite (alignedOnly_shows a fun _ => mmioXfer_keeps fun _ _ hs => hs.farWrite32.log _ _ _)
      ((write16On_shows i a _).q fun _ => write16On_shows i _ _)

/-! ### The event-check -/

theorem Ans.Keeps.resourceBus (r : Option Resource) (hs : s.Showed l) :
    (s.resourceBus r).Keeps (State.Showed l) (State.Showed l) := by
  cases r with
  | none => trivial
  | some x =>
    show (s.resolve x.bus).Keeps _ _
    unfold State.resolve
    split
    · exact .ite hs trivial
    · split
      · exact hs
      · exact .ite hs hs

theorem tsReg_shows (d : Nat) (r : TsReg) {x : Nat → U32 → Op (Except Err Nat)} (h : ∀ i a, (x i a).Shows) :
    (tsReg d r x).Shows := by
  have bus : (Op.step fun s => s.onTs d fun t => s.resourceBus t.res).Shows :=
    .step fun _ _ hs => .onTs fun t => .resourceBus t.res hs
  exact bus.bind fun i => (Op.Shows.get _).bind fun _ => h i _

theorem tsSet_shows (d : Nat) (f : Ts → Ts) : (tsSet d f).Shows := .set fun _ => rfl

theorem underIndex_shows (d : Nat) {x : Op α} (h : x.Shows) : (underIndex d x).Shows := by
  have acquires : (acquireIndex d).Shows := .step fun _ _ hs => .onTs fun _ => .ite hs hs
  exact acquires.bind fun _ => h.bind fun r => (tsSet_shows d _).bind fun _ => .ret r

theorem deliver_shows (d full : Nat) (ev : Event) : (deliver d full ev).Shows := by
  have writes (r : TsReg) (v : Board → U32) : (tsRegWrite d r v).Shows :=
    (Op.Shows.get _).bind fun _ => tsReg_shows d r fun i a => write32On_shows i a _
  exact (tsSet_shows d _).bind fun _ => (writes .ack _).q fun _ => (writes .arm _).q fun _ => .ite (.ret _)
    ((underIndex_shows d (tsSet_shows d _)).bind fun _ => (tsSet_shows d _).bind fun _ => .ret _)

theorem eventCheckOn_shows (d : Nat) : (eventCheckOn d).Shows := by
  have full : (checkFull d).Shows :=
    underIndex_shows d (.step fun _ _ hs => .onTs fun _ => .ite (.ite hs hs) hs)
  have reads (r : TsReg) : (tsRegRead d r).Shows := tsReg_shows d r read32On_shows
  exact full.bind fun _ => (Op.Shows.get _).bind fun _ => .ite (.ret _) <|
    (reads .status).q fun _ => (Op.Shows.get _).bind fun _ => .ite (.ret _) <|
      (reads .secLo).q fun _ => (reads .secHi).q fun _ => (reads .nsec).q fun _ => (reads .counter).q fun _ =>
        deliver_shows d _ _

theorem eventCheckAlone_shows (d : Nat) : (eventCheckAlone d).Shows := by
  have ready : (whenReady d (fun _ t => t.checkFree) fun _ t => { t with workerBusy := true }).Shows :=
    .step fun _ _ hs => .onTs fun _ => .ite hs hs
  exact ready.bind fun _ => (eventCheckOn_shows d).bind fun r => (tsSet_shows d _).bind fun _ => .ret r

theorem env_wire (s : State) (e : Env) : (s.env e).wire = s.wire := by
  cases e with
  | tsPulse k =>
    show (s.tsPulse k).wire = s.wire
    unfold State.tsPulse
    split
    · rfl
    · split
      · rw [afterDraws_eq]
        rfl
      · rfl
  | _ => rfl

/-- What the wire showed before an operation it shows after it. -/
theorem State.perform_shows {x : Instr} {o : Op (Except Err Res)} (ho : o.Shows) (hr : s.perform x o = .next t) :
    ∃ w, t.wire = w ++ s.wire := by
  have steady : Steady (State.Showed s.wire) (State.Showed s.wire) :=
    ⟨fun _ _ h => h, fun u e h => h.same (env_wire u e), fun _ _ _ _ _ _ h => h, fun _ h => h⟩
  obtain ⟨w, hw⟩ := State.perform_keeps steady (ho s.wire) (List.suffix_refl s.wire) hr
  exact ⟨w, hw.symm⟩

theorem tsEnter_shows (d : Nat) : (tsEnter d).Shows := .step fun _ _ hs => .onTs fun _ => .ite trivial hs

end

end Sys2Proof.Machine
end

section
/-!
The event-check as a sequence of register accesses (spec/43_timestamper.md rule R508): where it stands after each of
them, what the wire shows of it, and where a transfer that fails leaves it.
-/

namespace Sys2Proof.Machine

open Sys2Proof

/-! ### Accesses that succeed or fail -/

/-- An access or an operation made of accesses succeeds with `Q`, or ends with `E_IO` where `S` holds. -/
def Either (Q : Nat → State → Prop) (S : State → Prop) : Except Err Nat → State → Prop
  | .ok n, t => Q n t
  | .error e, t => e = .io ∧ S t

theorem Op.Ends.qEither {x : Op (Except Err Nat)} {g : Nat → Op (Except Err Nat)} {s : State}
    {Q R : Nat → State → Prop} {S S' : State → Prop} (h : x.Ends s (Either Q S)) (hs : ∀ t, S t → S' t)
    (hg : ∀ n t, Q n t → (g n).Ends t (Either R S')) : (x.q g).Ends s (Either R S') := by
  obtain ⟨a, t, hy, hq⟩ := h
  match a with
  | .ok n =>
    obtain ⟨b, u, hb, hr⟩ := hg n t hq
    exact ⟨b, u, hy.q hb, hr⟩
  | .error e =>
    obtain ⟨rfl, hq⟩ := hq
    exact ⟨_, t, hy.qError, rfl, hs t hq⟩

/-! ### The accesses of an event-check -/

/-- The registers that an event-check with an event accesses, in order. -/
def checkAccesses : List TsReg := [.status, .secLo, .secHi, .nsec, .counter, .ack, .arm]

/-- What an event-check writes to a register. -/
def checkValue (b : Board) : TsReg → U32
  | .ack => b.ackVal
  | _ => b.armVal

/-- The cells when an event-check comes to a register. -/
def Ts.checkCells (t : Ts) (b : Board) : TsReg → Ts
  | .ack => { t.made with lastEvent := some t.hw.event }
  | .arm => ({ t.made with lastEvent := some t.hw.event } : Ts).acted b .ack b.ackVal
  | _ => t.made

/-- What the bus does in the accesses of an operation: `Good l` holds where the accesses `l`, the newest first, have
succeeded, and `Bad l x m` where the access of `x` after them has failed, which found the cells `m`. -/
structure BusPlan (s0 : State) (d : Nat) (t0 : Ts) (i : Nat) (rb : Rb) (Good : List TsReg → State → Prop)
    (Bad : List TsReg → TsReg → Ts → State → Prop) : Prop where
  mod : ∀ {l s} (f : Ts → Ts), Good l s → Good l (s.modTs d f)
  read : ∀ {l s m x}, x ∈ TsReg.readable → TsSeat s0 d t0 i rb m s → Good l s →
    (tsRegRead d x).Ends s (Either (fun v t => (∃ y, v = (m.hw.word s0.board y x).toNat) ∧
      TsSeat s0 d t0 i rb m t ∧ Good (x :: l) t) (Bad l x m))
  write : ∀ {l s m x}, x ∈ TsReg.writable → TsSeat s0 d t0 i rb m s → Good l s →
    (tsRegWrite d x fun b => checkValue b x).Ends s (Either (fun _ t =>
      TsSeat s0 d t0 i rb (m.acted s0.board x (checkValue s0.board x)) t ∧ Good (x :: l) t) (Bad l x m))

section

variable {s0 s t : State} {d i : Nat} {t0 m : Ts} {rb : Rb} {res : Resource} {l : List TsReg}
  {Good : List TsReg → State → Prop} {Bad : List TsReg → TsReg → Ts → State → Prop}

/-- Where an event-check with an event has failed. -/
def CheckStopped (m : Ts) (b : Board) (Bad : List TsReg → TsReg → Ts → State → Prop) (t : State) : Prop :=
  ∃ l x, checkAccesses[l.length]? = some x ∧ Bad l x (m.checkCells b x) t

theorem Ts.made_hw (t : Ts) : t.made.hw = t.hw := by
  unfold Ts.made
  split <;> rfl

theorem Ts.made_indexLock (t : Ts) : t.made.indexLock = t.indexLock := by
  unfold Ts.made
  split <;> rfl

theorem Ts.made_blind : Ts.blind Ts.made := fun t => by
  unfold Ts.made
  by_cases h : t.bufCount = t.capacity ∧ t.readCount = t.bufCount
  · rw [if_pos h, if_pos (show t.still.bufCount = t.still.capacity ∧ t.still.readCount = t.still.bufCount from h)]
    rfl
  · rw [if_neg h, if_neg (show ¬(t.still.bufCount = t.still.capacity ∧ t.still.readCount = t.still.bufCount) from h)]
    rfl

theorem checkFull_seat (w : TsWired s0 d t0 res i rb) (g : TsSeat s0 d t0 i rb m s) (hl : m.indexLock = none) :
    (checkFull d).Yields s m.stuck.toNat (s.modTs d Ts.made) ∧ TsSeat s0 d t0 i rb m.made (s.modTs d Ts.made) := by
  obtain ⟨y, hy, same⟩ := g.device w
  have free := congrArg Ts.indexLock same
  have free : y.indexLock = none := Eq.trans free hl
  have stuck := congrArg Ts.stuck same
  have stuck : y.stuck = m.stuck := stuck
  refine ⟨?_, g.mod Ts.made Ts.made_blind (by unfold Ts.made; split <;> rfl)⟩
  rw [State.modTs_eq_setTs hy, ← stuck]
  exact checkFull_yields hy free

/-- The event enters the ring, and the readers are woken. -/
theorem enqueue_seat (w : TsWired s0 d t0 res i rb) (g : TsSeat s0 d t0 i rb m s) (hl : m.indexLock = none)
    (ev : Event) : ∃ t, ((underIndex d (tsSet d fun t => t.append ev)).bind fun _ => (wakeAll d).bind fun _ =>
        (Op.ok 0 : Op (Except Err Nat))).Yields s (.ok 0) t ∧ TsSeat s0 d t0 i rb (m.enqueued ev) t ∧
      t = (s.modTs d fun t => t.append ev).modTs d fun t => { t with waiters := [] } := by
  obtain ⟨y, hy, same⟩ := g.device w
  have free := congrArg Ts.indexLock same
  have free : y.indexLock = none := Eq.trans free hl
  have appends : (underIndex d (tsSet d fun t => t.append ev)).Yields s () (s.modTs d fun t => t.append ev) := by
    rw [State.modTs_eq_setTs hy]
    exact underIndex_yields hy free free (tsSet_setTs _ _)
  have g := (g.mod (fun t => t.append ev) (fun _ => rfl) rfl).mod (fun t => { t with waiters := [] }) (fun _ => rfl) rfl
  exact ⟨_, .bind appends (.bind (.set _) (.ok 0)), g, rfl⟩

variable (w : TsWired s0 d t0 res i rb) (plan : BusPlan s0 d t0 i rb Good Bad)
include w plan

/-- The end of an event-check that has read its event. -/
theorem deliver_walk (g : TsSeat s0 d t0 i rb m.made s) (good : Good l s) (hl : l.length = 5)
    (hlock : m.indexLock = none) : (deliver d m.stuck.toNat m.hw.event).Ends s (Either
      (fun _ t => TsSeat s0 d t0 i rb (m.checked s0.board) t ∧ Good (.arm :: .ack :: l) t)
      (CheckStopped m s0.board Bad)) := by
  have recorded := g.mod (fun t => { t with lastEvent := some m.hw.event }) (fun _ => rfl) rfl
  refine Op.Ends.bind (Op.Yields.ends (.set _) (Q := fun _ t => TsSeat s0 d t0 i rb (m.checkCells s0.board .ack) t ∧ Good l t)
    ⟨recorded, plan.mod _ good⟩) ?_
  rintro _ t ⟨g, good⟩
  refine (plan.write (x := .ack) (by decide) g good).qEither (fun t bad => ⟨l, .ack, by rw [hl]; rfl, bad⟩) ?_
  rintro _ t ⟨g, good⟩
  have g : TsSeat s0 d t0 i rb (m.checkCells s0.board .arm) t := g
  refine (plan.write (x := .arm) (by decide) g good).qEither
    (fun t bad => ⟨.ack :: l, .arm, by rw [List.length_cons, hl]; rfl, bad⟩) ?_
  rintro _ t ⟨g, good⟩
  have g : TsSeat s0 d t0 i rb (m.taken s0.board) t := g
  rw [Ts.checked_eq]
  cases stuck : m.stuck with
  | true => exact ⟨_, t, .ok 0, g, good⟩
  | false =>
    obtain ⟨u, enqueues, g, rfl⟩ := enqueue_seat w g (m.made_indexLock.trans hlock) m.hw.event
    exact ⟨_, _, enqueues, g, plan.mod _ (plan.mod _ good)⟩

/-- An event-check that finds an event. -/
theorem eventCheckOn_walk (g : TsSeat s0 d t0 i rb m s) (good : Good [] s) (hlock : m.indexLock = none)
    (hb : s0.board.bitNew < 32) (hskip : ¬(m.stuck = true ∧ s0.board.fullPolicy = .skip))
    (hp : m.hw.pending = true) : (eventCheckOn d).Ends s (Either
      (fun _ t => TsSeat s0 d t0 i rb (m.checked s0.board) t ∧ Good checkAccesses.reverse t)
      (CheckStopped m s0.board Bad)) := by
  obtain ⟨full, g⟩ := checkFull_seat w g hlock
  refine Op.Ends.bind (Op.Yields.ends full (Q := fun n t => n = m.stuck.toNat ∧ TsSeat s0 d t0 i rb m.made t ∧ Good [] t)
    ⟨rfl, g, plan.mod _ good⟩) ?_
  rintro _ t ⟨rfl, g, good⟩
  refine Op.Ends.bind (Op.Yields.ends (.get _)
    (Q := fun n u => n = (decide (s0.board.fullPolicy = .skip)).toNat ∧ u = t) ⟨by rw [g.board], rfl⟩) ?_
  rintro _ _ ⟨rfl, rfl⟩
  rw [if_neg (by simpa [Bool.toNat_eq_one] using hskip)]
  refine (plan.read (x := .status) (by decide) g good).qEither (fun t bad => ⟨[], .status, rfl, bad⟩) ?_
  rintro _ t ⟨⟨y, rfl⟩, g, good⟩
  have found : ((BitVec.ofNat 32 (m.made.hw.word s0.board y .status).toNat).getLsbD t.board.bitNew).toNat = 1 := by
    rw [BitVec.ofNat_toNat, BitVec.setWidth_eq, g.board, m.made_hw]
    show ((m.hw.statusWord s0.board y).getLsbD s0.board.bitNew).toNat = 1
    rw [statusWord_bit _ _ _ hb, hp]
    rfl
  refine Op.Ends.bind (Op.Yields.ends (.get _) (Q := fun n u => n = 1 ∧ u = t) ⟨found, rfl⟩) ?_
  rintro _ _ ⟨rfl, rfl⟩
  rw [if_neg (by decide)]
  refine (plan.read (x := .secLo) (by decide) g good).qEither (fun t bad => ⟨_, .secLo, rfl, bad⟩) ?_
  rintro _ t ⟨⟨y1, rfl⟩, g, good⟩
  refine (plan.read (x := .secHi) (by decide) g good).qEither (fun t bad => ⟨_, .secHi, rfl, bad⟩) ?_
  rintro _ t ⟨⟨y2, rfl⟩, g, good⟩
  refine (plan.read (x := .nsec) (by decide) g good).qEither (fun t bad => ⟨_, .nsec, rfl, bad⟩) ?_
  rintro _ t ⟨⟨y3, rfl⟩, g, good⟩
  refine (plan.read (x := .counter) (by decide) g good).qEither (fun t bad => ⟨_, .counter, rfl, bad⟩) ?_
  rintro _ t ⟨⟨y4, rfl⟩, g, good⟩
  rw [event_of_words, m.made_hw]
  exact deliver_walk w plan g good rfl hlock

end

end Sys2Proof.Machine
end

section
/-!
`event_check` (spec/43_timestamper.md rules R508, R509): what the bus shows and does in its accesses, and what it leaves.
-/

namespace Sys2Proof.Machine

open Sys2Proof

/-! ### What an access shows on the wire -/

section

variable {s0 s t u : State} {d i n k : Nat} {t0 m : Ts} {rb : Rb} {res : Resource} {x : TsReg} {l : Bool}
  {r : List Turn} {v : Board → U32}

/-- A run of an operation shows one wire record. -/
theorem Op.Yields.wire_unique {α : Type} {o : Op α} {a b : α} (h : o.Yields s a t) (h' : o.Yields s b u) :
    t.wire = u.wire := by
  obtain ⟨l, hl⟩ := h (fun _ => .ret (.ok .unit)) []
  obtain ⟨l', hl'⟩ := h' (fun _ => .ret (.ok .unit)) []
  have same := Host.Outcome.next.inj (hl.symm.trans hl')
  have wire := congrArg State.wire same
  exact wire

/-- A step that is only bookkeeping of the bus. -/
theorem TsSeat.quiet {c c' : Option U16} (g : TsRun s0 d t0 i rb m c (s.withTurns []))
    (q : Quiet s i { rb with aa1Cache := c, busy := none } c' k t) : TsSeat s0 d t0 i rb m t :=
  ⟨c', (show t.still i = _ from q.still).trans g.still, q.inst, rfl, g.res⟩

section

variable (w : TsWired s0 d t0 res i rb) (g : TsSeat s0 d t0 i rb m s)
include w g

/-- A register read of `n` transactions that succeed. -/
theorem tsRegRead_seat (hx : x ∈ TsReg.readable)
    (hcost : ∀ c a, ({ rb with aa1Cache := c, busy := none } : Rb).cost rb.hasRead32 c a = n) (hc : s.Clear n)
    (hwire : ∀ c, s.rbs[i]? = some { rb with aa1Cache := c, busy := none } → (rb.sleeps && s.atomic) = false →
      ∃ v t f, (read32On i (res.base + s0.board.tsMap.off x)).Yields s (.ok v) t ∧ f.length = n ∧ t.wire = f ++ s.wire) :
    (tsRegRead d x).EndsOk s fun v t => (∃ y, v = (m.hw.word s0.board y x).toNat) ∧ TsSeat s0 d t0 i rb m t ∧
      t.turns = s.turns.drop n ∧ ∃ f, f.length = n ∧ t.wire = f ++ s.wire := by
  obtain ⟨c, inst, use, map⟩ := g.inst w
  obtain ⟨y, hd, he⟩ := g.device w
  obtain ⟨c, run⟩ := id g
  have inst : s.rbs[i]? = some { rb with aa1Cache := c, busy := none } := run.inst
  obtain ⟨reaches, shows⟩ := w.reads x hx
  have shows : s.ShowsTs i d x (res.base + s0.board.tsMap.off x) := by
    simpa only [State.ShowsTs, readTarget_congr map] using shows
  obtain ⟨_, t, reads, ⟨z, rfl⟩, q⟩ := read32On_ts (rb := { rb with aa1Cache := c, busy := none }) inst ⟨use, rfl⟩
    reaches shows hd (by rw [hcost]; exact hc)
  obtain ⟨v, u, f, shown, len, wire⟩ := hwire c inst use
  refine ⟨_, t, (tsRegRead_leads w g x).yields reads, ⟨z, ?_⟩, TsSeat.quiet run q, ?_, f, len, ?_⟩
  · rw [g.board, TsHw.word_still _ _ (Ts.hw_still he)]
  · rw [q.turns, hcost]
  · rw [reads.wire_unique shown, wire]

theorem tsRegRead_i2c (hx : x ∈ TsReg.readable) (hk : rb.backend = .i2c) (hn : rb.hasRead32 = false) (hc : s.Clear 2) :
    (tsRegRead d x).EndsOk s fun v t => (∃ y, v = (m.hw.word s0.board y x).toNat) ∧ TsSeat s0 d t0 i rb m t ∧
      t.turns = s.turns.drop 2 ∧ ∃ f, f.length = 2 ∧ t.wire = f ++ s.wire := by
  refine tsRegRead_seat w g hx (fun c a => by simp [Rb.cost, hn, hk]) hc fun c inst use => ?_
  obtain ⟨v, t, y, z, reads, wire⟩ := read32On_i2c_wire inst use hk hn hc
  exact ⟨v, t, [y, z], reads, rfl, wire⟩

theorem tsRegRead_native (hx : x ∈ TsReg.readable) (hn : rb.hasRead32 = true) (hc : s.Clear 1) :
    (tsRegRead d x).EndsOk s fun v t => (∃ y, v = (m.hw.word s0.board y x).toNat) ∧ TsSeat s0 d t0 i rb m t ∧
      t.turns = s.turns.drop 1 ∧ ∃ f, f.length = 1 ∧ t.wire = f ++ s.wire := by
  obtain ⟨reaches, -⟩ := w.reads x hx
  rw [hn] at reaches
  refine tsRegRead_seat w g hx (fun c a => by simp [Rb.cost, hn]) hc fun c inst use => ?_
  exact ⟨_, _, [_], (read32On_native inst use hn).yields (nativeRead32On_yields inst rfl reaches hc), rfl, rfl⟩

theorem tsRegRead_fails (hk : rb.backend = .i2c) (hn : rb.hasRead32 = false) (hl : k < 2)
    (ht : s.turns = List.replicate k .go ++ .fail l :: r) :
    ∃ t, (tsRegRead d x).Yields s (.error .io) t ∧ t.turns = r ∧ TsSeat s0 d t0 i rb m t := by
  obtain ⟨c, inst, use, -⟩ := g.inst w
  obtain ⟨t, fails, left⟩ := read32On_i2c_stops (a := res.base + s0.board.tsMap.off x) inst use hk hn hl ht
  exact ⟨t, (tsRegRead_leads w g x).yields fails, left.turns, g.left left⟩

theorem tsRegWrite_native (hx : x ∈ TsReg.writable) (hn : rb.hasWrite32 = true) (hc : s.Clear 1) :
    (tsRegWrite d x v).EndsOk s fun _ t => TsSeat s0 d t0 i rb (m.acted s0.board x (v s0.board)) t ∧
      t.turns = s.turns.drop 1 ∧ t.wire = ⟨i, .ioStore (rb.cfg.mmioBase + (res.base + s0.board.tsMap.off x).toNat) 4
        (v s0.board), true⟩ :: s.wire := by
  obtain ⟨-, -, use, map⟩ := g.inst w
  obtain ⟨c, run⟩ := id g
  have inst : s.rbs[i]? = some { rb with aa1Cache := c, busy := none } := run.inst
  obtain ⟨reaches, takes⟩ := w.writes x hx
  have takes : s.TakesTs i d x (res.base + s0.board.tsMap.off x) := by
    simpa only [State.TakesTs, writeTarget_congr map] using takes
  obtain ⟨n, t, writes, q⟩ := write32On_ts (rb := { rb with aa1Cache := c, busy := none }) (v := v s0.board) hx inst
    ⟨use, rfl⟩ reaches takes (by simpa [Rb.cost, hn] using hc)
  rw [hn] at reaches
  have shown := (write32On_native inst use hn).yields (nativeWrite32On_yields (v := v s0.board) inst rfl reaches hc)
  have board : s.board = s0.board := g.board
  rw [board] at q
  have acted := run.mod _ (Ts.acted_blind s0.board x (v s0.board)) rfl
  refine ⟨n, t, (tsRegWrite_leads w g x v).yields writes, TsSeat.quiet acted q, ?_, ?_⟩
  · rw [q.turns]
    simp [Rb.cost, hn]
  · rw [writes.wire_unique shown]
    rfl

end

/-! ### An event-check whose transfers succeed, on the wire -/

/-- Where the accesses `l` show `n` transactions each, and those of a write are `shown`. -/
def Shown (s0 : State) (n : Nat) (shown : TsReg → List Xfer) (l : List TsReg) (s : State) : Prop :=
  s.turns = [] ∧ ∃ f : List (List Xfer), s.wire = f.flatten ++ s0.wire ∧
    List.Forall₂ (fun x r => x.length = n ∧ (r ∈ TsReg.writable → x = shown r)) f l

theorem Shown.access {shown : TsReg → List Xfer} {l : List TsReg} (h : Shown s0 n shown l s) {f : List Xfer}
    (turns : t.turns = s.turns.drop n) (wire : t.wire = f ++ s.wire) (len : f.length = n)
    (write : x ∈ TsReg.writable → f = shown x) : Shown s0 n shown (x :: l) t := by
  obtain ⟨none, fs, record, match_⟩ := h
  refine ⟨by rw [turns, none, List.drop_nil], f :: fs, ?_, .cons ⟨len, write⟩ match_⟩
  rw [wire, record, List.flatten_cons, List.append_assoc]

/-- What the wire shows of a whole event-check. -/
theorem Shown.checked {shown : TsReg → List Xfer} (h : Shown s0 n shown checkAccesses.reverse s) :
    ∃ f, s.wire = f ++ s0.wire ∧ f.length = 7 * n ∧ f.take (2 * n) = shown .arm ++ shown .ack := by
  obtain ⟨-, fs, record, match_⟩ := h
  have len : ∀ {fs : List (List Xfer)} {l : List TsReg},
      List.Forall₂ (fun x r => x.length = n ∧ (r ∈ TsReg.writable → x = shown r)) fs l →
        fs.flatten.length = l.length * n := by
    intro fs l h
    induction h with
    | nil => simp
    | cons hx _ ih => simp [hx.1, ih, Nat.add_mul, Nat.add_comm]
  refine ⟨fs.flatten, record, len match_, ?_⟩
  match fs, match_ with
  | f :: g :: gs, .cons arm (.cons ack _) =>
    have armIs : f = shown .arm := arm.2 (by decide)
    have ackIs : g = shown .ack := ack.2 (by decide)
    have total : (f ++ g).length = 2 * n := by
      rw [List.length_append, arm.1, ack.1]
      omega
    rw [List.flatten_cons, List.flatten_cons, ← List.append_assoc, ← total, List.take_left, armIs, ackIs]

theorem nativePlan (w : TsWired s0 d t0 res i rb) (hr : rb.hasRead32 = true) (hw : rb.hasWrite32 = true) :
    BusPlan s0 d t0 i rb (Shown s0 1 fun x => [⟨i, .ioStore (rb.cfg.mmioBase +
      (res.base + s0.board.tsMap.off x).toNat) 4 (checkValue s0.board x), true⟩]) fun _ _ _ _ => False where
  mod _ good := good
  read {l s m x} hx g good := by
    obtain ⟨_, t, reads, word, g, turns, f, len, wire⟩ := tsRegRead_native w g hx hr (s.clear_of_nil good.1 1)
    refine ⟨_, t, reads, word, g, good.access turns wire len fun write => ?_⟩
    exact absurd write ((by decide : ∀ r ∈ TsReg.readable, r ∉ TsReg.writable) x hx)
  write {l s m x} hx g good := by
    obtain ⟨_, t, writes, g, turns, wire⟩ := tsRegWrite_native (v := fun b => checkValue b x) w g hx hw
      (s.clear_of_nil good.1 1)
    exact ⟨_, t, writes, g, good.access (f := [_]) turns wire rfl fun _ => rfl⟩

theorem i2cPlan (w : TsWired s0 d t0 res i rb) (hk : rb.backend = .i2c) (hr : rb.hasRead32 = false)
    (hw : rb.hasWrite32 = false) : BusPlan s0 d t0 i rb (Shown s0 2 fun x =>
      [⟨i, .i2c rb.cfg.i2cSlave (i2cWriteFrame (highAddr (res.base + s0.board.tsMap.off x))
          (highHalf (checkValue s0.board x))) [], true⟩,
        ⟨i, .i2c rb.cfg.i2cSlave (i2cWriteFrame (res.base + s0.board.tsMap.off x)
          (lowHalf (checkValue s0.board x))) [], true⟩]) fun _ _ _ _ => False where
  mod _ good := good
  read {l s m x} hx g good := by
    obtain ⟨_, t, reads, word, g, turns, f, len, wire⟩ := tsRegRead_i2c w g hx hk hr (s.clear_of_nil good.1 2)
    refine ⟨_, t, reads, word, g, good.access turns wire len fun write => ?_⟩
    exact absurd write ((by decide : ∀ r ∈ TsReg.readable, r ∉ TsReg.writable) x hx)
  write {l s m x} hx g good := by
    obtain ⟨_, t, writes, g, turns, wire⟩ := tsRegWrite_seat (v := fun b => checkValue b x) w hx hk hw g
      (s.clear_of_nil good.1 2)
    exact ⟨_, t, writes, g, good.access (f := [_, _]) turns wire rfl fun _ => rfl⟩

/-! ### An event-check of which a transfer fails -/

/-- The accesses before the transfer that fails have succeeded. -/
def BeforeFail (k : Nat) (l : Bool) (r : List Turn) (done : List TsReg) (s : State) : Prop :=
  2 * done.length ≤ k ∧ s.turns = List.replicate (k - 2 * done.length) .go ++ .fail l :: r

/-- The access whose transfer fails. -/
def AtFail (s0 : State) (d : Nat) (t0 : Ts) (i : Nat) (rb : Rb) (k : Nat) (l : Bool) (r : List Turn)
    (done : List TsReg) (x : TsReg) (m : Ts) (t : State) : Prop :=
  2 * done.length ≤ k ∧ k < 2 * (done.length + 1) ∧ t.turns = r ∧ TsSeat s0 d t0 i rb
    (if decide (x ∈ TsReg.writable) && (decide (k - 2 * done.length = 1) && s0.lands x l) then
      m.acted s0.board x (checkValue s0.board x) else m) t

theorem failPlan (w : TsWired s0 d t0 res i rb) (hk : rb.backend = .i2c) (hr : rb.hasRead32 = false)
    (hw : rb.hasWrite32 = false) :
    BusPlan s0 d t0 i rb (BeforeFail k l r) (AtFail s0 d t0 i rb k l r) where
  mod _ good := good
  read {done s m x} hx g good := by
    obtain ⟨before, turns⟩ := good
    by_cases next : 2 * (done.length + 1) ≤ k
    · obtain ⟨_, t, reads, word, g, rest, -⟩ := tsRegRead_i2c w g hx hk hr ((s.clear_replicate _ _ turns).le (by omega))
      refine ⟨_, t, reads, word, g, next, ?_⟩
      rw [rest, turns, turns_drop_two (by omega), List.length_cons]
      congr 2
    · obtain ⟨t, fails, rest, g⟩ := tsRegRead_fails w g hk hr (by omega) turns
      refine ⟨_, t, fails, rfl, before, by omega, rest, ?_⟩
      have reads : x ∉ TsReg.writable := (by decide : ∀ r ∈ TsReg.readable, r ∉ TsReg.writable) x hx
      rw [decide_eq_false reads]
      exact g
  write {done s m x} hx g good := by
    obtain ⟨before, turns⟩ := good
    by_cases next : 2 * (done.length + 1) ≤ k
    · obtain ⟨_, t, writes, g, rest, -⟩ := tsRegWrite_seat (v := fun b => checkValue b x) w hx hk hw g
        ((s.clear_replicate _ _ turns).le (by omega))
      refine ⟨_, t, writes, g, next, ?_⟩
      rw [rest, turns, turns_drop_two (by omega), List.length_cons]
      congr 2
    · obtain ⟨t, fails, rest, g⟩ := tsRegWrite_fails (v := fun b => checkValue b x) w hx hk hw g (by omega) turns
      refine ⟨_, t, fails, rfl, before, by omega, rest, ?_⟩
      rw [decide_eq_true hx, Bool.true_and]
      exact g

end

end Sys2Proof.Machine
end

section
/-!
`event_check` issued by itself (spec/43_timestamper.md rules R508, R509, R58): the worker's mark, the ring, and where a
transfer that fails leaves it.
-/

namespace Sys2Proof.Machine

open Sys2Proof

/-! ### The worker's mark -/

/-- The worker runs an event-check. -/
def Ts.beginCheck (t : Ts) : Ts := { t with workerBusy := true }

/-- The worker has ended its event-check. -/
def Ts.endCheck (t : Ts) : Ts := { t with workerBusy := false }

section

variable (t : Ts) (b : Board) (x : TsReg)

theorem Ts.endCheck_ite {c : Prop} [Decidable c] (x y : Ts) :
    (if c then x else y).endCheck = if c then x.endCheck else y.endCheck := apply_ite _ c x y

theorem Ts.endCheck_of_free (h : t.workerBusy = false) : t.endCheck = t := by
  rw [Ts.endCheck, ← h]

theorem Ts.made_beginCheck : t.beginCheck.made = t.made.beginCheck :=
  (apply_ite Ts.beginCheck (t.bufCount = t.capacity ∧ t.readCount = t.bufCount) t.reclaim t).symm

theorem Ts.endCheck_made (h : t.workerBusy = false) : t.made.endCheck = t.made := by
  refine Ts.endCheck_of_free _ ?_
  unfold Ts.made
  split <;> exact h

/-- The mark does not matter to an event-check. -/
theorem Ts.endCheck_afterCheck (h : t.workerBusy = false) :
    (t.beginCheck.afterCheck b).endCheck = t.afterCheck b := by
  have begun : t.beginCheck = t.withTriggers t.irqDepth t.irqRun t.workPending t.workIrq true := rfl
  have same := t.afterCheck_withTriggers t.irqDepth t.irqRun t.workPending t.workIrq false b
  have free : t.withTriggers t.irqDepth t.irqRun t.workPending t.workIrq false = t := t.endCheck_of_free h
  rw [free] at same
  rw [begun, Ts.afterCheck_withTriggers]
  exact same.symm

theorem Ts.endCheck_checkCells (h : t.workerBusy = false) :
    (t.beginCheck.checkCells b x).endCheck = t.checkCells b x := by
  have cells : t.beginCheck.made.endCheck = t.made := by
    rw [Ts.made_beginCheck]
    exact t.endCheck_made h
  have recorded : ({ t.beginCheck.made with lastEvent := some t.hw.event } : Ts).endCheck =
      { t.made with lastEvent := some t.hw.event } := by
    rw [← cells]
    rfl
  cases x with
  | ack => exact recorded
  | arm =>
    have acked := congrArg (Ts.acted · b .ack b.ackVal) recorded
    exact acked
  | _ => exact cells

end

/-! ### The cells that an event-check leaves -/

/-- The cells with an event recorded. -/
def Ts.recorded (t : Ts) (pending armed : Bool) : Ts :=
  { t.made with lastEvent := some t.hw.event, hw := { t.hw with pending := pending, armed := armed } }

/-- The cells where the transfer `k` of an event-check with an event has failed, a failed re-arm having landed or not. -/
def Ts.checkFailed (t : Ts) (k : Nat) (l : Bool) : Ts :=
  if k < 10 then t.made else t.recorded (decide (k < 12)) (t.hw.armed || (l && decide (k = 13)))

section

variable (t : Ts) (b : Board)

theorem Ts.checkCells_ack (h : t.hw.pending = true) : t.checkCells b .ack = t.recorded true t.hw.armed := by
  have hw : ({ t.hw with pending := true } : TsHw) = t.made.hw := by rw [t.made_hw, ← h]
  unfold Ts.recorded
  rw [show ({ t.hw with pending := true, armed := t.hw.armed } : TsHw) = t.made.hw from hw]
  rfl

theorem Ts.checkCells_arm : t.checkCells b .arm = t.recorded false t.hw.armed := by
  have acts : t.made.hw.act b .ack b.ackVal = { t.hw with pending := false } := by
    rw [t.made_hw]
    exact if_pos rfl
  show ({ t.made with lastEvent := some t.hw.event, hw := t.made.hw.act b .ack b.ackVal } : Ts) = _
  rw [acts]
  rfl

theorem Ts.recorded_arm (pending armed : Bool) :
    (t.recorded pending armed).acted b .arm b.armVal = t.recorded pending true := by
  rw [Ts.acted, TsHw.act_arm]
  rfl

theorem Ts.taken_eq : t.taken b = t.recorded false true := by
  have last : t.taken b = (t.checkCells b .arm).acted b .arm b.armVal := rfl
  rw [last, t.checkCells_arm, t.recorded_arm]

/-- Where the transfer that fails is in the access of `x`, the cells are these. -/
theorem Ts.checkFailed_of {t : Ts} {s0 : State} {n k : Nat} {x : TsReg} {l : Bool} (hx : checkAccesses[n]? = some x)
    (hp : t.hw.pending = true) (hc : checkOp s0.me.op = true) (hk : 2 * n ≤ k) (hl : k < 2 * (n + 1)) :
    (if decide (x ∈ TsReg.writable) && (decide (k - 2 * n = 1) && s0.lands x l) then
      (t.checkCells b x).acted b x (checkValue b x) else t.checkCells b x) = t.checkFailed k l := by
  have read (x : TsReg) (hr : x ∉ TsReg.writable) (hm : t.checkCells b x = t.made) (early : k < 10) :
      (if decide (x ∈ TsReg.writable) && (decide (k - 2 * n = 1) && s0.lands x l) then
        (t.checkCells b x).acted b x (checkValue b x) else t.checkCells b x) = t.checkFailed k l := by
    rw [decide_eq_false hr, Bool.false_and, if_neg nofun, hm, Ts.checkFailed, if_pos early]
  match n with
  | 0 | 1 | 2 | 3 | 4 =>
    cases hx
    exact read _ (by decide) rfl (by omega)
  | 5 =>
    cases hx
    have stays : s0.lands .ack l = false := by simp [State.lands, hc]
    have early : k < 12 := by omega
    have later : ¬k < 10 := by omega
    have other : k ≠ 13 := by omega
    rw [stays, Bool.and_false, Bool.and_false, if_neg nofun, t.checkCells_ack b hp]
    simp [Ts.checkFailed, later, early, other]
  | 6 =>
    cases hx
    have lands : s0.lands .arm l = l := by simp [State.lands]
    have later : ¬k < 10 := by omega
    have acked : ¬k < 12 := by omega
    have high : (k - 2 * 6 = 1) = (k = 13) := propext ⟨fun h => by omega, fun h => by omega⟩
    rw [lands, t.checkCells_arm, show checkValue b .arm = b.armVal from rfl, t.recorded_arm, Ts.checkFailed,
      if_neg later, decide_eq_false acked]
    simp only [high, show decide (TsReg.arm ∈ TsReg.writable) = true from rfl, Bool.true_and]
    by_cases at13 : k = 13 <;> cases l <;> simp [at13]
  | n + 7 => exact absurd hx (by simp [checkAccesses])

/-- The cells that an event-check leaves, by whether an event is there and the ring is full. -/
theorem Ts.afterCheck_eq : t.afterCheck b = if t.stuck = true ∧ b.fullPolicy = .skip then t
    else if t.hw.pending = false then t.made else if t.stuck = true then t.recorded false true
    else (t.recorded false true).enqueued t.hw.event := by
  rw [Ts.afterCheck, Ts.checked_eq, t.taken_eq]
  cases t.hw.pending <;> rfl

theorem Ts.made_counts (h : 0 < t.capacity) (hc : t.bufCount ≤ t.capacity) (hs : t.stuck = false) :
    t.made.bufCount < t.made.capacity := by
  unfold Ts.made
  unfold Ts.stuck at hs
  split
  · exact h
  · next drained =>
    have : t.bufCount ≠ t.capacity := fun full => by simp_all
    omega

/-- The ring takes the event in a slot of its own. -/
theorem Ts.enqueued_recorded (h : 0 < t.capacity) (hc : t.bufCount ≤ t.capacity) (hs : t.stuck = false)
    (ev : Event) : (t.recorded false true).enqueued ev = { t.recorded false true with
      buf := t.made.buf.set t.made.bufCount (some ev), bufCount := t.made.bufCount + 1, waiters := [] } := by
  have room : min (t.made.bufCount + 1) t.made.capacity = t.made.bufCount + 1 :=
    Nat.min_eq_left (t.made_counts h hc hs)
  show ({ t.recorded false true with
    buf := t.made.buf.set t.made.bufCount (some ev), bufCount := min (t.made.bufCount + 1) t.made.capacity
    waiters := [] } : Ts) = _
  rw [room]

theorem Ts.stuck_iff : t.stuck = true ↔ t.bufCount = t.capacity ∧ t.readCount ≠ t.bufCount := by
  simp [Ts.stuck]

/-- The rings that an event-check leaves (rule R58). -/
theorem Ts.afterCheck_ringOk (h : 0 < t.capacity) (hc : t.bufCount ≤ t.capacity) (ok : t.ringOk) :
    (t.afterCheck b).bufCount ≤ (t.afterCheck b).capacity ∧ (t.afterCheck b).ringOk := by
  have made : t.made.bufCount ≤ t.made.capacity ∧ t.made.ringOk := by
    unfold Ts.made
    split
    · exact ⟨Nat.zero_le _, Nat.le_refl _, Nat.zero_le _⟩
    · exact ⟨hc, ok⟩
  rw [t.afterCheck_eq]
  split
  · exact ⟨hc, ok⟩
  split
  · exact made
  split
  · exact made
  · next free =>
    have room := t.made_counts h hc (Bool.eq_false_iff.mpr free)
    rw [t.enqueued_recorded h hc (Bool.eq_false_iff.mpr free)]
    obtain ⟨-, low, high⟩ := made
    refine ⟨room, ?_⟩
    show t.made.readCount ≤ t.made.bufCount + 1 ∧ t.made.bufCount + 1 ≤ t.made.readCount + t.made.capacity
    omega

end

/-! ### The operation -/

section

variable {s0 s t u : State} {d i k n : Nat} {t0 m : Ts} {rb : Rb} {res : Resource} {l : Bool} {r : List Turn}
  {a : Except Err Nat} {shown : TsReg → List Xfer} {op : Instr}

theorem Ts.checkFree_iff : t0.checkFree = true ↔ t0.workerBusy = false ∧ t0.irqRun ≠ .checking := by
  simp [Ts.checkFree]

theorem eventCheckAlone_yields (hx : s.tss[d]? = some m) (hf : m.checkFree = true)
    (checks : (eventCheckOn d).Yields (s.modTs d Ts.beginCheck) a t) :
    (eventCheckAlone d).Yields s a (t.modTs d Ts.endCheck) := by
  have begins : (whenReady d (fun _ t => t.checkFree) fun _ t => t.beginCheck).Yields s 0 (s.modTs d Ts.beginCheck) := by
    rw [State.modTs_eq_setTs hx]
    exact whenReady_yields hx hf
  exact .bind begins (.bind checks (.bind (.set _) (.ret _)))

variable (w : TsWired s0 d t0 res i rb) (hf : t0.checkFree = true) (hl : t0.indexLock = none)
  (hb : s0.board.bitNew < 32)
include w hf hl hb

theorem eventCheckAlone_run (ht : s0.turns = []) : ∃ n t c, (eventCheckAlone d).Yields s0 (.ok n) t ∧
    TsRun s0 d t0 i rb (t0.afterCheck s0.board) c t := by
  have run := (TsRun.begin w ht).mod Ts.beginCheck (fun _ => rfl) rfl
  obtain ⟨n, t, checks, c, run⟩ := eventCheckOn_run w run hl hb
  have run : TsRun s0 d t0 i rb (t0.beginCheck.afterCheck s0.board) c t := run
  have ended := run.mod Ts.endCheck (fun _ => rfl) rfl
  rw [Ts.endCheck_afterCheck _ _ (Ts.checkFree_iff.mp hf).1] at ended
  exact ⟨n, _, c, eventCheckAlone_yields w.device hf checks, ended⟩

variable (hs : ¬(t0.stuck = true ∧ s0.board.fullPolicy = .skip)) (hp : t0.hw.pending = true)
include hs hp

/-- What the wire shows of an event-check whose transfers succeed. -/
theorem eventCheckAlone_shows_walk (plan : BusPlan s0 d t0 i rb (Shown s0 n shown) fun _ _ _ _ => False)
    (ht : s0.turns = []) : ∃ a t f, (eventCheckAlone d).Yields s0 a t ∧ t.wire = f ++ s0.wire ∧
      f.length = 7 * n ∧ f.take (2 * n) = shown .arm ++ shown .ack := by
  have g := (TsSeat.begin w).mod Ts.beginCheck (fun _ => rfl) rfl
  have start : Shown s0 n shown [] (s0.modTs d Ts.beginCheck) := ⟨ht, [], rfl, .nil⟩
  obtain ⟨a, t, checks, ends⟩ := eventCheckOn_walk w plan g start hl hb hs hp
  match a with
  | .ok v =>
    obtain ⟨-, good⟩ := ends
    obtain ⟨f, wire, len, first⟩ := good.checked
    exact ⟨_, _, f, eventCheckAlone_yields w.device hf checks, wire, len, first⟩
  | .error e =>
    obtain ⟨-, l, x, -, bad⟩ := ends
    exact bad.elim

/-- An event-check of which a transfer fails. -/
theorem eventCheckAlone_fails (hk : rb.backend = .i2c) (hr : rb.hasRead32 = false) (hw : rb.hasWrite32 = false)
    (hc : checkOp s0.me.op = true) (last : k < 14) (ht : s0.turns = List.replicate k .go ++ .fail l :: r) :
    ∃ t, (eventCheckAlone d).Yields s0 (.error .io) t ∧ t.turns = r ∧ TsSeat s0 d t0 i rb (t0.checkFailed k l) t := by
  have g := (TsSeat.begin w).mod Ts.beginCheck (fun _ => rfl) rfl
  obtain ⟨a, t, checks, ends⟩ := eventCheckOn_walk w (failPlan (k := k) (l := l) (r := r) w hk hr hw) g
    ⟨Nat.zero_le _, ht⟩ hl hb hs hp
  match a with
  | .ok v =>
    obtain ⟨-, all, -⟩ := ends
    have all : 2 * 7 ≤ k := all
    omega
  | .error e =>
    obtain ⟨rfl, done, x, at_, low, high, rest, g⟩ := ends
    have ended := g.mod Ts.endCheck (fun _ => rfl) (by split <;> rfl)
    have idle := (Ts.checkFree_iff.mp hf).1
    have acted : ((t0.beginCheck.checkCells s0.board x).acted s0.board x (checkValue s0.board x)).endCheck =
        (t0.checkCells s0.board x).acted s0.board x (checkValue s0.board x) :=
      congrArg (Ts.acted · s0.board x (checkValue s0.board x)) (t0.endCheck_checkCells s0.board x idle)
    rw [Ts.endCheck_ite, acted, t0.endCheck_checkCells _ _ idle, Ts.checkFailed_of s0.board at_ hp hc low high] at ended
    exact ⟨_, eventCheckAlone_yields w.device hf checks, rest, ended⟩

end

/-- Settles O51: by whether another check runs, and whether a transfer of its accesses fails. -/
theorem eventCheck : Obligations.EventCheck := by
  unfold Obligations.EventCheck
  intro s d i t res rb hi w lock hb room count full empty ev seen kept skip t' free
  have stuck : t.stuck = true ↔ full := t.stuck_iff
  have skips : (t.stuck = true ∧ s.board.fullPolicy = .skip) ↔ skip := and_congr_left' stuck
  have cells : t.afterCheck s.board = t' := by
    rw [t.afterCheck_eq]
    refine if_congr skips rfl (if_congr Iff.rfl rfl ?_)
    by_cases h : t.stuck = true
    · rw [if_pos h, if_pos (stuck.mp h)]
      rfl
    · rw [if_neg h, if_neg (mt stuck.mpr h)]
      exact t.enqueued_recorded room count (Bool.eq_false_iff.mpr h) _
  have freed : t.checkFree = true ↔ free := Ts.checkFree_iff
  have start : TsWired (s.start (.eventCheck d)) d t res i rb := w.start _ hi rfl
  refine ⟨fun now turns => ?runs, fun now noSkip pending i2c halves reads k l r last turns => ?fails,
    fun busy => ?waits, fun ok => ?ring, ?nsec⟩
  case runs =>
    obtain ⟨n, v, c, ends, run⟩ := eventCheckAlone_run start (freed.mpr now) lock hb turns
    rw [show t.afterCheck (s.start (.eventCheck d)).board = t' from cells] at run
    obtain ⟨steps, bytes, still⟩ := State.performTs_ends hi w.device w.kept (asUnit_yields ends) run.still
    obtain ⟨x, wire⟩ := State.perform_shows ((tsEnter_shows d).bind fun _ => (eventCheckAlone_shows d).q fun _ => .ret _) steps
    refine ⟨_, x, steps, run.turns, bytes, still, wire, ?_⟩
    intro noSkip pending wrote sent arm ack
    have shown {n : Nat} {f : TsReg → List Xfer} (plan : BusPlan (s.start (.eventCheck d)) d t i rb
        (Shown (s.start (.eventCheck d)) n f) fun _ _ _ _ => False) :
        x.length = 7 * n ∧ x.take (2 * n) = f .arm ++ f .ack := by
      obtain ⟨_, u, y, walks, record, len, first⟩ := eventCheckAlone_shows_walk start (freed.mpr now) lock hb
        (fun h => noSkip (skips.mp h)) pending plan turns
      have same : v.wire = u.wire := ends.wire_unique walks
      have same : x ++ s.wire = y ++ s.wire := wire.symm.trans (same.trans record)
      rw [List.append_cancel_right same]
      exact ⟨len, first⟩
    refine ⟨fun reads writes => shown (nativePlan start reads writes), fun i2c reads writes => ?_⟩
    obtain ⟨len, first⟩ := shown (i2cPlan start i2c reads writes)
    refine ⟨len, first.trans ?_⟩
    have high (off : U32) : highAddr (res.base + off) = res.base + (off + 2) := BitVec.add_assoc _ _ _
    simp only [high]
    rfl
  case fails =>
    obtain ⟨v, ends, rest, g⟩ := eventCheckAlone_fails start (freed.mpr now) lock hb (fun h => noSkip (skips.mp h))
      pending i2c halves reads rfl last turns
    obtain ⟨u, steps, turns, bytes, still⟩ := g.performs hi w (asUnit_error ends)
    exact ⟨u, steps, turns.trans rest, bytes, still⟩
  case waits =>
    have early : t.checkFree = false := Bool.eq_false_iff.mpr fun h => busy (freed.mp h)
    exact State.performTs_waits hi w.device w.kept (whenReady_waits (s := s.doing _) w.device early).bind.bind
  case ring =>
    rw [← cells]
    exact t.afterCheck_ringOk s.board room count ok
  case nsec =>
    show (BitVec.ofNat 32 (t.hw.latNsec.toNat % 1000000000)).toNat < 1000000000
    rw [BitVec.toNat_ofNat]
    exact (Nat.mod_le _ _).trans_lt (Nat.mod_lt _ (by decide))

end Sys2Proof.Machine
end

section
/-!
The parts of `ts_read` (spec/43_timestamper.md rules R512, R513): the copy of the records, the slice, and the read on its
handle, on a device whose locks are free.
-/

namespace Sys2Proof.Machine

open Sys2Proof

/-! ### The copy (rule R512) -/

/-- The running agent's buffer holds `m`. -/
def State.withBuffer (s : State) (m : Memory) : State := s.setMe fun a => { a with buffer := m }

theorem Event.bytes_length (e : Endian) (ev : Event) : (ev.bytes e).length = 16 := by
  simp [Event.bytes, bytesIn_length]

/-- What `n` records from slot `k` on, copied from byte `16 * i` on, leave in the buffer. -/
structure Copied (s : State) (d n k i : Nat) (m : Memory) : Prop where
  outside : ∀ y, y < 16 * i ∨ 16 * (i + n) ≤ y → Memory.read m y = s.bufByte y
  records : ∀ j ev, j < n → s.slotOf d (k + j) = some ev → ∀ l, l < 16 →
    Memory.read m (16 * (i + j) + l) = (ev.bytes s.board.hostEndian)[l]?

theorem copyRecords_full {d : Nat} : ∀ (n k i : Nat) (s : State), (∀ j, j < n → s.slotOf d (k + j) ≠ none) →
    ∃ m, copyRecords d n k i s = s.withBuffer m ∧ Copied s d n k i m := by
  intro n
  induction n with
  | zero => exact fun k i s _ => ⟨s.me.buffer, rfl, fun _ _ => rfl, fun _ _ h => absurd h (Nat.not_lt_zero _)⟩
  | succ n ih =>
    intro k i s written
    obtain ⟨ev, first⟩ := Option.ne_none_iff_exists'.mp (written 0 (Nat.zero_lt_succ n))
    have first : s.slotOf d k = some ev := first
    have len := ev.bytes_length s.board.hostEndian
    obtain ⟨m, copies, outside, records⟩ := ih (k + 1) (i + 1)
      (s.toBuffer (16 * i) (ev.bytes s.board.hostEndian)) fun j hj => by
        rw [show k + 1 + j = k + (j + 1) by omega]
        exact written (j + 1) (by omega)
    refine ⟨m, ?_, fun y hy => ?_, fun j ev' hj found l hl => ?_⟩
    · rw [copyRecords, first]
      exact copies
    · rw [outside y (by omega)]
      exact Memory.read_writeBytes_other _ _ _ _ (by omega)
    · match j with
      | 0 =>
        cases first.symm.trans found
        rw [outside _ (by omega)]
        have hl' : l < (ev.bytes s.board.hostEndian).length := by omega
        rw [List.getElem?_eq_getElem hl']
        exact Memory.read_writeBytes_at _ _ _ _ hl'
      | j + 1 =>
        rw [show 16 * (i + (j + 1)) + l = 16 * (i + 1 + j) + l by omega]
        refine records j ev' (by omega) ?_ l hl
        rw [show k + 1 + j = k + (j + 1) by omega]
        exact found

theorem drawBytes_eq : ∀ (n : Nat) (s : State), (State.drawBytes n s).2 = s.afterDraws n ∧
    (State.drawBytes n s).1.length = n
  | 0, _ => ⟨rfl, rfl⟩
  | n + 1, s => by
    obtain ⟨draws, len⟩ := drawBytes_eq n s.afterDraw
    exact ⟨draws, by rw [State.drawBytes, List.length_cons, len]⟩

section

variable {s t u : State} {d h n k max c : Nat} {x y z : Ts} {nb : Bool} {r : Except Err Nat} {len : U32}

theorem copyOut_yields (room : 16 * n ≤ s.me.bufferSize) (written : ∀ j, j < n → s.slotOf d (k + j) ≠ none) :
    ∃ m, (copyOut d k n).Yields s 0 (s.withBuffer m) ∧ Copied s d n k 0 m := by
  obtain ⟨m, copies, copied⟩ := copyRecords_full n k 0 s written
  exact ⟨m, .step ((if_pos room).trans (congrArg _ copies)), copied⟩

theorem copyOut_fails (small : s.me.bufferSize < 16 * n) : ∃ m,
    (copyOut d k n).Yields s 1 ((s.afterDraws s.me.bufferSize).withBuffer m) ∧
      ∀ y, s.me.bufferSize ≤ y → Memory.read m y = s.bufByte y := by
  obtain ⟨draws, size⟩ := drawBytes_eq s.me.bufferSize s
  refine ⟨Memory.writeBytes s.me.buffer 0 (State.drawBytes s.me.bufferSize s).1, .step ?_, fun y hy => ?_⟩
  · refine (if_neg (Nat.not_le.mpr small)).trans ?_
    rw [draws, afterDraws_eq]
    rfl
  · exact Memory.read_writeBytes_other _ _ _ _ (by omega)

/-! ### The steps of a read -/

theorem State.setTs_self (hx : s.tss[d]? = some x) : s.setTs d x = s := by
  have same : s.tss.modify d (fun _ => x) = s.tss := modify_self _ _ _ fun y hy => by
    rw [hx] at hy
    exact Option.some.inj hy
  rw [State.setTs, State.modTs, same]

theorem pausePoint_yields (ht : s.turns = []) : pausePoint.Yields s 0 s := by
  have same : s.dropTurns 1 = s := by
    rw [State.dropTurns, ht, List.drop_nil, ← ht]
  exact .xfer (s.clear_of_nil ht 1) (by rw [same])

section

variable (hx : s.tss[d]? = some x)
include hx

section

variable (ha : s.atomic = false)
include ha

theorem acquireReaderInt_interrupted (hs : s.me.signal = true) : (acquireReaderInt d).Yields s 1 s.takeSignal :=
  .step (by simp [State.onTs_some hx, ha, hs])

theorem acquireReaderInt_yields (hs : s.me.signal = false) (hl : x.readerLock = none) :
    (acquireReaderInt d).Yields s 0 (s.setTs d (x.withReader (some s.me.id))) :=
  .step (by simp [State.onTs_some hx, ha, hs, hl, State.modTs_eq_setTs hx, Ts.withReader])

theorem acquireReaderInt_waits (hs : s.me.signal = false) (hl : x.readerLock ≠ none) :
    (acquireReaderInt d).Blocks s [] (s.setMe fun a => { a with blocked := some .readerLock }) :=
  .act (by simp [State.onTs_some hx, ha, hs, hl, State.blockOn])

theorem awaitReadable_interrupted (hs : s.me.signal = true) : (awaitReadable d).Yields s 1
    (s.takeSignal.modTs d fun x => { x with waiters := x.waiters.filter (· ≠ s.me.id) }) :=
  .step (by simp [State.onTs_some hx, ha, hs])

theorem awaitReadable_waits (hs : s.me.signal = false) (hw : x.waiters.contains s.me.id = false)
    (hr : x.readable = false) : (awaitReadable d).Blocks s []
      ((s.modTs d fun x => { x with waiters := x.waiters ++ [s.me.id] }).setMe fun a => { a with blocked := some .waitq }) :=
  .act (by rw [State.onTs_some hx, ha, hs, hw, hr]; rfl)

end

theorem acquireIndex_yields (hl : x.indexLock = none) :
    (acquireIndex d).Yields s 0 (s.setTs d (x.lockedBy s.me.id)) :=
  .step (by rw [State.onTs_some hx, if_pos hl, State.modTs_eq_setTs hx]; rfl)

/-- A cell that is read inside the index lock. -/
theorem underIndex_get (hl : x.indexLock = none) (f : Ts → Nat) (hf : ∀ t l, f (Ts.lockedBy t l) = f t) :
    (underIndex d (tsGet d f)).Yields s (f x) s := by
  have reads := tsGet_yields (State.setTs_device hx (x.lockedBy s.me.id)) f
  rw [hf] at reads
  have yields := underIndex_yields hx hl hl reads
  rwa [State.setTs_self hx] at yields

theorem releaseIndex_locked (hl : x.indexLock = none) :
    (releaseIndex d).Yields (s.setTs d (x.lockedBy s.me.id)) () s := by
  have free : ({ x.lockedBy s.me.id with indexLock := none } : Ts) = x := by rw [← hl]; rfl
  have sets := tsSet_setTs (s := s) (d := d) (x.lockedBy s.me.id) fun t => { t with indexLock := none }
  rwa [free, State.setTs_self hx] at sets

/-- Past its wait a reader that finds nothing (rule R513). -/
theorem readSlice_nothing (hl : x.indexLock = none) (empty : x.bufCount ≤ x.readCount)
    (next : (nothingToRead d nb).Yields s r t) : (readSlice d max nb).Yields s r t := by
  have locked := State.setTs_device hx (x.lockedBy s.me.id)
  refine .bind (acquireIndex_yields hx hl) (.bind (tsGet_yields locked _) (.bind (tsGet_yields locked _)
    (.bind (releaseIndex_locked hx hl) ?_)))
  have avail : (x.lockedBy s.me.id).bufCount - (x.lockedBy s.me.id).readCount = 0 := Nat.sub_eq_zero_of_le empty
  rw [if_pos avail]
  exact next

/-- Past its wait a reader takes what there is (rule R513). -/
theorem readSlice_takes (hl : x.indexLock = none) (unread : x.readCount < x.bufCount)
    (next : (takeRecords d x.readCount (min (x.bufCount - x.readCount) max)).Yields s r t) :
    (readSlice d max nb).Yields s r t := by
  have locked := State.setTs_device hx (x.lockedBy s.me.id)
  refine .bind (acquireIndex_yields hx hl) (.bind (tsGet_yields locked _) (.bind (tsGet_yields locked _)
    (.bind (releaseIndex_locked hx hl) ?_)))
  have avail : (x.lockedBy s.me.id).bufCount - (x.lockedBy s.me.id).readCount ≠ 0 := Nat.sub_ne_zero_of_lt unread
  rw [if_neg avail]
  exact next

theorem directMode_yields : (directMode d).Yields s (decide (x.mode = .direct)).toNat s := tsGet_yields hx _

theorem releaseReader_yields : (releaseReader d).Yields s () (s.setTs d (x.withReader none)) := by
  have sets := tsSet_setTs (s := s) (d := d) x fun t => t.withReader none
  rwa [State.setTs_self hx] at sets

/-- A check is queued. -/
def Ts.queueCheck (t : Ts) : Ts := { t with workPending := true }

/-- In `Direct` mode a reader that finds nothing queues a check. -/
theorem nothingToRead_direct (hm : x.mode = .direct) : (nothingToRead d nb).Yields s (.error .again)
    (s.setTs d (x.queueCheck.withReader none)) := by
  have queues : (tsSet d fun t => { t with workPending := true }).Yields s () (s.setTs d x.queueCheck) := by
    have sets := tsSet_setTs (s := s) (d := d) x Ts.queueCheck
    rwa [State.setTs_self hx] at sets
  refine .bind (directMode_yields hx) ?_
  rw [if_pos (by rw [hm]; rfl)]
  refine .bind queues (.bind releaseReader_setTs (.bind (directMode_yields (State.setTs_device hx _)) ?_))
  rw [if_pos (.inl (by show (decide (x.mode = .direct)).toNat = 1; rw [hm]; rfl))]
  exact .raise _

theorem nothingToRead_nonblock (hm : x.mode ≠ .direct) :
    (nothingToRead d true).Yields s (.error .again) (s.setTs d (x.withReader none)) := by
  refine .bind (directMode_yields hx) ?_
  rw [if_neg (by rw [decide_eq_false hm]; exact nofun)]
  refine .bind (.ret ()) (.bind (releaseReader_yields hx) (.bind (directMode_yields (State.setTs_device hx _)) ?_))
  rw [if_pos (.inr rfl)]
  exact .raise _

/-- The slice that a reader copies, and its place in the ring. -/
theorem takeRecords_yields (ht : s.turns = []) (hl : x.indexLock = none) (room : 16 * n ≤ s.me.bufferSize)
    (written : ∀ j, j < n → x.slot (k + j) ≠ none) : ∃ m, Copied s d n k 0 m ∧
      (takeRecords d k n).Yields s (.ok (16 * n)) ((s.setTs d ((x.advance n).withReader none)).withBuffer m) := by
  have slots (j : Nat) : s.slotOf d j = x.slot j := by rw [State.slotOf, hx]
  obtain ⟨m, copies, copied⟩ := copyOut_yields (s := s) (d := d) (k := k) room fun j hj => by
    rw [slots]
    exact written j hj
  have kept : (s.withBuffer m).tss[d]? = some x := hx
  have advances : (underIndex d (tsSet d fun t => t.advance n)).Yields (s.withBuffer m) ()
      ((s.withBuffer m).setTs d (x.advance n)) := underIndex_yields kept hl hl (tsSet_setTs _ _)
  refine ⟨m, copied, ?_⟩
  refine .bind (pausePoint_yields ht) (.bind copies ?_)
  rw [if_neg (by decide)]
  refine .bind (pausePoint_yields ht) (.bind advances (.bind releaseReader_setTs ?_))
  rw [show n * Config.recordSize = 16 * n from Nat.mul_comm n 16]
  exact .ok _

theorem takeRecords_fails (ht : s.turns = []) (small : s.me.bufferSize < 16 * n) : ∃ m,
    (∀ y, s.me.bufferSize ≤ y → Memory.read m y = s.bufByte y) ∧ (takeRecords d k n).Yields s (.error .fault)
      (((s.setTs d (x.withReader none)).afterDraws s.me.bufferSize).withBuffer m) := by
  obtain ⟨m, fails, outside⟩ := copyOut_fails (d := d) (k := k) small
  refine ⟨m, outside, .bind (pausePoint_yields ht) (.bind fails ?_)⟩
  have kept : ((s.afterDraws s.me.bufferSize).withBuffer m).tss[d]? = some x := by
    rw [afterDraws_eq]
    exact hx
  rw [if_pos rfl]
  have released : ((s.setTs d (x.withReader none)).afterDraws s.me.bufferSize).withBuffer m =
      ((s.afterDraws s.me.bufferSize).withBuffer m).setTs d (x.withReader none) := by
    rw [afterDraws_eq, afterDraws_eq]
    rfl
  rw [released]
  exact .bind (releaseReader_yields kept) (.raise _)

/-! ### A reader with the reader lock free -/

section

variable (ha : s.atomic = false) (hs : s.me.signal = false) (hr : x.readerLock = none) (hl : x.indexLock = none)
include ha hs hr hl

/-- A reader that need not wait takes the slice. -/
theorem readRecords_yields (now : x.readable = true ∨ nb = true)
    (next : (readSlice d max nb).Yields (s.setTs d (x.withReader (some s.me.id))) r t) :
    (readRecords d max nb).Yields s r t := by
  refine .bind (acquireReaderInt_yields hx ha hs hr) ?_
  rw [if_neg (by decide)]
  refine .bind (underIndex_get (State.setTs_device hx (x.withReader (some s.me.id))) hl (fun t => t.readable.toNat) fun _ _ => rfl) ?_
  rw [if_pos (now.imp_left fun h => by show x.readable.toNat = 1; rw [h]; rfl)]
  exact next

/-- A reader that gets something delivers it. -/
theorem readRecords_delivers (ht : s.turns = []) (unread : x.readCount < x.bufCount)
    (room : 16 * min (x.bufCount - x.readCount) max ≤ s.me.bufferSize)
    (written : ∀ j, j < min (x.bufCount - x.readCount) max → x.slot (x.readCount + j) ≠ none) :
    ∃ m, Copied s d (min (x.bufCount - x.readCount) max) x.readCount 0 m ∧
      (readRecords d max nb).Yields s (.ok (16 * min (x.bufCount - x.readCount) max))
        ((s.setTs d (x.advance (min (x.bufCount - x.readCount) max))).withBuffer m) := by
  have locked := State.setTs_device hx (x.withReader (some s.me.id))
  obtain ⟨m, copied, takes⟩ := takeRecords_yields (k := x.readCount) locked ht hl room written
  have slots : ∀ j, s.slotOf d j = (s.setTs d (x.withReader (some s.me.id))).slotOf d j := fun j => by
    rw [State.slotOf, State.slotOf, hx, locked]
    rfl
  rw [State.setTs_setTs] at takes
  have free : ((x.withReader (some s.me.id)).advance (min (x.bufCount - x.readCount) max)).withReader none =
      x.advance (min (x.bufCount - x.readCount) max) := Ts.withReader_none (t := x.advance _) hr
  rw [free] at takes
  refine ⟨m, ⟨copied.outside, fun j ev hj found => copied.records j ev hj ((slots _).symm.trans found)⟩, ?_⟩
  refine readRecords_yields hx ha hs hr hl (.inl (by simp [Ts.readable, unread])) (readSlice_takes locked hl unread takes)

theorem readRecords_faults (ht : s.turns = []) (unread : x.readCount < x.bufCount)
    (small : s.me.bufferSize < 16 * min (x.bufCount - x.readCount) max) :
    ∃ m, (∀ y, s.me.bufferSize ≤ y → Memory.read m y = s.bufByte y) ∧
      (readRecords d max nb).Yields s (.error .fault) ((s.afterDraws s.me.bufferSize).withBuffer m) := by
  have locked := State.setTs_device hx (x.withReader (some s.me.id))
  obtain ⟨m, outside, fails⟩ := takeRecords_fails (k := x.readCount) locked ht small
  have free : (x.withReader (some s.me.id)).withReader none = x := Ts.withReader_none (t := x) hr
  rw [State.setTs_setTs, free, State.setTs_self hx] at fails
  refine ⟨m, outside, readRecords_yields hx ha hs hr hl (.inl (by simp [Ts.readable, unread])) 
    (readSlice_takes locked hl unread fails)⟩

theorem readRecords_direct (empty : x.bufCount ≤ x.readCount) (hm : x.mode = .direct) :
    (readRecords d max nb).Yields s (.error .again) (s.setTs d x.queueCheck) := by
  have locked := State.setTs_device hx (x.withReader (some s.me.id))
  have finds := nothingToRead_direct (nb := nb) locked hm
  have free : (x.withReader (some s.me.id)).queueCheck.withReader none = x.queueCheck :=
    Ts.withReader_none (t := x.queueCheck) hr
  rw [State.setTs_setTs, free] at finds
  refine readRecords_yields hx ha hs hr hl (.inl (by simp [Ts.readable, hm])) (readSlice_nothing locked hl empty finds)

theorem readRecords_nonblock (empty : x.bufCount ≤ x.readCount) (hm : x.mode ≠ .direct) :
    (readRecords d max true).Yields s (.error .again) s := by
  have locked := State.setTs_device hx (x.withReader (some s.me.id))
  have finds := nothingToRead_nonblock locked hm
  have free : (x.withReader (some s.me.id)).withReader none = x := Ts.withReader_none (t := x) hr
  rw [State.setTs_setTs, free, State.setTs_self hx] at finds
  refine readRecords_yields hx ha hs hr hl (.inr rfl) (readSlice_nothing locked hl empty finds)

end

end

/-! ### The read on its handle (rules R505, R513, log entry 20) -/

/-- A read begins on a handle on which `c` are in progress. -/
def Ts.enters (t : Ts) (h c : Nat) : Ts := t.setHandle h (.held (c + 1))

/-- A read on a handle ends. -/
def Ts.leaves (t : Ts) (h : Nat) : Ts := t.setHandle h (t.handle h).leave

theorem Ts.handle_enters (hh : x.handles[h]? = some (.held c)) : (x.enters h c).handle h = .held (c + 1) := by
  obtain ⟨inside, -⟩ := List.getElem?_eq_some_iff.mp hh
  exact Ts.handle_of (t := x.enters h c) (by simp [Ts.enters, Ts.setHandle, inside])

theorem Ts.leaves_enters (hh : x.handles[h]? = some (.held c)) : (x.enters h c).leaves h = x := by
  have back : (x.handles.set h (.held (c + 1))).set h (.held c) = x.handles := by
    rw [List.set_set]
    exact List.ext_getElem? fun j => by
      by_cases at_ : h = j
      · subst at_
        rw [hh, List.getElem?_set_self (List.getElem?_eq_some_iff.mp hh).1]
      · rw [List.getElem?_set_ne at_]
  rw [Ts.leaves, Ts.handle_enters hh]
  show ({ x with handles := (x.handles.set h (.held (c + 1))).set h (.held c) } : Ts) = x
  rw [back]

theorem leaveHandle_yields (hx : s.tss[d]? = some x) :
    (leaveHandle d h).Yields s (decide (x.handle h = .closing 0)).toNat (s.setTs d (x.leaves h)) :=
  .step (by rw [State.onTs_some hx, State.modTs_eq_setTs hx]; rfl)

/-- A read whose handle is still open when it ends. -/
theorem tsReadOn_yields (hx : s.tss[d]? = some x) (hh : x.handles[h]? = some (.held c)) (hlen : 16 ≤ len.toNat)
    (hy : y.handles[h]? = some (.held c)) (hu : u.tss[d]? = some (y.enters h c))
    (reads : (readRecords d (len.toNat / 16) nb).Yields (s.setTs d (x.enters h c)) r u) :
    (tsReadOn d h len nb).Yields s r (u.setTs d y) := by
  have some : len.toNat / Config.recordSize ≠ 0 := Nat.div_ne_zero_iff.mpr ⟨by decide, hlen⟩
  have enters := needOpen_yields (max := len.toNat / 16) hx (Ts.handle_of hh) some
  rw [State.modTs_eq_setTs hx] at enters
  have leaves := leaveHandle_yields (h := h) hu
  rw [Ts.handle_enters hy, Ts.leaves_enters hy] at leaves
  refine .bind enters ?_
  rw [if_neg some]
  refine .bind reads (.bind leaves ?_)
  rw [if_neg (by simp)]
  exact .ret r

theorem asBytes_yields {o : Op (Except Err Nat)} (ho : o.Yields s r t) : (asBytes o).Yields s (r.map .bytes) t := by
  cases r with
  | ok n => exact ho.q (.ok _)
  | error e => exact ho.qError

/-- What a read on an open handle leaves, where it is known what it leaves with its handle marked. -/
theorem exec_tsRead_ends (hi : s.Idle) (hx : s.tss[d]? = some x) (kept : x.removed = false)
    (hh : x.handles[h]? = some (.held c)) (hlen : 16 ≤ len.toNat) (hy : y.handles[h]? = some (.held c))
    (hu : u.tss[d]? = some z) (reads : (readRecords d (len.toNat / 16) nb).Yields
      ((s.doing (.tsRead d h len nb)).setTs d (x.enters h c)) r ((u.doing (.tsRead d h len nb)).setTs d (y.enters h c))) :
    exec (.tsRead d h len nb) s = .next ((u.setTs d y).finish (r.map .bytes)) := by
  have marked : ((u.doing (.tsRead d h len nb)).setTs d (y.enters h c)).tss[d]? = some (y.enters h c) :=
    State.setTs_device hu _
  have ends := tsReadOn_yields (s := s.doing (.tsRead d h len nb)) hx hh hlen hy marked reads
  rw [State.setTs_setTs] at ends
  exact State.performTs_yields (t := u.setTs d y) hi hx kept (asBytes_yields ends)

end

/-- Settles O48: the slice is copied record by record, and `read_count` advances by their number. -/
theorem tsReadDelivers : Obligations.TsReadDelivers := by
  unfold Obligations.TsReadDelivers
  intro s d h len nonblock t hs ht kept opened hlen ha signal reader index unread n room written
  obtain ⟨c, held⟩ := Ts.isOpen_iff.mp opened
  have atomic : (s.doing (.tsRead d h len nonblock)).atomic = false := (State.doing_atomic hs.1.1 rfl).trans ha
  have entered := State.setTs_device (s := s.doing (.tsRead d h len nonblock)) ht (t.enters h c)
  obtain ⟨m, copied, reads⟩ := readRecords_delivers (nb := nonblock) (max := len.toNat / 16) entered atomic signal reader
    index hs.2 unread room written
  rw [State.setTs_setTs] at reads
  have advanced : s.setTs d (t.advance n) = s.modTs d fun x => { x with readCount := x.readCount + n } := by
    have bound : min (t.readCount + n) t.bufCount = t.readCount + n := by omega
    rw [State.modTs_eq_setTs ht fun x => { x with readCount := x.readCount + n }, Ts.advance, bound]
  refine ⟨m, ?_, fun y hy => copied.outside y (.inr (by rw [Nat.zero_add]; exact hy)), fun k ev hk found j hj => ?_⟩
  · rw [← advanced]
    exact exec_tsRead_ends (u := s.withBuffer m) (y := t.advance n) hs.1 ht kept held hlen held ht reads
  · have slots : ((s.doing (.tsRead d h len nonblock)).setTs d (t.enters h c)).slotOf d (t.readCount + k) =
        t.slot (t.readCount + k) := by
      rw [State.slotOf, entered]
      rfl
    have byte := copied.records k ev hk (slots.trans found) j hj
    rw [Nat.zero_add] at byte
    exact byte

end Sys2Proof.Machine
end

section
/-!
A `ts_read` that delivers nothing (spec/43_timestamper.md rules R513, R514, R505): its rejections, its waits, and what a
host signal makes of them.
-/

namespace Sys2Proof.Machine

open Sys2Proof

/-! ### Answers that an operation has had -/

/-- Over the answers `l`, which it has had before, the operation goes on to `o'`. -/
def Op.Reaches {α : Type} (o : Op α) (l : List Nat) (o' : Op α) : Prop :=
  ∀ (k : α → Op (Except Err Res)) (c : Option Nat) (h seen : List Nat) (s : State),
    (o.bind k).run c (l ++ h) seen s = (o'.bind k).run c h seen s

section

variable {α β : Type} {s t u : State} {o o' : Op (Except Err Res)} {l : List Nat} {i : Instr} {r : Except Err Res} {n : Nat}

theorem Op.Reaches.refl (o : Op α) : o.Reaches [] o := fun _ _ _ _ _ => rfl

theorem Op.Reaches.act {f : State → Ans} {k : Nat → Op α} {o : Op α} {l : List Nat} (h : (k n).Reaches l o) :
    (Op.act f k).Reaches (n :: l) o := fun g => h g

theorem Op.Reaches.bind {o o' : Op α} {l : List Nat} {g : α → Op β} (h : o.Reaches l o') :
    (o.bind g).Reaches l (o'.bind g) := by
  intro k c more seen s
  rw [Op.bind_assoc, Op.bind_assoc]
  exact h _ c more seen s

theorem Op.Reaches.after {o : Op α} {g : α → Op β} {o' : Op β} {a : α} {l m : List Nat} (h : o.Reaches l (.ret a))
    (hg : (g a).Reaches m o') : (o.bind g).Reaches (l ++ m) o' := by
  intro k c more seen s
  rw [Op.bind_assoc, List.append_assoc, h]
  exact hg k c more seen s

/-- An operation that goes on ends in what the rest of it leaves. -/
theorem State.perform_reaches (hop : s.me.op = some i) (hc : s.cut = none) (hist : s.me.hist = l) (ho : o.Reaches l o')
    (ends : o'.Yields s.resume r t) : s.perform i o = .next (t.finish r) := by
  obtain ⟨seen, last⟩ := ends Op.ret s.me.hist
  have reaches := ho Op.ret none [] s.me.hist s.resume
  rw [List.append_nil, Op.bind_ret_right] at reaches
  subst hist
  rw [State.perform_resume s i o hop hc]
  exact reaches.trans last

/-- The operation answers `a` and leaves `t` after the answers `l`, a step for each, however many steps it may make. -/
def Op.Answers {α : Type} (o : Op α) (s : State) (l : List Nat) (a : α) (t : State) : Prop :=
  ∀ (k : α → Op (Except Err Res)) (c : Option Nat) (seen : List Nat),
    (o.bind k).run (c.map (· + l.length)) [] seen s = (k a).run c [] (seen ++ l) t

theorem Op.Answers.step {f : State → Ans} {n : Nat} (hf : f s = .go n t) : (Op.step f).Answers s [n] n t := by
  intro k c seen
  cases c <;> simp [Op.step, Op.bind, Op.run, spend, hf]

theorem Op.Answers.set (f : State → State) : (Op.set f).Answers s [0] () (f s) := by
  intro k c seen
  cases c <;> simp [Op.set, Op.bind, Op.run, spend]

theorem Op.Answers.ret (a : α) : (Op.ret a).Answers s [] a s := by
  intro k c seen
  simp [Op.bind]

theorem Op.Answers.bind {o : Op α} {g : α → Op β} {a : α} {b : β} {m : List Nat} (h : o.Answers s l a t)
    (hg : (g a).Answers t m b u) : (o.bind g).Answers s (l ++ m) b u := by
  intro k c seen
  have moves : c.map (· + (l ++ m).length) = (c.map (· + m.length)).map (· + l.length) := by
    cases c
    · rfl
    · simp [Nat.add_comm, Nat.add_left_comm]
  rw [Op.bind_assoc, moves, h, hg, List.append_assoc]

theorem Op.Answers.yields {o : Op α} {a : α} (h : o.Answers s l a t) : o.Yields s a t := fun k seen => ⟨_, h k none seen⟩

theorem Op.Answers.blocks {o : Op α} {g : α → Op β} {a : α} {m : List Nat} (h : o.Answers s l a t)
    (hg : (g a).Blocks t m u) : (o.bind g).Blocks s (l ++ m) u := by
  intro k seen
  have passes := h (fun a => (g a).bind k) none seen
  rw [Op.bind_assoc, ← List.append_assoc, ← hg]
  exact passes

end

section

variable {s t u v : State} {d h k max c : Nat} {x y : Ts} {nb : Bool} {r : Except Err Nat} {len : U32} {l : List Nat}
  {o : Op (Except Err Nat)} {w : WaitKind}

/-! ### The handle -/

theorem needOpen_faults (hx : s.tss[d]? = some x) (hh : x.isOpen h = false) :
    (needOpen d h max).Faults s .tsNotOpen s := by
  refine .step ?_
  rw [State.onTs_some hx]
  rw [Ts.isOpen] at hh
  cases hk : x.handle h <;> simp_all

theorem tsEnter_answers (hx : s.tss[d]? = some x) (kept : x.removed = false) : (tsEnter d).Answers s [0] 0 s :=
  .step (by simp [State.onTs_some hx, kept])

/-- A read of no records begins nothing. -/
theorem tsReadOn_short (hx : s.tss[d]? = some x) (hh : x.handles[h]? = some (.held c)) (hl : len.toNat < 16) :
    (tsReadOn d h len nb).Answers s [0] (.error (.inval .zeroRecords)) s := by
  have zero : len.toNat / Config.recordSize = 0 := Nat.div_eq_of_lt hl
  refine .bind (l := [0]) (m := []) (.step (n := 0) (t := s) ?_) ?_
  · rw [State.onTs_some hx, Ts.handle_of hh, zero]
    rfl
  · rw [if_pos zero]
    exact .ret _

/-- The rejection comes in the step of the check. -/
theorem exec_tsRead_short_cut (hi : s.Idle) (hx : s.tss[d]? = some x) (kept : x.removed = false)
    (hh : x.handles[h]? = some (.held c)) (hl : len.toNat < 16) (n : Nat) :
    exec (.tsRead d h len nb) { s with cut := some (n + 1) } = .next (s.finish (.error (.inval .zeroRecords))) := by
  have idle : ({ s with cut := some (n + 1) } : State).me.op ≠ some (.tsRead d h len nb) := by
    rw [show ({ s with cut := some (n + 1) } : State).me.op = none from hi.1]
    exact nofun
  have bytes : (asBytes (tsReadOn d h len nb)).Answers (s.doing (.tsRead d h len nb)) [0] (.error (.inval .zeroRecords))
      (s.doing (.tsRead d h len nb)) :=
    Op.Answers.bind (l := [0]) (m := []) (tsReadOn_short (s := s.doing _) hx hh hl) (.ret _)
  have rejects := (tsEnter_answers (s := s.doing (.tsRead d h len nb)) hx kept).bind (g := fun _ => asBytes _) bytes
  have run := rejects Op.ret (some n) []
  rw [Op.bind_ret_right, ← State.start_eq_doing hi] at run
  have ended : (s.start (.tsRead d h len nb)).finish (.error (.inval .zeroRecords)) =
      s.finish (.error (.inval .zeroRecords)) := by
    rw [State.start_eq_doing hi]
    rfl
  rw [← ended]
  exact (if_neg idle).trans run

/-! ### The waits -/

theorem tsSet_answers (y : Ts) (f : Ts → Ts) :
    (tsSet d f).Answers (s.setTs d y) [0] () (s.setTs d (f y)) := by
  rw [← State.modTs_setTs]
  exact .set _

/-- A cell that is read inside the index lock. -/
theorem underIndex_get_answers (hx : s.tss[d]? = some x) (hl : x.indexLock = none) (f : Ts → Nat)
    (hf : ∀ t l, f (Ts.lockedBy t l) = f t) : (underIndex d (tsGet d f)).Answers s [0, f x, 0] (f x) s := by
  have locked := State.setTs_device hx (x.lockedBy s.me.id)
  have acquires : (acquireIndex d).Answers s [0] 0 (s.setTs d (x.lockedBy s.me.id)) :=
    .step (by rw [State.onTs_some hx, if_pos hl, State.modTs_eq_setTs hx]; rfl)
  have reads : (tsGet d f).Answers (s.setTs d (x.lockedBy s.me.id)) [f x] (f x) (s.setTs d (x.lockedBy s.me.id)) :=
    .step (by rw [State.onTs_some locked, hf])
  have releases : (releaseIndex d).Answers (s.setTs d (x.lockedBy s.me.id)) [0] () s := by
    have free : ({ x.lockedBy s.me.id with indexLock := none } : Ts) = x := by rw [← hl]; rfl
    have sets := tsSet_answers (s := s) (d := d) (x.lockedBy s.me.id) fun t => { t with indexLock := none }
    rwa [free, State.setTs_self hx] at sets
  exact acquires.bind (reads.bind (releases.bind (.ret (f x))))

theorem readRecords_blocked (hx : s.tss[d]? = some x) (ha : s.atomic = false) (hs : s.me.signal = false)
    (hr : x.readerLock ≠ none) : (readRecords d max nb).Blocks s []
      (s.setMe fun a => { a with blocked := some .readerLock }) := (acquireReaderInt_waits hx ha hs hr).bind

/-- The steps before the wait on `waitq`, which hold the locks and give them up again. -/
theorem readRecords_waits (hx : s.tss[d]? = some x) (ha : s.atomic = false) (hs : s.me.signal = false)
    (hr : x.readerLock = none) (hl : x.indexLock = none) (hw : x.waiters.contains s.me.id = false)
    (empty : x.readable = false) : (readRecords d max false).Blocks s [0, 0, 0, 0, 0]
      ((s.modTs d fun x => { x with waiters := x.waiters ++ [s.me.id] }).setMe fun a => { a with blocked := some .waitq }) := by
  have held := State.setTs_device hx (x.withReader (some s.me.id))
  have takes : (acquireReaderInt d).Answers s [0] 0 (s.setTs d (x.withReader (some s.me.id))) :=
    .step (by simp [State.onTs_some hx, ha, hs, hr, State.modTs_eq_setTs hx, Ts.withReader])
  have looks : (underIndex d (tsGet d fun t => t.readable.toNat)).Answers (s.setTs d (x.withReader (some s.me.id)))
      [0, 0, 0] 0 (s.setTs d (x.withReader (some s.me.id))) := by
    have finds := underIndex_get_answers held hl (fun t => t.readable.toNat) fun _ _ => rfl
    rwa [show (x.withReader (some s.me.id)).readable = false from empty] at finds
  have gives : (releaseReader d).Answers (s.setTs d (x.withReader (some s.me.id))) [0] () s := by
    have sets := tsSet_answers (s := s) (d := d) (x.withReader (some s.me.id)) fun t => t.withReader none
    rwa [Ts.withReader_withReader, Ts.withReader_none hr, State.setTs_self hx] at sets
  refine takes.blocks (l := [0]) (m := [0, 0, 0, 0]) ?_
  rw [if_neg (by decide)]
  refine looks.blocks (l := [0, 0, 0]) (m := [0]) ?_
  rw [if_neg (by decide)]
  exact gives.blocks (m := []) (awaitReadable_waits hx ha hs hw empty).bind

/-- The end of a read on its handle. -/
def endRead (d h : Nat) (r : Except Err Nat) : Op (Except Err Nat) :=
  (leaveHandle d h).bind fun last => if last = 1 then (endUse d).bind fun _ => .ret r else .ret r

theorem tsReadOn_eq (hlen : 16 ≤ len.toNat) : tsReadOn d h len nb = (needOpen d h (len.toNat / 16)).bind fun _ =>
    (readRecords d (len.toNat / 16) nb).bind (endRead d h) := by
  have some : len.toNat / Config.recordSize ≠ 0 := Nat.div_ne_zero_iff.mpr ⟨by decide, hlen⟩
  unfold tsReadOn
  rw [if_neg some]
  rfl

theorem exec_tsRead_waits (hi : s.Idle) (hx : s.tss[d]? = some x) (kept : x.removed = false)
    (hh : x.handles[h]? = some (.held c)) (hlen : 16 ≤ len.toNat)
    (waits : (readRecords d (len.toNat / 16) nb).Blocks ((s.doing (.tsRead d h len nb)).setTs d (x.enters h c)) l
      ((u.doing (.tsRead d h len nb)).setMe fun a => { a with blocked := some w })) :
    exec (.tsRead d h len nb) s = .next (u.setMe fun a =>
      { a with op := some (.tsRead d h len nb), hist := 0 :: 0 :: l, blocked := some w }) := by
  have some : len.toNat / 16 ≠ 0 := Nat.div_ne_zero_iff.mpr ⟨by decide, hlen⟩
  have marks : (needOpen d h (len.toNat / 16)).Answers (s.doing (.tsRead d h len nb)) [0] 0
      ((s.doing (.tsRead d h len nb)).setTs d (x.enters h c)) := by
    refine .step ?_
    rw [State.onTs_some (s := s.doing _) hx, Ts.handle_of hh, ← State.modTs_eq_setTs (s := s.doing _) hx fun y => y.enters h c]
    exact congrArg _ (if_neg some)
  have rest : (tsReadOn d h len nb).Blocks (s.doing (.tsRead d h len nb)) (0 :: l)
      ((u.doing (.tsRead d h len nb)).setMe fun a => { a with blocked := Option.some w }) := by
    rw [tsReadOn_eq hlen]
    exact marks.blocks waits.bind
  have bytes : (asBytes (tsReadOn d h len nb)).Blocks (s.doing (.tsRead d h len nb)) (0 :: l) _ := rest.bind
  have all := (tsEnter_answers (s := s.doing (.tsRead d h len nb)) hx kept).blocks (g := fun _ => asBytes _) bytes
  rw [← State.start_eq_doing hi] at all
  exact State.perform_blocks hi all

/-! ### A reader that goes on with a host signal -/

theorem endUse_another (hx : s.tss[d]? = some x) (ha : s.atomic = false) (hl : x.cfgLock = none) (hu : 2 ≤ x.useCount) :
    (endUse d).Yields s (.ok 0) (s.setTs d { x with useCount := x.useCount - 1 }) := by
  have locked := State.setTs_device hx ({ x with useCount := x.useCount - 1, cfgLock := some s.me.id } : Ts)
  have unlocked := Ts.withCfg_none (t := { x with useCount := x.useCount - 1 }) hl
  refine .bind (acquireCfg_yields hx hl ha) (.bind (tsSet_setTs _ _) (.bind (tsGet_yields locked _) ?_))
  rw [if_neg (show x.useCount - 1 ≠ 0 by omega), ← unlocked]
  exact .bind releaseCfg_setTs (.ok 0)

theorem endRead_leaves (hx : s.tss[d]? = some x) (hh : x.handle h ≠ .closing 0) :
    (endRead d h r).Yields s r (s.setTs d (x.leaves h)) := by
  refine .bind (leaveHandle_yields hx) ?_
  rw [if_neg (by simp [hh])]
  exact .ret r

theorem endRead_last (hx : s.tss[d]? = some x) (hh : x.handle h = .closing 0) (ha : s.atomic = false)
    (hl : x.cfgLock = none) (hu : 2 ≤ x.useCount) :
    (endRead d h r).Yields s r (s.setTs d { x.leaves h with useCount := x.useCount - 1 }) := by
  have uses := endUse_another (State.setTs_device hx (x.leaves h)) ha hl hu
  rw [State.setTs_setTs] at uses
  refine .bind (leaveHandle_yields hx) ?_
  rw [if_pos (by simp [hh])]
  exact .bind uses (.ret r)

/-- The wait on `waitq` of a reader that found nothing, and what comes after it. -/
def waitForRecords (d : Nat) : Op (Except Err Nat) :=
  (awaitReadable d).bind fun stopped => if stopped = 1 then .raise .intr else .again readLoop

/-- The steps before the wait on `waitq` are not made again. -/
theorem readRecords_reaches : (readRecords d max false).Reaches [0, 0, 0, 0, 0] (waitForRecords d) := by
  have takes : (acquireReaderInt d).Reaches [0] (.ret 0) := .act (.refl _)
  have looks : (underIndex d (tsGet d fun t => t.readable.toNat)).Reaches [0, 0, 0] (.ret 0) :=
    .act (.act (.act (.refl _)))
  have gives : (releaseReader d).Reaches [0] (.ret ()) := .act (.refl _)
  refine takes.after (m := [0, 0, 0, 0]) ?_
  rw [if_neg (by decide)]
  refine looks.after (m := [0]) ?_
  rw [if_neg (by decide)]
  exact gives.after (.refl _)

theorem State.resume_finish (hc : s.cut = none) (y : Ts) (a : Except Err Res) :
    (s.resume.setTs d y).finish a = (s.setTs d y).finish a := by
  simp [State.resume, State.setTs, State.modTs, State.finish, State.setMe, ← hc]

/-- What a read leaves that is over where it goes on. -/
theorem exec_tsRead_resumes (hop : s.me.op = some (.tsRead d h len nb)) (hist : s.me.hist = 0 :: 0 :: l)
    (hc : s.cut = none) (hv : v.cut = none) (hlen : 16 ≤ len.toNat) (reaches : (readRecords d (len.toNat / 16) nb).Reaches l o)
    (stops : o.Yields s.resume r v.resume) (ends : (endRead d h r).Yields v.resume r (v.resume.setTs d y)) :
    exec (.tsRead d h len nb) s = .next ((v.setTs d y).finish (r.map .bytes)) := by
  have reads : (tsReadOn d h len nb).Reaches (0 :: l) (o.bind (endRead d h)) := by
    rw [tsReadOn_eq hlen]
    exact .act reaches.bind
  have all : ((tsEnter d).bind fun _ => asBytes (tsReadOn d h len nb)).Reaches (0 :: 0 :: l)
      (asBytes (o.bind (endRead d h))) := .act reads.bind
  rw [← State.resume_finish hv]
  exact State.perform_reaches hop hc hist all (asBytes_yields (.bind stops ends))

theorem Ts.leaves_of {z : TsHandle} (hh : x.handles[h]? = some z) : x.leaves h = x.setHandle h z.leave := by
  rw [Ts.leaves, Ts.handle_of hh]

/-- A read that a host signal has ended, on a handle of each kind. -/
theorem exec_tsRead_interrupted (hop : s.me.op = some (.tsRead d h len nb)) (hist : s.me.hist = 0 :: 0 :: l)
    (hc : s.cut = none) (hv : v.cut = none) (hlen : 16 ≤ len.toNat) (reaches : (readRecords d (len.toNat / 16) nb).Reaches l o)
    (intr : o.Yields s.resume (.error .intr) v.resume) (ha : v.resume.atomic = false) (hx : v.tss[d]? = some x) :
    (∀ k, x.handles[h]? = some (.held (k + 1)) → exec (.tsRead d h len nb) s =
        .next ((v.modTs d fun y => y.setHandle h (.held k)).finish (.error .intr))) ∧
      (∀ k, x.handles[h]? = some (.closing (k + 1)) → exec (.tsRead d h len nb) s =
        .next ((v.modTs d fun y => y.setHandle h (.closing k)).finish (.error .intr))) ∧
      (x.handles[h]? = some (.closing 0) → x.cfgLock = none → 2 ≤ x.useCount → exec (.tsRead d h len nb) s =
        .next ((v.modTs d fun y => { y.setHandle h .closed with useCount := y.useCount - 1 }).finish (.error .intr))) := by
  have ends {y : Ts} := exec_tsRead_resumes (y := y) hop hist hc hv hlen reaches intr
  have leaves (z : TsHandle) (hh : x.handles[h]? = some z) (more : z ≠ .closing 0) : exec (.tsRead d h len nb) s =
      .next ((v.modTs d fun y => y.setHandle h z.leave).finish (.error .intr)) := by
    have left := endRead_leaves (r := .error .intr) (s := v.resume) (h := h) hx (by rw [Ts.handle_of hh]; exact more)
    rw [State.modTs_eq_setTs hx fun y => y.setHandle h z.leave, ← Ts.leaves_of hh]
    exact ends left
  refine ⟨fun k hh => leaves _ hh nofun, fun k hh => leaves _ hh nofun, fun hh free another => ?_⟩
  have left := endRead_last (r := .error .intr) (s := v.resume) hx (Ts.handle_of hh) ha free another
  rw [State.modTs_eq_setTs hx fun y => { y.setHandle h .closed with useCount := y.useCount - 1 }]
  rw [Ts.leaves_of hh] at left
  exact ends left

end

/-- Settles O49: by what stops the reader, in the order of its steps. -/
theorem tsReadOtherwise : Obligations.TsReadOtherwise := by
  unfold Obligations.TsReadOtherwise
  intro s d h len nonblock t hs ht kept i mark resumes
  refine ⟨fun shut => ?fault, fun opened short => ?short, fun c held hlen ha => ?reads⟩
  case fault =>
    exact State.performTs_faults hs.1 ht kept (needOpen_faults (s := s.doing i) ht shut).bind.bind
  case short =>
    obtain ⟨c, held⟩ := Ts.isOpen_iff.mp opened
    have rejects := (tsReadOn_short (nb := nonblock) (s := s.doing i) ht held short).yields
    exact ⟨State.performTs_yields hs.1 ht kept (asBytes_yields rejects),
      exec_tsRead_short_cut hs.1 ht kept held short⟩
  case reads =>
    have atomic : (s.doing i).atomic = false := (State.doing_atomic hs.1.1 rfl).trans ha
    have entered := State.setTs_device (s := s.doing i) ht (t.enters h c)
    have entering : s.setTs d (t.enters h c) = s.modTs d (mark (.held (c + 1))) := (State.modTs_eq_setTs ht (mark (.held (c + 1)))).symm
    refine ⟨fun signal => ?signal, fun quiet locked => ⟨[0, 0], ?blocked, ?unblocked⟩, fun quiet reader index => ?unlocked⟩
    case signal =>
      have reads : (readRecords d (len.toNat / 16) nonblock).Yields ((s.doing i).setTs d (t.enters h c)) (.error .intr) _ :=
        .bind (acquireReaderInt_interrupted entered atomic signal) (.raise _)
      have ends := exec_tsRead_ends (u := s.takeSignal) (y := t) hs.1 ht kept held hlen held ht reads
      rwa [State.setTs_self (s := s.takeSignal) ht] at ends
    case blocked =>
      rw [← entering]
      exact exec_tsRead_waits (u := s.setTs d (t.enters h c)) hs.1 ht kept held hlen
        (readRecords_blocked entered atomic quiet locked)
    case unblocked =>
      intro u y x hop hist cut signal ha hy hx v
      have intr : (readRecords d (len.toNat / 16) nonblock).Yields u.resume (.error .intr) u.takeSignal.resume :=
        .bind (acquireReaderInt_interrupted (s := u.resume) hy ha signal) (.raise _)
      obtain ⟨open_, closing, last⟩ :=
        exec_tsRead_interrupted (v := u.takeSignal) hop hist cut cut hlen (.refl _) intr ha hy
      exact ⟨fun k e => open_ k (by rw [hx, e]), fun k e => closing k (by rw [hx, e]), fun e => last (by rw [hx, e])⟩
    case unlocked =>
      refine ⟨fun empty direct => ?direct, fun empty other now => ?nonblock,
        fun empty other waiting alone =>
          ⟨[0, 0, 0, 0, 0, 0, 0], ?waits, ?resumed⟩, fun unread small => ?faults⟩
      case direct =>
        have reads := readRecords_direct (nb := nonblock) (max := len.toNat / 16) entered atomic quiet reader index empty direct
        rw [State.setTs_setTs] at reads
        rw [State.modTs_eq_setTs ht fun x => { x with workPending := true }]
        exact exec_tsRead_ends (u := s) (y := t.queueCheck) hs.1 ht kept held hlen held ht reads
      case nonblock =>
        subst now
        have reads := readRecords_nonblock (max := len.toNat / 16) entered atomic quiet reader index empty other
        have ends := exec_tsRead_ends (u := s) (y := t) hs.1 ht kept held hlen held ht reads
        rwa [State.setTs_self ht] at ends
      case waits =>
        subst waiting
        have unreadable : (t.enters h c).readable = false := by
          show (decide (t.readCount < t.bufCount) || decide (t.mode = .direct)) = false
          simp [other, Nat.not_lt.mpr empty]
        have waits := readRecords_waits (max := len.toNat / 16) entered atomic quiet reader index alone unreadable
        rw [State.modTs_setTs] at waits
        have joins : (s.modTs d fun x => { mark (.held (c + 1)) x with waiters := x.waiters ++ [s.me.id] }) =
            s.setTs d { t.enters h c with waiters := t.waiters ++ [s.me.id] } := State.modTs_eq_setTs ht _
        rw [joins]
        exact exec_tsRead_waits (u := s.setTs d { t.enters h c with waiters := t.waiters ++ [s.me.id] })
          hs.1 ht kept held hlen waits
      case resumed =>
        subst waiting
        intro u y x hop hist cut signal ha hy hx v
        have intr : (waitForRecords d).Yields u.resume (.error .intr) v.resume :=
          .bind (awaitReadable_interrupted (s := u.resume) hy ha signal) (.raise _)
        have left : v.tss[d]? = some { y with waiters := y.waiters.filter (· ≠ u.me.id) } :=
          getElem?_modify_self _ _ _ _ hy
        obtain ⟨open_, closing, last⟩ :=
          exec_tsRead_interrupted (v := v) hop hist cut cut hlen readRecords_reaches intr ha left
        exact ⟨fun k e => open_ k (hx.trans (congrArg some e)), fun k e => closing k (hx.trans (congrArg some e)),
          fun e => last (hx.trans (congrArg some e))⟩
      case faults =>
        obtain ⟨m, outside, reads⟩ := readRecords_faults (nb := nonblock) (max := len.toNat / 16) entered atomic quiet reader
          index hs.2 unread small
        have drawn : ((((s.doing i).setTs d (t.enters h c)).afterDraws s.me.bufferSize).withBuffer m) =
            ((((s.afterDraws s.me.bufferSize).withBuffer m).doing i).setTs d (t.enters h c)) := by
          rw [afterDraws_eq, afterDraws_eq]
          rfl
        have same : ((s.afterDraws s.me.bufferSize).withBuffer m).tss[d]? = some t := by
          rw [afterDraws_eq]
          exact ht
        have reads : (readRecords d (len.toNat / 16) nonblock).Yields ((s.doing i).setTs d (t.enters h c)) (.error .fault)
            ((((s.doing i).setTs d (t.enters h c)).afterDraws s.me.bufferSize).withBuffer m) := reads
        rw [drawn] at reads
        have ends := exec_tsRead_ends (u := (s.afterDraws s.me.bufferSize).withBuffer m) (y := t) hs.1 ht kept held hlen
          held same reads
        rw [State.setTs_self same] at ends
        exact ⟨_, m, ends, outside⟩

end Sys2Proof.Machine
end

section
/-!
The reset state of a board in range meets the invariants that every step keeps (spec/70_reset_and_hazards.md rules R700
and R701).
-/

namespace Sys2Proof

/-! ### The parameters are in their ranges (rule R8) -/

/-- Of the open triple of command masks only a distinct one is taken; the one that stands in for another is distinct. -/
theorem Config.cmdMasks_distinct : masksDistinct Config.cmdMasks = true := by
  unfold Config.cmdMasks
  split
  · assumption
  · decide

/-- Each bit and field of the board is an element of the `Fin` of its range. -/
theorem Config.board_ok : Config.board.ok = true := by
  simp only [Board.ok, Bool.and_eq_true, decide_eq_true_eq]
  exact ⟨⟨⟨⟨⟨Config.cmdMasks_distinct, Config.bitNew.isLt⟩, Config.bitLink.isLt⟩, Config.bitAn.isLt⟩,
    Config.fldSpeed.isLt⟩, Config.fldPcsSpeed.isLt⟩

end Sys2Proof

namespace Sys2Proof.Machine

open Sys2Proof

/-! ### The units at reset (rules R700, R701) -/

/-- Each RegisterBus at reset is a new one. -/
theorem State.resetOn_rbs_created {b : Board} {cfg : RbCfg} {rb : Rb} (h : rb ∈ (State.resetOn b cfg).rbs) :
    ∃ id name backend native32 hasReset, rb = Rb.create id name backend native32 hasReset cfg := by
  simp only [State.resetOn, List.mem_cons, List.not_mem_nil, or_false] at h
  rcases h with mmio | mmio32 | i2c | slave | bridge
  · exact ⟨_, _, _, _, _, mmio⟩
  · exact ⟨_, _, _, _, _, mmio32⟩
  · exact ⟨_, _, _, _, _, i2c⟩
  · exact ⟨_, _, _, _, _, slave⟩
  · exact ⟨_, _, _, _, _, bridge⟩

theorem Agent.idle_sound (id : Nat) (kind : AgentKind) : (Agent.idle id kind).sound = true := rfl

/-- Each other agent at reset is an idle one, whose buffer is empty. -/
theorem State.resetOn_others_sound (b : Board) (cfg : RbCfg) : ∀ a ∈ (State.resetOn b cfg).others, a.sound = true := by
  simp only [State.resetOn, List.forall_mem_cons, Agent.idle_sound, true_and]
  exact fun _ ha => absurd ha List.not_mem_nil

/-- A port that no probe has set is not forced and shows no link. -/
theorem Port.ofCells_sound (c : PowerOnCell → Nat) (i : Nat) : (Port.ofCells c i).sound = true := rfl

/-! ### The invariants at reset -/

/-- The board apart, every condition is about units that are new. -/
theorem State.resetOn_sound {b : Board} (cfg : RbCfg) (h : b.ok = true) : (State.resetOn b cfg).Sound where
  board := h
  rbs rb hrb := by
    obtain ⟨id, name, backend, native32, hasReset, rfl⟩ := State.resetOn_rbs_created hrb
    exact Rb.create_sound id name backend native32 hasReset cfg
  fars e he := by
    obtain rfl : e = ⟨false, []⟩ := List.eq_of_mem_replicate (n := 5) he
    rfl
  tss := List.forall_mem_singleton.mpr (Ts.create_sound _ _ _ _)
  ports := List.forall_mem_singleton.mpr (Port.ofCells_sound _ _)
  me := Agent.idle_sound _ _
  others := State.resetOn_others_sound b cfg
  depths := .inl (List.forall_mem_singleton.mpr (Int.le_refl 0))
  distinct := rfl

/-- No handle has been given out, and a new RegisterBus counts none. -/
theorem State.resetOn_balanced (b : Board) (cfg : RbCfg) : (State.resetOn b cfg).balanced := by
  refine ⟨?bound, fun _ hx => absurd hx List.not_mem_nil, fun i rb hi => ?counted⟩
  case bound =>
    show ∀ e ∈ [(0, 0), (1, 1), (2, 2), (3, 3), (4, 4)], e.2 < 5
    decide
  case counted =>
    obtain ⟨id, name, backend, native32, hasReset, rfl⟩ := State.resetOn_rbs_created (List.mem_of_getElem? hi)
    rfl

/-- Settles O9: the reset state is that of a board in range, and all its units are new. -/
theorem resetInvariants : Obligations.ResetInvariants := by
  unfold Obligations.ResetInvariants
  have sound {b : Board} (cfg : RbCfg) (h : b.ok = true) : (State.resetOn b cfg).sound = true :=
    (State.sound_iff _).mpr (State.resetOn_sound cfg h)
  exact ⟨rfl, sound Config.rbCfg Config.board_ok, State.resetOn_balanced Config.board Config.rbCfg,
    fun b cfg => ⟨sound cfg, State.resetOn_balanced b cfg⟩⟩

end Sys2Proof.Machine
end
